-- ==== Sys2Proof/Word.lean ====
section
/-! DEFINITION. The word types of the LN7 and their plainest arithmetic (00_scope.md R4, R5, R11). -/
namespace Sys2Proof

/-- One byte of memory (R5). -/
abbrev Byte := BitVec 8
/-- A v register, a 32-bit special register, an FP32 image (R43). -/
abbrev Word := BitVec 32
/-- An instruction word, a pair of v registers, an m register (R36, R43). -/
abbrev Word64 := BitVec 64

/-- `x[hi:lo]` of R4, as a number. -/
def bits (x lo n : Nat) : Nat := (x >>> lo) % 2 ^ n

/-- `sext(x, n)` of R130: the integer whose two's-complement image is `x[n-1:0]`. -/
def sextNat (x n : Nat) : Int :=
  let y := x % 2 ^ n
  if n ≠ 0 ∧ y ≥ 2 ^ (n - 1) then (y : Int) - (2 ^ n : Nat) else (y : Int)

/-- `sat(x, lo, hi)` of R130. -/
def satInt (x lo hi : Int) : Int := min (max x lo) hi

/-- The low and the high half of a pair: `vn` holds [31:0] (R42). -/
def lo32 (x : Word64) : Word := x.truncate 32
def hi32 (x : Word64) : Word := (x >>> 32).truncate 32
def pair (lo hi : Word) : Word64 := hi ++ lo

/-- The `i`-th byte of a little-endian value (R5). -/
def byteAt (x i : Nat) : Byte := BitVec.ofNat 8 (x >>> (8 * i))

/-- The `n` bytes of a little-endian value, lowest address first (R5). -/
def toBytes (n x : Nat) : List Byte := (List.range n).map (byteAt x)

/-- The value of little-endian bytes, lowest address first (R5). -/
def ofBytes : List Byte → Nat
  | [] => 0
  | b :: bs => b.toNat + 256 * ofBytes bs

/-- `ceil (a / b)` on naturals. -/
def ceilDiv (a b : Nat) : Nat := (a + b - 1) / b

end Sys2Proof
end

