-- ==== Sys2Proof/Syntax.lean ====
section
/-! DEFINITION. The operands and the instructions of the LN7: one constructor for each row of the table of operations and events. -/
namespace Sys2Proof

/-- The guard of a word (R35): always, or the predicate `p` with the sense (`false`: execute when it is 1). -/
inductive Guard where
  | always
  | on (p : Nat) (neg : Bool)
deriving DecidableEq, Repr, Inhabited

/-- The 8-bit register codes of R42 that a word may hold. -/
inductive Code where
  | v (n : Nat)
  | a (n : Nat)
  | q (n : Nat)
  | idx (n : Nat)
  | zero
  | lane
  | slot
  | crew
  | wgid
deriving DecidableEq, Repr, Inhabited

/-- The lane permutation of a source field (R38). -/
inductive Perm where
  | ident
  | rot (n : Nat)
  | bc (n : Nat)
  | bfly (n : Nat)
  | mir (n : Nat)
deriving DecidableEq, Repr, Inhabited

/-- An 18-bit source field (R38): `off` is the offset of an indexed code, 0 elsewhere. -/
structure Src where
  code : Code
  perm : Perm := .ident
  off : Nat := 0
deriving DecidableEq, Repr, Inhabited

/-- An 18-bit field that names an m register (R44). -/
structure MSrc where
  m : Nat
  perm : Perm := .ident
deriving DecidableEq, Repr, Inhabited

/-- dst, srcA and srcB of the R format (R36). -/
structure R3 where
  g : Guard
  d : Code
  a : Src
  b : Src
deriving DecidableEq, Repr, Inhabited

/-- dst and srcA, with srcB zero. -/
structure R2 where
  g : Guard
  d : Code
  a : Src
deriving DecidableEq, Repr, Inhabited

/-- dst, srcA, srcB and srcC of the T format (R36). -/
structure T3 where
  g : Guard
  d : Code
  a : Src
  b : Code
  c : Code
deriving DecidableEq, Repr, Inhabited

/-- ISAT's width (R104). -/
inductive SatW where | s8 | u8 | s16 | u16 | nonneg
deriving DecidableEq, Repr, Inhabited
/-- IQNT's width (R108). -/
inductive QntW where | s8 | u8 | s16 | u16
deriving DecidableEq, Repr, Inhabited
/-- ICMP's condition (R110). -/
inductive ICond where | eq | ne | lt | le | gt | ge | ltu | leu | gtu | geu
deriving DecidableEq, Repr, Inhabited
/-- The type of a floating-point word (R36). -/
inductive FTy where | f32 | f16x2 | bf16x2
deriving DecidableEq, Repr, Inhabited
/-- A rounding mode (R36). -/
inductive Rnd where | rne | rtz | rup | rdn
deriving DecidableEq, Repr, Inhabited
/-- FCMP's condition (R137). -/
inductive FCond where | eq | lt | le | un
deriving DecidableEq, Repr, Inhabited
/-- ICVTF's source type (R144). -/
inductive IntTy where | s32 | u32 | s16 | s8
deriving DecidableEq, Repr, Inhabited
/-- A covariance mode (R157). -/
inductive Cov where | ind | cor | ant | expl
deriving DecidableEq, Repr, Inhabited
/-- MCOL's mode with its argument (R161): `k` an FP16 image, `z` a v register. -/
inductive Col where | mean | upper (k : Nat) | lower (k : Nat) | sample (z : Nat) | std | var
deriving DecidableEq, Repr, Inhabited
/-- The space of a matrix operand (R177). -/
inductive OpSpace where | g | sp | nw | ds
deriving DecidableEq, Repr, Inhabited
/-- An operand field: a triple at `v n` in a space (R176, R177); also the AMAX pair of R181. -/
structure Operand where
  n : Nat
  sp : OpSpace
deriving DecidableEq, Repr, Inhabited
/-- The formats of MMA (R181). -/
inductive MmaFmt where | bf16 | f16 | s8 (ub ua : Bool)
deriving DecidableEq, Repr, Inhabited
/-- The format of MMAD's B (R181). -/
inductive BFmt where | bf16 | f16 | f32
deriving DecidableEq, Repr, Inhabited
/-- The formats of ZLD and ZST (R181). -/
inductive ZFmt where | f32 | bf16 | f16 | mf32
deriving DecidableEq, Repr, Inhabited
/-- Where ZST drains to (R186). -/
inductive ZDest where | mem (o : Operand) | queue (n : Nat)
deriving DecidableEq, Repr, Inhabited

/-- The ordering field (R36). -/
inductive Order where | sc | acq | rel | free
deriving DecidableEq, Repr, Inhabited
/-- The address spaces (R23). -/
inductive Space where | g | sp | nw | ds | lp | obj
deriving DecidableEq, Repr, Inhabited
/-- The size field (R36). -/
inductive Size where | u8 | s8 | u16 | s16 | b32 | b64 | m64
deriving DecidableEq, Repr, Inhabited
/-- The data field of a load or store: a register code, or an m register for `.m64` (R206). -/
inductive Data where | c (c : Code) | m (n : Nat)
deriving DecidableEq, Repr, Inhabited
/-- The address part of an M-format word (R36, R199). `scope` is 0 to 7; 7 raises SCOPE. -/
structure MAddr where
  base : Code
  off : Int
  order : Order
  scope : Nat
  evict : Nat
  space : Space
  size : Size
deriving DecidableEq, Repr, Inhabited
/-- PREF's level, LINV's and LCLN's point (R209, R210). -/
inductive Level where | near | mid | far
deriving DecidableEq, Repr, Inhabited
/-- SPMAP's kind (R215). -/
inductive MapKind where | rw | ro | wo
deriving DecidableEq, Repr, Inhabited
/-- FENCE's kind (R253). -/
inductive FenceKind where | sc | acq | rel
deriving DecidableEq, Repr, Inhabited
/-- The space of a phase-bit barrier word (R260). -/
inductive PhSpace where | sp | nw | ds
deriving DecidableEq, Repr, Inhabited
/-- The space of CWAIT's word and of an engine's counter (R261, R266). -/
inductive CSpace where | g | sp | ds
deriving DecidableEq, Repr, Inhabited
/-- CWAIT's condition (R261). -/
inductive CCond where | geu | eq | ge
deriving DecidableEq, Repr, Inhabited

/-- Where XCOPY writes: a scratchpad offset in a v register, or a queue register (R266). -/
inductive XDest where | v (n : Nat) | q (n : Nat)
deriving DecidableEq, Repr, Inhabited
/-- The fields of XCOPY and XSTORE (R266): `ctr` none is code 0xF8. -/
structure XWord where
  g : Guard
  shape : Nat
  coord : Nat
  ctr : Option Nat
  dest : XDest
  objShape : Bool
  cspace : CSpace
  pad : Nat
  ncoord : Nat
deriving DecidableEq, Repr, Inhabited
/-- What QSTAT reads (R289). -/
inductive QKind where | q | c | full
deriving DecidableEq, Repr, Inhabited

/-- A page of a context's unified space, as the host's page tables give it (R14, R223): `log2` bytes at virtual `va`, backed from
the flat off-chip address `pa`; `snooped` is the coherent attribute of R210. -/
structure PageMap where
  va : Nat
  log2 : Nat
  pa : Nat
  rd : Bool
  wr : Bool
  fatal : Bool
  snooped : Bool
deriving DecidableEq, Repr, Inhabited

/-- The host's response to a page-request group (R226). -/
inductive PageReply where | success | invalid | failure
deriving DecidableEq, Repr, Inhabited

/-- What a host, peer or atomic access does at its address (R235, R252, R399). -/
inductive ExtOp where
  | read (n : Nat)
  | write (bytes : List Byte)
  | atomic (minor : Nat) (b64 : Bool) (ty : FTy) (operand cmp : Nat)
deriving DecidableEq, Repr, Inhabited

/-- The RESUME forms (R329). -/
inductive ResumeForm where | retry | skip | abandon | kill
deriving DecidableEq, Repr, Inhabited

/-- What PCIE_CONFIG_WRITE sets (R391, R397, R398). -/
inductive PcieReg where
  | allocation (func n : Nat)
  | atomicEnable (on : Bool)
  | sriov (vfs : Nat)
deriving DecidableEq, Repr, Inhabited

/-- A 64-byte command of a scheduler-leaf link, received at one end (R390). -/
structure LinkCmd where
  cluster : Nat
  toLeaf : Bool
  seq : Nat
  body : List Word64
deriving DecidableEq, Repr, Inhabited

/-- One constructor for each row of spec/opcode_table.json: first the instruction words, then the events. -/
inductive Instr where
  -- structural control (R77)
  | leave (g : Guard) (k : Nat)
  | next (g : Guard) (k : Nat)
  | ret (g : Guard)
  | done (g : Guard)
  | rep (g : Guard) (n xmask : Nat)
  | enrol (g : Guard) (k : Nat)
  | strike (g : Guard) (k : Nat)
  -- integer arithmetic (R104)
  | iadd (x : R3) (w : Bool)
  | isub (x : R3) (w : Bool)
  | imul (x : R3)
  | imulh (x : R3)
  | imulhu (x : R3)
  | idiv (x : R3)
  | idivu (x : R3)
  | irem (x : R3)
  | iremu (x : R3)
  | ineg (x : R2)
  | iabs (x : R2)
  | imin (x : R3)
  | imax (x : R3)
  | iminu (x : R3)
  | imaxu (x : R3)
  | isat (x : R2) (w : SatW)
  | irsh (x : R3) (u : Bool)
  -- logic, shifts, bit fields, moves (R106)
  | land (x : R3) (w : Bool)
  | lor (x : R3) (w : Bool)
  | lxor (x : R3) (w : Bool)
  | landn (x : R3) (w : Bool)
  | lnot (x : R2) (w : Bool)
  | shl (x : R3) (w : Bool)
  | shr (x : R3) (w : Bool)
  | sar (x : R3) (w : Bool)
  | rol (x : R3)
  | bfx (x : R3)
  | bfxu (x : R3)
  | popc (x : R2)
  | clz (x : R2)
  | brev (x : R2)
  | mov (x : R2) (w : Bool)
  -- three-source integer (R107)
  | imad (x : T3)
  | bfi (x : T3)
  | iqnt (x : T3) (w : QntW)
  -- constants (R109)
  | movi (g : Guard) (d : Code) (imm : Int)
  | ail (g : Guard) (d : Code) (a : Src) (imm : Int)
  | aih (g : Guard) (d : Code) (imm : Int)
  -- compares and predicates (R110-R112)
  | icmp (g : Guard) (p : Nat) (a b : Src) (c : ICond)
  | isel (x : R3) (p : Nat) (neg : Bool)
  | pset (g : Guard) (p : Nat) (a : Src)
  | pand (g : Guard) (p a b : Nat) (na nb : Bool)
  | por (g : Guard) (p a b : Nat) (na nb : Bool)
  | pxor (g : Guard) (p a b : Nat) (na nb : Bool)
  | pnot (g : Guard) (p a : Nat)
  -- index registers (R113)
  | xset (g : Guard) (x : Nat) (a : Src)
  | xmov (g : Guard) (x y : Nat)
  | xmovToV (g : Guard) (d y : Nat)
  | xadd (g : Guard) (x y : Nat) (b : Src)
  | xaddOrg (g : Guard) (x y : Nat) (b : Src)
  -- affine registers (R117)
  | aset (g : Guard) (d : Nat) (a b : Src)
  | aadd (g : Guard) (d s : Nat) (b : Src)
  | aaddStride (g : Guard) (d s : Nat) (b : Src)
  | amul (g : Guard) (d s : Nat) (b : Src)
  | ashl (g : Guard) (d s : Nat) (b : Src)
  | aval (g : Guard) (d : Code) (s : Nat)
  | avalBase (g : Guard) (d : Code) (s : Nat)
  | avalStride (g : Guard) (d : Code) (s : Nat)
  -- floating point (R135, R140, R141, R143-R146)
  | fadd (x : R3) (ty : FTy)
  | fsub (x : R3) (ty : FTy)
  | fmul (x : R3) (ty : FTy)
  | fmin (x : R3) (ty : FTy)
  | fmax (x : R3) (ty : FTy)
  | fabs (x : R2) (ty : FTy)
  | fneg (x : R2) (ty : FTy)
  | fcps (x : R3) (ty : FTy)
  | fscl (x : R3) (ty : FTy)
  | fcmp (g : Guard) (p : Nat) (a b : Src) (c : FCond) (ty : FTy)
  | fclass (x : R2) (ty : FTy)
  | ffma (x : T3) (ty : FTy) (rnd : Option Rnd) (np nc : Bool)
  | frcp (x : R2) (ty : FTy)
  | frsq (x : R2) (ty : FTy)
  | fsqrt (x : R2) (ty : FTy)
  | fdiv (x : R3) (ty : FTy)
  | fex2 (x : R2) (ty : FTy)
  | flg2 (x : R2) (ty : FTy)
  | fsin (x : R2) (ty : FTy)
  | fcos (x : R2) (ty : FTy)
  | ftanh (x : R2) (ty : FTy)
  | fcvt (g : Guard) (d : Code) (a : Src) (b : Option Src) (dty sty : FTy)
  | fcvti (x : R2) (ty : FTy) (u trunc : Bool)
  | icvtf (g : Guard) (d : Code) (a : Src) (b : Option Src) (dty : FTy) (sty : IntTy)
  | frnd (x : R2) (ty : FTy) (dir : Rnd)
  -- moments (R159-R161)
  | mset (g : Guard) (m : Nat) (a b : Src)
  | msetDet (g : Guard) (m : Nat) (a : Src)
  | msplit (g : Guard) (d : Code) (a : MSrc)
  | mmov (g : Guard) (m : Nat) (a : MSrc)
  | mzero (g : Guard) (m : Nat)
  | madd (g : Guard) (m : Nat) (a b : MSrc) (c : Option Cov)
  | msub (g : Guard) (m : Nat) (a b : MSrc) (c : Option Cov)
  | mmul (g : Guard) (m : Nat) (a b : MSrc) (c : Option Cov)
  | mscl (g : Guard) (m : Nat) (a : MSrc) (b : Src)
  | mfma (g : Guard) (m : Nat) (a : MSrc) (b c : Nat) (o : Option Cov)
  | mrelu (g : Guard) (m : Nat) (a : MSrc)
  | mexp (g : Guard) (m : Nat) (a : MSrc)
  | msigm (g : Guard) (m : Nat) (a : MSrc)
  | mchk (g : Guard) (p : Nat) (a : MSrc)
  | mcol (g : Guard) (d : Code) (a : MSrc) (mode : Col)
  -- the matrix unit (R181)
  | mma (g : Guard) (tile : Nat) (vplane : Bool) (a b : Operand) (f : MmaFmt)
  | mmad (g : Guard) (tile : Nat) (a b : Operand) (f : BFmt)
  | mmam (g : Guard) (tile : Nat) (a b : Operand)
  | zclr (g : Guard) (tile : Nat) (vplane both : Bool)
  | zld (g : Guard) (tile : Nat) (vplane : Bool) (a : Operand) (f : ZFmt)
  | zst (g : Guard) (tile : Nat) (vplane : Bool) (dest : ZDest) (amax : Option Operand) (f : ZFmt) (clr : Bool)
  | zrd (g : Guard) (d : Nat) (tile : Nat) (vplane : Bool) (col : Nat) (m : Bool)
  | zwr (g : Guard) (tile : Nat) (vplane : Bool) (col : Nat) (src : Src ⊕ MSrc)
  -- memory (R206, R209, R210, R215)
  | ld (g : Guard) (d : Data) (a : MAddr)
  | st (g : Guard) (d : Data) (a : MAddr)
  | pref (g : Guard) (base : Code) (off : Int) (evict : Nat) (space : Space) (lv : Level)
  | linv (g : Guard) (base : Code) (off : Int) (evict : Nat) (lv : Level)
  | lcln (g : Guard) (base : Code) (off : Int) (evict : Nat) (lv : Level)
  | spmap (g : Guard) (slot : Nat) (va : Nat) (ctl : Src) (k : MapKind)
  | spunmap (g : Guard) (slot : Option Nat)
  | spwb (g : Guard) (slot : Option Nat)
  | spdrop (g : Guard) (slot : Option Nat)
  -- atomics (R247)
  | atadd (g : Guard) (d : Code) (a : MAddr) (nr : Bool)
  | atmin (g : Guard) (d : Code) (a : MAddr) (nr : Bool)
  | atmax (g : Guard) (d : Code) (a : MAddr) (nr : Bool)
  | atminu (g : Guard) (d : Code) (a : MAddr) (nr : Bool)
  | atmaxu (g : Guard) (d : Code) (a : MAddr) (nr : Bool)
  | atand (g : Guard) (d : Code) (a : MAddr) (nr : Bool)
  | ator (g : Guard) (d : Code) (a : MAddr) (nr : Bool)
  | atxor (g : Guard) (d : Code) (a : MAddr) (nr : Bool)
  | atxch (g : Guard) (d : Code) (a : MAddr) (nr : Bool)
  | atcas (g : Guard) (d : Code) (a : MAddr) (nr : Bool)
  | atfadd (g : Guard) (d : Code) (a : MAddr) (nr : Bool) (ty : FTy)
  -- synchronisation (R253, R257, R260-R263)
  | fence (g : Guard) (k : FenceKind) (scope : Nat)
  | barinit (g : Guard) (b n : Src)
  | barr (g : Guard) (d : Code) (b : Src)
  | barw (g : Guard) (b ph : Src)
  | bars (g : Guard) (b : Src)
  | pharr (g : Guard) (d : Code) (a c : Src) (spc : PhSpace)
  | phwait (g : Guard) (a ph : Src) (spc : PhSpace)
  | cwait (g : Guard) (d : Code) (a n : Src) (spc : CSpace) (c : CCond)
  | voteAll (g : Guard) (p q : Nat) (neg : Bool)
  | voteAny (g : Guard) (p q : Nat) (neg : Bool)
  | voteBallot (g : Guard) (d q : Nat) (neg : Bool)
  | votePopc (g : Guard) (d : Code) (q : Nat) (neg : Bool)
  | shfx (g : Guard) (d : Code) (a : Nat) (b : Src) (w : Bool)
  -- engines and queues (R266, R289)
  | xcopy (x : XWord)
  | xstore (x : XWord)
  | xcode (g : Guard) (shape : Nat) (ctr : Option Nat) (slot : Nat) (objShape : Bool) (cspace : CSpace)
  | bulk (g : Guard) (src dst : Nat) (ctr : Option Nat) (len : Nat) (cspace : CSpace)
  | enq (g : Guard) (p r : Nat) (n : Src)
  | join (g : Guard) (p a : Nat)
  | qclose (g : Guard) (q : Nat)
  | qcloseC (g : Guard) (n : Src)
  | qstat (g : Guard) (d : Code) (n : Src) (k : QKind)
  -- system words (R325)
  | trap (g : Guard) (n : Nat) (a : Option Src)
  | brkp (g : Guard) (n : Nat)
  | resumeRetry (g : Guard)
  | resumeSkip (g : Guard)
  | resumeAbandon (g : Guard)
  | resumeKill (g : Guard)
  | srd (g : Guard) (d : Code) (reg : Nat) (w : Bool)
  | swr (g : Guard) (reg : Nat) (a : Src) (w : Bool)
  | nop (g : Guard)
  | hint (g : Guard) (n : Nat) (a : Option Src)
  | pmatch (g : Guard) (k v : Nat)
  | pmatchRm (g : Guard) (k : Nat)
  -- selection and walking (R65-R92)
  | batchSelect (core : Nat)
  | treeWalk (core : Nat)
  | joinHoldExpiry (core entry : Nat)
  | coldListSteal (core : Nat)
  | coopFire (core : Nat)
  | refillPop (core slot : Nat)
  | matchHandler (core sel : Nat)
  -- completion and release
  | accessComplete (core id : Nat)
  | barrierRelease (core slot : Nat)
  | phaseWaitRelease (core slot : Nat)
  | counterWaitRelease (core slot : Nat)
  | queueRelease (core slot : Nat)
  | bindingResponse (ctx va : Nat) (answer : Option Nat)
  -- traps
  | trapDelivery (core : Nat)
  | handlerTimeout (core : Nat)
  | issueResume (core : Nat)
  | engineLateFault (core id : Nat)
  -- paging
  | pageGroupClose (cluster gid : Nat)
  | pageGroupIssue (cluster gid : Nat)
  | pageResponse (cluster gid : Nat) (reply : PageReply) (maps : List PageMap)
  | workgroupSwapOut (core wg : Nat)
  | swapRestore (ctx img core : Nat)
  -- units
  | matrixReadout (core : Nat)
  | matrixComplete (core : Nat)
  | mapFill (core wg slot sector : Nat)
  | mapWriteback (core wg slot sector : Nat)
  | copyComplete (core : Nat)
  | xcodeComplete (core : Nat)
  | bulkComplete (id : Nat)
  -- launching
  | push (ctx off : Nat) (words : List Word64)
  | launchEligible (ctx idx : Nat)
  | workgroupPlace (ctx idx core : Nat)
  | workgroupStart (core wg : Nat)
  | placementStarvation (ctx idx : Nat)
  | preemption (core wg : Nat)
  | workgroupRestore (ctx img core : Nat)
  | workgroupRetire (core wg : Nat)
  | cancel (ctx : Nat) (value : Word64)
  | budgetPeriod
  | budgetWrite (ctx : Nat) (value : Word64)
  | watchWrite (ctx k : Nat) (value : Word64)
  | debugContinue (ctx : Nat) (value : Word64)
  | debugStep (ctx : Nat) (value : Word64)
  | qctlReopen (ctx q : Nat)
  | qctlClearFull (ctx q : Nat)
  | preemptRequest (ctx : Nat) (value : Word64)
  | trcctlWrite (ctx : Nat) (value : Word64)
  | syncBurst (core ctx : Nat)
  | registerWrite (ctx off : Nat) (value : Word64)
  -- firmware and host
  | powerUp
  | powerOff
  | create (record : List Word64)
  | destroy (ctx : Nat)
  | stage (cls off len : Nat) (last : Bool) (bytes : List Byte)
  | activate (cls : Nat)
  | handoverResume (ok : Bool)
  | heartbeatDeadline
  | setdl (ms : Nat)
  | readlog (first n : Nat)
  | release (block : List Byte)
  | enrolOwner (key : List Byte)
  | svnbump (cls : Nat)
  | reboot
  | nonce
  | stop (t : Word64)
  | clockStop
  | scanout (chain off n : Nat)
  | linkCommand (c : LinkCmd)
  | peerLinkFail (link : Nat)
  | atsInvalidate (ctx va len : Nat) (maps : List PageMap)
  | illegalWord (w : Word64)
  | codeObjectLoad (ctx base : Nat) (bytes : List Byte)
  | codeObjectUnload (ctx obj : Nat)
  | peerAccess (peer : Nat) (addr : Nat) (op : ExtOp)
  | hostAccess (addr : Nat) (op : ExtOp)
  | routeRestore (peer : Nat) (links : List Nat)
  | checkCodeError (addr : Nat) (correctable : Bool)
  | pcieConfigWrite (r : PcieReg)
deriving DecidableEq, Repr, Inhabited

end Sys2Proof
end

