-- ==== Sys2Proof/WellFormed.lean ====
section
/-! DEFINITION. Which terms of Instr are words of the LN7: the field rules of 02_instruction_words.md and of each class. -/
namespace Sys2Proof

def Guard.wf : Guard → Bool
  | .always => true
  | .on p _ => decide (p < 7)

/-- A register code that R42 lists. -/
def Code.wf : Code → Bool
  | .v n => decide (n < 192)
  | .a n => decide (n < 32)
  | .q n => decide (n < 16)
  | .idx n => decide (n < 8)
  | .zero | .lane | .slot | .crew | .wgid => true

/-- The parameter ranges of R38. -/
def Perm.wf : Perm → Bool
  | .ident => true
  | .rot n => decide (1 ≤ n ∧ n < 128)
  | .bc n => decide (n < 128)
  | .bfly n => decide (1 ≤ n ∧ n < 128)
  | .mir n => decide (1 ≤ n ∧ n < 8)

/-- A 32-bit source of R100 in a field that may be permuted (R38, R40). -/
def Src.wf (s : Src) : Bool :=
  s.code.wf && s.perm.wf &&
    match s.perm, s.code with
    | .ident, .idx _ => decide (s.off < 128)
    | .ident, _ => decide (s.off = 0)
    | _, .v _ | _, .a _ => decide (s.off = 0)
    | _, _ => false

/-- A code that a 64-bit form may read (R101). -/
def Code.wide : Code → Bool
  | .v n => decide (n % 2 = 0)
  | .q _ => false
  | _ => true

def Src.wf64 (w : Bool) (s : Src) : Bool := s.wf && (!w || s.code.wide)
def Src.wfId (s : Src) : Bool := s.wf && decide (s.perm = .ident)

/-- A dst code (R42). -/
def Code.dst : Code → Bool
  | .v n => decide (n < 192)
  | .a n => decide (n < 32)
  | .q n => decide (n < 16)
  | .idx n => decide (n < 8)
  | .zero => true
  | .lane | .slot | .crew | .wgid => false

/-- A dst that is a v code, an indexed code or 0xF8. -/
def Code.dstV : Code → Bool
  | .v n => decide (n < 192)
  | .idx n => decide (n < 8)
  | .zero => true
  | _ => false

/-- A 64-bit dst (R101). -/
def Code.dst64 : Code → Bool
  | .v n => decide (n < 192 ∧ n % 2 = 0)
  | .idx n => decide (n < 8)
  | .zero => true
  | _ => false

def Code.dstW (w : Bool) (c : Code) : Bool := if w then c.dst64 else c.dst
def Code.dstNoA : Code → Bool
  | .a _ => false
  | c => c.dst

def MSrc.wf (s : MSrc) : Bool := decide (s.m < 64) && s.perm.wf
def R3.wf (x : R3) (w : Bool) : Bool := x.g.wf && x.d.dstW w && x.a.wf64 w && x.b.wf64 w
/-- The count of a shift: a 32-bit source, of any v code; in a .b64 form no queue (R101). -/
def Src.wfCount (w : Bool) (s : Src) : Bool := s.wf && (!w || match s.code with | .q _ => false | _ => true)
def R3.wfShift (x : R3) (w : Bool) : Bool := x.g.wf && x.d.dstW w && x.a.wf64 w && x.b.wfCount w
def R2.wf (x : R2) (w : Bool) : Bool := x.g.wf && x.d.dstW w && x.a.wf64 w
def T3.wf (x : T3) : Bool := x.g.wf && x.d.dst && x.a.wf && x.b.wf && x.c.wf

/-- A v code that names a pair. -/
def evenV (n : Nat) : Bool := decide (n < 192 ∧ n % 2 = 0)
def Operand.wf (o : Operand) : Bool := decide (o.n ≤ 188 ∧ o.n % 2 = 0)
def Operand.wfPair (o : Operand) : Bool := evenV o.n

/-- The base field of R199. -/
def baseOk (spc : Space) : Code → Bool
  | .v n => decide (n < 192 ∧ (spc = .g → n % 2 = 0))
  | .a n => decide (n < 32 ∧ (spc = .g → n % 2 = 0))
  | .zero => true
  | _ => false

def MAddr.wf (a : MAddr) : Bool :=
  baseOk a.space a.base && decide (-8192 ≤ a.off ∧ a.off < 8192 ∧ a.scope < 8 ∧ a.evict < 8)

/-- LD's data (R206). -/
def ldData : Data → Size → Bool
  | .m n, .m64 => decide (n < 64)
  | .m _, _ => false
  | .c _, .m64 => false
  | .c c, .b64 => c.dst64
  | .c c, _ => c.dstV
/-- ST's data (R206). -/
def stData : Data → Size → Bool
  | .m n, .m64 => decide (n < 64)
  | .m _, _ => false
  | .c _, .m64 => false
  | .c c, .b64 => c.dst64
  | .c (.q _), _ => false
  | .c c, _ => c.wf
/-- The data of an atomic (R248). -/
def atData (cas : Bool) : Code → Size → Bool
  | .v n, .b32 => decide (n < 192 ∧ (cas = true → n % 2 = 0))
  | .v n, .b64 => decide (n < 192 ∧ n % 2 = 0 ∧ (cas = true → n % 4 = 0))
  | .idx n, .b32 | .idx n, .b64 => !cas && decide (n < 8)
  | .zero, .b32 | .zero, .b64 => !cas
  | _, _ => false

/-- The numbers of R332 with whether each is 64 bits wide. -/
def specialRegs : List (Nat × Bool) :=
  [(0x00, false), (0x01, false), (0x02, false), (0x03, false), (0x04, false), (0x05, false), (0x06, false),
   (0x08, false), (0x10, true), (0x11, true), (0x18, true), (0x19, true), (0x1A, true), (0x1B, true), (0x1C, true),
   (0x1D, false)]
def srdOk (reg : Nat) (w : Bool) : Bool := specialRegs.contains (reg, w)
/-- The registers that SWR may write (R331): those with a field that is not RO. -/
def swrOk (reg : Nat) (w : Bool) : Bool := !w && decide (reg < 7)

def Src.encZero (s : Src) : Bool := decide (s = { code := .v 0 })
/-- A source that may be left out: the all-zero field is the left-out source (R325, R37). -/
def optSrc (a : Option Src) : Bool :=
  match a with
  | none => true
  | some s => s.wfId && !s.encZero

/-- A source that an instruction reads in some forms only: present exactly when `b`. -/
def srcIf (b : Bool) (s : Option Src) : Bool :=
  match s with
  | none => !b
  | some s => b && s.wf

def covOk (_ : Option Cov) : Bool := true

def XWord.wf (x : XWord) (store : Bool) : Bool :=
  x.g.wf && decide (x.shape < 192 ∧ (x.objShape = false → x.shape % 2 = 0)) && decide (x.coord + x.ncoord ≤ 192) &&
  (match x.ctr with | none => true | some c => decide (c < 192 ∧ (x.cspace = .g → c % 2 = 0))) &&
  (match x.dest with | .v n => decide (n < 192) | .q n => !store && decide (12 ≤ n ∧ n < 16)) &&
  decide (x.pad < 32 ∧ 1 ≤ x.ncoord ∧ x.ncoord ≤ 5)

def ctrOk (ctr : Option Nat) (spc : CSpace) : Bool :=
  match ctr with | none => true | some c => decide (c < 192 ∧ (spc = .g → c % 2 = 0))

def Col.wf : Col → Bool
  | .upper k | .lower k => decide (k < 0x7C00)
  | .sample z => decide (z < 192)
  | _ => true

/-- Whether the constructor is an instruction word (the other rows are events). -/
def Instr.isWord : Instr → Bool
  | .leave .. | .next .. | .ret .. | .done .. | .rep .. | .enrol .. | .strike .. => true
  | .iadd .. | .isub .. | .imul .. | .imulh .. | .imulhu .. | .idiv .. | .idivu .. | .irem .. | .iremu .. => true
  | .ineg .. | .iabs .. | .imin .. | .imax .. | .iminu .. | .imaxu .. | .isat .. | .irsh .. => true
  | .land .. | .lor .. | .lxor .. | .landn .. | .lnot .. | .shl .. | .shr .. | .sar .. | .rol .. | .bfx .. => true
  | .bfxu .. | .popc .. | .clz .. | .brev .. | .mov .. | .imad .. | .bfi .. | .iqnt .. | .movi .. | .ail .. => true
  | .aih .. | .icmp .. | .isel .. | .pset .. | .pand .. | .por .. | .pxor .. | .pnot .. | .xset .. | .xmov .. => true
  | .xmovToV .. | .xadd .. | .xaddOrg .. | .aset .. | .aadd .. | .aaddStride .. | .amul .. | .ashl .. => true
  | .aval .. | .avalBase .. | .avalStride .. | .fadd .. | .fsub .. | .fmul .. | .fmin .. | .fmax .. | .fabs .. => true
  | .fneg .. | .fcps .. | .fscl .. | .fcmp .. | .fclass .. | .ffma .. | .frcp .. | .frsq .. | .fsqrt .. => true
  | .fdiv .. | .fex2 .. | .flg2 .. | .fsin .. | .fcos .. | .ftanh .. | .fcvt .. | .fcvti .. | .icvtf .. => true
  | .frnd .. | .mset .. | .msetDet .. | .msplit .. | .mmov .. | .mzero .. | .madd .. | .msub .. | .mmul .. => true
  | .mscl .. | .mfma .. | .mrelu .. | .mexp .. | .msigm .. | .mchk .. | .mcol .. | .mma .. | .mmad .. => true
  | .mmam .. | .zclr .. | .zld .. | .zst .. | .zrd .. | .zwr .. | .ld .. | .st .. | .pref .. | .linv .. => true
  | .lcln .. | .spmap .. | .spunmap .. | .spwb .. | .spdrop .. | .atadd .. | .atmin .. | .atmax .. => true
  | .atminu .. | .atmaxu .. | .atand .. | .ator .. | .atxor .. | .atxch .. | .atcas .. | .atfadd .. => true
  | .fence .. | .barinit .. | .barr .. | .barw .. | .bars .. | .pharr .. | .phwait .. | .cwait .. => true
  | .voteAll .. | .voteAny .. | .voteBallot .. | .votePopc .. | .shfx .. | .xcopy .. | .xstore .. => true
  | .xcode .. | .bulk .. | .enq .. | .join .. | .qclose .. | .qcloseC .. | .qstat .. | .trap .. | .brkp .. => true
  | .resumeRetry .. | .resumeSkip .. | .resumeAbandon .. | .resumeKill .. | .srd .. | .swr .. | .nop .. => true
  | .hint .. | .pmatch .. | .pmatchRm .. => true
  | _ => false

/-- The field rules of every word; an event carries any arguments. -/
def Instr.wf : Instr → Bool
  | .leave g k | .next g k => g.wf && decide (1 ≤ k ∧ k ≤ 8)
  | .ret g | .done g => g.wf
  | .rep g n xm => g.wf && decide (1 ≤ n ∧ n ≤ 64 ∧ xm < 256)
  | .enrol g k | .strike g k => g.wf && decide (k < 4)
  | .iadd x w | .isub x w | .land x w | .lor x w | .lxor x w | .landn x w => x.wf w
  | .shl x w | .shr x w | .sar x w => x.wfShift w
  | .lnot x w | .mov x w => x.wf w
  | .imul x | .imulh x | .imulhu x | .idiv x | .idivu x | .irem x | .iremu x | .imin x | .imax x | .iminu x
  | .imaxu x | .rol x | .bfx x | .bfxu x => x.wf false
  | .irsh x _ => x.wf false
  | .ineg x | .iabs x | .popc x | .clz x | .brev x => x.wf false
  | .isat x _ => x.wf false
  | .imad x | .bfi x => x.wf
  | .iqnt x _ => x.wf
  | .movi g d imm => g.wf && d.dst && decide (-2097152 ≤ imm ∧ imm < 2097152)
  | .ail g d a imm => g.wf && d.dst && a.wf && decide (-2048 ≤ imm ∧ imm < 2048)
  | .aih g d imm => g.wf && d.dst && decide (-524288 ≤ imm ∧ imm < 524288)
  | .icmp g p a b _ => g.wf && decide (p < 7) && a.wf && b.wf
  | .isel x p _ => x.wf false && decide (p < 7)
  | .pset g p a => g.wf && decide (p < 7) && a.wf
  | .pand g p a b _ _ | .por g p a b _ _ | .pxor g p a b _ _ => g.wf && decide (p < 7 ∧ a < 7 ∧ b < 7)
  | .pnot g p a => g.wf && decide (p < 7 ∧ a < 7)
  | .xset g x a => g.wf && decide (x < 8) && a.wf
  | .xmov g x y => g.wf && decide (x < 8 ∧ y < 8)
  | .xmovToV g d y => g.wf && decide (d < 192 ∧ y < 8)
  | .xadd g x y b | .xaddOrg g x y b => g.wf && decide (x < 8 ∧ y < 8) && b.wf
  | .aset g d a b => g.wf && decide (d < 32) && a.wf && b.wf
  | .aadd g d s b | .aaddStride g d s b | .amul g d s b | .ashl g d s b => g.wf && decide (d < 32 ∧ s < 32) && b.wf
  | .aval g d s | .avalBase g d s | .avalStride g d s => g.wf && d.dstNoA && decide (s < 32)
  | .fadd x _ | .fsub x _ | .fmul x _ | .fmin x _ | .fmax x _ | .fcps x _ | .fscl x _ | .fdiv x _ => x.wf false
  | .fabs x _ | .fneg x _ | .fclass x _ | .frcp x _ | .frsq x _ | .fsqrt x _ | .fex2 x _ | .flg2 x _ | .fsin x _
  | .fcos x _ | .ftanh x _ => x.wf false
  | .fcmp g p a b _ _ => g.wf && decide (p < 7) && a.wf && b.wf
  | .ffma x _ _ _ _ => x.wf
  | .fcvt g d a b dty sty =>
    g.wf && decide (dty ≠ sty) && (if dty = .f32 then d.dst64 else d.dst) && a.wf && srcIf (decide (sty = .f32)) b
  | .fcvti x _ _ _ => x.wf false
  | .icvtf g d a b dty sty =>
    g.wf && (if dty = .f32 ∧ sty = .s16 then d.dst64 else d.dst) && a.wf && srcIf (decide (dty ≠ .f32 ∧ sty ≠ .s16)) b
  | .frnd x _ _ => x.wf false
  | .mset g m a b => g.wf && decide (m < 64) && a.wf && b.wf
  | .msetDet g m a => g.wf && decide (m < 64) && a.wf
  | .msplit g d a => g.wf && d.dst64 && a.wf
  | .mmov g m a | .mrelu g m a | .mexp g m a | .msigm g m a => g.wf && decide (m < 64) && a.wf
  | .mzero g m => g.wf && decide (m < 64)
  | .madd g m a b _ | .msub g m a b _ | .mmul g m a b _ => g.wf && decide (m < 64) && a.wf && b.wf
  | .mscl g m a b => g.wf && decide (m < 64) && a.wf && b.wf
  | .mfma g m a b c _ => g.wf && decide (m < 64 ∧ b < 64 ∧ c < 64) && a.wf
  | .mchk g p a => g.wf && decide (p < 7) && a.wf
  | .mcol g d a k => g.wf && d.dstV && a.wf && k.wf
  | .mma g t _ a b _ => g.wf && decide (t < 8) && a.wf && b.wf
  | .mmad g t a b _ => g.wf && decide (t < 8) && a.wf && b.wf
  | .mmam g t a b => g.wf && decide (t < 8) && a.wf && b.wf
  | .zclr g t v both => g.wf && decide (t < 8) && !(v && both)
  | .zld g t v a f => g.wf && decide (t < 8) && a.wf && !(v && decide (f = .mf32))
  | .zst g t v dest amax f _ =>
    g.wf && decide (t < 8) && (match dest with | .mem o => o.wf | .queue n => decide (n < 16)) &&
    (match amax with | none => true | some o => o.wfPair && !decide (o = { n := 0, sp := .g })) && !(v && decide (f = .mf32))
  | .zrd g d t v c m => g.wf && decide (t < 8 ∧ c < 32) && (if m then decide (d < 64) && !v else decide (d < 192))
  | .zwr g t v c s => g.wf && decide (t < 8 ∧ c < 32) && (match s with | .inl s => s.wf | .inr s => s.wf && !v)
  | .ld g d a => g.wf && ldData d a.size && a.wf
  | .st g d a => g.wf && stData d a.size && a.wf
  | .pref g b off e spc _ => g.wf && baseOk spc b && decide (-8192 ≤ off ∧ off < 8192 ∧ e < 8)
  | .linv g b off e _ | .lcln g b off e _ => g.wf && baseOk .g b && decide (-8192 ≤ off ∧ off < 8192 ∧ e < 8)
  | .spmap g s va c _ => g.wf && decide (s < 8) && evenV va && c.wf
  | .spunmap g s | .spwb g s | .spdrop g s => g.wf && (match s with | none => true | some s => decide (s < 8))
  | .atadd g d a _ | .atmin g d a _ | .atmax g d a _ | .atminu g d a _ | .atmaxu g d a _ | .atand g d a _ | .ator g d a _
  | .atxor g d a _ | .atxch g d a _ => g.wf && atData false d a.size && a.wf
  | .atcas g d a _ => g.wf && atData true d a.size && a.wf
  | .atfadd g d a _ _ => g.wf && atData false d a.size && a.wf && decide (a.size = .b32)
  | .fence g _ s => g.wf && decide (s < 8)
  | .barinit g b n => g.wf && b.wf && n.wf
  | .barr g d b => g.wf && d.dstV && b.wf
  | .barw g b ph => g.wf && b.wf && ph.wf
  | .bars g b => g.wf && b.wf
  | .pharr g d a c _ => g.wf && d.dstV && a.wf && c.wf
  | .phwait g a ph _ => g.wf && a.wf && ph.wf
  | .cwait g d a n spc _ =>
    g.wf && d.dstV && (if spc = .g then a.wfId && (match a.code with | .v k => decide (k % 2 = 0) | _ => false) else a.wf) && n.wf
  | .voteAll g p q _ | .voteAny g p q _ => g.wf && decide (p < 7 ∧ q < 7)
  | .voteBallot g d q _ => g.wf && decide (d ≤ 188 ∧ d % 4 = 0 ∧ q < 7)
  | .votePopc g d q _ => g.wf && d.dstV && decide (q < 7)
  | .shfx g d a b w => g.wf && d.dstW w && decide (a < 192 ∧ (w = true → a % 2 = 0)) && b.wf
  | .xcopy x => x.wf false
  | .xstore x => x.wf true
  | .xcode g sh c slot ob spc => g.wf && decide (sh < 192 ∧ (ob = false → sh % 2 = 0) ∧ slot < 8) && ctrOk c spc
  | .bulk g s d c l spc => g.wf && evenV s && evenV d && ctrOk c spc && decide (l < 192)
  | .enq g p r n => g.wf && decide (p < 7 ∧ r ≤ 184 ∧ r % 8 = 0) && n.wf
  | .join g p a => g.wf && decide (p < 7) && evenV a
  | .qclose g q => g.wf && decide (q < 16)
  | .qcloseC g n => g.wf && n.wf
  | .qstat g d n _ => g.wf && d.dstV && n.wf
  | .trap g n a => g.wf && decide (n < 256) && optSrc a
  | .brkp g n => g.wf && decide (n < 256)
  | .resumeRetry g | .resumeSkip g | .resumeAbandon g | .resumeKill g => g.wf
  | .srd g d reg w => g.wf && (if w then d.dst64 else d.dstV) && srdOk reg w
  | .swr g reg a w => g.wf && a.wfId && a.wf64 w && swrOk reg w
  | .nop g => g.wf
  | .hint g n a => g.wf && decide (n < 256) && optSrc a
  | .pmatch g k v => g.wf && decide (k < 64) && evenV v
  | .pmatchRm g k => g.wf && decide (k < 64)
  | .batchSelect .. | .treeWalk .. | .joinHoldExpiry .. | .coldListSteal .. | .coopFire .. | .refillPop ..
  | .matchHandler .. | .accessComplete .. | .barrierRelease .. | .phaseWaitRelease .. | .counterWaitRelease ..
  | .queueRelease .. | .bindingResponse .. | .trapDelivery .. | .handlerTimeout .. | .issueResume ..
  | .engineLateFault .. | .pageGroupClose .. | .pageGroupIssue .. | .pageResponse .. | .workgroupSwapOut ..
  | .swapRestore .. | .matrixReadout .. | .matrixComplete .. | .mapFill .. | .mapWriteback .. | .copyComplete ..
  | .xcodeComplete .. | .bulkComplete .. | .push .. | .launchEligible .. | .workgroupPlace .. | .workgroupStart ..
  | .placementStarvation .. | .preemption .. | .workgroupRestore .. | .workgroupRetire .. | .cancel .. | .budgetPeriod
  | .budgetWrite .. | .watchWrite .. | .debugContinue .. | .debugStep .. | .qctlReopen .. | .qctlClearFull ..
  | .preemptRequest .. | .trcctlWrite .. | .syncBurst .. | .registerWrite .. | .powerUp | .powerOff | .create ..
  | .destroy .. | .stage .. | .activate .. | .handoverResume .. | .heartbeatDeadline | .setdl .. | .readlog ..
  | .release .. | .enrolOwner .. | .svnbump .. | .reboot | .nonce | .stop .. | .clockStop | .scanout ..
  | .linkCommand .. | .peerLinkFail .. | .atsInvalidate .. | .illegalWord .. | .codeObjectLoad ..
  | .codeObjectUnload .. | .peerAccess .. | .hostAccess .. | .routeRestore .. | .checkCodeError .. | .pcieConfigWrite .. => true

end Sys2Proof
end

