-- ==== Sys2Proof/Decode.lean ====
section
/-! DEFINITION. From the bits of a word to an instruction or a named refusal (R36-R49), and back. -/
namespace Sys2Proof

/-- Why a 64-bit word is not an instruction (R49). -/
inductive Reject where
  | major | minor | guard | unused | mod | type | code | odd | pattern | param | predicate | index | moment
  | immediate | space | size | affine | operand | tile | control | register
deriving DecidableEq, Repr

/-- The answer of a check that `b` must meet. -/
def need (b : Bool) (r : Reject) : Except Reject Unit := if b then .ok () else .error r

/-! ### Fields: from bits -/

/-- Bits [57:54] (R35). -/
def decGuard (x : Nat) : Except Reject Guard :=
  if x / 2 = 7 then (if x % 2 = 0 then .ok .always else .error .guard) else .ok (.on (x / 2) (decide (x % 2 = 1)))

/-- An 8-bit register code (R42). -/
def decCode (x : Nat) : Except Reject Code :=
  if x < 0xC0 then .ok (.v x)
  else if x < 0xE0 then .ok (.a (x - 0xC0))
  else if x < 0xF0 then .ok (.q (x - 0xE0))
  else if x < 0xF8 then .ok (.idx (x - 0xF0))
  else if x = 0xF8 then .ok .zero
  else if x = 0xF9 then .ok .lane
  else if x = 0xFA then .ok .slot
  else if x = 0xFB then .ok .crew
  else if x = 0xFC then .ok .wgid
  else .error .code

/-- A code that must meet `p`. -/
def decCodeIf (p : Code → Bool) (x : Nat) : Except Reject Code := do
  let c ← decCode x
  need (p c) .code
  return c

/-- Pattern and parameter of a permutable field (R38). -/
def decPerm (pat par : Nat) : Except Reject Perm :=
  match pat with
  | 1 => if 1 ≤ par then .ok (.rot par) else .error .param
  | 2 => .ok (.bc par)
  | 3 => if 1 ≤ par then .ok (.bfly par) else .error .param
  | 4 => if 1 ≤ par ∧ par < 8 then .ok (.mir par) else .error .param
  | _ => .error .pattern

/-- A 32-bit source in a permutable 18-bit field (R38, R40). -/
def decSrc (x : Nat) : Except Reject Src := do
  let c ← decCode (x / 1024)
  let par := x % 128
  if x / 128 % 8 = 0 then
    match c with
    | .idx n => return { code := .idx n, off := par }
    | c => do
      need (decide (par = 0)) .param
      return { code := c }
  else do
    let p ← decPerm (x / 128 % 8) par
    match c with
    | .v n => return { code := .v n, perm := p }
    | .a n => return { code := .a n, perm := p }
    | _ => .error .pattern

def decSrcIf (p : Src → Bool) (x : Nat) : Except Reject Src := do
  let s ← decSrc x
  need (p s) .code
  return s

/-- An m source in an 18-bit field (R44). -/
def decMSrc (x : Nat) : Except Reject MSrc :=
  if x / 1024 < 64 then
    if x / 128 % 8 = 0 then (if x % 128 = 0 then .ok { m := x / 1024 } else .error .param)
    else do
      let p ← decPerm (x / 128 % 8) (x % 128)
      return { m := x / 1024, perm := p }
  else .error .moment

/-- A number below `n` in an 18-bit field with pattern and parameter zero (R44). -/
def decNum (n : Nat) (r : Reject) (x : Nat) : Except Reject Nat :=
  if x % 1024 = 0 ∧ x / 1024 < n then .ok (x / 1024) else .error r

/-- A number below `n` in a dst field. -/
def below (n : Nat) (r : Reject) (x : Nat) : Except Reject Nat := if x < n then .ok x else .error r

/-- An affine code in an 18-bit field, identity only (R117). -/
def decAff (x : Nat) : Except Reject Nat :=
  if x % 1024 = 0 ∧ 0xC0 ≤ x / 1024 ∧ x / 1024 < 0xE0 then .ok (x / 1024 - 0xC0) else .error .affine
def decAffD (x : Nat) : Except Reject Nat := if 0xC0 ≤ x ∧ x < 0xE0 then .ok (x - 0xC0) else .error .affine

/-- A v code of a pair in an 18-bit field, identity only: whether such a field may carry a lane permutation is not stated, and the model lets none
be (R40; log entry 84). -/
def decEven (x : Nat) : Except Reject Nat :=
  if x % 1024 = 0 ∧ evenV (x / 1024) = true then .ok (x / 1024) else .error .odd

/-- An unused field (R37). -/
def decZero (x : Nat) : Except Reject Unit := need (decide (x = 0)) .unused

def decTy (x : Nat) : Except Reject FTy :=
  match x with | 0 => .ok .f32 | 1 => .ok .f16x2 | 2 => .ok .bf16x2 | _ => .error .type
def decRnd (x : Nat) : Except Reject Rnd :=
  match x with | 0 => .ok .rne | 1 => .ok .rtz | 2 => .ok .rup | 3 => .ok .rdn | _ => .error .mod
def decCov (x : Nat) : Except Reject Cov :=
  match x with | 0 => .ok .ind | 1 => .ok .cor | 2 => .ok .ant | 3 => .ok .expl | _ => .error .mod
/-- Override bit and override mode (R159, R160). -/
def decOver (bit mode : Nat) : Except Reject (Option Cov) :=
  match bit with
  | 0 => do
    need (decide (mode = 0)) .mod
    return none
  | _ => do
    let c ← decCov mode
    return some c

def decBit (x : Nat) : Except Reject Bool := match x with | 0 => .ok false | 1 => .ok true | _ => .error .mod

def decOpSpace (x : Nat) : Except Reject OpSpace :=
  match x with | 0 => .ok .g | 1 => .ok .sp | 2 => .ok .nw | 3 => .ok .ds | _ => .error .space
/-- An operand field (R177) with `v n` up to `top`. -/
def decOperand (top x : Nat) : Except Reject Operand := do
  let s ← decOpSpace (x / 128 % 8)
  need (decide (x % 128 = 0 ∧ x / 1024 ≤ top ∧ x / 1024 % 2 = 0)) .operand
  return { n := x / 1024, sp := s }
/-- A tile field (R181). -/
def decTile (x : Nat) : Except Reject (Nat × Bool) :=
  if x % 16 = 0 ∧ x < 256 then .ok (x / 32, decide (x / 16 % 2 = 1)) else .error .tile
/-- A tile-column field (R181). -/
def decTileCol (x : Nat) : Except Reject (Nat × Bool × Nat) :=
  if x % 32 = 0 ∧ x / 1024 % 16 = 0 ∧ x < 262144 then .ok (x / 32768, decide (x / 16384 % 2 = 1), x / 32 % 32) else .error .tile

def decOrder (x : Nat) : Order := match x with | 0 => .sc | 1 => .acq | 2 => .rel | _ => .free
def decSpace (x : Nat) : Except Reject Space :=
  match x with | 0 => .ok .g | 1 => .ok .sp | 2 => .ok .nw | 3 => .ok .ds | 4 => .ok .lp | 5 => .ok .obj | _ => .error .space
def decSize (x : Nat) : Except Reject Size :=
  match x with
  | 0 => .ok .u8 | 1 => .ok .s8 | 2 => .ok .u16 | 3 => .ok .s16 | 4 => .ok .b32 | 5 => .ok .b64 | 6 => .ok .m64
  | _ => .error .size

/-- A base field with its aff bit (R199, R37). -/
def decBase (spc : Space) (x aff : Nat) : Except Reject Code := do
  let c ← decCodeIf (baseOk spc) x
  need (decide (aff = (match c with | .a _ => 1 | _ => 0))) .affine
  return c

/-! ### The formats (R36) -/

structure FR where
  minor : Nat
  dst : Nat
  a : Nat
  b : Nat
  mod : Nat
structure FT where
  minor : Nat
  dst : Nat
  a : Nat
  b : Nat
  c : Nat
  rnd : Nat
  rov : Nat
  mod : Nat
  ty : Nat
structure FI where
  minor : Nat
  dst : Nat
  a : Nat
  imm : Nat
structure FM where
  minor : Nat
  data : Nat
  base : Nat
  off : Nat
  order : Nat
  scope : Nat
  evict : Nat
  space : Nat
  size : Nat
  aff : Nat
  mod : Nat
structure FX where
  minor : Nat
  shape : Nat
  coord : Nat
  ctr : Nat
  sdst : Nat
  sspace : Nat
  cspace : Nat
  pad : Nat
  ncoord : Nat
  qdst : Nat
  zero : Nat

def unR (w : Nat) : FR :=
  { minor := w / 2 ^ 48 % 64, dst := w / 2 ^ 40 % 256, a := w / 2 ^ 22 % 2 ^ 18, b := w / 2 ^ 4 % 2 ^ 18, mod := w % 16 }
def unT (w : Nat) : FT :=
  { minor := w / 2 ^ 50 % 16, dst := w / 2 ^ 42 % 256, a := w / 2 ^ 24 % 2 ^ 18, b := w / 2 ^ 16 % 256, c := w / 2 ^ 8 % 256,
    rnd := w / 64 % 4, rov := w / 32 % 2, mod := w / 4 % 8, ty := w % 4 }
def unI (w : Nat) : FI :=
  { minor := w / 2 ^ 48 % 64, dst := w / 2 ^ 40 % 256, a := w / 2 ^ 22 % 2 ^ 18, imm := w % 2 ^ 22 }
def unM (w : Nat) : FM :=
  { minor := w / 2 ^ 50 % 16, data := w / 2 ^ 42 % 256, base := w / 2 ^ 34 % 256, off := w / 2 ^ 20 % 2 ^ 14,
    order := w / 2 ^ 18 % 4, scope := w / 2 ^ 15 % 8, evict := w / 2 ^ 12 % 8, space := w / 2 ^ 9 % 8, size := w / 2 ^ 6 % 8,
    aff := w / 32 % 2, mod := w % 32 }
def unX (w : Nat) : FX :=
  { minor := w / 2 ^ 50 % 16, shape := w / 2 ^ 42 % 256, coord := w / 2 ^ 34 % 256, ctr := w / 2 ^ 26 % 256,
    sdst := w / 2 ^ 18 % 256, sspace := w / 2 ^ 17 % 2, cspace := w / 2 ^ 15 % 4, pad := w / 2 ^ 10 % 32,
    ncoord := w / 2 ^ 7 % 8, qdst := w / 64 % 2, zero := w % 64 }

/-! ### Classes: from fields -/

def dR3 (g : Guard) (f : FR) (w : Bool) : Except Reject R3 := do
  let d ← decCodeIf (Code.dstW w) f.dst
  let a ← decSrcIf (Src.wf64 w) f.a
  let b ← decSrcIf (Src.wf64 w) f.b
  return { g := g, d := d, a := a, b := b }
def dShift (g : Guard) (f : FR) (w : Bool) : Except Reject R3 := do
  let d ← decCodeIf (Code.dstW w) f.dst
  let a ← decSrcIf (Src.wf64 w) f.a
  let b ← decSrcIf (Src.wfCount w) f.b
  return { g := g, d := d, a := a, b := b }
def dR2 (g : Guard) (f : FR) (w : Bool) : Except Reject R2 := do
  let d ← decCodeIf (Code.dstW w) f.dst
  let a ← decSrcIf (Src.wf64 w) f.a
  decZero f.b
  return { g := g, d := d, a := a }
def dT3 (g : Guard) (f : FT) : Except Reject T3 := do
  let d ← decCodeIf Code.dst f.dst
  let a ← decSrc f.a
  let b ← decCode f.b
  let c ← decCode f.c
  return { g := g, d := d, a := a, b := b, c := c }
def noMod (x : Nat) : Except Reject Unit := need (decide (x = 0)) .mod

/-- Major 0x00 (R77). -/
def decControl (g : Guard) (f : FI) : Except Reject Instr := do
  decZero f.dst
  decZero f.a
  match f.minor with
  | 1 => do
    need (decide (1 ≤ f.imm ∧ f.imm ≤ 8)) .immediate
    return .leave g f.imm
  | 2 => do
    need (decide (1 ≤ f.imm ∧ f.imm ≤ 8)) .immediate
    return .next g f.imm
  | 3 => do
    need (decide (f.imm = 0)) .immediate
    return .ret g
  | 4 => do
    need (decide (f.imm = 0)) .immediate
    return .done g
  | 5 => do
    need (decide (f.imm < 16384)) .immediate
    return .rep g (f.imm % 64 + 1) (f.imm / 64)
  | 6 => do
    need (decide (f.imm < 4)) .immediate
    return .enrol g f.imm
  | 7 => do
    need (decide (f.imm < 4)) .immediate
    return .strike g f.imm
  | _ => .error .minor

/-- A form that reads no mod field. -/
def plain3 (g : Guard) (f : FR) (k : R3 → Instr) : Except Reject Instr := do
  noMod f.mod
  let x ← dR3 g f false
  return k x
def plain2 (g : Guard) (f : FR) (k : R2 → Instr) : Except Reject Instr := do
  noMod f.mod
  let x ← dR2 g f false
  return k x
/-- A form whose mod[0] is .b64. -/
def wide3 (g : Guard) (f : FR) (k : R3 → Bool → Instr) : Except Reject Instr := do
  let w ← decBit f.mod
  let x ← dR3 g f w
  return k x w
def wideShift (g : Guard) (f : FR) (k : R3 → Bool → Instr) : Except Reject Instr := do
  let w ← decBit f.mod
  let x ← dShift g f w
  return k x w
def wide2 (g : Guard) (f : FR) (k : R2 → Bool → Instr) : Except Reject Instr := do
  let w ← decBit f.mod
  let x ← dR2 g f w
  return k x w

def decSatW (x : Nat) : Except Reject SatW :=
  match x with | 0 => .ok .s8 | 1 => .ok .u8 | 2 => .ok .s16 | 3 => .ok .u16 | 4 => .ok .nonneg | _ => .error .mod

/-- Major 0x04 (R104). -/
def decInt (g : Guard) (f : FR) : Except Reject Instr :=
  match f.minor with
  | 0x00 => wide3 g f .iadd
  | 0x01 => wide3 g f .isub
  | 0x02 => plain3 g f .imul
  | 0x03 => plain3 g f .imulh
  | 0x04 => plain3 g f .imulhu
  | 0x05 => plain3 g f .idiv
  | 0x06 => plain3 g f .idivu
  | 0x07 => plain3 g f .irem
  | 0x08 => plain3 g f .iremu
  | 0x09 => plain2 g f .ineg
  | 0x0A => plain2 g f .iabs
  | 0x0B => plain3 g f .imin
  | 0x0C => plain3 g f .imax
  | 0x0D => plain3 g f .iminu
  | 0x0E => plain3 g f .imaxu
  | 0x0F => do
    let w ← decSatW f.mod
    let x ← dR2 g f false
    return .isat x w
  | 0x10 => do
    let u ← decBit f.mod
    let x ← dR3 g f false
    return .irsh x u
  | _ => .error .minor

/-- Major 0x05 (R106). -/
def decLogic (g : Guard) (f : FR) : Except Reject Instr :=
  match f.minor with
  | 0x00 => wide3 g f .land
  | 0x01 => wide3 g f .lor
  | 0x02 => wide3 g f .lxor
  | 0x03 => wide3 g f .landn
  | 0x04 => wide2 g f .lnot
  | 0x05 => wideShift g f .shl
  | 0x06 => wideShift g f .shr
  | 0x07 => wideShift g f .sar
  | 0x08 => plain3 g f .rol
  | 0x09 => plain3 g f .bfx
  | 0x0A => plain3 g f .bfxu
  | 0x0B => plain2 g f .popc
  | 0x0C => plain2 g f .clz
  | 0x0D => plain2 g f .brev
  | 0x0E => wide2 g f .mov
  | _ => .error .minor

def decQntW (ty mod : Nat) : Except Reject QntW :=
  match ty, mod with
  | 0, 0 => .ok .s8
  | 1, 0 => .ok .u8
  | 2, 0 => .ok .s16
  | 2, 1 => .ok .u16
  | _, _ => .error .type

/-- Major 0x06 (R107). -/
def decInt3 (g : Guard) (f : FT) : Except Reject Instr := do
  need (decide (f.rnd = 0 ∧ f.rov = 0)) .mod
  match f.minor with
  | 0 => do
    need (decide (f.mod = 0 ∧ f.ty = 0)) .mod
    let x ← dT3 g f
    return .imad x
  | 1 => do
    need (decide (f.mod = 0 ∧ f.ty = 0)) .mod
    let x ← dT3 g f
    return .bfi x
  | 2 => do
    let w ← decQntW f.ty f.mod
    let x ← dT3 g f
    return .iqnt x w
  | _ => .error .minor

/-- Major 0x07 (R109): MOVI and AIL in the I format, AIH in the U format. -/
def decConst (g : Guard) (w : Nat) : Except Reject Instr := do
  let f := unI w
  let d ← decCodeIf Code.dst f.dst
  match f.minor with
  | 0 => do
    decZero f.a
    return .movi g d (sextNat f.imm 22)
  | 1 => do
    let a ← decSrc f.a
    let i := sextNat f.imm 22
    need (decide (-2048 ≤ i ∧ i < 2048)) .immediate
    return .ail g d a i
  | 2 => do
    decZero (w % 2 ^ 20)
    return .aih g d (sextNat (w / 2 ^ 20) 20)
  | _ => .error .minor

def decICond (x : Nat) : Except Reject ICond :=
  match x with
  | 0 => .ok .eq | 1 => .ok .ne | 2 => .ok .lt | 3 => .ok .le | 4 => .ok .gt | 5 => .ok .ge | 6 => .ok .ltu | 7 => .ok .leu
  | 8 => .ok .gtu | 9 => .ok .geu | _ => .error .mod

def decPred3 (g : Guard) (f : FR) (k : Guard → Nat → Nat → Nat → Bool → Bool → Instr) : Except Reject Instr := do
  let p ← below 7 .predicate f.dst
  let a ← decNum 7 .predicate f.a
  let b ← decNum 7 .predicate f.b
  need (decide (f.mod < 4)) .mod
  return k g p a b (decide (f.mod % 2 = 1)) (decide (f.mod / 2 = 1))

/-- Major 0x08 (R110-R112). -/
def decCmp (g : Guard) (f : FR) : Except Reject Instr :=
  match f.minor with
  | 0 => do
    let p ← below 7 .predicate f.dst
    let a ← decSrc f.a
    let b ← decSrc f.b
    let c ← decICond f.mod
    return .icmp g p a b c
  | 1 => do
    let x ← dR3 g f false
    let p ← below 7 .mod (f.mod % 8)
    return .isel x p (decide (f.mod / 8 = 1))
  | 2 => do
    let p ← below 7 .predicate f.dst
    let a ← decSrc f.a
    decZero f.b
    noMod f.mod
    return .pset g p a
  | 3 => decPred3 g f .pand
  | 4 => decPred3 g f .por
  | 5 => decPred3 g f .pxor
  | 6 => do
    let p ← below 7 .predicate f.dst
    let a ← decNum 7 .predicate f.a
    decZero f.b
    noMod f.mod
    return .pnot g p a
  | _ => .error .minor

/-- Major 0x09 (R113). -/
def decIndex (g : Guard) (f : FR) : Except Reject Instr :=
  match f.minor with
  | 0 => do
    let x ← below 8 .index f.dst
    let a ← decSrc f.a
    decZero f.b
    noMod f.mod
    return .xset g x a
  | 1 => do
    let y ← decNum 8 .index f.a
    decZero f.b
    match f.mod with
    | 0 => do
      let x ← below 8 .index f.dst
      return .xmov g x y
    | 1 => do
      let d ← below 192 .code f.dst
      return .xmovToV g d y
    | _ => .error .mod
  | 2 => do
    let x ← below 8 .index f.dst
    let y ← decNum 8 .index f.a
    let b ← decSrc f.b
    match f.mod with
    | 0 => return .xadd g x y b
    | 1 => return .xaddOrg g x y b
    | _ => .error .mod
  | _ => .error .minor

def decAff3 (g : Guard) (f : FR) (k : Guard → Nat → Nat → Src → Instr) : Except Reject Instr := do
  let d ← decAffD f.dst
  let s ← decAff f.a
  let b ← decSrc f.b
  return k g d s b

/-- Major 0x0A (R117). -/
def decAffine (g : Guard) (f : FR) : Except Reject Instr :=
  match f.minor with
  | 0 => do
    noMod f.mod
    let d ← decAffD f.dst
    let a ← decSrc f.a
    let b ← decSrc f.b
    return .aset g d a b
  | 1 =>
    match f.mod with
    | 0 => decAff3 g f .aadd
    | 1 => decAff3 g f .aaddStride
    | _ => .error .mod
  | 2 => do
    noMod f.mod
    decAff3 g f .amul
  | 3 => do
    noMod f.mod
    decAff3 g f .ashl
  | 4 => do
    let d ← decCodeIf Code.dstNoA f.dst
    let s ← decAff f.a
    decZero f.b
    match f.mod with
    | 0 => return .aval g d s
    | 1 => return .avalBase g d s
    | 2 => return .avalStride g d s
    | _ => .error .mod
  | _ => .error .minor

def fp3 (g : Guard) (f : FR) (k : R3 → FTy → Instr) : Except Reject Instr := do
  let ty ← decTy f.mod
  let x ← dR3 g f false
  return k x ty
def fp2 (g : Guard) (f : FR) (k : R2 → FTy → Instr) : Except Reject Instr := do
  let ty ← decTy f.mod
  let x ← dR2 g f false
  return k x ty

def decFCond (x : Nat) : Except Reject FCond :=
  match x with | 0 => .ok .eq | 1 => .ok .lt | 2 => .ok .le | 3 => .ok .un | _ => .error .mod

/-- Major 0x0C (R135). -/
def decFp (g : Guard) (f : FR) : Except Reject Instr :=
  match f.minor with
  | 0x00 => fp3 g f .fadd
  | 0x01 => fp3 g f .fsub
  | 0x02 => fp3 g f .fmul
  | 0x03 => fp3 g f .fmin
  | 0x04 => fp3 g f .fmax
  | 0x05 => fp2 g f .fabs
  | 0x06 => fp2 g f .fneg
  | 0x07 => fp3 g f .fcps
  | 0x08 => fp3 g f .fscl
  | 0x09 => do
    let ty ← decTy (f.mod % 4)
    let c ← decFCond (f.mod / 4)
    let p ← below 7 .predicate f.dst
    let a ← decSrc f.a
    let b ← decSrc f.b
    return .fcmp g p a b c ty
  | 0x0A => fp2 g f .fclass
  | _ => .error .minor

/-- Major 0x0D (R140). -/
def decFused (g : Guard) (f : FT) : Except Reject Instr :=
  match f.minor with
  | 0 => do
    let ty ← decTy f.ty
    need (decide (f.mod < 4)) .mod
    let x ← dT3 g f
    if f.rov = 0 then do
      need (decide (f.rnd = 0)) .mod
      return .ffma x ty none (decide (f.mod % 2 = 1)) (decide (f.mod / 2 = 1))
    else do
      let r ← decRnd f.rnd
      return .ffma x ty (some r) (decide (f.mod % 2 = 1)) (decide (f.mod / 2 = 1))
  | _ => .error .minor

/-- Major 0x0E (R141). -/
def decFn (g : Guard) (f : FR) : Except Reject Instr :=
  match f.minor with
  | 0 => fp2 g f .frcp
  | 1 => fp2 g f .frsq
  | 2 => fp2 g f .fsqrt
  | 3 => fp3 g f .fdiv
  | 4 => fp2 g f .fex2
  | 5 => fp2 g f .flg2
  | 6 => fp2 g f .fsin
  | 7 => fp2 g f .fcos
  | 8 => fp2 g f .ftanh
  | _ => .error .minor

/-- A source that a conversion form reads exactly when `b`. -/
def decSrcOpt (b : Bool) (x : Nat) : Except Reject (Option Src) :=
  if b then do
    let s ← decSrc x
    return some s
  else do
    decZero x
    return none

def decIntTy (x : Nat) : Except Reject IntTy :=
  match x with | 0 => .ok .s32 | 1 => .ok .u32 | 2 => .ok .s16 | 3 => .ok .s8 | _ => .error .type

/-- Major 0x0F (R143-R146). -/
def decConv (g : Guard) (f : FR) : Except Reject Instr :=
  match f.minor with
  | 0 => do
    let dty ← decTy (f.mod % 4)
    let sty ← decTy (f.mod / 4)
    need (decide (dty ≠ sty)) .type
    let d ← decCodeIf (if dty = .f32 then Code.dst64 else Code.dst) f.dst
    let a ← decSrc f.a
    let b ← decSrcOpt (decide (sty = .f32)) f.b
    return .fcvt g d a b dty sty
  | 1 => do
    let ty ← decTy (f.mod % 4)
    let x ← dR2 g f false
    return .fcvti x ty (decide (f.mod / 4 % 2 = 1)) (decide (f.mod / 8 = 1))
  | 2 => do
    let dty ← decTy (f.mod % 4)
    let sty ← decIntTy (f.mod / 4)
    let d ← decCodeIf (if dty = .f32 ∧ sty = .s16 then Code.dst64 else Code.dst) f.dst
    let a ← decSrc f.a
    let b ← decSrcOpt (decide (dty ≠ .f32 ∧ sty ≠ .s16)) f.b
    return .icvtf g d a b dty sty
  | 3 => do
    let ty ← decTy (f.mod % 4)
    let dir ← decRnd (f.mod / 4)
    let x ← dR2 g f false
    return .frnd x ty dir
  | _ => .error .minor

def mom3 (g : Guard) (f : FR) (k : Guard → Nat → MSrc → MSrc → Option Cov → Instr) : Except Reject Instr := do
  need (decide (f.mod / 4 % 2 = 0)) .mod
  let o ← decOver (f.mod / 8) (f.mod % 4)
  let m ← below 64 .moment f.dst
  let a ← decMSrc f.a
  let b ← decMSrc f.b
  return k g m a b o
def mom2 (g : Guard) (f : FR) (k : Guard → Nat → MSrc → Instr) : Except Reject Instr := do
  noMod f.mod
  let m ← below 64 .moment f.dst
  let a ← decMSrc f.a
  decZero f.b
  return k g m a

/-- Major 0x14 (R159). -/
def decMoment (g : Guard) (f : FR) : Except Reject Instr :=
  match f.minor with
  | 0x0 => do
    let m ← below 64 .moment f.dst
    let a ← decSrc f.a
    match f.mod with
    | 0 => do
      let b ← decSrc f.b
      return .mset g m a b
    | 1 => do
      decZero f.b
      return .msetDet g m a
    | _ => .error .mod
  | 0x1 => do
    noMod f.mod
    let d ← decCodeIf Code.dst64 f.dst
    let a ← decMSrc f.a
    decZero f.b
    return .msplit g d a
  | 0x2 => mom2 g f .mmov
  | 0x3 => do
    noMod f.mod
    let m ← below 64 .moment f.dst
    decZero f.a
    decZero f.b
    return .mzero g m
  | 0x4 => mom3 g f .madd
  | 0x5 => mom3 g f .msub
  | 0x6 => mom3 g f .mmul
  | 0x7 => do
    noMod f.mod
    let m ← below 64 .moment f.dst
    let a ← decMSrc f.a
    let b ← decSrc f.b
    return .mscl g m a b
  | 0x8 => mom2 g f .mrelu
  | 0x9 => mom2 g f .mexp
  | 0xA => mom2 g f .msigm
  | 0xB => do
    noMod f.mod
    let p ← below 7 .predicate f.dst
    let a ← decMSrc f.a
    decZero f.b
    return .mchk g p a
  | _ => .error .minor

/-- Major 0x15 (R160). -/
def decMfma (g : Guard) (f : FT) : Except Reject Instr :=
  match f.minor with
  | 0 => do
    need (decide (f.rnd = 0 ∧ f.rov = 0 ∧ f.ty = 0)) .mod
    let o ← decOver (f.mod / 4) (f.mod % 4)
    let m ← below 64 .moment f.dst
    let a ← decMSrc f.a
    let b ← below 64 .moment f.b
    let c ← below 64 .moment f.c
    return .mfma g m a b c o
  | _ => .error .minor

def decCol (imm : Nat) : Except Reject Col := do
  need (decide (imm / 2 ^ 16 % 8 = 0)) .immediate
  let arg := imm % 2 ^ 16
  match imm / 2 ^ 19 with
  | 0 => do
    decZero arg
    return .mean
  | 1 => do
    need (decide (arg < 0x7C00)) .immediate
    return .upper arg
  | 2 => do
    need (decide (arg < 0x7C00)) .immediate
    return .lower arg
  | 3 => do
    need (decide (arg < 192)) .immediate
    return .sample arg
  | 4 => do
    decZero arg
    return .std
  | 5 => do
    decZero arg
    return .var
  | _ => .error .immediate

/-- Major 0x16 (R161). -/
def decMcol (g : Guard) (f : FI) : Except Reject Instr :=
  match f.minor with
  | 0 => do
    let d ← decCodeIf Code.dstV f.dst
    let a ← decMSrc f.a
    let k ← decCol f.imm
    return .mcol g d a k
  | _ => .error .minor

def decMmaFmt (x : Nat) : Except Reject MmaFmt :=
  match x with
  | 0 => .ok .bf16
  | 1 => .ok .f16
  | _ => if x % 4 = 2 then .ok (.s8 (decide (x / 4 % 2 = 1)) (decide (x / 8 = 1))) else .error .mod
def decBFmt (x : Nat) : Except Reject BFmt :=
  match x with | 0 => .ok .bf16 | 1 => .ok .f16 | 2 => .ok .f32 | _ => .error .mod
def decZFmt (x : Nat) : Except Reject ZFmt :=
  match x with | 0 => .ok .f32 | 1 => .ok .bf16 | 2 => .ok .f16 | 3 => .ok .mf32 | _ => .error .mod

/-- Major 0x18 (R181). -/
def decMatrix (g : Guard) (f : FR) : Except Reject Instr := do
  let (t, v) ← decTile f.dst
  let a ← decOperand 188 f.a
  let b ← decOperand 188 f.b
  match f.minor with
  | 0 => do
    let k ← decMmaFmt f.mod
    return .mma g t v a b k
  | 1 => do
    need (!v) .tile
    let k ← decBFmt f.mod
    return .mmad g t a b k
  | 2 => do
    need (!v) .tile
    noMod f.mod
    return .mmam g t a b
  | _ => .error .minor

def decAmax (on : Bool) (x : Nat) : Except Reject (Option Operand) :=
  if on then do
    need (decide (x ≠ 0)) .unused
    let o ← decOperand 190 x
    return some o
  else do
    decZero x
    return none
def decZDest (x : Nat) : Except Reject ZDest :=
  if 0xE0 ≤ x / 1024 then
    (if x % 1024 = 0 ∧ x / 1024 < 0xF0 then .ok (.queue (x / 1024 - 0xE0)) else .error .operand)
  else do
    let o ← decOperand 188 x
    return .mem o

/-- Major 0x19 (R181). -/
def decTileWord (g : Guard) (f : FR) : Except Reject Instr :=
  match f.minor with
  | 0 => do
    let (t, v) ← decTile f.dst
    decZero f.a
    decZero f.b
    let both ← decBit f.mod
    need (!(v && both)) .tile
    return .zclr g t v both
  | 1 => do
    let (t, v) ← decTile f.dst
    let a ← decOperand 188 f.a
    decZero f.b
    let k ← decZFmt f.mod
    need (!(v && decide (k = .mf32))) .tile
    return .zld g t v a k
  | 2 => do
    let (t, v) ← decTile f.dst
    let k ← decZFmt (f.mod % 4)
    need (!(v && decide (k = .mf32))) .tile
    let d ← decZDest f.a
    let m ← decAmax (decide (f.mod / 4 % 2 = 1)) f.b
    return .zst g t v d m k (decide (f.mod / 8 = 1))
  | 3 => do
    let (t, v, c) ← decTileCol f.a
    decZero f.b
    let m ← decBit f.mod
    need (!(v && m)) .tile
    let d ← below (if m then 64 else 192) .code f.dst
    return .zrd g d t v c m
  | 4 => do
    let (t, v, c) ← decTileCol f.a
    decZero f.dst
    let m ← decBit f.mod
    need (!(v && m)) .tile
    if m then do
      let s ← decMSrc f.b
      return .zwr g t v c (.inr s)
    else do
      let s ← decSrc f.b
      return .zwr g t v c (.inl s)
  | _ => .error .minor

def decMAddr (f : FM) : Except Reject MAddr := do
  let spc ← decSpace f.space
  let sz ← decSize f.size
  let b ← decBase spc f.base f.aff
  return { base := b, off := sextNat f.off 14, order := decOrder f.order, scope := f.scope, evict := f.evict, space := spc, size := sz }
def decData (sz : Size) (x : Nat) : Except Reject Data :=
  if sz = .m64 then do
    let m ← below 64 .moment x
    return .m m
  else do
    let c ← decCode x
    return .c c
def decLevel (x : Nat) : Except Reject Level :=
  match x with | 0 => .ok .near | 1 => .ok .mid | 2 => .ok .far | _ => .error .mod

/-- Major 0x1C (R206, R209). -/
def decLdSt (g : Guard) (f : FM) : Except Reject Instr :=
  match f.minor with
  | 0 => do
    let a ← decMAddr f
    noMod f.mod
    let d ← decData a.size f.data
    need (ldData d a.size) .code
    return .ld g d a
  | 1 => do
    let a ← decMAddr f
    noMod f.mod
    let d ← decData a.size f.data
    need (stData d a.size) .code
    return .st g d a
  | 2 => do
    let spc ← decSpace f.space
    let b ← decBase spc f.base f.aff
    need (decide (f.order = 0 ∧ f.scope = 0 ∧ f.size = 4 ∧ f.data = 0)) .unused
    let l ← decLevel f.mod
    return .pref g b (sextNat f.off 14) f.evict spc l
  | _ => .error .minor

/-- Major 0x1D (R210). -/
def decMaint (g : Guard) (f : FM) : Except Reject Instr := do
  need (decide (f.space = 0)) .space
  let b ← decBase .g f.base f.aff
  need (decide (f.order = 0 ∧ f.scope = 0 ∧ f.size = 4 ∧ f.data = 0)) .unused
  let l ← decLevel f.mod
  match f.minor with
  | 0 => return .linv g b (sextNat f.off 14) f.evict l
  | 1 => return .lcln g b (sextNat f.off 14) f.evict l
  | _ => .error .minor

def decSlot (x : Nat) : Except Reject (Option Nat) :=
  if x < 8 then .ok (some x) else if x = 0xFF then .ok none else .error .code
def decMapKind (x : Nat) : Except Reject MapKind :=
  match x with | 0 => .ok .rw | 1 => .ok .ro | 2 => .ok .wo | _ => .error .mod
def map1 (g : Guard) (f : FR) (k : Guard → Option Nat → Instr) : Except Reject Instr := do
  let s ← decSlot f.dst
  decZero f.a
  decZero f.b
  noMod f.mod
  return k g s

/-- Major 0x1E (R215). -/
def decMap (g : Guard) (f : FR) : Except Reject Instr :=
  match f.minor with
  | 0 => do
    let s ← below 8 .code f.dst
    let va ← decEven f.a
    let c ← decSrc f.b
    let k ← decMapKind f.mod
    return .spmap g s va c k
  | 1 => map1 g f .spunmap
  | 2 => map1 g f .spwb
  | 3 => map1 g f .spdrop
  | _ => .error .minor

def at1 (g : Guard) (f : FM) (cas : Bool) (k : Guard → Code → MAddr → Bool → Instr) : Except Reject Instr := do
  let a ← decMAddr f
  let d ← decCode f.data
  need (atData cas d a.size) .code
  let nr ← decBit f.mod
  return k g d a nr

/-- Major 0x24 (R247). -/
def decAtomic (g : Guard) (f : FM) : Except Reject Instr :=
  match f.minor with
  | 0x0 => at1 g f false .atadd
  | 0x1 => at1 g f false .atmin
  | 0x2 => at1 g f false .atmax
  | 0x3 => at1 g f false .atminu
  | 0x4 => at1 g f false .atmaxu
  | 0x5 => at1 g f false .atand
  | 0x6 => at1 g f false .ator
  | 0x7 => at1 g f false .atxor
  | 0x8 => at1 g f false .atxch
  | 0x9 => at1 g f true .atcas
  | 0xA => do
    let a ← decMAddr f
    let d ← decCode f.data
    need (atData false d a.size && decide (a.size = .b32)) .code
    need (decide (f.mod < 8)) .mod
    let ty ← decTy (f.mod / 2)
    return .atfadd g d a (decide (f.mod % 2 = 1)) ty
  | _ => .error .minor

def decFence (x : Nat) : Except Reject (FenceKind × Nat) :=
  match x / 8 with
  | 0 => .ok (.sc, x % 8)
  | 1 => .ok (.acq, x % 8)
  | 2 => .ok (.rel, x % 8)
  | _ => .error .control
def decPhSpace (x : Nat) : Except Reject PhSpace :=
  match x with | 0 => .ok .sp | 1 => .ok .nw | 2 => .ok .ds | _ => .error .mod
def decCSpace (x : Nat) : Except Reject CSpace :=
  match x with | 0 => .ok .g | 1 => .ok .sp | 2 => .ok .ds | _ => .error .space
def decCCond (x : Nat) : Except Reject CCond :=
  match x with | 0 => .ok .geu | 1 => .ok .eq | 2 => .ok .ge | _ => .error .mod
/-- CWAIT's srcA: the pair of a counter in memory carries no lane permutation (R40, R261; log entry 84). -/
def cwaitSrc (spc : CSpace) (s : Src) : Bool :=
  if spc = .g then s.wfId && (match s.code with | .v k => decide (k % 2 = 0) | _ => false) else true

/-- Major 0x25 (R253-R263). -/
def decSync (g : Guard) (f : FR) : Except Reject Instr :=
  match f.minor with
  | 0 => do
    let (k, s) ← decFence f.dst
    decZero f.a
    decZero f.b
    noMod f.mod
    return .fence g k s
  | 1 => do
    decZero f.dst
    let b ← decSrc f.a
    let n ← decSrc f.b
    noMod f.mod
    return .barinit g b n
  | 2 => do
    let d ← decCodeIf Code.dstV f.dst
    let b ← decSrc f.a
    decZero f.b
    noMod f.mod
    return .barr g d b
  | 3 => do
    decZero f.dst
    let b ← decSrc f.a
    let ph ← decSrc f.b
    noMod f.mod
    return .barw g b ph
  | 4 => do
    decZero f.dst
    let b ← decSrc f.a
    decZero f.b
    noMod f.mod
    return .bars g b
  | 5 => do
    let d ← decCodeIf Code.dstV f.dst
    let a ← decSrc f.a
    let c ← decSrc f.b
    let s ← decPhSpace f.mod
    return .pharr g d a c s
  | 6 => do
    decZero f.dst
    let a ← decSrc f.a
    let ph ← decSrc f.b
    let s ← decPhSpace f.mod
    return .phwait g a ph s
  | 7 => do
    let d ← decCodeIf Code.dstV f.dst
    let s ← decCSpace (f.mod % 4)
    let c ← decCCond (f.mod / 4)
    let a ← decSrcIf (cwaitSrc s) f.a
    let n ← decSrc f.b
    return .cwait g d a n s c
  | 8 => do
    decZero f.b
    let q ← decNum 7 .predicate f.a
    need (decide (f.mod < 8)) .mod
    let neg := decide (f.mod / 4 = 1)
    match f.mod % 4 with
    | 0 => do
      let p ← below 7 .predicate f.dst
      return .voteAll g p q neg
    | 1 => do
      let p ← below 7 .predicate f.dst
      return .voteAny g p q neg
    | 2 => do
      need (decide (f.dst ≤ 188 ∧ f.dst % 4 = 0)) .odd
      return .voteBallot g f.dst q neg
    | _ => do
      let d ← decCodeIf Code.dstV f.dst
      return .votePopc g d q neg
  | 9 => do
    let w ← decBit f.mod
    let d ← decCodeIf (Code.dstW w) f.dst
    let a ← decNum 192 .code f.a
    need (!w || decide (a % 2 = 0)) .odd
    let b ← decSrc f.b
    return .shfx g d a b w
  | _ => .error .minor

def decCtr (spc : CSpace) (x : Nat) : Except Reject (Option Nat) :=
  if x = 0xF8 then .ok none
  else if x < 192 ∧ (spc = .g → x % 2 = 0) then .ok (some x) else .error .code
def decXDest (q x : Nat) : Except Reject XDest :=
  if q = 0 then (if x < 192 then .ok (.v x) else .error .code)
  else if 0xEC ≤ x ∧ x < 0xF0 then .ok (.q (x - 0xE0)) else .error .code

def decXWord (g : Guard) (f : FX) (store : Bool) : Except Reject XWord := do
  let spc ← decCSpace f.cspace
  let c ← decCtr spc f.ctr
  let d ← decXDest f.qdst f.sdst
  let ob ← decBit f.sspace
  let x : XWord := { g := g, shape := f.shape, coord := f.coord, ctr := c, dest := d, objShape := ob, cspace := spc, pad := f.pad,
                     ncoord := f.ncoord }
  need (x.wf store) .code
  return x

/-- Major 0x2A (R266). -/
def decEngine (g : Guard) (f : FX) : Except Reject Instr := do
  decZero f.zero
  match f.minor with
  | 0 => do
    let x ← decXWord g f false
    return .xcopy x
  | 1 => do
    let x ← decXWord g f true
    return .xstore x
  | 2 => do
    let spc ← decCSpace f.cspace
    let c ← decCtr spc f.ctr
    let ob ← decBit f.sspace
    need (decide (f.shape < 192 ∧ (ob = false → f.shape % 2 = 0))) .odd
    need (decide (f.coord = 0 ∧ f.sdst = 0 ∧ f.ncoord = 0 ∧ f.qdst = 0)) .unused
    need (decide (f.pad < 8)) .unused
    return .xcode g f.shape c f.pad ob spc
  | 3 => do
    let spc ← decCSpace f.cspace
    let c ← decCtr spc f.ctr
    need (evenV f.shape && evenV f.coord && decide (f.sdst < 192)) .odd
    need (decide (f.sspace = 0 ∧ f.pad = 0 ∧ f.ncoord = 0 ∧ f.qdst = 0)) .unused
    return .bulk g f.shape f.coord c f.sdst spc
  | _ => .error .minor

/-- Major 0x2B (R289). ENQ's first register takes no lane permutation, though R40 allows one on a v code of srcA: the eight registers are its
thread's own (log entry 84). -/
def decQueue (g : Guard) (f : FR) : Except Reject Instr :=
  match f.minor with
  | 0 => do
    noMod f.mod
    let p ← below 7 .predicate f.dst
    let r ← decNum 185 .code f.a
    need (decide (r % 8 = 0)) .odd
    let n ← decSrc f.b
    return .enq g p r n
  | 1 => do
    noMod f.mod
    let p ← below 7 .predicate f.dst
    let a ← decEven f.a
    decZero f.b
    return .join g p a
  | 2 =>
    match f.mod with
    | 0 => do
      need (decide (0xE0 ≤ f.dst ∧ f.dst < 0xF0)) .code
      decZero f.a
      decZero f.b
      return .qclose g (f.dst - 0xE0)
    | 1 => do
      decZero f.dst
      let n ← decSrc f.a
      decZero f.b
      return .qcloseC g n
    | _ => .error .mod
  | 3 => do
    let d ← decCodeIf Code.dstV f.dst
    let n ← decSrc f.a
    decZero f.b
    match f.mod with
    | 0 => return .qstat g d n .q
    | 1 => return .qstat g d n .c
    | 2 => return .qstat g d n .full
    | _ => .error .mod
  | _ => .error .minor

/-- A source that may be left out (R325). -/
def decOptSrc (x : Nat) : Except Reject (Option Src) :=
  if x = 0 then .ok none
  else do
    let s ← decSrcIf Src.wfId x
    return some s

/-- Major 0x2E (R325). -/
def decSystem (g : Guard) (f : FR) : Except Reject Instr :=
  match f.minor with
  | 0 => do
    let a ← decOptSrc f.a
    decZero f.b
    noMod f.mod
    return .trap g f.dst a
  | 1 => do
    decZero f.a
    decZero f.b
    noMod f.mod
    return .brkp g f.dst
  | 2 => do
    decZero f.dst
    decZero f.a
    decZero f.b
    match f.mod with
    | 0 => return .resumeRetry g
    | 1 => return .resumeSkip g
    | 2 => return .resumeAbandon g
    | 3 => return .resumeKill g
    | _ => .error .mod
  | 3 => do
    let w ← decBit f.mod
    let d ← decCodeIf (fun c => if w then c.dst64 else c.dstV) f.dst
    decZero f.a
    let r ← decNum 256 .register f.b
    need (srdOk r w) .register
    return .srd g d r w
  | 4 => do
    let w ← decBit f.mod
    decZero f.dst
    let a ← decSrcIf (fun s => s.wfId && s.wf64 w) f.a
    let r ← decNum 256 .register f.b
    need (swrOk r w) .register
    return .swr g r a w
  | 5 => do
    decZero f.dst
    decZero f.a
    decZero f.b
    noMod f.mod
    return .nop g
  | 6 => do
    let a ← decOptSrc f.a
    decZero f.b
    noMod f.mod
    return .hint g f.dst a
  | 7 => do
    let k ← below 64 .code f.dst
    decZero f.b
    match f.mod with
    | 0 => do
      let v ← decEven f.a
      return .pmatch g k v
    | 1 => do
      decZero f.a
      return .pmatchRm g k
    | _ => .error .mod
  | _ => .error .minor

/-- The opcode map (R48), on a word below 2^64. -/
def decodeNat (w : Nat) : Except Reject Instr := do
  let g ← decGuard (w / 2 ^ 54 % 16)
  match w / 2 ^ 58 with
  | 0x00 => decControl g (unI w)
  | 0x04 => decInt g (unR w)
  | 0x05 => decLogic g (unR w)
  | 0x06 => decInt3 g (unT w)
  | 0x07 => decConst g w
  | 0x08 => decCmp g (unR w)
  | 0x09 => decIndex g (unR w)
  | 0x0A => decAffine g (unR w)
  | 0x0C => decFp g (unR w)
  | 0x0D => decFused g (unT w)
  | 0x0E => decFn g (unR w)
  | 0x0F => decConv g (unR w)
  | 0x14 => decMoment g (unR w)
  | 0x15 => decMfma g (unT w)
  | 0x16 => decMcol g (unI w)
  | 0x18 => decMatrix g (unR w)
  | 0x19 => decTileWord g (unR w)
  | 0x1C => decLdSt g (unM w)
  | 0x1D => decMaint g (unM w)
  | 0x1E => decMap g (unR w)
  | 0x24 => decAtomic g (unM w)
  | 0x25 => decSync g (unR w)
  | 0x2A => decEngine g (unX w)
  | 0x2B => decQueue g (unR w)
  | 0x2E => decSystem g (unR w)
  | _ => .error .major

/-- A 64-bit word to an instruction, or the reason it is none (R49). -/
def decode (w : Word64) : Except Reject Instr := decodeNat w.toNat

/-- What a batch that reaches a word executes: the instruction, or ILLEGAL_WORD (R49). -/
def fetchInstr (w : Word64) : Instr :=
  match decode w with
  | .ok i => i
  | .error _ => .illegalWord w

/-- The instruction of a table word: an instruction is one 64-bit word (R5, R34), so the bits above `nbits` are zero. -/
def decodeTableWord (nbits w : Nat) : Option Instr := some (fetchInstr (BitVec.ofNat 64 (w % 2 ^ nbits)))

/-! ### The encoder -/

def encGuard : Guard → Nat
  | .always => 14
  | .on p neg => 2 * p + (if neg then 1 else 0)
def encCode : Code → Nat
  | .v n => n
  | .a n => 0xC0 + n
  | .q n => 0xE0 + n
  | .idx n => 0xF0 + n
  | .zero => 0xF8
  | .lane => 0xF9
  | .slot => 0xFA
  | .crew => 0xFB
  | .wgid => 0xFC
def encPerm : Perm → Nat
  | .ident => 0
  | .rot n => 128 + n
  | .bc n => 256 + n
  | .bfly n => 384 + n
  | .mir n => 512 + n
def encSrc (s : Src) : Nat := encCode s.code * 1024 + encPerm s.perm + s.off
def encMSrc (s : MSrc) : Nat := s.m * 1024 + encPerm s.perm
def encBool (b : Bool) : Nat := if b then 1 else 0
/-- The image of a signed number in an `n`-bit field. -/
def encInt (n : Nat) (i : Int) : Nat := (i % (2 ^ n : Nat)).toNat
def encSatW : SatW → Nat | .s8 => 0 | .u8 => 1 | .s16 => 2 | .u16 => 3 | .nonneg => 4
def encQntW : QntW → Nat × Nat | .s8 => (0, 0) | .u8 => (1, 0) | .s16 => (2, 0) | .u16 => (2, 1)
def encICond : ICond → Nat
  | .eq => 0 | .ne => 1 | .lt => 2 | .le => 3 | .gt => 4 | .ge => 5 | .ltu => 6 | .leu => 7 | .gtu => 8 | .geu => 9
def encTy : FTy → Nat | .f32 => 0 | .f16x2 => 1 | .bf16x2 => 2
def encRnd : Rnd → Nat | .rne => 0 | .rtz => 1 | .rup => 2 | .rdn => 3
def encFCond : FCond → Nat | .eq => 0 | .lt => 1 | .le => 2 | .un => 3
def encIntTy : IntTy → Nat | .s32 => 0 | .u32 => 1 | .s16 => 2 | .s8 => 3
def encCov : Cov → Nat | .ind => 0 | .cor => 1 | .ant => 2 | .expl => 3
def encCol : Col → Nat
  | .mean => 0
  | .upper k => 2 ^ 19 + k
  | .lower k => 2 * 2 ^ 19 + k
  | .sample z => 3 * 2 ^ 19 + z
  | .std => 4 * 2 ^ 19
  | .var => 5 * 2 ^ 19
def encOpSpace : OpSpace → Nat | .g => 0 | .sp => 1 | .nw => 2 | .ds => 3
def encOperand (o : Operand) : Nat := o.n * 1024 + encOpSpace o.sp * 128
def encMmaFmt : MmaFmt → Nat | .bf16 => 0 | .f16 => 1 | .s8 ub ua => 2 + 4 * encBool ub + 8 * encBool ua
def encBFmt : BFmt → Nat | .bf16 => 0 | .f16 => 1 | .f32 => 2
def encZFmt : ZFmt → Nat | .f32 => 0 | .bf16 => 1 | .f16 => 2 | .mf32 => 3
def encTile (t : Nat) (v : Bool) : Nat := t * 32 + encBool v * 16
def encTileCol (t : Nat) (v : Bool) (c : Nat) : Nat := t * 32768 + encBool v * 16384 + c * 32
def encOrder : Order → Nat | .sc => 0 | .acq => 1 | .rel => 2 | .free => 3
def encSpace : Space → Nat | .g => 0 | .sp => 1 | .nw => 2 | .ds => 3 | .lp => 4 | .obj => 5
def encSize : Size → Nat | .u8 => 0 | .s8 => 1 | .u16 => 2 | .s16 => 3 | .b32 => 4 | .b64 => 5 | .m64 => 6
def encData : Data → Nat | .c c => encCode c | .m n => n
def encLevel : Level → Nat | .near => 0 | .mid => 1 | .far => 2
def encMapKind : MapKind → Nat | .rw => 0 | .ro => 1 | .wo => 2
def encFence : FenceKind → Nat | .sc => 0 | .acq => 8 | .rel => 16
def encPhSpace : PhSpace → Nat | .sp => 0 | .nw => 1 | .ds => 2
def encCSpace : CSpace → Nat | .g => 0 | .sp => 1 | .ds => 2
def encCCond : CCond → Nat | .geu => 0 | .eq => 1 | .ge => 2
def encQKind : QKind → Nat | .q => 0 | .c => 1 | .full => 2
def encSlot : Option Nat → Nat | none => 0xFF | some s => s
def encCtr : Option Nat → Nat | none => 0xF8 | some c => c
def encOptSrc : Option Src → Nat | none => 0 | some s => encSrc s
def isAff : Code → Nat | .a _ => 1 | _ => 0

def headOf (maj : Nat) (g : Guard) : Nat := maj * 2 ^ 58 + encGuard g * 2 ^ 54
def pkR (maj minor : Nat) (g : Guard) (dst a b mod : Nat) : Nat :=
  headOf maj g + minor * 2 ^ 48 + dst * 2 ^ 40 + a * 2 ^ 22 + b * 2 ^ 4 + mod
def pkT (maj minor : Nat) (g : Guard) (dst a b c rnd rov mod ty : Nat) : Nat :=
  headOf maj g + minor * 2 ^ 50 + dst * 2 ^ 42 + a * 2 ^ 24 + b * 2 ^ 16 + c * 2 ^ 8 + rnd * 64 + rov * 32 + mod * 4 + ty
def pkI (maj minor : Nat) (g : Guard) (dst a imm : Nat) : Nat :=
  headOf maj g + minor * 2 ^ 48 + dst * 2 ^ 40 + a * 2 ^ 22 + imm
def pkM (maj minor : Nat) (g : Guard) (data : Nat) (a : MAddr) (mod : Nat) : Nat :=
  headOf maj g + minor * 2 ^ 50 + data * 2 ^ 42 + encCode a.base * 2 ^ 34 + encInt 14 a.off * 2 ^ 20 + encOrder a.order * 2 ^ 18 +
    a.scope * 2 ^ 15 + a.evict * 2 ^ 12 + encSpace a.space * 2 ^ 9 + encSize a.size * 2 ^ 6 + isAff a.base * 32 + mod
def pkX (minor : Nat) (g : Guard) (shape coord ctr sdst sspace cspace pad ncoord qdst : Nat) : Nat :=
  headOf 0x2A g + minor * 2 ^ 50 + shape * 2 ^ 42 + coord * 2 ^ 34 + ctr * 2 ^ 26 + sdst * 2 ^ 18 + sspace * 2 ^ 17 +
    cspace * 2 ^ 15 + pad * 2 ^ 10 + ncoord * 2 ^ 7 + qdst * 64

def e3 (maj minor : Nat) (x : R3) (mod : Nat) : Nat := pkR maj minor x.g (encCode x.d) (encSrc x.a) (encSrc x.b) mod
def e2 (maj minor : Nat) (x : R2) (mod : Nat) : Nat := pkR maj minor x.g (encCode x.d) (encSrc x.a) 0 mod
def eT (maj minor : Nat) (x : T3) (rnd rov mod ty : Nat) : Nat :=
  pkT maj minor x.g (encCode x.d) (encSrc x.a) (encCode x.b) (encCode x.c) rnd rov mod ty
def eOver : Option Cov → Nat | none => 0 | some c => 8 + encCov c
def eM3 (minor : Nat) (g : Guard) (m : Nat) (a b : MSrc) (o : Option Cov) : Nat :=
  pkR 0x14 minor g m (encMSrc a) (encMSrc b) (eOver o)
def eP3 (minor : Nat) (g : Guard) (p a b : Nat) (na nb : Bool) : Nat :=
  pkR 0x08 minor g p (a * 1024) (b * 1024) (encBool na + 2 * encBool nb)
def eA3 (minor : Nat) (g : Guard) (d s : Nat) (b : Src) (mod : Nat) : Nat :=
  pkR 0x0A minor g (0xC0 + d) ((0xC0 + s) * 1024) (encSrc b) mod
def eX (minor : Nat) (x : XWord) : Nat :=
  pkX minor x.g x.shape x.coord (encCtr x.ctr) (match x.dest with | .v n => n | .q n => 0xE0 + n) (encBool x.objShape)
    (encCSpace x.cspace) x.pad x.ncoord (match x.dest with | .v _ => 0 | .q _ => 1)

/-- The word of an instruction (R36, R48); 0 for an event, which has none. -/
def encodeNat : Instr → Nat
  | .leave g k => pkI 0x00 1 g 0 0 k
  | .next g k => pkI 0x00 2 g 0 0 k
  | .ret g => pkI 0x00 3 g 0 0 0
  | .done g => pkI 0x00 4 g 0 0 0
  | .rep g n xm => pkI 0x00 5 g 0 0 (xm * 64 + (n - 1))
  | .enrol g k => pkI 0x00 6 g 0 0 k
  | .strike g k => pkI 0x00 7 g 0 0 k
  | .iadd x w => e3 0x04 0x00 x (encBool w)
  | .isub x w => e3 0x04 0x01 x (encBool w)
  | .imul x => e3 0x04 0x02 x 0
  | .imulh x => e3 0x04 0x03 x 0
  | .imulhu x => e3 0x04 0x04 x 0
  | .idiv x => e3 0x04 0x05 x 0
  | .idivu x => e3 0x04 0x06 x 0
  | .irem x => e3 0x04 0x07 x 0
  | .iremu x => e3 0x04 0x08 x 0
  | .ineg x => e2 0x04 0x09 x 0
  | .iabs x => e2 0x04 0x0A x 0
  | .imin x => e3 0x04 0x0B x 0
  | .imax x => e3 0x04 0x0C x 0
  | .iminu x => e3 0x04 0x0D x 0
  | .imaxu x => e3 0x04 0x0E x 0
  | .isat x w => e2 0x04 0x0F x (encSatW w)
  | .irsh x u => e3 0x04 0x10 x (encBool u)
  | .land x w => e3 0x05 0x00 x (encBool w)
  | .lor x w => e3 0x05 0x01 x (encBool w)
  | .lxor x w => e3 0x05 0x02 x (encBool w)
  | .landn x w => e3 0x05 0x03 x (encBool w)
  | .lnot x w => e2 0x05 0x04 x (encBool w)
  | .shl x w => e3 0x05 0x05 x (encBool w)
  | .shr x w => e3 0x05 0x06 x (encBool w)
  | .sar x w => e3 0x05 0x07 x (encBool w)
  | .rol x => e3 0x05 0x08 x 0
  | .bfx x => e3 0x05 0x09 x 0
  | .bfxu x => e3 0x05 0x0A x 0
  | .popc x => e2 0x05 0x0B x 0
  | .clz x => e2 0x05 0x0C x 0
  | .brev x => e2 0x05 0x0D x 0
  | .mov x w => e2 0x05 0x0E x (encBool w)
  | .imad x => eT 0x06 0 x 0 0 0 0
  | .bfi x => eT 0x06 1 x 0 0 0 0
  | .iqnt x w => eT 0x06 2 x 0 0 (encQntW w).2 (encQntW w).1
  | .movi g d imm => pkI 0x07 0 g (encCode d) 0 (encInt 22 imm)
  | .ail g d a imm => pkI 0x07 1 g (encCode d) (encSrc a) (encInt 22 imm)
  | .aih g d imm => headOf 0x07 g + 2 * 2 ^ 48 + encCode d * 2 ^ 40 + encInt 20 imm * 2 ^ 20
  | .icmp g p a b c => pkR 0x08 0 g p (encSrc a) (encSrc b) (encICond c)
  | .isel x p neg => e3 0x08 1 x (p + 8 * encBool neg)
  | .pset g p a => pkR 0x08 2 g p (encSrc a) 0 0
  | .pand g p a b na nb => eP3 3 g p a b na nb
  | .por g p a b na nb => eP3 4 g p a b na nb
  | .pxor g p a b na nb => eP3 5 g p a b na nb
  | .pnot g p a => pkR 0x08 6 g p (a * 1024) 0 0
  | .xset g x a => pkR 0x09 0 g x (encSrc a) 0 0
  | .xmov g x y => pkR 0x09 1 g x (y * 1024) 0 0
  | .xmovToV g d y => pkR 0x09 1 g d (y * 1024) 0 1
  | .xadd g x y b => pkR 0x09 2 g x (y * 1024) (encSrc b) 0
  | .xaddOrg g x y b => pkR 0x09 2 g x (y * 1024) (encSrc b) 1
  | .aset g d a b => pkR 0x0A 0 g (0xC0 + d) (encSrc a) (encSrc b) 0
  | .aadd g d s b => eA3 1 g d s b 0
  | .aaddStride g d s b => eA3 1 g d s b 1
  | .amul g d s b => eA3 2 g d s b 0
  | .ashl g d s b => eA3 3 g d s b 0
  | .aval g d s => pkR 0x0A 4 g (encCode d) ((0xC0 + s) * 1024) 0 0
  | .avalBase g d s => pkR 0x0A 4 g (encCode d) ((0xC0 + s) * 1024) 0 1
  | .avalStride g d s => pkR 0x0A 4 g (encCode d) ((0xC0 + s) * 1024) 0 2
  | .fadd x t => e3 0x0C 0x00 x (encTy t)
  | .fsub x t => e3 0x0C 0x01 x (encTy t)
  | .fmul x t => e3 0x0C 0x02 x (encTy t)
  | .fmin x t => e3 0x0C 0x03 x (encTy t)
  | .fmax x t => e3 0x0C 0x04 x (encTy t)
  | .fabs x t => e2 0x0C 0x05 x (encTy t)
  | .fneg x t => e2 0x0C 0x06 x (encTy t)
  | .fcps x t => e3 0x0C 0x07 x (encTy t)
  | .fscl x t => e3 0x0C 0x08 x (encTy t)
  | .fcmp g p a b c t => pkR 0x0C 0x09 g p (encSrc a) (encSrc b) (encTy t + 4 * encFCond c)
  | .fclass x t => e2 0x0C 0x0A x (encTy t)
  | .ffma x t r np nc =>
    eT 0x0D 0 x (match r with | none => 0 | some r => encRnd r) (match r with | none => 0 | some _ => 1)
      (encBool np + 2 * encBool nc) (encTy t)
  | .frcp x t => e2 0x0E 0 x (encTy t)
  | .frsq x t => e2 0x0E 1 x (encTy t)
  | .fsqrt x t => e2 0x0E 2 x (encTy t)
  | .fdiv x t => e3 0x0E 3 x (encTy t)
  | .fex2 x t => e2 0x0E 4 x (encTy t)
  | .flg2 x t => e2 0x0E 5 x (encTy t)
  | .fsin x t => e2 0x0E 6 x (encTy t)
  | .fcos x t => e2 0x0E 7 x (encTy t)
  | .ftanh x t => e2 0x0E 8 x (encTy t)
  | .fcvt g d a b dt st => pkR 0x0F 0 g (encCode d) (encSrc a) (encOptSrc b) (encTy dt + 4 * encTy st)
  | .fcvti x t u tr => e2 0x0F 1 x (encTy t + 4 * encBool u + 8 * encBool tr)
  | .icvtf g d a b dt st => pkR 0x0F 2 g (encCode d) (encSrc a) (encOptSrc b) (encTy dt + 4 * encIntTy st)
  | .frnd x t r => e2 0x0F 3 x (encTy t + 4 * encRnd r)
  | .mset g m a b => pkR 0x14 0 g m (encSrc a) (encSrc b) 0
  | .msetDet g m a => pkR 0x14 0 g m (encSrc a) 0 1
  | .msplit g d a => pkR 0x14 1 g (encCode d) (encMSrc a) 0 0
  | .mmov g m a => pkR 0x14 2 g m (encMSrc a) 0 0
  | .mzero g m => pkR 0x14 3 g m 0 0 0
  | .madd g m a b o => eM3 4 g m a b o
  | .msub g m a b o => eM3 5 g m a b o
  | .mmul g m a b o => eM3 6 g m a b o
  | .mscl g m a b => pkR 0x14 7 g m (encMSrc a) (encSrc b) 0
  | .mrelu g m a => pkR 0x14 8 g m (encMSrc a) 0 0
  | .mexp g m a => pkR 0x14 9 g m (encMSrc a) 0 0
  | .msigm g m a => pkR 0x14 0xA g m (encMSrc a) 0 0
  | .mchk g p a => pkR 0x14 0xB g p (encMSrc a) 0 0
  | .mfma g m a b c o => pkT 0x15 0 g m (encMSrc a) b c 0 0 (match o with | none => 0 | some c => 4 + encCov c) 0
  | .mcol g d a k => pkI 0x16 0 g (encCode d) (encMSrc a) (encCol k)
  | .mma g t v a b f => pkR 0x18 0 g (encTile t v) (encOperand a) (encOperand b) (encMmaFmt f)
  | .mmad g t a b f => pkR 0x18 1 g (encTile t false) (encOperand a) (encOperand b) (encBFmt f)
  | .mmam g t a b => pkR 0x18 2 g (encTile t false) (encOperand a) (encOperand b) 0
  | .zclr g t v both => pkR 0x19 0 g (encTile t v) 0 0 (encBool both)
  | .zld g t v a f => pkR 0x19 1 g (encTile t v) (encOperand a) 0 (encZFmt f)
  | .zst g t v d m f clr =>
    pkR 0x19 2 g (encTile t v) (match d with | .mem o => encOperand o | .queue n => (0xE0 + n) * 1024)
      (match m with | none => 0 | some o => encOperand o)
      (encZFmt f + (match m with | none => 0 | some _ => 4) + 8 * encBool clr)
  | .zrd g d t v c m => pkR 0x19 3 g d (encTileCol t v c) 0 (encBool m)
  | .zwr g t v c (.inl s) => pkR 0x19 4 g 0 (encTileCol t v c) (encSrc s) 0
  | .zwr g t v c (.inr s) => pkR 0x19 4 g 0 (encTileCol t v c) (encMSrc s) 1
  | .ld g d a => pkM 0x1C 0 g (encData d) a 0
  | .st g d a => pkM 0x1C 1 g (encData d) a 0
  | .pref g b off e spc l =>
    pkM 0x1C 2 g 0 { base := b, off := off, order := .sc, scope := 0, evict := e, space := spc, size := .b32 } (encLevel l)
  | .linv g b off e l =>
    pkM 0x1D 0 g 0 { base := b, off := off, order := .sc, scope := 0, evict := e, space := .g, size := .b32 } (encLevel l)
  | .lcln g b off e l =>
    pkM 0x1D 1 g 0 { base := b, off := off, order := .sc, scope := 0, evict := e, space := .g, size := .b32 } (encLevel l)
  | .spmap g s va c k => pkR 0x1E 0 g s (va * 1024) (encSrc c) (encMapKind k)
  | .spunmap g s => pkR 0x1E 1 g (encSlot s) 0 0 0
  | .spwb g s => pkR 0x1E 2 g (encSlot s) 0 0 0
  | .spdrop g s => pkR 0x1E 3 g (encSlot s) 0 0 0
  | .atadd g d a nr => pkM 0x24 0 g (encCode d) a (encBool nr)
  | .atmin g d a nr => pkM 0x24 1 g (encCode d) a (encBool nr)
  | .atmax g d a nr => pkM 0x24 2 g (encCode d) a (encBool nr)
  | .atminu g d a nr => pkM 0x24 3 g (encCode d) a (encBool nr)
  | .atmaxu g d a nr => pkM 0x24 4 g (encCode d) a (encBool nr)
  | .atand g d a nr => pkM 0x24 5 g (encCode d) a (encBool nr)
  | .ator g d a nr => pkM 0x24 6 g (encCode d) a (encBool nr)
  | .atxor g d a nr => pkM 0x24 7 g (encCode d) a (encBool nr)
  | .atxch g d a nr => pkM 0x24 8 g (encCode d) a (encBool nr)
  | .atcas g d a nr => pkM 0x24 9 g (encCode d) a (encBool nr)
  | .atfadd g d a nr t => pkM 0x24 0xA g (encCode d) a (encBool nr + 2 * encTy t)
  | .fence g k s => pkR 0x25 0 g (encFence k + s) 0 0 0
  | .barinit g b n => pkR 0x25 1 g 0 (encSrc b) (encSrc n) 0
  | .barr g d b => pkR 0x25 2 g (encCode d) (encSrc b) 0 0
  | .barw g b ph => pkR 0x25 3 g 0 (encSrc b) (encSrc ph) 0
  | .bars g b => pkR 0x25 4 g 0 (encSrc b) 0 0
  | .pharr g d a c s => pkR 0x25 5 g (encCode d) (encSrc a) (encSrc c) (encPhSpace s)
  | .phwait g a ph s => pkR 0x25 6 g 0 (encSrc a) (encSrc ph) (encPhSpace s)
  | .cwait g d a n s c => pkR 0x25 7 g (encCode d) (encSrc a) (encSrc n) (encCSpace s + 4 * encCCond c)
  | .voteAll g p q neg => pkR 0x25 8 g p (q * 1024) 0 (4 * encBool neg)
  | .voteAny g p q neg => pkR 0x25 8 g p (q * 1024) 0 (1 + 4 * encBool neg)
  | .voteBallot g d q neg => pkR 0x25 8 g d (q * 1024) 0 (2 + 4 * encBool neg)
  | .votePopc g d q neg => pkR 0x25 8 g (encCode d) (q * 1024) 0 (3 + 4 * encBool neg)
  | .shfx g d a b w => pkR 0x25 9 g (encCode d) (a * 1024) (encSrc b) (encBool w)
  | .xcopy x => eX 0 x
  | .xstore x => eX 1 x
  | .xcode g sh c slot ob spc => pkX 2 g sh 0 (encCtr c) 0 (encBool ob) (encCSpace spc) slot 0 0
  | .bulk g s d c l spc => pkX 3 g s d (encCtr c) l 0 (encCSpace spc) 0 0 0
  | .enq g p r n => pkR 0x2B 0 g p (r * 1024) (encSrc n) 0
  | .join g p a => pkR 0x2B 1 g p (a * 1024) 0 0
  | .qclose g q => pkR 0x2B 2 g (0xE0 + q) 0 0 0
  | .qcloseC g n => pkR 0x2B 2 g 0 (encSrc n) 0 1
  | .qstat g d n k => pkR 0x2B 3 g (encCode d) (encSrc n) 0 (encQKind k)
  | .trap g n a => pkR 0x2E 0 g n (encOptSrc a) 0 0
  | .brkp g n => pkR 0x2E 1 g n 0 0 0
  | .resumeRetry g => pkR 0x2E 2 g 0 0 0 0
  | .resumeSkip g => pkR 0x2E 2 g 0 0 0 1
  | .resumeAbandon g => pkR 0x2E 2 g 0 0 0 2
  | .resumeKill g => pkR 0x2E 2 g 0 0 0 3
  | .srd g d r w => pkR 0x2E 3 g (encCode d) 0 (r * 1024) (encBool w)
  | .swr g r a w => pkR 0x2E 4 g 0 (encSrc a) (r * 1024) (encBool w)
  | .nop g => pkR 0x2E 5 g 0 0 0 0
  | .hint g n a => pkR 0x2E 6 g n (encOptSrc a) 0 0
  | .pmatch g k v => pkR 0x2E 7 g k (v * 1024) 0 0
  | .pmatchRm g k => pkR 0x2E 7 g k 0 0 1
  | _ => 0

/-- The word of a well-formed instruction. -/
def encode (i : Instr) : Word64 := BitVec.ofNat 64 (encodeNat i)

end Sys2Proof
end

