-- ==== Sys2Proof/Config.lean ====
section
/-! DEFINITION. What the implementation fixes, and the free values: constants with no body, of which no proof can see a value. -/
namespace Sys2Proof.Config

/-- 448 cores on 4 dies of 8 rows by 14 columns (R13, R15). -/
def nCores : Nat := 448
def nClusters : Nat := 28
def nDies : Nat := 4
def nContexts : Nat := 64
/-- Resident thread slots, block-table entries, split records of a core (R16, R72). -/
def nSlots : Nat := 8192
def nEntries : Nat := 512
def nSplits : Nat := 512
/-- Batches in flight of a selector (R86). -/
def nInFlight : Nat := 8
/-- Crucible words, scratchpad granules, named barriers, codebook slots of a core (R302). -/
def crucibleWords : Nat := 786432
def nGranules : Nat := 19
def granuleBytes : Nat := 16384
def nBarriers : Nat := 256
def nCodebooks : Nat := 8
/-- Ranges of the scoreboard, commands of a tensor copy unit, BULK commands of a context (R228, R281, R279). -/
def nRanges : Nat := 64
def nCopies : Nat := 64
def nBulks : Nat := 256
/-- The package copy engines (R13). -/
def nEngines : Nat := 64
/-- Operand-log entries: 1,024 on chip and 256 in the reserved array (R225). -/
def nLog : Nat := 1280
/-- The aging limit of R86, the join hold of R72, the cold-list limit of R88. -/
def agingLimit : Nat := 3072
def joinHold : Nat := 2048
def coldLimit : Nat := 4096
def ageMax : Nat := 8191
/-- Page groups close 64 ticks after their first fault or at 32 pages (R226). -/
def groupTicks : Nat := 64
def groupPages : Nat := 32
/-- The handler limit of R319 and the resumption of R317. -/
def handlerLimit : Nat := 16384
def resumeTicks : Nat := 8
/-- Placement starvation (R304), the budget period (R311). -/
def starveTicks : Nat := 60000
def periodTicks : Nat := 6000
/-- A watch register or a match point takes effect within 64 ticks (R335, R339). -/
def effectTicks : Nat := 64
/-- 600,000 ticks are one millisecond (R7). -/
def ticksPerMs : Nat := 600000
/-- GDDR7 128 GiB and LPDDR6 1 TiB (R32). -/
def gddrBytes : Nat := 128 * 2 ^ 30
def lpddrBytes : Nat := 2 ^ 40
/-- Unplaced records a launch queue holds (R396). -/
def maxQueue : Nat := 4096

/-! Free values of R141 and R170: the result inside its bound, fixed by the source bits and FPCTL.FTZ alone. Log entry 11. -/
opaque frcp : BitVec 32 → Bool → BitVec 32
opaque frsq : BitVec 32 → Bool → BitVec 32
opaque fex2 : BitVec 32 → Bool → BitVec 32
opaque flg2 : BitVec 32 → Bool → BitVec 32
opaque fsin : BitVec 32 → Bool → BitVec 32
opaque fcos : BitVec 32 → Bool → BitVec 32
opaque ftanh : BitVec 32 → Bool → BitVec 32
opaque mreluMean : BitVec 64 → Bool → BitVec 32
opaque mreluVar : BitVec 64 → Bool → BitVec 32
opaque mexpMean : BitVec 64 → Bool → BitVec 32
opaque mexpVar : BitVec 64 → Bool → BitVec 32
opaque msigmMean : BitVec 64 → Bool → BitVec 32
opaque msigmVar : BitVec 64 → Bool → BitVec 32

/-- Which level served the n-th access (R232 fixes none). Log entry 12. -/
opaque servedLevel : Nat → Nat
/-- Whether the device keeps a copy of the n-th line it reads from a non-snooped page (R210, R243). Log entry 13. -/
opaque keepsCopy : Nat → Bool
/-- Whether an access of another agent may come between the lanes of an atomic at one line, at the n-th such access (R251). Log entry 88. -/
opaque lanesApart : Nat → Bool
/-- Whether the n-th access that may be performed before those that R238 orders first is so performed (R237). Log entry 28. -/
opaque early : Nat → Bool
/-- The lane whose data returned last, and the queueing ticks, of the n-th sampled word (R409). Log entry 12. -/
opaque sampleLast : Nat → Nat
opaque sampleTicks : Nat → BitVec 160

/-- How many elements, lines or rows the n-th event of an engine leaves to later ones, where it may leave some. Log entry 29. -/
opaque leaves : Nat → Nat
/-- Which of the matrix words that nothing orders is next, at a tick on a core (R196, R414). Log entry 107. -/
opaque nextWord : Nat → Nat → Nat

/-- The length of saved image `n`, one byte at least, and its bytes: no rule lays an image out (R309, R310). Log entry 112. -/
opaque imageMore : Nat → Nat
def imageLen (n : Nat) : Nat := imageMore n + 1
opaque imageByte : Nat → Nat → BitVec 8
/-- What a host's edit of image `n` makes of word `k` of its thread in slot `i`; in slot 8,192, of byte `k` of its scratchpad (R337). Log entry 112. -/
opaque editedWord : Nat → Nat → Nat → BitVec 32
/-- The n-th nonce that the Hallmark core issues (R384). Log entry 14. -/
opaque nonce : Nat → BitVec 256
/-- Whether memory training succeeds at the n-th power-up (R381 step 3). Log entry 14. -/
opaque trains : Nat → Bool
/-- The bytes of the n-th hand-over record's sections, which have no stated layout (R385). Log entry 14. -/
opaque handover : Nat → List (BitVec 8)
/-- Byte at an offset of a scan chain, as it stands at a tick (R403). Log entry 15. -/
opaque scanByte : Nat → Nat → Nat → BitVec 8
/-- What the host translator compiles from a portable level of a container (R360 step 3): a native set, or nothing where it does not
understand the level. Log entry 16. -/
opaque translate : Nat → List (BitVec 8) → Option (List (BitVec 8))

end Sys2Proof.Config
end

