-- ==== Sys2Proof/Machine/State.lean ====
section
/-! DEFINITION. The state of the LN7 module as plain data, the reasons a step can stop, and the state right after reset. -/
namespace Sys2Proof.Machine

/-- A finite map with ascending keys; a register map lists no entry that holds the default. -/
abbrev SMap (β : Type) := List (Nat × β)
/-- Bytes by address, ascending, none of them 0: an unlisted byte reads 0 (R381 step 3, R212, R302; log entry 2). -/
abbrev Memory := List Host.Cell

/-- A position (function, node, step) of R12. -/
structure Pos where
  fn : Nat := 0
  node : Nat := 0
  step : Nat := 0
deriving DecidableEq, Repr, Inhabited

/-- A register of the written set (R91). -/
inductive Reg where | v (n : Nat) | m (n : Nat)
deriving DecidableEq, Repr, Inhabited

/-- The hold reasons of R85. -/
inductive Reason where | gather | refill | replay | binding | queue | barrier | counter | swap
deriving DecidableEq, Repr, Inhabited

/-- Where bytes lie: off-chip (`pa` flat, R14), in a workgroup's scratchpad, or in a die scratchpad. -/
inductive Place where
  | off (pa : Nat) (snooped : Bool)
  | scr (core base off : Nat)
  | die (die off : Nat)
deriving DecidableEq, Repr, Inhabited

/-- What ends a held thread's wait (R85). `ready` is a wait whose end has come; `queue` keeps the word that waits, with the values that
QUEUE_ORPHAN reports (R285, R323); `record` is the page of the thread's trap record (R416). -/
inductive Wait where
  | none
  | ready
  | bar (b : Nat)
  | phase (spc : PhSpace) (off : Nat) (ph : Bool)
  | count (spc : CSpace) (addr : Nat) (target : Word) (c : CCond)
  | queue (q : Nat) (push : Bool) (word : Word64) (srcs : List Nat)
  | page
  | record
  | entry (va : Nat)
  | room
deriving DecidableEq, Repr, Inhabited

/-- What a thread takes up when it re-enters its step (R95): nothing; its wait is over; the value CWAIT read; the
operand-log values, with the Successes counted for the access (R224, R226); or a refused request, whose code it raises. -/
inductive Resume where
  | none
  | passed
  | counter (x : Word)
  | replay (vals : List Nat) (tries : Nat)
  | refused (vals : List Nat) (addr : Nat)
deriving DecidableEq, Repr, Inhabited

/-- What a trap carries into its record (R322, R323). `atNode`: the thread was held at a node when a late status came (R280, R329). -/
structure TrapInfo where
  code : Nat
  arg : Nat := 0
  word : Word64 := 0
  srcs : List Nat := []
  addr : Nat := 0
  node : Bool := false
  late : Bool := false
  replay : Bool := false
  crewb : Bool := false
  sel : Nat := 0
  tick : Word64 := 0
  atNode : Bool := false
deriving DecidableEq, Repr, Inhabited

/-- Trap context (R319): the depth D at the trap, the trapped position, the trap, and the written set that the trapped block keeps. -/
structure TrapCtx where
  base : Nat
  pos : Pos
  info : TrapInfo
  written : List Reg := []
deriving DecidableEq, Repr, Inhabited

/-- A thread (R19, R43, R66). `leaving`: the split records whose node it has left and that still count it (R72). `tries`: the
Successes counted for the frame or record access it makes (R226). `stepping`: it runs one word for a STEP command (R338), and `stepArg` is the
match point whose handler failed before that word (R322, R341). -/
structure Thread where
  crew : Nat
  v : SMap Word := []
  m : SMap Word64 := []
  p : BitVec 7 := 0
  x : SMap (BitVec 24) := []
  fpctl : Word := 0
  momctl : Word := 0
  momrho : Word := 0
  repst : Word := 0
  lwidth : Word := 0
  pos : Pos := {}
  depth : Nat := 0
  written : List Reg := []
  pend : List Reg := []
  bad : List Reg := []
  wait : Wait := .none
  resume : Resume := .none
  trap : Option TrapCtx := none
  closed : List Nat := []
  stepping : Bool := false
  stepArg : Nat := 0
  leaving : List Nat := []
  tries : Nat := 0
deriving DecidableEq, Repr, Inhabited

/-- Why the walker holds threads at a node: a gather (R74), an entry of a call table to be bound, or a page of the table (R69). -/
inductive Park where | gather | bind (va : Nat) | page (va : Nat)
deriving DecidableEq, Repr, Inhabited
/-- What the walker does next with a thread: enter a node, push the frame of a node that enters node `m` of function `g`, leave a node,
return through the top frame, or hold it at a node (R65, R70). -/
inductive WalkAct where | enter (fn node : Nat) | call (fn node g m : Nat) | leave (fn node : Nat) | ret | park (fn node : Nat) (why : Park)
deriving DecidableEq, Repr, Inhabited
/-- A part of a body set that has not started (R75): its threads, how they begin, and its ordinal. -/
structure Part where
  slots : List Nat
  act : WalkAct
  ord : Nat
deriving DecidableEq, Repr, Inhabited
/-- A split of a body set in service (R75): the splitting node with each thread's call level there, the threads of the part in service,
the parts still to start, and the threads that have finished the node. -/
structure Region where
  fn : Nat
  node : Nat
  depths : SMap Nat
  run : List Nat
  rest : List Part := []
  arrived : List Nat := []
deriving DecidableEq, Repr, Inhabited

/-- A COOP body in progress (R74, R75): its function and node with each thread's call level there, its threads, the splits in service with
the innermost first, and whether its batch waits until the whole set stands at one step. -/
structure Body where
  fn : Nat
  node : Nat
  depths : SMap Nat
  slots : List Nat
  regions : List Region := []
  hold : Bool := false
deriving DecidableEq, Repr, Inhabited

/-- An affine write that is not visible yet outside the body set that made it (R118): the old value, the tick from which every read sees
the new one, and the body set. -/
structure AffOld where
  old : Word64
  till : Nat
  set : List Nat
deriving DecidableEq, Repr, Inhabited

/-- A crew (R20), keyed by its first slot. -/
structure Crew where
  wg : Nat
  num : Nat
  role : Nat
  masks : SMap (List Nat) := []
  masksAt : SMap (List Nat) := []
  aff : SMap Word64 := []
  affOld : SMap (List AffOld) := []
  zprog : Word := 0
  bodies : List Body := []
deriving DecidableEq, Repr, Inhabited

/-- A role's scheduling policy (R87). -/
inductive Policy where | fullest | deepest | oldest
deriving DecidableEq, Repr, Inhabited
/-- A role entry of a kernel header (R363). -/
structure RoleHdr where
  entry : Nat
  nv : Nat
  nm : Nat
  crews : Nat
  policy : Policy
deriving DecidableEq, Repr, Inhabited
/-- A queue register's kind (R283). -/
inductive QueueKind where | thread | drain | copy
deriving DecidableEq, Repr, Inhabited
/-- A queue binding of a kernel header (R283, R363). -/
structure QBind where
  kind : QueueKind
  prod : Nat
  cons : Nat
  depth : Nat
deriving DecidableEq, Repr, Inhabited

/-- A kernel header as parsed from memory (R363). -/
structure Kernel where
  va : Nat
  ver : Nat
  legacy : Bool
  idem : Bool
  matrix : Bool
  pin : Bool
  handler : Option Nat
  depth : Nat
  cbslot : Nat
  nbar : Nat
  scratch : Nat
  lpriv : Nat
  dscr : Nat
  pinoff : Nat
  pincnt : Nat
  roles : List RoleHdr
  queues : List QBind
deriving DecidableEq, Repr, Inhabited

/-- A sector's state in a mapped region (R214). -/
inductive Sector where | clean | dirty (mask : BitVec 32)
deriving DecidableEq, Repr, Inhabited
/-- A map slot (R214): region offset and length in bytes, the VA, and the filled sectors. -/
structure MapSlot where
  va : Nat
  off : Nat
  len : Nat
  kind : MapKind
  sectors : SMap Sector := []
deriving DecidableEq, Repr, Inhabited

/-- A queue register (R283, R285): entries of lane words, and entries owed by issued ZST and XCOPY words. -/
structure Queue where
  entries : List (List Word) := []
  owed : Nat := 0
deriving DecidableEq, Repr, Inhabited

/-- Threads trapped with one code at one word (R317). `entered`: their records are written and they are in trap context. -/
structure TrapGroup where
  tick : Nat
  sel : Nat
  code : Nat
  items : List (Nat × TrapInfo)
  entered : Bool := false
deriving DecidableEq, Repr, Inhabited

/-- A workgroup (R19), keyed by its first slot. `sbmark`: the range scoreboard held one of its batches in this tick (R229). `halts`: the
groups that halted it (R337); `single`: it is restored for one word (R338); `marked`: it has been ended (R308); `sticky`: it is not
discardable (R310); `fetchTries`: a page that a fetch waited for and the Successes counted for it (R226, R227). -/
structure WG where
  ctx : Nat
  launch : Nat
  id : Nat
  kern : Kernel
  ncrews : Nat
  started : Bool := false
  startTick : Nat := 0
  ready : Nat := 0
  granules : List Nat := []
  lpBase : Nat := 0
  prio : Nat := 0
  members : List (Nat × Nat) := []
  member : Nat := 0
  scratch : Memory := []
  poison : List Nat := []
  queues : SMap Queue := []
  bars : SMap Word := []
  books : SMap Word := []
  badBooks : List Nat := []
  maps : SMap MapSlot := []
  sbstall : Word := 0
  sbmark : Bool := false
  energy : Word64 := 0
  sticky : Bool := false
  stopping : Bool := false
  swap : Option Nat := none
  preempt : Bool := false
  marked : Bool := false
  halts : List TrapGroup := []
  single : Bool := false
  fetchTries : Option (Nat × Nat) := none
  counts : SMap Nat := []
deriving DecidableEq, Repr, Inhabited

/-- A block-table entry (R84), or the group of one key on the cold list (R88). -/
structure Entry where
  launch : Nat
  role : Nat
  pos : Pos
  reason : Option Reason := none
  level : Nat := 0
  age : Nat := 0
  slots : List Nat := []
  ord : Nat := 0
  groups : List (List Nat) := []
deriving DecidableEq, Repr, Inhabited

/-- A declared range of a block header (R51). -/
structure LiveRange where
  m : Bool
  base : Nat
  len : Nat
deriving DecidableEq, Repr, Inhabited

/-- The match handlers of a batch, on their way (R340): the point with its handler, those after it, the next word, and the shadow registers of
each thread that still runs it. -/
structure Shadow where
  point : Nat × Nat
  rest : List (Nat × Nat)
  step : Nat := 0
  regs : SMap (SMap Word)
deriving DecidableEq, Repr, Inhabited
/-- A batch in flight (R89): `slots` is the active set; `done` those that completed the present step (R81). `boarded`: the range scoreboard
held its word when it last tried to issue (R228); `shadow`: the match handlers that run before its word, `matched` once they have. -/
structure Batch where
  id : Nat
  launch : Nat
  role : Nat
  pos : Pos
  slots : List Nat
  count : Nat
  live : List LiveRange
  bad : Bool := false
  done : List Nat := []
  matched : Bool := false
  shadow : Option Shadow := none
  job : Option Nat := none
  entered : Bool := false
  stepping : Bool := false
  boarded : Bool := false
deriving DecidableEq, Repr, Inhabited

/-- A block selector (R86). -/
structure Selector where
  last : Option (Nat × Nat) := none
  batches : List Batch := []
deriving DecidableEq, Repr, Inhabited

/-- A split record (R72): the threads still counted, the splitting node with each thread's call level there, and the join point once it is
known. -/
structure Split where
  fn : Nat
  node : Nat
  depths : SMap Nat
  slots : List Nat
  join : Option (Pos × Nat × Nat) := none
deriving DecidableEq, Repr, Inhabited

/-- Threads that move together: those of one batch, or one part of a split, with its split ordinal. -/
structure Walk where
  slots : List Nat
  act : WalkAct
  ord : Nat := 0
  split : Bool := false
  sel : Nat := 0
deriving DecidableEq, Repr, Inhabited

/-- The core's stop (R316): groups pending, the group whose handler runs, the tick from which its limit counts (R319), the tick issue
resumes, and the tick in which words trapped while the core issued: the words of its other selectors in that tick still issue. -/
structure Stop where
  pending : List TrapGroup := []
  running : Option TrapGroup := none
  since : Option Nat := none
  grace : Option Nat := none
  resumeAt : Option Nat := none
deriving DecidableEq, Repr, Inhabited

/-- A range of the scoreboard (R228): the command it belongs to, the workgroup, the bytes, and whether it is a destination. -/
structure Range where
  cmd : Nat
  wg : Nat
  lo : Nat
  hi : Nat
  dest : Bool
deriving DecidableEq, Repr, Inhabited

/-- A valid shape record (R269), by dimension. -/
structure Shape where
  base : Nat
  dims : List Nat
  strides : List Int
  boxes : List Nat
  fmt : Nat
  fill : Nat
  cb : Nat
deriving DecidableEq, Repr, Inhabited
/-- What a tensor copy unit command does (R266). -/
inductive CopyKind where
  | load (s : Shape) (coords : List Int) (dst pitch : Nat) (q : Option Nat)
  | store (s : Shape) (coords : List Int) (src pitch : Nat)
  | code (addr : Nat) (obj : Bool) (slot : Nat)
deriving DecidableEq, Repr, Inhabited
/-- A command of a tensor copy unit (R266); `pushed` counts the queue entries it has pushed (R275), `done` the elements that it has moved, and
`bads` names those whose source was poisoned (R281). -/
structure Cmd where
  id : Nat
  wg : Nat
  ctx : Nat
  launch : Nat
  wid : Nat
  slot : Nat
  fn : Nat
  sel : Nat
  word : Word64
  kind : CopyKind
  ctr : Option (CSpace × Nat)
  pushed : Nat := 0
  done : Nat := 0
  bads : List Nat := []
  failed : Option Nat := none
  last : Nat := 0
  tries : Nat := 0
  parked : Bool := false
  moved : Bool := false
deriving DecidableEq, Repr, Inhabited
/-- A BULK command (R279). `engine`: the package copy engine that serves it, once one is idle; `done`: the lines that it has moved. -/
structure Bulk where
  id : Nat
  ctx : Nat
  core : Nat
  wg : Nat
  launch : Nat
  wid : Nat
  slot : Nat
  fn : Nat
  sel : Nat
  word : Word64
  src : Nat
  dst : Nat
  len : Nat
  ctr : Option (CSpace × Nat)
  failed : Option Nat := none
  last : Nat := 0
  tries : Nat := 0
  parked : Bool := false
  moved : Bool := false
  engine : Option Nat := none
  done : Nat := 0
deriving DecidableEq, Repr, Inhabited

/-- A word in the matrix unit (R189-R196): its crew batch, the active lanes, the issuing lane, the operands' addresses and strides
(A or the destination, then B or AMAX), the lanes' values of ZWR, the last page it waited for with the Successes counted, whether it stands
stopped at a row (R191-R193), where it keeps its place in tile order (R196), the largest image it has drained so far (R187), and, once it has
read out, the tile elements it will write and the queue entries it still pushes. `zp`: the ZPROG that it goes on from, where the crew's register
records another word; `row`, where rows of it are to come in a later event (log entry 61): the first of them, with B's rows `brows`; `drained`: the
pieces of memory that it has written. -/
structure Job where
  id : Nat
  wg : Nat
  crew : Nat
  sel : Nat
  batch : Nat
  word : Word64
  instr : Instr
  lanes : List Nat
  issuer : Nat
  vals : List Nat
  lvals : List Nat := []
  last : Nat := 0
  tries : Nat := 0
  held : Bool := false
  top : Option Nat := none
  zp : Option Word := none
  row : Nat := 0
  brows : List Nat := []
  drained : List Place := []
  read : Bool := false
  out : SMap Word := []
  pushes : List (List Word) := []
deriving DecidableEq, Repr, Inhabited

/-- What a pending access does when it is performed. -/
inductive PKind where
  | load (size : Size)
  | store
  | atomic (minor : Nat) (b64 nr : Bool) (ty : FTy)
  | maint (inval : Bool) (lv : Level)
deriving DecidableEq, Repr, Inhabited
/-- One lane of a pending access; `va` and `srcs` are the address and the source values that a MEMERR of it reports (R231, R323), and `srcs`
is empty once its thread has ended; `sample`: the sampled word that it belongs to (R409). -/
structure PLane where
  slot : Nat
  place : Place
  len : Nat
  data : Nat := 0
  cmp : Nat := 0
  dst : List Reg := []
  va : Nat := 0
  srcs : List Nat := []
  sample : Option Nat := none
deriving DecidableEq, Repr, Inhabited
/-- A memory access that has issued and is not yet performed (R244): the lanes of one word that touch one line. -/
structure Pend where
  id : Nat
  wg : Nat
  kind : PKind
  lanes : List PLane
  order : Order
  scope : Nat
  read : Bool
  write : Bool
  fence : Option FenceKind := none
  word : Word64 := 0
deriving DecidableEq, Repr, Inhabited

/-- A thread as the agent of an access (R235): its core, slot, crew and workgroup. `gone`: it has ended, and every scope counts it in. -/
structure Agent where
  core : Nat
  slot : Nat
  crew : Nat
  wg : Nat
  gone : Bool := false
deriving DecidableEq, Repr, Inhabited
/-- What a note of an early access stands at: bytes whose value carries a release, a thread that has read such a value, a thread's release
fence, an SC fence, or the bytes of an SC store that has its place in the SC order before it is performed (R237-R242; log entry 28). -/
inductive NoteAt where
  | wrote (p : Place) (n : Nat)
  | heard (core slot : Nat)
  | fenced (core slot : Nat)
  | scFence
  | scStore (p : Place) (n : Nat)
deriving DecidableEq, Repr, Inhabited
/-- A release, or an SC access, of `who` at `scope`, with the accesses in flight `ids` that it follows in happens-before although they are
still to be performed. -/
structure Note where
  at' : NoteAt
  who : Agent
  scope : Nat
  ids : List Nat
deriving DecidableEq, Repr, Inhabited

/-- Trace and sampling counters of a context on a core (R407, R409). `burst`: one is due, as from the first on. -/
structure TraceCore where
  since : Nat := 0
  drops : Nat := 0
  burst : Bool := true
  words : Nat := 0
deriving DecidableEq, Repr, Inhabited

/-- A sampled word whose lanes have not all completed (R409). `deep`: the furthest level that it has reached, 1 to 4. -/
structure Sample where
  id : Nat
  ctx : Nat
  pos : Pos
  start : Nat
  slots : List Nat
  lanes : Nat
  sect : Nat := 0
  repl : Nat := 0
  last : Nat := 0
  deep : Nat := 0
deriving DecidableEq, Repr, Inhabited

/-- A core (R16). `wants`: sectors of mapped regions that an access waits for (R217), as (workgroup, slot, sector). -/
structure Core where
  threads : SMap Thread := []
  crews : SMap Crew := []
  wgs : SMap WG := []
  entries : SMap Entry := []
  cold : List Entry := []
  coldAge : Nat := 0
  sels : SMap Selector := []
  splits : SMap Split := []
  walks : List Walk := []
  stop : Stop := {}
  ranges : List Range := []
  wants : List (Nat × Nat × Nat) := []
  copies : List Cmd := []
  late : List (Nat × TrapInfo) := []
  jobs : List Job := []
  tiles : SMap Word := []
  pend : List Pend := []
  pins : List (Nat × Nat × Nat) := []
  lastSel : SMap Nat := []
  trace : SMap TraceCore := []
  samples : List Sample := []
deriving DecidableEq, Repr, Inhabited

/-- An agent that waits on a page request (R226); the `img` forms are those of a saved workgroup. -/
inductive Waiter where
  | lane (core slot : Nat)
  | cmd (core id : Nat)
  | bulk (id : Nat)
  | walk (core slot : Nat)
  | record (core slot : Nat)
  | fetch (core wg : Nat)
  | image (ctx img : Nat)
  | sched (ctx arr : Nat)
  | retire (core wg : Nat)
  | bind (va : Nat)
  | imgLane (img slot : Nat)
  | imgWalk (img slot : Nat)
  | imgRecord (img slot : Nat)
deriving DecidableEq, Repr, Inhabited
/-- A page group's life (R226). -/
inductive GroupState where | opened | closed | issued
deriving DecidableEq, Repr, Inhabited
/-- A page-fault group of a cluster (R226): the pages with their access kinds, and the waiting agents. -/
structure PageGroup where
  id : Nat
  ctx : Nat
  first : Nat
  state : GroupState := .opened
  pages : List (Nat × Bool) := []
  waiters : List Waiter := []
deriving DecidableEq, Repr, Inhabited

/-- A block-table entry, or a key of the cold list, as an image holds it: the descriptor of R84 and its bitmap. `was`: the reason whose wait its
threads re-evaluate when they are restored (R310), where the entry holds SWAP. -/
structure SavedEntry where
  desc : Word64
  slots : List Nat
  was : Option Reason := none
deriving DecidableEq, Repr, Inhabited

/-- A workgroup saved by pre-emption, swap-out or a debugger's halt (R227, R310, R337). Its bytes lie in the context's save region, from `off`
on; `num` numbers them among the free values (log entry 112). -/
structure Image where
  num : Nat := 0
  off : Nat := 0
  core : Nat
  base : Nat
  wg : WG
  crews : SMap Crew
  threads : SMap Thread
  entries : List SavedEntry
  cold : List SavedEntry
  tiles : SMap Word
  walks : List Walk := []
  traps : List TrapGroup := []
  jobs : List Job := []
  lastSel : SMap Nat := []
  swapped : Bool := false
  arrived : Bool := false
  halted : Bool := false
  form : Option ResumeForm := none
  step : Option Pos := none
deriving DecidableEq, Repr, Inhabited

/-- A launch's life (R300, R303, R313). -/
inductive LaunchState where | waiting | eligible | complete
deriving DecidableEq, Repr, Inhabited
/-- A launch (R296). `arr`: its place in the order in which records were appended at the module, across contexts (R86). `valid`: its record is
valid (R297); `kern`: its kernel, once the header has been read. `live`: its workgroups placed or saved and not yet retired; `since`: when its
next workgroup began to wait (R304); `starts`: the last start on each die (R307); `asked`: the counter's or header's page that the scheduler
waits for; `lost`: the refused ones; `owed`: energy still to be added, by VA, when its page is there (R411). -/
structure Launch where
  arr : Nat
  record : List Word64
  state : LaunchState := .waiting
  status : Nat := 0
  valid : Bool := true
  kern : Option Kernel := none
  unplaced : List Nat := []
  live : Nat := 0
  since : Nat := 0
  block : Bool := false
  starts : SMap Nat := []
  asked : Option Nat := none
  lost : List Nat := []
  owed : List (Nat × Nat) := []
deriving DecidableEq, Repr, Inhabited

/-- A continuation queue (R286): its records lie in its spill region, a ring of 32-byte places; `head` is the place of the oldest and `len`
their number (log entry 96). -/
structure Cont where
  head : Nat := 0
  len : Nat := 0
  closed : Bool := false
  full : Word := 0
deriving DecidableEq, Repr, Inhabited

/-- An accepted code object (R361-R373), named by its function base: its functions, the 64-bit words of each one's code area, the places of
its image and segment, its kernel headers, what it exports (name, value, whether a function), and its call-table entries for imports with
their names. -/
structure CodeObj where
  fbase : Nat
  nfn : Nat
  base : Nat
  imgSize : Nat
  seg : Nat
  segSize : Nat
  kernels : List Nat
  words : List Nat := []
  exports : List (List Byte × Nat × Bool)
  tables : List (Nat × List Byte)
deriving DecidableEq, Repr, Inhabited

/-- A binding request (R372): the entry's address, the threads that wait on it, and the host's answer where the entry's page is still to
come, with the Successes counted for it. -/
structure Binding where
  va : Nat
  waiters : List (Nat × Nat)
  answer : Option Nat := none
  tries : Nat := 0
deriving DecidableEq, Repr, Inhabited

/-- A context (R29), as its creation record and its control window give it (R392, R393). `heldCancels`: for each cancel that waits for the end of
a hold, the number of the next record at its arrival (R401). `unbinds`: call-table entries on absent pages that become UNRESOLVED when bound
to one of the functions of a range, which an unload has freed (R373). -/
structure Context where
  record : List Word64 := []
  pages : List PageMap := []
  dir : SMap (BitVec 256) := []
  objs : List CodeObj := []
  launches : List Launch := []
  pushCnt : Nat := 0
  discarded : Nat := 0
  budget : Word64 := 0
  budgetNext : Word64 := 0
  issueSpent : SMap Nat := []
  memSpent : SMap Nat := []
  copySpent : Nat := 0
  dbgctl : Word := 0
  watch : SMap Word64 := []
  dbgsel : Word64 := 0
  matchp : SMap Word64 := []
  matchOff : List Nat := []
  flhead : Nat := 0
  fltail : Nat := 0
  fault : Bool := false
  flovf : Bool := false
  halt : Bool := false
  trcctl : Word64 := 0
  trcbase : Word64 := 0
  trchead : Word64 := 0
  trctail : Word64 := 0
  enrbase : Word64 := 0
  conts : SMap Cont := []
  heldCancels : List Nat := []
  unbinds : List (Nat × Nat × Nat) := []
  binds : List Binding := []
  images : SMap Image := []
deriving DecidableEq, Repr, Inhabited

/-- The module's power (R33, R381, R389, R403). -/
inductive Power where | off | hallmark | recovery | running | stopped
deriving DecidableEq, Repr, Inhabited

/-- One direction of a scheduler-leaf command link (R390). -/
structure LinkEnd where
  permits : Nat := 16
  sent : Nat := 0
  taken : Nat := 0
deriving DecidableEq, Repr, Inhabited

/-- The sections of a hand-over record (R385): the contexts, with their creation records, windows, fault-log indices, launch queues, continuation
queues, launches, budgets with their spend, and binding requests; the workgroups on each core; page-request groups; and the command links. -/
structure Sections where
  ctxs : SMap Context := []
  placed : List (Nat × Nat × WG) := []
  groups : SMap (List PageGroup) := []
  links : SMap LinkEnd := []
deriving DecidableEq, Repr, Inhabited

/-- A replacement of firmware in progress (R385-R388): the class, the cluster or engine in turn, the slot of the new image, the hand-over
record's header and sections, the tick at which the hold began, and whether clusters return to the old image. `gap`: the unit's hold has not
begun, since what waited in the hold of the unit before takes effect first, or a copy engine still has a command (R387, R388). -/
structure Replacement where
  cls : Nat
  unit : Nat
  slot : Nat
  record : BitVec 512 := 0
  sections : Sections := {}
  holdAt : Nat := 0
  back : Bool := false
  gap : Bool := false
deriving DecidableEq, Repr, Inhabited

/-- The Hallmark core, the schedulers and the mailbox (R379-R389). `flash` is keyed by 2 * class + slot, `activeB` says which classes boot
slot B, `running` and `leaf` the slots that run, by class and by cluster; `destroying`: the context that DESTROY still waits for. -/
structure Firmware where
  makerHash : BitVec 256 := 0
  minSvn : SMap Nat := []
  flash : SMap (List Byte) := []
  activeB : List Nat := []
  owner : Option (BitVec 256) := none
  running : SMap Nat := []
  leaf : SMap Nat := []
  log : List (BitVec 512) := []
  deadlineMs : Nat := 50
  repl : Option Replacement := none
  held : List Instr := []
  destroying : Option Nat := none
  mbcmd : Word := 0
  mbstat : Word64 := 0
  mbarg : Memory := []
  nonce : Option (BitVec 256) := none
  nonces : Nat := 0
  rstat : BitVec 16 := 0
  boots : Nat := 0
deriving DecidableEq, Repr, Inhabited

/-- A die-scratchpad allocation (R302). -/
structure DieAlloc where
  ctx : Nat
  launch : Nat
  die : Nat
  off : Nat
  size : Nat
  users : Nat
deriving DecidableEq, Repr, Inhabited

/-- A line of a non-snooped page that the device holds (R210): its bytes as read or written, and which are dirty. -/
structure DevLine where
  bytes : Memory
  dirty : List Nat
deriving DecidableEq, Repr, Inhabited

/-- Who moves next: a selector issues a word, or an event comes about. -/
inductive Move where
  | word (core sel : Nat)
  | event (i : Instr)
deriving DecidableEq, Repr, Inhabited

/-- The issue in progress: the core, the selector and the word. -/
structure Cur where
  core : Nat
  sel : Nat
  batch : Nat
  word : Word64
deriving DecidableEq, Repr, Inhabited

/-- The module. -/
structure State where
  power : Power := .hallmark
  tick : Word64 := 0
  stopAt : Option Nat := none
  mem : Memory := []
  poison : List Nat := []
  corrected : Nat := 0
  devLines : SMap DevLine := []
  dies : SMap Memory := []
  diePoison : SMap (List Nat) := []
  dieAllocs : List DieAlloc := []
  cores : SMap Core := []
  ctxs : SMap Context := []
  groups : SMap (List PageGroup) := []
  bulks : List Bulk := []
  notes : List Note := []
  fw : Firmware := {}
  links : SMap LinkEnd := []
  routes : SMap (List Nat) := []
  failedLinks : List Nat := []
  pageAlloc : SMap Nat := []
  pageUsed : SMap Nat := []
  atomicEn : Bool := false
  vfs : Nat := 0
  msix : List Nat := []
  hostData : List Byte := []
  hostUr : Bool := false
  peerData : List Byte := []
  agenda : List Move := []
  inputs : List (Nat × Instr) := []
  cur : Option Cur := none
  seq : Nat := 0
  fresh : Nat := 0
deriving DecidableEq, Repr, Inhabited

/-- Why the machine stops. -/
inductive Fault where
  /-- A host or peer access to a device address that the spec says does not exist (R32). Raised by the access operations. Safe: the
  hardware may answer with an error of the bus; no claim rests on it. -/
  | noSuchMemory
deriving DecidableEq, Repr

/-- Why an instruction has no meaning here. -/
inductive Refusal where
  /-- An arm not modelled. Safe: nothing is claimed of it. -/
  | notModelled (mnemonic : String)
deriving DecidableEq, Repr

/-- The module at step 1 of power-up (R381): the Hallmark core starts and every other core is held in reset. -/
def State.reset : State := {}

end Sys2Proof.Machine
end

