-- ==== Sys2Proof/Machine/Ops.lean ====
section
/-! DEFINITION. The named operations over maps, memory, places, pages, nodes, threads and batches; taking a trap and leaving it. -/
namespace Sys2Proof.Machine

/-- The outcome every meaning answers. -/
abbrev Out := Host.Outcome State Fault Refusal

/-! ### Finite maps -/

def get? {β : Type} : SMap β → Nat → Option β
  | [], _ => none
  | (k, x) :: r, n => if k = n then some x else get? r n
/-- Insert or replace, keeping keys ascending. -/
def put {β : Type} : SMap β → Nat → β → SMap β
  | [], n, y => [(n, y)]
  | (k, x) :: r, n, y => if n < k then (n, y) :: (k, x) :: r else if n = k then (n, y) :: r else (k, x) :: put r n y
def del {β : Type} : SMap β → Nat → SMap β
  | [], _ => []
  | (k, x) :: r, n => if k = n then del r n else (k, x) :: del r n
/-- A register of a map that lists no default. -/
def rget {β : Type} (d : β) (m : SMap β) (n : Nat) : β := (get? m n).getD d
def rput {β : Type} [DecidableEq β] (d : β) (m : SMap β) (n : Nat) (x : β) : SMap β := if x = d then del m n else put m n x
def keys {β : Type} (m : SMap β) : List Nat := m.map (·.1)
/-- Replace the value at a key that is there. -/
def modify {β : Type} (m : SMap β) (n : Nat) (f : β → β) : SMap β :=
  match get? m n with
  | none => m
  | some x => put m n (f x)
/-- Put a number into an ascending list without repeats. -/
def insertSlot : List Nat → Nat → List Nat
  | [], n => [n]
  | k :: r, n => if n < k then n :: k :: r else if n = k then k :: r else k :: insertSlot r n
def unionSlots (a b : List Nat) : List Nat := b.foldl insertSlot a
def minus (a b : List Nat) : List Nat := a.filter fun x => !b.contains x

/-! ### Memory -/

def memGet (m : Memory) (a : Nat) : Byte := rget 0 m a
def memPut (m : Memory) (a : Nat) (b : Byte) : Memory := rput 0 m a b
/-- `n` bytes from an address, little-endian (R5). -/
def memRead (m : Memory) (a n : Nat) : Nat := ofBytes ((List.range n).map fun i => memGet m (a + i))
def memWrite (m : Memory) (a : Nat) : List Byte → Memory
  | [] => m
  | b :: r => memWrite (memPut m a b) (a + 1) r
/-- The canonical form: addresses rise strictly and no byte is 0. -/
def Memory.wf : Memory → Bool
  | [] => true
  | [(_, b)] => decide (b ≠ 0)
  | (a, b) :: (a', b') :: r => decide (b ≠ 0 ∧ a < a') && Memory.wf ((a', b') :: r)

/-! ### Parts of the state -/

def coreOf (s : State) (c : Nat) : Core := (get? s.cores c).getD {}
def setCore (s : State) (c : Nat) (co : Core) : State := { s with cores := put s.cores c co }
def updCore (s : State) (c : Nat) (f : Core → Core) : State := setCore s c (f (coreOf s c))
def ctxOf (s : State) (x : Nat) : Context := (get? s.ctxs x).getD {}
def setCtx (s : State) (x : Nat) (k : Context) : State := { s with ctxs := put s.ctxs x k }
def updCtx (s : State) (x : Nat) (f : Context → Context) : State := { s with ctxs := modify s.ctxs x f }
def updThread (co : Core) (slot : Nat) (f : Thread → Thread) : Core := { co with threads := modify co.threads slot f }
def updThreads (co : Core) (slots : List Nat) (f : Thread → Thread) : Core := slots.foldl (fun co i => updThread co i f) co
def updCrew (co : Core) (k : Nat) (f : Crew → Crew) : Core := { co with crews := modify co.crews k f }
def updWG (co : Core) (k : Nat) (f : WG → WG) : Core := { co with wgs := modify co.wgs k f }
def selOf (co : Core) (n : Nat) : Selector := (get? co.sels n).getD {}
def setSel (co : Core) (n : Nat) (x : Selector) : Core := { co with sels := put co.sels n x }

/-- The thread of a slot. -/
def threadOf (co : Core) (i : Nat) : Thread := (get? co.threads i).getD { crew := 0 }
/-- The level at which a thread stands in its call chain: its depth, with the levels of a trap handler apart (R319). -/
def Thread.callLevel (t : Thread) : Nat := 2 * t.depth + (if t.trap.isSome then 1 else 0)
/-- The call levels of threads, by slot. -/
def levelsOf (co : Core) (slots : List Nat) : SMap Nat := slots.foldl (fun m i => put m i (threadOf co i).callLevel) []
/-- Whether a thread stands at the level that a map of levels holds for it. -/
def atLevel (co : Core) (m : SMap Nat) (i : Nat) : Bool := decide (get? m i = some (threadOf co i).callLevel)
def crewOf (co : Core) (t : Thread) : Option Crew := get? co.crews t.crew
def wgOf (co : Core) (t : Thread) : Option WG := (crewOf co t).bind fun k => get? co.wgs k.wg
/-- The first slot of the workgroup of a slot's thread. -/
def wgKey (co : Core) (slot : Nat) : Option Nat := (get? co.threads slot).bind fun t => (crewOf co t).map (·.wg)
/-- The crew width (R19, R374). -/
def widthOf (k : Kernel) : Nat := if k.legacy then 64 else 128
def roleOf (w : WG) (r : Nat) : RoleHdr := (w.kern.roles[r]?).getD { entry := 0, nv := 1, nm := 0, crews := 1, policy := .fullest }
def dieOf (c : Nat) : Nat := c / 112
/-- The cluster of a core (R15). -/
def clusterOf (c : Nat) : Nat := 7 * (c / 112) + (c % 112 % 14) / 2
/-- A number for the next batch, access or command. -/
def takeSeq (s : State) : Nat × State := (s.seq, { s with seq := s.seq + 1 })
/-- The index of the next free value. -/
def takeFresh (s : State) : Nat × State := (s.fresh, { s with fresh := s.fresh + 1 })
/-- How many of some elements an event of an engine moves: at least one; the others come later (log entry 29). -/
def portion (s : State) (left : Nat) : Nat × State :=
  if left ≤ 1 then (left, s)
  else
    let (n, s) := takeFresh s
    (left - Config.leaves n % left, s)
def now (s : State) : Nat := s.tick.toNat
def wordsToNat (ws : List Word64) : Nat := ws.foldr (fun w acc => w.toNat + 2 ^ 64 * acc) 0

/-- A host access completes with Unsupported Request (R389). -/
def unsupported (s : State) : State := { s with hostUr := true, hostData := [] }

/-! ### The creation record (R392) -/

def recField (ws : List Word64) (lo n : Nat) : Nat := bits (wordsToNat ws) lo n
def ctxField (s : State) (x lo n : Nat) : Nat := recField (ctxOf s x).record lo n

/-! ### Off-chip memory: flat addresses `tier * 2^64 + offset` (R14, R32; log entry 2) -/

def tierOf (pa : Nat) : Nat := pa / 2 ^ 64
def offOf (pa : Nat) : Nat := pa % 2 ^ 64
/-- Whether the address lies in a memory that the module reaches (R32, R399): GDDR7, LPDDR6, the host, or a peer with a route. -/
def exists? (s : State) (pa : Nat) : Bool :=
  match tierOf pa with
  | 0 => decide (offOf pa < Config.gddrBytes)
  | 1 => decide (offOf pa < Config.lpddrBytes)
  | 2 => true
  | t => decide (16 ≤ t ∧ t < 80) && !(rget [] s.routes (t - 16)).isEmpty
/-- Host memory, or a peer's (R252, R399). -/
def isHost (pa : Nat) : Bool := decide (tierOf pa = 2)
def isPeer (pa : Nat) : Bool := decide (16 ≤ tierOf pa)
/-- The home agent of a device address (R14): 4 KiB granules over 8 groups. -/
def homeOf (pa : Nat) : Nat := pa / 4096 % 8
/-- The device's copy of a non-snooped line, when it holds one (R210). -/
def devLine (s : State) (pa : Nat) : Option DevLine := get? s.devLines (pa / 64)
/-- One byte off chip, as an agent of the module reads it. -/
def offByte (s : State) (pa : Nat) (snooped : Bool) : Byte :=
  if snooped then memGet s.mem pa
  else match devLine s pa with
    | some l => memGet l.bytes (pa % 64)
    | none => memGet s.mem pa
/-- The device's copy of a line goes back to its memory: its dirty bytes are written, and the copy stays clean or goes (R210). -/
def cleanLine (s : State) (line : Nat) (keep : Bool) : State :=
  match get? s.devLines line with
  | none => s
  | some l =>
    let mem := (l.dirty.filter fun i => decide (i < 64)).foldl (fun m i => memPut m (line * 64 + i) (memGet l.bytes i)) s.mem
    { s with mem := mem, devLines := if keep then put s.devLines line { l with dirty := [] } else del s.devLines line }
/-- A copy may have left the caches before any access: a free value (R202, R243). -/
def mayEvict (s : State) (line : Nat) : State :=
  match get? s.devLines line with
  | none => s
  | some _ =>
    let (n, s) := takeFresh s
    if Config.keepsCopy n then s else cleanLine s line false
/-- Whether the device keeps a copy of a non-snooped line that it touches: a free value (R210, R243). -/
def touchLine (s : State) (pa : Nat) (snooped : Bool) : State :=
  if snooped then s
  else
    let s := mayEvict s (pa / 64)
    if (devLine s pa).isSome then s
    else
      let (n, s) := takeFresh s
      if Config.keepsCopy n then
        let l : DevLine := { bytes := (List.range 64).foldl (fun m i => memPut m i (memGet s.mem (pa / 64 * 64 + i))) [], dirty := [] }
        { s with devLines := put s.devLines (pa / 64) l }
      else s
def offPut (s : State) (pa : Nat) (snooped : Bool) (b : Byte) : State :=
  if snooped then { s with mem := memPut s.mem pa b }
  else match devLine s pa with
    | some l =>
      let l' := { l with bytes := memPut l.bytes (pa % 64) b, dirty := insertSlot l.dirty (pa % 64) }
      { s with devLines := put s.devLines (pa / 64) l' }
    | none => { s with mem := memPut s.mem pa b }
/-! ### Places -/

/-- The map slot whose region holds an offset (R214). -/
def mapAt (w : WG) (off : Nat) : Option (Nat × MapSlot) := w.maps.find? fun (_, m) => decide (m.off ≤ off ∧ off < m.off + m.len)
/-- A store marks its byte dirty (R217). -/
def markDirty (w : WG) (off : Nat) : WG :=
  match mapAt w off with
  | none => w
  | some (k, m) =>
    let i := (off - m.off) / 32
    let old : BitVec 32 := match get? m.sectors i with | some (.dirty b) => b | _ => 0
    { w with maps := put w.maps k { m with sectors := put m.sectors i (.dirty (old ||| (1 <<< ((off - m.off) % 32)))) } }

def Place.shift (p : Place) (i : Nat) : Place :=
  match p with
  | .off pa sn => .off (pa + i) sn
  | .scr c b o => .scr c b (o + i)
  | .die d o => .die d (o + i)
def getByte (s : State) (p : Place) : Byte :=
  match p with
  | .off pa sn => offByte s pa sn
  | .scr c b o => match get? (coreOf s c).wgs b with | some w => memGet w.scratch o | none => 0
  | .die d o => memGet (rget [] s.dies d) o
def putByte (s : State) (p : Place) (x : Byte) : State :=
  match p with
  | .off pa sn => offPut s pa sn x
  | .scr c b o => updCore s c fun co => updWG co b fun w => markDirty { w with scratch := memPut w.scratch o x } o
  | .die d o => { s with dies := put s.dies d (memPut (rget [] s.dies d) o x) }
def readPlace (s : State) (p : Place) (n : Nat) : Nat := ofBytes ((List.range n).map fun i => getByte s (p.shift i))
def writeBytes (s : State) (p : Place) : List Byte → State
  | [] => s
  | b :: r => writeBytes (putByte s p b) (p.shift 1) r
/-- Granules that a span covers whole, and those it touches (R231). -/
def spanIn (g a n : Nat) : Bool := decide (a ≤ g * 64 ∧ g * 64 + 64 ≤ a + n)
def spanHits (g a n : Nat) : Bool := decide (g * 64 < a + n ∧ a < g * 64 + 64)
/-- A store that covers a whole granule clears its poison (R231). -/
def unpoison (s : State) (p : Place) (n : Nat) : State :=
  match p with
  | .off pa _ => { s with poison := s.poison.filter fun g => !spanIn g pa n }
  | .scr c b o => updCore s c fun co => updWG co b fun w => { w with poison := w.poison.filter fun g => !spanIn g o n }
  | .die d o => { s with diePoison := put s.diePoison d ((rget [] s.diePoison d).filter fun g => !spanIn g o n) }
/-- Poison the granules of a span. -/
def poisonAt (s : State) (p : Place) (n : Nat) : State :=
  let gs := fun (o : Nat) => (List.range ((o + n - 1) / 64 - o / 64 + 1)).map fun i => o / 64 + i
  match p with
  | .off pa _ => { s with poison := unionSlots s.poison (gs pa) }
  | .scr c b o => updCore s c fun co => updWG co b fun w => { w with poison := unionSlots w.poison (gs o) }
  | .die d o => { s with diePoison := put s.diePoison d (unionSlots (rget [] s.diePoison d) (gs o)) }
def placePoisoned (s : State) (p : Place) (n : Nat) : Bool :=
  match p with
  | .off pa _ => s.poison.any fun g => spanHits g pa n
  | .scr c b o => match get? (coreOf s c).wgs b with | some w => w.poison.any fun g => spanHits g o n | none => false
  | .die d o => (rget [] s.diePoison d).any fun g => spanHits g o n
def touchPlace (s : State) (p : Place) : State := match p with | .off pa sn => touchLine s pa sn | _ => s
/-- A store of bytes at a place, whose line the caches hold as they stand. -/
def storeAt (s : State) (p : Place) (bs : List Byte) : State := unpoison (writeBytes s p bs) p bs.length
/-- A store of bytes at a place. -/
def writePlace (s : State) (p : Place) (bs : List Byte) : State := storeAt (touchPlace s p) p bs
/-- Copy bytes with their poison (R231, R281). -/
def copyPoison (s : State) (src : Place) (n : Nat) (dst : Place) (k : Nat) : State :=
  if placePoisoned s src n then poisonAt s dst k else s
/-- Whether two spans of places share a byte. -/
def overlap (p : Place) (n : Nat) (q : Place) (k : Nat) : Bool :=
  match p, q with
  | .off a _, .off b _ => decide (a < b + k ∧ b < a + n)
  | .scr c w a, .scr c' w' b => decide (c = c' ∧ w = w' ∧ a < b + k ∧ b < a + n)
  | .die d a, .die d' b => decide (d = d' ∧ a < b + k ∧ b < a + n)
  | _, _ => false
/-- The 64-byte line of a place (R221). -/
def lineOf (p : Place) : Place := match p with | .off a _ => .off (a / 64) true | .scr c w a => .scr c w (a / 64) | .die d a => .die d (a / 64)

/-! ### Translation (R223) -/

inductive Tr where | ok (pa : Nat) (snooped : Bool) | fatal | absent | gone
deriving DecidableEq, Repr, Inhabited

def pageAt (pages : List PageMap) (va : Nat) : Option PageMap :=
  pages.find? fun p => decide (p.va ≤ va ∧ va < p.va + 2 ^ p.log2)
/-- The page of a virtual address, with the rights asked for. `gone`: a peer without a route (R400). -/
def translateVA (s : State) (ctx va : Nat) (write : Bool) : Tr :=
  match pageAt (ctxOf s ctx).pages va with
  | none => .absent
  | some p =>
    if p.fatal then .fatal
    else if (write && !p.wr) || (!write && !p.rd) then .absent
    else if exists? s (p.pa + (va - p.va)) then .ok (p.pa + (va - p.va)) p.snooped else .gone
/-- The VA of a byte of a thread's lane-private slice (R204; log entry 17). -/
def slice (s : State) (w : WG) (base slot off : Nat) : Nat :=
  ctxField s w.ctx 192 57 + 65536 * (w.lpBase + (slot - base)) + off

/-! ### Page requests (R226) -/

def PageGroup.addPage (g : PageGroup) (va : Nat) (write : Bool) (w : Waiter) : PageGroup :=
  let pages := if g.pages.contains (va / 4096, write) then g.pages else g.pages ++ [(va / 4096, write)]
  let full := decide (Config.groupPages ≤ ((pages.map (·.1)).foldl insertSlot []).length)
  { g with pages := pages, waiters := if g.waiters.contains w then g.waiters else g.waiters ++ [w], state := if full then .closed else g.state }
/-- A replayable fault joins the open group of its context in its cluster, or opens one (R226). -/
def pageFault (s : State) (cluster ctx va : Nat) (write : Bool) (w : Waiter) : State :=
  let l := rget [] s.groups cluster
  if l.any fun g => decide (g.ctx = ctx ∧ g.state = .opened) then
    { s with groups := put s.groups cluster (l.map fun g => if g.ctx = ctx ∧ g.state = .opened then g.addPage va write w else g) }
  else
    let (n, s) := takeSeq s
    { s with groups := put s.groups cluster (l ++ [PageGroup.addPage { id := n, ctx := ctx, first := now s } va write w]) }

/-! ### Functions and nodes (R58-R62, R362) -/

/-- A directory entry (R362). -/
structure Fn where
  fbase : Nat
  segSize : Nat
  nnodes : Nat
  seg : Nat
  code : Nat
  nodes : Nat
deriving DecidableEq, Repr, Inhabited
def fnOf (s : State) (ctx f : Nat) : Option Fn :=
  let e := (rget 0 (ctxOf s ctx).dir f).toNat
  if bits e 192 17 = 0 then none
  else some { fbase := bits e 240 16, segSize := bits e 209 31, nnodes := bits e 192 17, seg := bits e 128 57, code := bits e 64 57,
              nodes := bits e 0 57 }
/-- The length of the directory (R362): one past its highest index in use, so it shrinks when the topmost object goes, which no rule says (log
entry 114). -/
def fnCount (s : State) (ctx : Nat) : Nat := (keys (ctxOf s ctx).dir).foldl (fun m k => max m (k + 1)) 0

/-- What a fetch of code, a node or an object word finds. -/
inductive Fetch (α : Type) where | ok (x : α) | fault (va : Nat) | fatal (va : Nat)
deriving Repr
/-- `n` bytes at a virtual address inside one page, as the core fetches them (R362). -/
def fetchVA (s : State) (ctx va n : Nat) : Fetch Nat :=
  match translateVA s ctx va false with
  | .ok pa sn => .ok (readPlace s (.off pa sn) n)
  | .absent => .fault va
  | _ => .fatal va

/-- A node record (R59), as one 128-bit number. -/
structure Node where
  raw : Nat
deriving DecidableEq, Repr, Inhabited
def Node.kind (r : Node) : Nat := bits r.raw 124 4
def Node.ordinal (r : Node) : Nat := bits r.raw 116 8
def Node.level (r : Node) : Nat := bits r.raw 111 5
def Node.parent (r : Node) : Nat := bits r.raw 80 16
def Node.first (r : Node) : Nat := bits r.raw 64 16
def Node.count (r : Node) : Nat := bits r.raw 56 8
def Node.field (r : Node) (lo n : Nat) : Nat := bits r.raw lo n
/-- The kind-specific part of R60 and R61: nonzero unnamed bits, and the register and predicate ranges. -/
def Node.fieldsOk (r : Node) (nv : Nat) : Bool :=
  match r.kind with
  | 1 => decide (r.field 0 56 = 0 ∧ 1 ≤ r.count)
  | 2 => decide (r.field 0 24 = 0 ∧ r.count = 0)
  | 3 => decide (r.field 0 40 = 0 ∧ r.field 48 7 = 0 ∧ 1 ≤ r.count ∧ r.field 40 8 < min 192 nv)
  | 4 =>
    decide (r.count = 1 ∧ r.field 0 40 = 0 ∧ r.field 48 2 = 0) &&
    (match r.field 54 2 with
     | 0 | 1 => decide (r.field 51 3 ≠ 7 ∧ r.field 40 8 = 0)
     | 2 => decide (r.field 50 4 = 0 ∧ r.field 40 8 < min 192 nv)
     | _ => false)
  | 5 => decide (r.count = 0 ∧ r.field 0 40 = 0)
  | 6 => decide (r.count = 0 ∧ r.field 0 17 = 0 ∧ r.field 17 31 % 8 = 0 ∧ r.field 48 8 < min 192 nv)
  | 7 => decide (r.count = 1 ∧ r.field 0 54 = 0)
  | 8 => decide (r.count = 0 ∧ r.field 0 39 = 0 ∧ r.field 47 3 ≠ 7 ∧ r.field 39 8 % 2 = 0 ∧ r.field 39 8 + 6 ≤ min 192 nv)
  | _ => false

/-- The code object of a function (R361). -/
def objOf (s : State) (ctx : Nat) (fn : Fn) : Option CodeObj := (ctxOf s ctx).objs.find? fun o => decide (o.fbase = fn.fbase)
/-- The kind-specific bounds of R61 that rest on the object: a CALL's index below its function count, a BLOCK's header inside the
function's code area. -/
def Node.insideObj (r : Node) (s : State) (ctx f : Nat) (fn : Fn) : Bool :=
  match objOf s ctx fn with
  | none => decide (r.kind = 5 → (fnOf s ctx (fn.fbase + r.field 40 16)).isSome)
  | some o => decide ((r.kind = 5 → r.field 40 16 < o.nfn) ∧ (r.kind = 2 → r.field 24 32 < (o.words[f - fn.fbase]?).getD 0))
/-- Whether a record's parent, ordinal and level agree with its place (R59, R61). -/
def Node.inPlace (r : Node) (s : State) (ctx n : Nat) (fn : Fn) : Fetch Bool :=
  if n = 0 then .ok (decide (r.parent = 0 ∧ r.ordinal = 0 ∧ r.level = 0))
  else if fn.nnodes ≤ r.parent then .ok false
  else match fetchVA s ctx (fn.nodes + 16 * r.parent) 16 with
    | .fault va => .fault va
    | .fatal va => .fatal va
    | .ok x =>
      let p : Node := { raw := x }
      .ok (decide (p.first ≤ n ∧ n < p.first + p.count ∧ r.ordinal = n - p.first ∧ r.level = p.level + 1))
/-- Node `n` of function `f`: its record, or none where it is malformed (R61). -/
def nodeAt (s : State) (ctx f n nv : Nat) : Fetch (Option Node) :=
  match fnOf s ctx f with
  | none => .ok none
  | some fn =>
    if fn.nnodes ≤ n then .ok none
    else match fetchVA s ctx (fn.nodes + 16 * n) 16 with
      | .fault va => .fault va
      | .fatal va => .fatal va
      | .ok x =>
        let r : Node := { raw := x }
        let kids := r.first + r.count ≤ fn.nnodes ∧ (r.count = 0 → r.first = 0)
        if r.fieldsOk nv ∧ bits x 96 15 = 0 ∧ kids ∧ r.insideObj s ctx f fn then
          match r.inPlace s ctx n fn with
          | .ok true => .ok (some r)
          | .ok false => .ok none
          | .fault va => .fault va
          | .fatal va => .fatal va
        else .ok none
/-- The bytes of a node record, well formed or not, as one number; 0 where there is no record (R71). -/
def rawNode (s : State) (ctx f n : Nat) : Nat :=
  match fnOf s ctx f with
  | none => 0
  | some fn =>
    if fn.nnodes ≤ n then 0
    else match fetchVA s ctx (fn.nodes + 16 * n) 16 with
      | .ok x => x
      | _ => 0
/-- The record of a node that is there; a zero record elsewhere. -/
def nodeOf (s : State) (ctx f n nv : Nat) : Node :=
  match nodeAt s ctx f n nv with
  | .ok (some r) => r
  | _ => { raw := 0 }
/-- The place of a node in its function's tree: the parent and the ordinal. A malformed record may not name its parent, which is then the
node that counts it among its children. -/
def treePlace (s : State) (ctx f n : Nat) : Option (Nat × Nat) :=
  let rec0 := fun (q : Nat) => ({ raw := rawNode s ctx f q } : Node)
  let holds := fun (q : Nat) => decide ((rec0 q).first ≤ n ∧ n < (rec0 q).first + (rec0 q).count)
  let own := (rec0 n).parent
  if holds own then some (own, n - (rec0 own).first)
  else ((List.range (((fnOf s ctx f).map (·.nnodes)).getD 0)).find? holds).map fun q => (q, n - (rec0 q).first)
/-- The ordinals from the root down to a node (R64), by parents; `fuel` is the level bound of R58. -/
def pathTo (s : State) (ctx f : Nat) : Nat → Nat → List Nat → List Nat
  | 0, _, acc => acc
  | fuel + 1, n, acc =>
    if n = 0 then acc
    else match treePlace s ctx f n with
      | none => acc
      | some (q, o) => pathTo s ctx f fuel q (o :: acc)
/-- Whether node `a` is `n` or an ancestor of it (R72). -/
def within (s : State) (ctx f nv : Nat) : Nat → Nat → Nat → Bool
  | 0, n, a => decide (n = a)
  | fuel + 1, n, a => if n = a then true else if n = 0 then false else within s ctx f nv fuel (nodeOf s ctx f n nv).parent a
/-- The `k`-th LOOP above a node, nearest first (R78). -/
def loopAbove (s : State) (ctx f nv : Nat) : Nat → Nat → Nat → Option Nat
  | 0, _, _ => none
  | fuel + 1, n, k =>
    if n = 0 then none
    else
      let q := (nodeOf s ctx f n nv).parent
      if (nodeOf s ctx f q nv).kind = 4 then (if k ≤ 1 then some q else loopAbove s ctx f nv fuel q (k - 1))
      else loopAbove s ctx f nv fuel q k
/-- What a fetch of the records from a node up to the root of its function meets first (R78). -/
def climb (s : State) (ctx f nv : Nat) : Nat → Nat → Fetch Unit
  | 0, _ => .ok ()
  | fuel + 1, n =>
    match nodeAt s ctx f n nv with
    | .fault va => .fault va
    | .fatal va => .fatal va
    | .ok r => if n = 0 then .ok () else climb s ctx f nv fuel (r.getD { raw := 0 }).parent
/-- A place in a block's code from its header word on; the record's own VA where it is not there, since the same fetch meets it (R51, R227). -/
def blockVA (s : State) (ctx f n nv off : Nat) : Option Nat :=
  match fnOf s ctx f with
  | none => none
  | some fn =>
    match nodeAt s ctx f n nv with
    | .fault va | .fatal va => some va
    | .ok r => some (fn.code + 8 * ((r.getD { raw := 0 }).field 24 32) + 8 * off)
/-- The header of a block, and the word of a step: header + 8 * (s + 1) (R51). -/
def headerVA (s : State) (ctx f n nv : Nat) : Option Nat := blockVA s ctx f n nv 0
def wordVA (s : State) (ctx : Nat) (p : Pos) (nv : Nat) : Option Nat := blockVA s ctx p.fn p.node nv (p.step + 1)

/-! ### Threads that leave -/

/-- A batch without some threads; it ends when its active set is empty (R90). -/
def Batch.drop (slots : List Nat) (b : Batch) : Option Batch :=
  let l := minus b.slots slots
  if l.isEmpty then none else some { b with slots := l, done := minus b.done slots }
def Selector.drop (slots : List Nat) (x : Selector) : Selector := { x with batches := x.batches.filterMap (Batch.drop slots) }
/-- Take slots out of every batch of the core. -/
def unbatch (co : Core) (slots : List Nat) : Core := { co with sels := co.sels.map fun (k, x) => (k, x.drop slots) }
/-- An entry without some threads; an empty entry is free (R84). -/
def Entry.drop (slots : List Nat) (e : Entry) : Option Entry :=
  let l := minus e.slots slots
  if l.isEmpty then none else some { e with slots := l, groups := e.groups.map (minus · slots) }
/-- The lowest-numbered free entry, if any. -/
def freeEntry (co : Core) : Option Nat := (List.range Config.nEntries).find? fun k => (get? co.entries k).isNone
/-- When an entry frees, the head key of the cold list takes it (R88). -/
def thaw (co : Core) : Core :=
  match co.cold, freeEntry co with
  | e :: r, some k => { co with cold := r, coldAge := 0, entries := put co.entries k { e with age := 0 } }
  | _, _ => co
/-- Every freed entry takes a key of the cold list. -/
def thawAll : Nat → Core → Core
  | 0, co => co
  | n + 1, co => thawAll n (thaw co)
/-- Take slots out of every entry and of the cold list; the entries that free go to the keys of the cold list. -/
def unentry (co : Core) (slots : List Nat) : Core :=
  let co := { co with entries := co.entries.filterMap (fun (k, e) => (e.drop slots).map (k, ·)), cold := co.cold.filterMap (Entry.drop slots) }
  thawAll co.cold.length co
def Walk.drop (slots : List Nat) (w : Walk) : Option Walk :=
  let l := minus w.slots slots
  if l.isEmpty then none else some { w with slots := l }
def unwalk (co : Core) (slots : List Nat) : Core := { co with walks := co.walks.filterMap (Walk.drop slots) }
/-- A split record without some threads; one that waits for none is freed (R72). -/
def Split.drop (slots : List Nat) (r : Split) : Option Split :=
  let l := minus r.slots slots
  if l.isEmpty then none else some { r with slots := l }
def unsplit (co : Core) (slots : List Nat) : Core :=
  { co with splits := co.splits.filterMap fun (k, r) => (r.drop slots).map (k, ·) }
def Region.drop (slots : List Nat) (r : Region) : Region :=
  { r with
    run := minus r.run slots
    rest := r.rest.filterMap fun p => let x := minus p.slots slots; if x.isEmpty then none else some { p with slots := x }
    arrived := minus r.arrived slots }
def Body.drop (slots : List Nat) (b : Body) : Option Body :=
  let l := minus b.slots slots
  if l.isEmpty then none else some { b with slots := l, regions := b.regions.map (Region.drop slots) }
/-- A split of a body passes on when no thread of the part in service is left: the next part starts, or all that finished the node
leave it together (R75). The walks that begin so; `sel` is the selector that a slot's thread last left (R317). -/
def Body.next (sel : Nat → Nat) : Nat → Body → List Walk → Body × List Walk
  | 0, b, ws => (b, ws)
  | n + 1, b, ws =>
    match b.regions with
    | [] => (b, ws)
    | r :: rs =>
      if r.run.isEmpty then
        match r.rest with
        | p :: ps =>
          ({ b with regions := { r with run := p.slots, rest := ps } :: rs }, ws ++ [{ slots := p.slots, act := p.act, ord := p.ord, sel := sel (p.slots.headD 0) }])
        | [] =>
          let ws := if r.arrived.isEmpty then ws else ws ++ [{ slots := r.arrived, act := .leave r.fn r.node, sel := sel (r.arrived.headD 0) }]
          Body.next sel n { b with regions := rs } ws
      else (b, ws)
/-- Let every body of a crew pass on. -/
def nextRegions (co : Core) (crew : Nat) : Core :=
  match get? co.crews crew with
  | none => co
  | some k =>
    let (bs, ws) := k.bodies.foldl (fun (bs, ws) b => let (b', ws') := Body.next (rget 0 co.lastSel) (b.regions.length + 1) b ws; (bs ++ [b'], ws')) (([] : List Body), ([] : List Walk))
    { updCrew co crew (fun k => { k with bodies := bs }) with walks := co.walks ++ ws }
/-- Threads leave the body sets they stand in (R75), each those that `p` picks for it. -/
def unbodyIf (co : Core) (p : Body → Nat → Bool) (slots : List Nat) : Core :=
  let co := { co with crews := co.crews.map fun (k, w) => (k, { w with bodies := w.bodies.filterMap fun b => b.drop (slots.filter (p b)) }) }
  (keys co.crews).foldl nextRegions co
def unbody (co : Core) (slots : List Nat) : Core := unbodyIf co (fun _ _ => true) slots
/-- An ended thread is struck from all four masks (R73). -/
def unmask (co : Core) (slots : List Nat) : Core :=
  { co with crews := co.crews.map fun (k, w) => (k, { w with masks := w.masks.map fun (i, m) => (i, minus m slots) }) }
def TrapGroup.drop (slots : List Nat) (g : TrapGroup) : Option TrapGroup :=
  let l := g.items.filter fun (i, _) => !slots.contains i
  if l.isEmpty then none else some { g with items := l }
/-- Threads leave the pending and running handler groups; a running group that none is left in ends at TRAP_DELIVERY. -/
def untrap (co : Core) (slots : List Nat) : Core :=
  { co with stop := { co.stop with pending := co.stop.pending.filterMap (TrapGroup.drop slots), running := co.stop.running.map fun g => { g with items := g.items.filter fun (i, _) => !slots.contains i } } }
/-- Threads end: their slots are free and they are struck from k0-k3 (R73, R79). -/
def endThreads (co : Core) (slots : List Nat) : Core :=
  let co := unmask (unbody (unsplit (unwalk (unentry (unbatch co slots) slots) slots) slots) slots) slots
  let pend := co.pend.map fun p => { p with lanes := p.lanes.map fun l => if slots.contains l.slot then { l with dst := [], srcs := [] } else l }
  { co with threads := slots.foldl del co.threads, pend := pend }

/-! ### The block table (R84, R88) -/

/-- Whether an entry has the key (launch, role, position) with the reason (R84, R95). A launch's number is the module's own (R86), so
launches of two contexts never share an entry (R63). -/
def Entry.isKey (e : Entry) (launch role : Nat) (pos : Pos) (r : Option Reason) : Bool :=
  decide (e.launch = launch ∧ e.role = role ∧ e.pos = pos ∧ e.reason = r)
def addGroup (e : Entry) (slots : List Nat) (group : Bool) : Entry :=
  { e with slots := unionSlots e.slots slots, groups := if group then e.groups ++ [slots] else e.groups }
/-- Deposit threads at a position: in the entry of their key, else in the lowest free entry, else on the cold list (R88). -/
def putEntry (co : Core) (new : Entry) (group : Bool) : Core :=
  let k? := co.entries.find? fun (_, e) => e.isKey new.launch new.role new.pos new.reason
  match k? with
  | some (k, e) => { co with entries := put co.entries k (addGroup e new.slots group) }
  | none =>
    match freeEntry co with
    | some k => { co with entries := put co.entries k (addGroup { new with slots := [], age := 0 } new.slots group) }
    | none =>
      match co.cold.find? fun e => e.isKey new.launch new.role new.pos new.reason with
      | some _ =>
        { co with cold := co.cold.map fun e =>
            if e.isKey new.launch new.role new.pos new.reason then addGroup e new.slots group else e }
      | none => { co with cold := co.cold ++ [addGroup { new with slots := [] } new.slots group] }
/-- The launch, role and workgroup of a slot's thread. -/
def keyOf (co : Core) (slot : Nat) : Option (Nat × Nat × WG) :=
  (get? co.threads slot).bind fun t => (crewOf co t).bind fun k => (get? co.wgs k.wg).map fun w => (w.launch, k.role, w)
/-- The reason for which a slot is held. -/
def heldFor (co : Core) (slot : Nat) : Option Reason :=
  (((co.entries.map (·.2)) ++ co.cold).find? fun e => e.slots.contains slot).bind (·.reason)
/-- Deposit threads of one role at a position with a reason (R65, R85, R95); their position becomes it. -/
def deposit (s : State) (c : Nat) (slots : List Nat) (pos : Pos) (r : Option Reason) (ord : Nat) (group : Bool) : State :=
  match slots with
  | [] => s
  | i :: _ =>
    updCore s c fun co =>
      match keyOf co i with
      | none => co
      | some (l, role, w) =>
        let level := (nodeOf s w.ctx pos.fn pos.node (roleOf w role).nv).level
        let co := updThreads co slots fun t => { t with pos := pos }
        putEntry co { launch := l, role := role, pos := pos, reason := r, level := level, slots := slots, ord := ord } group
/-- Held threads whose wait is over move to the ready entry of their position (R85, R95). -/
def wake (s : State) (c : Nat) (slots : List Nat) : State :=
  slots.foldl (fun s i =>
    match get? (coreOf s c).threads i with
    | none => s
    | some t =>
      let s := updCore s c fun co => updThread (unentry co [i]) i fun t => { t with wait := .none }
      deposit s c [i] t.pos none 0 false) s

/-! ### Bodies (R74, R75) -/

/-- The innermost body set that a slot of the crew stands in. -/
def bodyOf (k : Crew) (slot : Nat) : Option Body := k.bodies.find? fun b => b.slots.contains slot
/-- Whether the slots are exactly the body set of their crew: a crew batch (R75). -/
def isCrewBatch (co : Core) (slots : List Nat) : Bool :=
  match slots with
  | [] => false
  | i :: _ =>
    match (get? co.threads i).bind fun t => (crewOf co t).bind fun k => bodyOf k i with
    | some b => decide (b.slots = slots)
    | none => false
/-- The whole crew batch waits at its step until the set stands there again (R75, R192). -/
def holdBody (co : Core) (slots : List Nat) : Core :=
  match slots with
  | [] => co
  | i :: _ =>
    match get? co.threads i with
    | none => co
    | some t => updCrew co t.crew fun k => { k with bodies := k.bodies.map fun b => if b.slots.contains i then { b with hold := true } else b }

/-! ### Taking a trap (R316) -/

def groupByCode (tick sel : Nat) (items : List (Nat × TrapInfo)) : List TrapGroup :=
  let codes := items.foldl (fun l (_, i) => insertSlot l i.code) []
  codes.map fun k => { tick := tick, sel := sel, code := k, items := items.filter fun (_, i) => decide (i.code = k) }

/-- TAKING A TRAP. The threads leave their batch without effect and stand where they trapped; one handler batch forms for each
code, in ascending code; every selector of the core stops until the last handler batch has ended (R316, R317). The record, the
handler's start, a workgroup without a handler and a double trap are TRAP_DELIVERY's. -/
def takeTrap (s : State) (c sel : Nat) (items : List (Nat × TrapInfo)) : State :=
  if items.isEmpty then s
  else updCore s c fun co =>
    let slots := items.map (·.1)
    let co := unwalk (unentry (unbatch co slots) slots) slots
    let infos := items.map fun (i, x) => (i, { x with sel := sel, tick := s.tick })
    { co with stop := { co.stop with pending := co.stop.pending ++ groupByCode (now s) sel infos, resumeAt := none } }
/-- Whether the core stops issue (R316). -/
def stopped (co : Core) : Bool := !co.stop.pending.isEmpty || co.stop.running.isSome || co.stop.resumeAt.isSome

/-! ### The trap record (R322) -/

def pieceAt (lo n x : Nat) : Nat := (x % 2 ^ n) * 2 ^ lo
/-- The first 16 words of the record, as one number. -/
def recordHead (c : Nat) (w : WG) (k : Crew) (slot : Nat) (t : Thread) (arrId : Nat) (plen : Nat) (masks : Nat) (i : TrapInfo) : Nat :=
  let src := fun n => (i.srcs[n]?).getD 0
  pieceAt 0 8 i.code + pieceAt 8 1 (encBool i.node) + pieceAt 9 1 (encBool i.late) + pieceAt 10 1 (encBool i.replay) +
  pieceAt 11 1 (encBool i.crewb) + pieceAt 16 8 i.arg + pieceAt 24 8 t.depth + pieceAt 32 8 plen + pieceAt 40 8 i.sel +
  pieceAt 48 4 masks + pieceAt 64 6 w.ctx + pieceAt 80 9 c + pieceAt 96 16 arrId + pieceAt 128 32 w.id + pieceAt 160 8 k.num +
  pieceAt 168 13 slot + pieceAt 192 16 t.pos.fn + pieceAt 208 16 t.pos.node + pieceAt 224 8 t.pos.step +
  pieceAt 256 64 i.tick.toNat + pieceAt 320 64 i.word.toNat + pieceAt 384 64 (src 0) + pieceAt 448 64 (src 1) +
  pieceAt 512 64 (src 2) + pieceAt 576 64 i.addr + pieceAt 640 32 t.repst.toNat + pieceAt 672 32 t.fpctl.toNat +
  pieceAt 704 32 t.momctl.toNat + pieceAt 736 32 t.momrho.toNat + pieceAt 768 32 t.lwidth.toNat + pieceAt 800 32 k.zprog.toNat
/-- The launch id of a workgroup's launch record (R296). -/
def launchId (s : State) (w : WG) : Nat :=
  match (ctxOf s w.ctx).launches.find? fun l => decide (l.arr = w.launch) with
  | some l => recField l.record 192 16
  | none => 0
def maskBits (k : Crew) (slot : Nat) : Nat :=
  (List.range 4).foldl (fun acc i => if (rget [] k.masks i).contains slot then acc + 2 ^ i else acc) 0
/-- The frames of a thread as CHAIN holds them (R322), read from its slice; an unreadable frame reads 0. -/
def chainOf (s : State) (w : WG) (base slot depth : Nat) : List Byte :=
  (List.range depth).flatMap fun d =>
    match fetchVA s w.ctx (slice s w base slot (512 + 8 * d)) 4 with
    | .ok x => toBytes 4 x
    | _ => toBytes 4 0
/-- The 512 bytes of a thread's trap record (R322-R324). -/
def recordBytes (s : State) (c : Nat) (w : WG) (base : Nat) (k : Crew) (slot : Nat) (t : Thread) (i : TrapInfo) : List Byte :=
  let path := pathTo s w.ctx t.pos.fn 32 t.pos.node []
  let head := toBytes 128 (recordHead c w k slot t (launchId s w) path.length (maskBits k slot) i)
  let pad := fun (n : Nat) (l : List Byte) => (l ++ List.replicate n 0).take n
  head ++ pad 128 (path.map (BitVec.ofNat 8)) ++ pad 256 (chainOf s w base slot t.depth)

def unionRegs (a b : List Reg) : List Reg := a ++ b.filter fun r => !a.contains r
/-- Enter trap context (R319): the record has been written, REPST reads 0, and the thread stands at the handler's root. -/
def enterTrap (t : Thread) (i : TrapInfo) : Thread :=
  { t with
      trap := some { base := t.depth, pos := t.pos, info := i, written := t.written }
      written := []
      repst := 0
      resume := .none
      tries := 0
      wait := .none }
/-- REPST as a handler writes it (R83): reserved bits read 0, and ACT with nothing left is a write of 0. -/
def repstImage (x : Nat) : Word := if bits x 31 1 = 1 ∧ bits x 7 7 = 0 then 0 else BitVec.ofNat 32 (x &&& 0x803FFFFF)
/-- RETURN FROM A TRAP: the five registers come back from the record, and trap context ends at the trapped position; what the handler
wrote joins the written set (R319, R322, R329). -/
def leaveTrap (t : Thread) (x : TrapCtx) (rec : Nat) : Thread :=
  { t with
      repst := repstImage (bits rec 640 32)
      fpctl := BitVec.ofNat 32 (bits rec 672 32 &&& 0xFFCF)
      momctl := BitVec.ofNat 32 (bits rec 704 32 &&& 7)
      momrho := BitVec.ofNat 32 (bits rec 736 32)
      lwidth := BitVec.ofNat 32 (bits rec 768 32 &&& 1)
      pos := x.pos
      depth := x.base
      written := unionRegs x.written t.written
      trap := none
      resume := .none }
/-- A thread enters a block: its written set starts empty (R91); in trap context the trapped block's set keeps what was written. -/
def enterBlock (t : Thread) : Thread :=
  match t.trap with
  | none => { t with written := [] }
  | some x => { t with written := [], trap := some { x with written := unionRegs x.written t.written } }

end Sys2Proof.Machine
end

