-- ==== Sys2Proof/Machine/Lines.lean ====
section
/-! DEFINITION. Tensor elements and the lines that the engines own (R245, R271, R274), and the accesses of a thread that others wait for. -/
namespace Sys2Proof.Machine

/-! ### Elements of a tensor (R270-R272) -/

def elemBits (fmt : Nat) : Nat := ([8, 16, 16, 32, 64, 4, 6, 32][fmt]?).getD 8
def elemBytes (fmt : Nat) : Nat := ([1, 2, 2, 4, 8, 2, 1, 8][fmt]?).getD 1
def Shape.ext (h : Shape) (k : Nat) : Nat := (h.boxes[k]?).getD 0 + 1
def Shape.rows (h : Shape) : Nat := h.ext 1 * h.ext 2 * h.ext 3 * h.ext 4
def Shape.pitch (h : Shape) (pad : Nat) : Nat := (h.ext 0 * elemBytes h.fmt + 7) / 8 * 8 + 8 * pad
def Shape.span (h : Shape) (pad : Nat) : Nat := h.rows * h.pitch pad
/-- The tensor coordinates of element `b0` of row `r`. -/
def Shape.coordsOf (h : Shape) (coords : List Int) (r b0 : Nat) : List Int :=
  let b := [b0, r % h.ext 1, r / h.ext 1 % h.ext 2, r / (h.ext 1 * h.ext 2) % h.ext 3, r / (h.ext 1 * h.ext 2 * h.ext 3)]
  (List.range 5).map fun k => (coords[k]?).getD 0 + ((b[k]?).getD 0 : Nat)
def Shape.inside (h : Shape) (n : Nat) (cs : List Int) : Bool :=
  (List.range n).all fun k => decide (0 ≤ (cs[k]?).getD 0 ∧ (cs[k]?).getD 0 < ((h.dims[k]?).getD 0 : Nat))
/-- The byte address and the bit in it where an inside element begins; none outside the tensor (R271). -/
def Shape.elem (h : Shape) (coords : List Int) (r b0 : Nat) : Option (Int × Nat) :=
  let cs := h.coordsOf coords r b0
  if h.inside coords.length cs then
    let row := (List.range 4).foldl (fun (a : Int) k => a + (cs[k + 1]?).getD 0 * (h.strides[k + 1]?).getD 0) h.base
    let bit := elemBits h.fmt * ((cs[0]?).getD 0).toNat
    some (row + (bit / 8 : Nat), bit % 8)
  else none
def Shape.cells (h : Shape) : List (Nat × Nat) := (List.range h.rows).flatMap fun r => (List.range (h.ext 0)).map fun b => (r, b)
/-- The bytes of memory that an element at a bit touches. -/
def elemSpan (fmt bit : Nat) : Nat := (bit + elemBits fmt + 7) / 8

/-- The inside spans of memory that a load reads for some of its elements, and for all. -/
def cellSpans (h : Shape) (cs : List Int) (l : List (Nat × Nat)) : List (Int × Nat) :=
  l.filterMap fun (r, b) => (h.elem cs r b).map fun (va, bit) => (va, elemSpan h.fmt bit)
def loadSpans (h : Shape) (cs : List Int) : List (Int × Nat) := cellSpans h cs h.cells

/-! ### Virtual addresses as an engine reaches them -/

def vaPlace (s : State) (ctx : Nat) (va : Int) : Option Place :=
  match translateVA s ctx va.toNat false with
  | .ok pa sn => some (.off pa sn)
  | _ => match translateVA s ctx va.toNat true with | .ok pa sn => some (.off pa sn) | _ => none

/-! ### The lines an engine owns (R245) -/

/-- The bytes that a store writes: address, bytes, the image bytes they come from, and the tensor coordinate 0 of the first element. INT6P
writes whole groups of four elements (R274). -/
def storeSpans (h : Shape) (coords : List Int) (src pitch : Nat) : List (Int × Nat × Nat × Int) :=
  h.cells.filterMap fun (r, b) =>
    match h.elem coords r b with
    | none => none
    | some (va, _) =>
      let first := ((h.coordsOf coords r b)[0]?).getD 0
      if h.fmt = 6 then (if b % 4 = 0 then some (va, 3, src + r * pitch + b, first) else none)
      else some (va, elemBits h.fmt / 8, src + r * pitch + b * elemBytes h.fmt, first)
/-- The physical lines of a span. -/
def spanLines (s : State) (ctx : Nat) (va : Int) (n : Nat) : List Nat :=
  (List.range ((va.toNat + n - 1) / 64 - va.toNat / 64 + 1)).filterMap fun i =>
    match vaPlace s ctx (((va.toNat / 64 + i) * 64 : Nat) : Int) with | some (.off pa _) => some (pa / 64) | _ => none
/-- The lines that a store still owns: it lets go of each when it has written it for the last time (R245). -/
def cmdLines (s : State) (x : Cmd) : List Nat :=
  match x.kind with
  | .store h cs src pitch => if x.failed.isSome || x.moved then [] else ((storeSpans h cs src pitch).drop x.done).flatMap fun (va, n, _, _) => spanLines s x.ctx va n
  | _ => []
def bulkLines (s : State) (x : Bulk) : List Nat := if x.failed.isSome || x.moved then [] else spanLines s x.ctx (x.dst + 64 * x.done : Nat) (x.len - 64 * x.done)
/-- Whether an engine owns the line of a place: an access to it is recalled, and waits for the engine's writes (R245). -/
def engineOwns (s : State) (p : Place) : Bool :=
  match p with
  | .off pa _ => s.cores.any (fun (_, co) => co.copies.any fun x => (cmdLines s x).contains (pa / 64)) || s.bulks.any fun b => (bulkLines s b).contains (pa / 64)
  | _ => false


/-! ### The order within a thread (R238) -/

def Pend.acquires (p : Pend) : Bool := (p.read && decide (p.order = .sc ∨ p.order = .acq)) || p.fence.isSome
def Pend.releases (p : Pend) : Bool := p.write && decide (p.order = .sc ∨ p.order = .rel)
def pendsOverlap (a b : Pend) : Bool := a.lanes.any fun x => b.lanes.any fun y => decide (x.slot = y.slot) && overlap x.place x.len y.place y.len
def sharesSlot (a b : Pend) : Bool := a.lanes.any fun x => b.lanes.any fun y => decide (x.slot = y.slot)
/-- Whether the earlier access `a` is ordered before the later access `b` of a common thread. -/
def orderedBefore (a b : Pend) : Bool :=
  a.acquires || b.releases || (decide (a.order = .sc ∧ b.order = .sc) && a.fence.isNone && b.fence.isNone) || (a.read && b.fence.isSome) || pendsOverlap a b
/-- Accesses of a core to one line of a peer keep their order on its link (R399). -/
def samePeerLine (a b : Pend) : Bool :=
  a.lanes.any fun x => (match x.place with | .off pa _ => isPeer pa | _ => false) && b.lanes.any fun y => decide (lineOf y.place = lineOf x.place)
/-- An ATCAS that would write nothing now is a read for ordering (R249). -/
def Pend.asNow (s : State) (p : Pend) : Pend :=
  match p.kind with
  | .atomic 9 _ _ _ => { p with write := p.lanes.any fun l => decide (readPlace s l.place l.len = l.cmp) }
  | _ => p

/-! ### Scopes, and accesses performed early (R235-R242) -/

/-- The thread of a slot as an agent. -/
def agentOf (s : State) (c slot : Nat) : Agent :=
  let co := coreOf s c
  match get? co.threads slot with
  | some t => { core := c, slot := slot, crew := t.crew, wg := (wgKey co slot).getD 0 }
  | none => { core := c, slot := slot, crew := 0, wg := 0, gone := true }
/-- Whether the scope instance of an agent's access holds another thread (R235). -/
def inScope (s : State) (a : Agent) (scope : Nat) (b : Agent) : Bool :=
  match scope with
  | 0 => decide (a.core = b.core ∧ a.slot = b.slot)
  | 1 => decide (a.core = b.core ∧ a.crew = b.crew)
  | 2 => decide (a.core = b.core)
  | 3 => decide (a.core = b.core) ||
      match get? (coreOf s a.core).wgs a.wg with | some w => w.members.any fun x => decide (x.1 = b.core) | none => false
  | 4 => decide (dieOf a.core = dieOf b.core)
  | _ => true
/-- Two accesses are mutually scoped (R236). -/
def mutuallyScoped (s : State) (a : Agent) (m : Nat) (b : Agent) (n : Nat) : Bool := a.gone || b.gone || (inScope s a m b && inScope s b n a)
def inFlightId (s : State) (id : Nat) : Bool := s.cores.any fun (_, co) => co.pend.any fun q => decide (q.id = id)
/-- A note counts while an access that it names is in flight. -/
def Note.live (s : State) (n : Note) : Bool := n.ids.any (inFlightId s)
/-- Whether some bytes hold a value that carries the release of an access performed early. -/
def notedAt (s : State) (p : Place) (n : Nat) : Bool :=
  s.notes.any fun x => x.live s && match x.at' with | .wrote q k => overlap q k p n | _ => false
/-- Whether the scopes let a note hold back an agent: one of another thread, mutually scoped with it. -/
def Note.reaches (s : State) (x : Note) (b : Agent) (scope : Nat) : Bool :=
  x.live s && !decide (x.who.core = b.core ∧ x.who.slot = b.slot) && mutuallyScoped s x.who x.scope b scope
/-- Whether a thread has read a value whose release reaches its acquire fence (R239). -/
def heardBy (s : State) (c slot scope : Nat) : Bool :=
  s.notes.any fun x => decide (x.at' = .heard c slot) && x.reaches s (agentOf s c slot) scope
/-- What synchronises with a release, or comes after an SC store in the SC order, waits for the accesses that are still to be performed before it
(R239, R240, R242): an acquire of a value that carries it, an acquire fence after such a read, an SC access to the store's bytes unless it has an earlier place itself. -/
def heldByNote (s : State) (c : Nat) (p : Pend) : Bool :=
  let placed := s.notes.takeWhile fun x => !(x.ids.contains p.id && match x.at' with | .scStore .. => true | _ => false)
  s.notes.any fun x => p.lanes.any fun l => x.reaches s (agentOf s c l.slot) p.scope && match x.at' with
    | .wrote q k => p.acquires && p.fence.isNone && overlap q k l.place l.len
    | .heard d i => p.fence.isSome && decide (d = c ∧ i = l.slot)
    | .scStore q k => decide (p.order = .sc) && overlap q k l.place l.len && placed.contains x
    | _ => false
/-- An earlier access that R238 orders before a later one which may still be performed first, since only happens-before shows that order to others
(R237): a store before the release or the SC access `p`, or a read that acquires nothing before a store that releases. The order of a
thread's own reads always shows (R237, the IRIW litmus), and no scope holds the host. -/
def passable (q p : Pend) : Bool :=
  decide (p.scope < 6) && p.fence.isNone && q.fence.isNone && !q.acquires && !pendsOverlap q p && (!q.read || !p.read) &&
  match q.kind, p.kind with | .maint .., _ | _, .maint .. => false | _, _ => true
/-- The bytes of a thread's own store that a load takes before the store is performed (R237): its latest one that overlaps them, if that
covers them. -/
def ownStore (co : Core) (p : Pend) (l : PLane) : Option (Option Nat) :=
  let mine := co.pend.filterMap fun q => if q.id < p.id then
    (q.lanes.find? fun x => decide (x.slot = l.slot) && overlap x.place x.len l.place l.len).map fun x => (q, x) else none
  match mine.getLast? with
  | none => none
  | some (q, x) =>
    let at' := (List.range x.len).find? fun i => decide (x.place.shift i = l.place ∧ i + l.len ≤ x.len)
    match q.kind, at' with
    | .store, some i => some (some (x.data / 2 ^ (8 * i) % 2 ^ (8 * l.len)))
    | _, _ => some none
/-- Whether an access takes its lanes' own stores where they overlap it: a load that meets each of them whole. -/
def forwards (co : Core) (p : Pend) : Bool :=
  match p.kind with
  | .load _ => p.fence.isNone && p.lanes.all fun l => decide (ownStore co p l ≠ some none)
  | _ => false
/-- The earlier accesses of its threads that R238 orders before an access. -/
def ordersBefore (s : State) (co : Core) (p : Pend) : List Pend :=
  co.pend.filter fun q => decide (q.id < p.id) && sharesSlot q p && orderedBefore q (p.asNow s)
def mayPerform (s : State) (c : Nat) (co : Core) (p : Pend) : Bool :=
  (ordersBefore s co p).isEmpty && !(co.pend.any fun q => decide (q.id < p.id) && samePeerLine q p) && !heldByNote s c p
/-- Whether an access may be performed before all that R238 orders before it. -/
def mayEarly (s : State) (c : Nat) (co : Core) (p : Pend) : Bool :=
  !(ordersBefore s co p).isEmpty &&
  (ordersBefore s co p).all (fun q => passable q (p.asNow s) || (forwards co p && decide (q.kind = .store) && pendsOverlap q p)) &&
  !(co.pend.any fun q => decide (q.id < p.id) && samePeerLine q p) && !heldByNote s c p
/-- A lane of an ATCAS that would write nothing now and may be performed as a read (R249), while lanes that write wait as releases; of one
location the lanes come in ascending slot (R251). -/
def failingLane (s : State) (c : Nat) (co : Core) (p : Pend) : Option PLane :=
  match p.kind with
  | .atomic 9 _ _ _ => p.lanes.find? fun l =>
      (p.lanes.takeWhile fun x => decide (x.slot ≠ l.slot)).all (fun x => !overlap x.place x.len l.place l.len) &&
      decide (readPlace s l.place l.len ≠ l.cmp) && mayPerform s c co { p with lanes := [l] }
  | _ => none
/-- The lanes of an access that may be performed. -/
def lanesReady (s : State) (c : Nat) (co : Core) (p : Pend) : List PLane := if mayPerform s c co p then p.lanes else (failingLane s c co p).toList

/-! ### What a matrix word reads and writes (R179, R185, R186) -/

def arg (vs : List Nat) (n : Nat) : Nat := (vs[n]?).getD 0
def zBytes (f : ZFmt) : Nat := match f with | .f32 => 128 | .bf16 => 64 | .f16 => 64 | .mf32 => 256
/-- The tile a matrix word touches. -/
def jobTile (i : Instr) : Nat :=
  match i with
  | .mma _ t .. | .mmad _ t .. | .mmam _ t .. | .zclr _ t .. | .zld _ t .. | .zst _ t .. | .zwr _ t .. => t
  | .zrd _ _ t .. => t
  | _ => 0
/-- The operand with a row for each lane, its bytes a row, and whether it is written. -/
def laneOperand (i : Instr) : Option (Operand × Nat × Bool) :=
  match i with
  | .mma _ _ _ a _ _ => some (a, 64, false)
  | .mmad _ _ a _ _ => some (a, 256, false)
  | .mmam _ _ a _ => some (a, 256, false)
  | .zld _ _ _ a f => some (a, zBytes f, false)
  | .zst _ _ _ (.mem o) _ f _ => some (o, zBytes f, true)
  | _ => none
/-- The operand B, with its rows and the bytes of a row. -/
def operandB (i : Instr) : Option (Operand × Nat × Nat) :=
  match i with
  | .mma _ _ _ _ b (.s8 ..) => some (b, 64, 32)
  | .mma _ _ _ _ b _ => some (b, 32, 64)
  | .mmad _ _ _ b f => some (b, 32, if f = .f32 then 128 else 64)
  | .mmam _ _ _ b => some (b, 32, 256)
  | _ => none
def amaxOf (i : Instr) : Option Operand := match i with | .zst _ _ _ _ a .. => a | _ => none

/-- The words that may read out: no earlier word on their tile is left, a stopped one included (R196). -/
def mayRead (l : List Job) : List Job := l.filter fun j => !j.read && !j.held && !l.any fun k => decide (k.id < j.id ∧ jobTile k.instr = jobTile j.instr)

/-! ### Budgets at the home agents (R30, R311, R312) -/

def spentMem (s : State) (ctx h : Nat) : Bool :=
  let x := ctxOf s ctx
  let n := bits x.budget.toNat 16 16
  decide (n ≠ 0xFFFF ∧ 4096 * n ≤ rget 0 x.memSpent h)
/-- The home agent that serves a place, where the module has it. -/
def placeHome (p : Place) : Option Nat := match p with | .off pa _ => if tierOf pa < 2 then some (homeOf pa) else none | _ => none
def pendHome (p : Pend) : Option Nat := p.lanes.head?.bind fun l => placeHome l.place
def pendCtx (co : Core) (p : Pend) : Nat := match get? co.wgs p.wg with | some w => w.ctx | none => 0
/-- The VA of an XCODE's bytes, when it lies inside its space (R277). -/
def codeVA (s : State) (x : Cmd) (a : Nat) (obj : Bool) : Option Nat :=
  if obj then (match fnOf s x.ctx x.fn with
    | some f => if a + 32 ≤ min f.segSize (2 ^ 31) then some (f.seg + a) else none
    | none => none)
  else if a + 32 ≤ 2 ^ 57 then some a else none
/-- The first command of a unit that has not failed: a unit serves its commands in issue order (R278). -/
def headCmd (co : Core) : Option Cmd := (co.copies.find? fun x => x.failed.isNone).bind fun x => if x.parked then none else some x
def lineSpans (va len : Nat) : List (Int × Nat) := (List.range (len / 64)).map fun i => (((va + 64 * i : Nat) : Int), 64)
/-- The lines that a BULK still reads and writes. -/
def bulkSrc (x : Bulk) : List (Int × Nat) := (lineSpans x.src x.len).drop x.done
def bulkDst (x : Bulk) : List (Int × Nat) := (lineSpans x.dst x.len).drop x.done
/-- The virtual addresses that a command at the head of its unit asks for. -/
def cmdAsks (s : State) (x : Cmd) : List Int :=
  match x.kind with
  | .load h cs .. => (cellSpans h cs (h.cells.drop x.done)).map (·.1)
  | .store h cs src pitch => ((storeSpans h cs src pitch).drop x.done).map (·.1)
  | .code a obj _ => (codeVA s x a obj).toList.map Int.ofNat
/-- The rows in virtual memory that a matrix word asks for. -/
def jobAsks (w : WG) (j : Job) : List Int :=
  let row := fun (o : Operand) (a st r : Nat) => if o.sp = .g then [(a : Int) + sextNat st 32 * (r : Nat)] else []
  (match laneOperand j.instr with
    | some (o, _, _) => j.lanes.flatMap fun i => row o (arg j.vals 0) (arg j.vals 1) (i % widthOf w.kern)
    | none => []) ++
  (match operandB j.instr with | some (o, n, _) => (List.range n).flatMap (row o (arg j.vals 2) (arg j.vals 3)) | none => []) ++
  (match amaxOf j.instr with | some o => row o (arg j.vals 2) 0 0 | none => [])
/-- The requests for virtual memory that wait at a core's units, with their contexts: of its copy unit, its map unit and its matrix unit. -/
def coreAsks (s : State) (co : Core) : List (Nat × Int) :=
  (match headCmd co with | some x => if x.moved then [] else (cmdAsks s x).map fun va => (x.ctx, va) | none => []) ++
  (co.wants.filterMap fun (b, k, i) => (get? co.wgs b).bind fun w => (get? w.maps k).map fun m => (w.ctx, ((m.va + 32 * i : Nat) : Int))) ++
  (mayRead co.jobs).flatMap fun j => match get? co.wgs j.wg with | some w => (jobAsks w j).map fun va => (w.ctx, va) | none => []
def bulkAsks (s : State) : List (Nat × Int) :=
  (s.bulks.filter fun x => x.engine.isSome && !x.moved && !x.parked && x.failed.isNone).flatMap fun x =>
    (bulkSrc x ++ bulkDst x).map fun (va, _) => (x.ctx, va)
/-- Whether a context other than `ctx` that has bytes left at a home agent has a request that waits there. -/
def othersAsk (s : State) (ctx h : Nat) : Bool :=
  let free := fun (c : Nat) => decide (c ≠ ctx) && !spentMem s c h
  let asks := fun (l : List (Nat × Int)) => l.any fun (c, va) => free c && match vaPlace s c va with | some p => decide (placeHome p = some h) | none => false
  (s.cores.any fun (k, d) => (d.pend.any fun q => decide (pendHome q = some h) && free (pendCtx d q) && mayPerform s k d q) || asks (coreAsks s d)) ||
  asks (bulkAsks s)
/-- Requests of a context that has spent its bytes at a home wait while another context has one there. -/
def trafficHeld (s : State) (ctx : Nat) (ps : List Place) : Bool :=
  ps.any fun p => match placeHome p with
    | none => false
    | some h => spentMem s ctx h && othersAsk s ctx h
/-- Bytes that a context moves at places count at their homes. -/
def countTraffic (s : State) (ctx : Nat) (ps : List (Place × Nat)) : State :=
  updCtx s ctx fun x => { x with memSpent := ps.foldl (fun m (p, n) => match placeHome p with
    | none => m
    | some h => put m h (rget 0 m h + n)) x.memSpent }

/-! ### Continuation queues in their spill regions (R286, R392) -/

/-- The records a continuation queue holds at most: its spill size over 32. -/
def contRoom (s : State) (ctx : Nat) : Nat := 2 ^ (16 + ctxField s ctx 343 4) / 32
/-- The address of place `j` of a queue's ring (log entry 96). -/
def contVA (s : State) (ctx q j : Nat) : Nat := ctxField s ctx 256 57 + 2 ^ (16 + ctxField s ctx 343 4) * q + 32 * (j % contRoom s ctx)

/-! ### Accesses in flight -/

/-- Whether an access of the thread itself to some bytes is still to be performed: program order keeps a later one behind it (R238). -/
def ownPending (co : Core) (i : Nat) (p : Place) (n : Nat) : Bool :=
  co.pend.any fun q => q.lanes.any fun l => decide (l.slot = i) && overlap l.place l.len p n
/-- Whether a frame, table or record access of a thread must wait: for the thread's own accesses to those bytes (R67), for an engine that
owns the line (R25, R245), for its context's budget (R312), or for what a release performed early follows (R240). -/
def mustWait (s : State) (co : Core) (ctx i : Nat) (p : Place) (n : Nat) : Bool :=
  ownPending co i p n || engineOwns s p || trafficHeld s ctx [p] || notedAt s p n
/-- Whether an acquire of a thread is still to be performed: every later access of it comes after (R238). -/
def acquirePending (co : Core) (i : Nat) : Bool := co.pend.any fun q => q.acquires && q.lanes.any fun l => decide (l.slot = i)
/-- Whether any of some threads still has an access to perform. -/
def anyPending (co : Core) (l : List Nat) : Bool := co.pend.any fun p => p.lanes.any fun x => l.contains x.slot
/-- Whether an access in flight is one of a workgroup's: a batch may mix several (R84, R93). -/
def Pend.isOf (p : Pend) (base : Nat) (w : WG) : Bool :=
  decide (p.wg = base) || p.lanes.any fun l => decide (base ≤ l.slot ∧ l.slot < base + widthOf w.kern * w.ncrews)
/-- Whether an access in flight, of any core, goes to a workgroup's scratchpad (R205, R212). -/
def reachesScratch (s : State) (c base : Nat) : Bool :=
  s.cores.any fun (_, co) => co.pend.any fun p => p.lanes.any fun l => match l.place with | .scr c' b _ => decide (c' = c ∧ b = base) | _ => false
/-- Whether a workgroup still has an access in flight, or one reaches its scratchpad. -/
def inFlight (s : State) (c base : Nat) (w : WG) : Bool := (coreOf s c).pend.any (fun p => p.isOf base w) || reachesScratch s c base

end Sys2Proof.Machine
end

