-- ==== Sys2Proof/Machine/Trace.lean ====
section
/-! DEFINITION. Trace records, samples and energy (R404-R411). -/
namespace Sys2Proof.Machine

/-! ### The ring (R404, R408) -/

def trcField (s : State) (ctx lo n : Nat) : Nat := bits (ctxOf s ctx).trcctl.toNat lo n
def traceOn (s : State) (ctx : Nat) : Bool := decide (trcField s ctx 0 1 = 1)
def ringSize (s : State) (ctx : Nat) : Nat := 2 ^ (16 + trcField s ctx 16 4)
def ringRoom (s : State) (ctx n : Nat) : Bool :=
  let x := ctxOf s ctx
  decide ((x.trchead - x.trctail).toNat + n ≤ ringSize s ctx)
/-- Bytes of one page written at a virtual address of the context; lost where the page cannot be written. -/
def storeVA (s : State) (ctx va : Nat) (bs : List Byte) : State :=
  match translateVA s ctx va true with
  | .ok pa sn => writePlace s (.off pa sn) bs
  | _ => s
/-- The same, performed at scope system: a copy that the device keeps of a non-snooped line is written out (R210). -/
def storeSys (s : State) (ctx va : Nat) (bs : List Byte) : State :=
  match translateVA s ctx va true with
  | .ok pa sn =>
    let s := writePlace s (.off pa sn) bs
    if sn then s else (List.range ((bs.length + 63) / 64)).foldl (fun s i => cleanLine s (pa / 64 + i) true) s
  | _ => s
/-- The 32-byte units of a record, from a ring offset on. -/
def ringUnits (ctx : Nat) : List (List Byte) → Nat → State → State
  | [], _, s => s
  | u :: r, o, s => ringUnits ctx r (o + 32) (storeSys s ctx ((ctxOf s ctx).trcbase.toNat + o % ringSize s ctx) u)
def traceCore (s : State) (c ctx : Nat) : TraceCore := rget {} (coreOf s c).trace ctx
def setTrace (s : State) (c ctx : Nat) (f : TraceCore → TraceCore) : State :=
  updCore s c fun co => { co with trace := put co.trace ctx (f (rget {} co.trace ctx)) }
/-- A record enters the ring and TRCHEAD passes it, or it is dropped and counted (R408). `burst` marks a record of a burst (R407). -/
def rawRecord (s : State) (c ctx : Nat) (burst : Bool) (units : List (List Byte)) : State :=
  let n := 32 * units.length
  if ringRoom s ctx n then
    let s := ringUnits ctx units (ctxOf s ctx).trchead.toNat s
    let s := updCtx s ctx fun x => { x with trchead := x.trchead + BitVec.ofNat 64 n }
    if burst then s else setTrace s c ctx fun t => { t with since := t.since + 1 }
  else setTrace s c ctx fun t => { t with drops := min (t.drops + 1) 0xFFFFFFFF }

/-- Unit 0 (R405). -/
def unit0 (s : State) (c ty sel body : Nat) : List Byte :=
  toBytes 32 (body % 2 ^ 173 + pieceAt 173 2 sel + pieceAt 175 9 c + pieceAt 184 8 ty + pieceAt 192 64 (now s))

/-! ### Bursts (R407) -/

def reasonCode (r : Option Reason) : Nat :=
  match r with
  | none => 0
  | some .gather => 1
  | some .refill => 2
  | some .replay => 3
  | some .binding => 4
  | some .queue => 5
  | some .barrier => 6
  | some .counter => 7
  | some .swap => 8
def posField (p : Pos) : Nat := pieceAt 24 16 p.fn + pieceAt 8 16 p.node + pieceAt 0 8 p.step
/-- The descriptor of a block-table entry (R84). -/
def descriptor (e : Entry) : Nat :=
  pieceAt 24 40 (posField e.pos) + pieceAt 22 2 (if e.reason.isSome then 2 else 1) + pieceAt 18 4 (reasonCode e.reason) +
  pieceAt 13 5 e.level + pieceAt 0 13 e.age
/-- An 8,192-bit bitmap, slot 0 at bit 0. -/
def bitmap (slots : List Nat) : Nat := slots.foldl (fun x i => if i < 8192 then x + 2 ^ i else x) 0
def splitUnits : Nat → List Byte → List (List Byte)
  | 0, _ => []
  | n + 1, l => l.take 32 :: splitUnits n (l.drop 32)
def launchIdOf (s : State) (ctx arr : Nat) : Nat :=
  match (ctxOf s ctx).launches.find? fun l => decide (l.arr = arr) with
  | some l => recField l.record 192 16
  | none => 0
def entryCtx (co : Core) (e : Entry) : Nat := match e.slots with | i :: _ => (match keyOf co i with | some (_, _, w) => w.ctx | none => 0) | [] => 0
def syncRecord (s : State) (c ctx k : Nat) (e : Entry) (last : Bool) : List (List Byte) :=
  unit0 s c 1 0 (pieceAt 64 64 (descriptor e) + pieceAt 128 9 k + pieceAt 137 16 (launchIdOf s ctx e.launch) + pieceAt 153 1 (encBool last)) ::
  splitUnits 32 (toBytes 1024 (bitmap e.slots))
def syncAll (c ctx : Nat) : List (Nat × Entry) → State → State
  | [], s => s
  | (k, e) :: r, s => syncAll c ctx r (rawRecord s c ctx true (syncRecord s c ctx k e r.isEmpty))
/-- A SYNC burst. -/
def syncNow (s : State) (c ctx : Nat) : State :=
  let co := coreOf s c
  let s := setTrace s c ctx fun t => { t with burst := false, since := 0 }
  match co.entries.filter fun (_, e) => decide (entryCtx co e = ctx) with
  | [] => rawRecord s c ctx true (unit0 s c 1 0 (pieceAt 153 1 1) :: splitUnits 32 (toBytes 1024 0))
  | l => syncAll c ctx l s

def burstDue (t : TraceCore) : Bool := t.burst || decide (4096 ≤ t.since)
def burstIfDue (s : State) (c ctx : Nat) : State := if burstDue (traceCore s c ctx) then syncNow s c ctx else s
/-- Whether a core has dropped records of a context and there is room again. -/
def lostDue (s : State) (c ctx : Nat) : Bool := decide (0 < (traceCore s c ctx).drops) && ringRoom s ctx 32
/-- The LOST record, when it is due; a burst comes before the next record (R407, R408). -/
def lostNow (s : State) (c ctx : Nat) : State :=
  if lostDue s c ctx then
    setTrace (rawRecord s c ctx false [unit0 s c 5 0 (traceCore s c ctx).drops]) c ctx fun t => { t with drops := 0, burst := true }
  else s
/-- What is due on a core before its next record of a context: a burst, the LOST record, and a burst again. -/
def traceDue (s : State) (c ctx : Nat) : State := burstIfDue (lostNow (burstIfDue s c ctx) c ctx) c ctx
/-- Room has returned in a context's ring: each core that dropped records writes its LOST record (R408). -/
def roomBack (s : State) (ctx : Nat) : State :=
  if !traceOn s ctx then s
  else (keys s.cores).foldl (fun s c => if lostDue s c ctx then lostNow (burstIfDue s c ctx) c ctx else s) s
/-- Write a record of a context on a core, after what is due there. -/
def emitTrace (s : State) (c ctx ty sel body : Nat) (more : List (List Byte)) : State :=
  if !traceOn s ctx then s
  else
    let s := traceDue s c ctx
    rawRecord s c ctx false (unit0 s c ty sel body :: more)
/-- BATCH, TRAP and MARK records (R406); a selector forms the batch of a BATCH record, and the other two name none (R405). -/
def traceBatch (s : State) (c ctx sel k : Nat) (e : Entry) (slots : List Nat) : State :=
  if trcField s ctx 1 1 = 1 then
    emitTrace s c ctx 2 sel (pieceAt 64 64 (descriptor e) + pieceAt 128 9 k + pieceAt 137 8 (slots.length - 1) + pieceAt 145 13 (slots.headD 0)) []
  else s
def traceTrap (s : State) (c ctx code slot : Nat) (p : Pos) : State :=
  emitTrace s c ctx 3 0 (pieceAt 0 8 code + pieceAt 8 13 slot + pieceAt 24 40 (posField p)) []
def traceMark (s : State) (c ctx x slot : Nat) (p : Pos) : State :=
  if trcField s ctx 2 1 = 1 then emitTrace s c ctx 4 0 (pieceAt 0 32 x + pieceAt 32 13 slot + pieceAt 64 40 (posField p)) [] else s

/-! ### Samples (R409) -/

/-- The distinct 32-byte sectors of cached places. -/
def sectorsOf (ps : List Place) : Nat :=
  (ps.foldl (fun l p => match p with | .off pa _ => insertSlot l (pa / 32) | _ => l) []).length
/-- Whether a sampled lane still has to complete. -/
def sampleOpen (co : Core) (x : Sample) : Bool :=
  co.pend.any (fun p => p.lanes.any fun l => decide (l.sample = some x.id)) ||
  x.slots.any fun i => match get? co.threads i with
    | some t => decide (t.pos = x.pos) && (match t.resume with | .replay .. | .refused .. => true | _ => false)
    | none => false
/-- The ASSAY record of a sample: the ticks queued at the levels that the word reached are free, and 0 at the others (log entry 12). -/
def assayRecord (s : State) (c : Nat) (x : Sample) : State :=
  let (n, s) := takeFresh s
  let body := pieceAt 64 64 (pieceAt 24 40 (posField x.pos)) + pieceAt 136 8 x.lanes + pieceAt 144 8 (min x.sect 255) + pieceAt 152 8 x.repl + pieceAt 160 7 x.last
  let waits := (Config.sampleTicks n).toNat % 2 ^ (32 * min x.deep 4) + pieceAt 128 32 (min (now s - x.start) 0xFFFFFFFF)
  emitTrace s c x.ctx 6 0 body [toBytes 32 waits]
/-- Samples whose last lane has completed are written. -/
def sampleSweep (s : State) (c : Nat) : State :=
  let co := coreOf s c
  let done := co.samples.filter fun x => !sampleOpen co x
  if done.isEmpty then s
  else done.foldl (fun s x => assayRecord s c x) (updCore s c fun co => { co with samples := co.samples.filter fun x => !done.contains x })
/-- An issued LD, ST or atomic word: whether it is the sampled one of its period; its sample's number then. `live` are its lanes. -/
def sampleStart (s : State) (c ctx : Nat) (p : Pos) (live : List Nat) (sect : Nat) : Option Nat × State :=
  let P := trcField s ctx 20 4
  if !traceOn s ctx || decide (P = 15) then (none, s)
  else
    let n := (traceCore s c ctx).words + 1
    if n < 2 ^ (P + 6) then (none, setTrace s c ctx fun t => { t with words := n })
    else
      let s := setTrace s c ctx fun t => { t with words := 0 }
      let (id, s) := takeSeq s
      let x : Sample := { id := id, ctx := ctx, pos := p, start := now s, slots := live, lanes := live.length, sect := sect }
      (some id, updCore s c fun co => { co with samples := co.samples ++ [x] })
def updSample (s : State) (c id : Nat) (f : Sample → Sample) : State :=
  updCore s c fun co => { co with samples := co.samples.map fun y => if y.id = id then f y else y }
/-- The sample of a lane that replays its word. -/
def sampleOf (co : Core) (p : Pos) (slot : Nat) : Option Nat := (co.samples.find? fun x => decide (x.pos = p) && x.slots.contains slot).map (·.id)
def sampleIds (l : List PLane) : List Nat := l.foldl (fun out x => match x.sample with | some k => insertSlot out k | none => out) []
/-- Replayed lanes of sampled words, with the sectors that they request. -/
def sampleReplays (s : State) (c : Nat) (lanes : List PLane) : State :=
  (sampleIds lanes).foldl (fun s k =>
    let own := lanes.filter fun l => decide (l.sample = some k)
    updSample s c k fun y => { y with repl := y.repl + own.length, sect := y.sect + sectorsOf (own.map (·.place)) }) s
/-- The lanes of a performed access that belong to sampled words: of each, one returned last so far. -/
def sampleLanes (s : State) (c width : Nat) (lanes : List PLane) : State :=
  (sampleIds lanes).foldl (fun s k =>
    let own := (lanes.filter fun l => decide (l.sample = some k)).map fun l => l.slot % width
    let (n, s) := takeFresh s
    updSample s c k fun y => { y with last := (own[Config.sampleLast n % max 1 own.length]?).getD 0 }) s

/-! ### Energy (R410, R411) -/

/-- The units of a word, and whether it is charged once, to its issuing lane. -/
def energyOf (i : Instr) : Nat × Bool :=
  let f := fun (ty : FTy) => if ty = .f32 then (2, false) else (3, false)
  match i with
  | .leave .. | .next .. | .ret .. | .done .. | .rep .. | .enrol .. | .strike .. | .iadd .. | .isub .. | .imul .. | .imulh ..
  | .imulhu .. | .idiv .. | .idivu .. | .irem .. | .iremu .. | .ineg .. | .iabs .. | .imin .. | .imax .. | .iminu .. | .imaxu ..
  | .isat .. | .irsh .. | .land .. | .lor .. | .lxor .. | .landn .. | .lnot .. | .shl .. | .shr .. | .sar .. | .rol .. | .bfx ..
  | .bfxu .. | .popc .. | .clz .. | .brev .. | .mov .. | .imad .. | .bfi .. | .iqnt .. | .movi .. | .ail .. | .aih .. | .icmp ..
  | .isel .. | .pset .. | .pand .. | .por .. | .pxor .. | .pnot .. | .xset .. | .xmov .. | .xmovToV .. | .xadd .. | .xaddOrg ..
  | .aset .. | .aadd .. | .aaddStride .. | .amul .. | .ashl .. | .aval .. | .avalBase .. | .avalStride .. | .trap .. | .brkp ..
  | .resumeRetry .. | .resumeSkip .. | .resumeAbandon .. | .resumeKill .. | .srd .. | .swr .. | .nop .. | .hint .. | .pmatch ..
  | .pmatchRm .. => (1, false)
  | .fadd _ ty | .fsub _ ty | .fmul _ ty | .fmin _ ty | .fmax _ ty | .fabs _ ty | .fneg _ ty | .fcps _ ty | .fscl _ ty
  | .fclass _ ty | .frnd _ ty _ | .fcvti _ ty _ _ => f ty
  | .fcmp _ _ _ _ _ ty => f ty
  | .ffma _ ty _ _ _ => f ty
  | .icvtf _ _ _ _ ty _ => f ty
  | .fcvt _ _ _ _ a b => if a = .f32 then f b else f a
  | .frcp .. | .frsq .. | .fsqrt .. | .fdiv .. | .fex2 .. | .flg2 .. | .fsin .. | .fcos .. | .ftanh .. => (6, false)
  | .mset .. | .msetDet .. | .msplit .. | .mmov .. | .mzero .. | .madd .. | .msub .. | .mscl .. | .mchk .. | .mcol .. => (3, false)
  | .mmul .. | .mfma .. => (6, false)
  | .mrelu .. | .mexp .. | .msigm .. => (10, false)
  | .mma .. => (4096, true)
  | .mmad .. => (8192, true)
  | .mmam .. => (16384, true)
  | .zld .. | .zst .. => (512, true)
  | .zclr .. | .zrd .. | .zwr .. => (64, true)
  | .ld .. | .st .. | .atadd .. | .atmin .. | .atmax .. | .atminu .. | .atmaxu .. | .atand .. | .ator .. | .atxor .. | .atxch ..
  | .atcas .. | .atfadd .. | .cwait .. | .pharr .. | .phwait .. => (4, false)
  | _ => (0, false)
/-- The ticks after which the result of a word with one 32-bit destination is ready (R119, R147, R171, R265, R293). An affine register shows
it to the crew's threads outside the body set from then on (R118). -/
def latencyOf (i : Instr) : Nat :=
  match i with
  | .imul .. | .imulh .. | .imulhu .. | .imad .. | .iqnt .. | .amul .. | .shfx .. => 6
  | .idiv .. | .idivu .. | .irem .. | .iremu .. => 24
  | .fabs .. | .fneg .. | .fcps .. | .fclass .. | .barr .. => 2
  | .frcp .. | .frsq .. | .fex2 .. | .flg2 .. | .fsin .. | .fcos .. | .ftanh .. | .pharr .. => 12
  | .fdiv .. | .fsqrt .. => 20
  | .mcol _ _ _ k => match k with | .mean | .var => 4 | _ => 8
  | _ => 4
def addEnergy (w : WG) (n : Nat) : WG := { w with energy := BitVec.ofNat 64 (min (w.energy.toNat + n) (2 ^ 64 - 1)) }
/-- Charge the workgroups of threads that executed a word. -/
def chargeWord (s : State) (c : Nat) (word : Word64) (slots : List Nat) : State :=
  match decode word with
  | .error _ => s
  | .ok i =>
    let (n, once) := energyOf i
    let who := if once then slots.take 1 else slots
    updCore s c fun co => who.foldl (fun co j => match wgKey co j with | some k => updWG co k fun w => addEnergy w n | none => co) co
/-- The level that serves a sector, 1 to 4 for L1, L2, LLC and memory; 0 for a bank word. -/
def levelOf (s : State) (p : Place) : Nat × State :=
  match p with
  | .scr .. | .die .. => (0, s)
  | .off .. =>
    let (n, s) := takeFresh s
    (Config.servedLevel n % 4 + 1, s)
/-- The units of a sector or a bank word by that level. -/
def levelUnits (p : Place) (level : Nat) : Nat :=
  match p, level with
  | .scr .., _ | .die .., _ => 1
  | _, 1 => 2
  | _, 2 => 8
  | _, 3 => 16
  | .off pa _, _ => match tierOf pa with | 0 => 40 | 1 => 60 | _ => 80
def unitOf (p : Place) : Place := match p with | .off a _ => .off (a / 32) true | .scr c w a => .scr c w (a / 8) | .die d a => .die d (a / 8)
/-- The sectors and bank words of some places, each with the level that serves it. -/
def servedBy : List Place → State → List (Place × Nat) × State
  | [], s => ([], s)
  | p :: r, s =>
    let (k, s) := levelOf s p
    let (l, s) := servedBy r s
    ((p, k) :: l, s)
def unitsOf (ps : List Place) : List Place := ps.foldl (fun l p => if l.any fun q => decide (unitOf q = unitOf p) then l else l ++ [p]) []
/-- Charge a workgroup for the sectors and bank words of a word's places (R410); what served them. -/
def chargeLevels (s : State) (c wg : Nat) (ps : List Place) : List (Place × Nat) × State :=
  let (l, s) := servedBy (unitsOf ps) s
  (l, updCore s c fun co => updWG co wg fun w => addEnergy w (l.foldl (fun n (p, k) => n + levelUnits p k) 0))
def chargePlaces (s : State) (c wg : Nat) (ps : List Place) : State := (chargeLevels s c wg ps).2
/-- How deep the lanes of samples have reached: at most level 4. -/
def sampleDeep (s : State) (c : Nat) (lanes : List PLane) (levels : List (Place × Nat)) : State :=
  (sampleIds lanes).foldl (fun s k =>
    let own := (lanes.filter fun l => decide (l.sample = some k)).map fun l => unitOf l.place
    let deep := levels.foldl (fun m x => if own.contains (unitOf x.1) then max m x.2 else m) 0
    updSample s c k fun y => { y with deep := max y.deep deep }) s

end Sys2Proof.Machine
end

