-- ==== Sys2Proof/Machine/Operands.lean ====
section
/-! DEFINITION. Every operand form of a word, the order of its checks (R50), and the issue of one word to a batch (R90). -/
namespace Sys2Proof.Machine

/-- Why a lane does not complete a word: it traps (`early`: under checks 1-5 of R50); the word cannot issue yet, for an operand, for
a range of the scoreboard (R228) or for a sector to fill (R217); or the lane waits at the step (R95), perhaps for a page. -/
inductive Bar where
  | trap (code : Nat) (srcs : List Nat) (addr arg : Nat) (early : Bool)
  | stall
  | board
  | fill (core wg slot sector : Nat)
  | hold (w : Wait) (r : Reason) (keep : Resume) (fault : Option (Nat × Bool))
deriving DecidableEq, Repr
abbrev L (α : Type) := Except Bar α

def trapE {α : Type} (code : Nat) : L α := .error (.trap code [] 0 0 true)
def trapL {α : Type} (code : Nat) (srcs : List Nat) : L α := .error (.trap code srcs 0 0 false)
def trapA {α : Type} (code : Nat) (srcs : List Nat) (addr : Nat) : L α := .error (.trap code srcs addr 0 false)

/-! Trap codes (R315). -/
def cIllegal : Nat := 0x01
def cUndeclared : Nat := 0x02
def cCrewctx : Nat := 0x03
def cBounds : Nat := 0x04
def cDivzero : Nat := 0x05
def cNegvar : Nat := 0x06
def cChoose : Nat := 0x07
def cTable : Nat := 0x08
def cStack : Nat := 0x09
def cAlign : Nat := 0x0A
def cAccess : Nat := 0x0B
def cScope : Nat := 0x0C
def cOrphan : Nat := 0x0D
def cEngine : Nat := 0x0E
def cRelease : Nat := 0x0F
def cBreak : Nat := 0x10
def cTrapi : Nat := 0x11
def cWatch : Nat := 0x12
def cStep : Nat := 0x13
def cMemerr : Nat := 0x14
/-- The code of an access of the core itself that fails for good: MEMERR where the peer has no route (R400), else ACCESS (R71, R227, R416). -/
def lostCode (s : State) (ctx va : Nat) : Nat := if translateVA s ctx va false = .gone then cMemerr else cAccess

/-- The issue in progress as the lanes see it: the state before the word, the batch, its workgroup and role. -/
structure Env where
  s : State
  c : Nat
  co : Core
  sel : Nat
  b : Batch
  word : Word64
  base : Nat
  w : WG
  r : RoleHdr
  crewB : Bool
deriving Repr

/-- Whether the stop of the core bars a word outside trap context (R316): the words of the tick in which another selector's word trapped
still issue, until a handler starts. -/
def barred (s : State) (co : Core) : Bool :=
  stopped co && (co.stop.running.isSome || co.stop.resumeAt.isSome || decide (co.stop.grace ≠ some (now s)))
/-- The batch that issues, when there is one and its core may issue it (R316): while the core is stopped, only the running handler
group's. -/
def envOf (s : State) : Option Env :=
  match s.cur with
  | none => none
  | some u =>
    let co := coreOf s u.core
    match (selOf co u.sel).batches.find? fun b => decide (b.id = u.batch) with
    | none => none
    | some b =>
      match b.slots with
      | [] => none
      | i :: _ =>
        match get? co.threads i with
        | none => none
        | some t =>
          match crewOf co t with
          | none => none
          | some k =>
            match get? co.wgs k.wg with
            | none => none
            | some w =>
              if barred s co && t.trap.isNone then none
              else some { s := s, c := u.core, co := co, sel := u.sel, b := b, word := u.word, base := k.wg, w := w,
                          r := roleOf w b.role, crewB := t.trap.isNone && isCrewBatch co b.slots }

def Env.width (e : Env) : Nat := widthOf e.w.kern
def Env.thread (e : Env) (i : Nat) : Thread := (get? e.co.threads i).getD { crew := 0 }
def Env.crew (e : Env) (t : Thread) : Crew := (crewOf e.co t).getD { wg := 0, num := 0, role := 0 }
/-- The workgroup of a thread: a batch may hold threads of several (R84, R93). -/
def Env.wg (e : Env) (t : Thread) : WG := (wgOf e.co t).getD e.w
def Env.wgBase (e : Env) (t : Thread) : Nat := (e.crew t).wg
def Env.lane (e : Env) (i : Nat) : Nat := i % e.width

/-! ### Threads -/

def Thread.getV (t : Thread) (n : Nat) : Word := rget 0 t.v n
def Thread.getM (t : Thread) (n : Nat) : Word64 := rget 0 t.m n
def Thread.getP (t : Thread) (n : Nat) : Bool := t.p.getLsbD n
def Thread.getX (t : Thread) (n : Nat) : BitVec 24 := rget 0 t.x n
def addReg (l : List Reg) (r : Reg) : List Reg := if l.contains r then l else l ++ [r]
/-- A write of a v or m register joins the written set (R91). -/
def Thread.setV (t : Thread) (n : Nat) (x : Word) : Thread := { t with v := rput 0 t.v n x, written := addReg t.written (.v n) }
def Thread.setM (t : Thread) (n : Nat) (x : Word64) : Thread := { t with m := rput 0 t.m n x, written := addReg t.written (.m n) }
def Thread.setP (t : Thread) (n : Nat) (b : Bool) : Thread :=
  let bit : BitVec 7 := BitVec.ofNat 7 (2 ^ n)
  { t with p := if b then t.p ||| bit else t.p &&& ~~~bit }
def Thread.setX (t : Thread) (n : Nat) (x : BitVec 24) : Thread := { t with x := rput 0 t.x n x }
/-- A pair with the low word in `vn` (R42). -/
def Thread.setPair (t : Thread) (n : Nat) (x : Nat) : Thread :=
  (t.setV n (BitVec.ofNat 32 x)).setV (n + 1) (BitVec.ofNat 32 (x / 2 ^ 32))
def Thread.getPair (t : Thread) (n : Nat) : Nat := (t.getV n).toNat + 2 ^ 32 * (t.getV (n + 1)).toNat

/-- Origin, length and index of an index register (R45). -/
def xOrg (x : BitVec 24) : Nat := bits x.toNat 0 8
def xLen (x : BitVec 24) : Nat := bits x.toNat 8 8
def xIdx (x : BitVec 24) : Nat := bits x.toNat 16 8
def mkX (org len idx : Nat) : BitVec 24 := BitVec.ofNat 24 (org % 256 + 256 * (len % 256) + 65536 * (idx % 256))

def guardHolds (g : Guard) (t : Thread) : Bool :=
  match g with
  | .always => true
  | .on p neg => t.getP p != neg

/-! ### Fixed registers and the checks before the guard (R46, R39) -/

def pairRegs (n : Nat) : List Reg := [.v n, .v (n + 1)]
/-- The v registers a code names by itself. -/
def codeRegs (c : Code) (w : Bool) : List Reg := match c with | .v n => if w then pairRegs n else [.v n] | _ => []
def srcRegs (x : Src) (w : Bool) : List Reg := codeRegs x.code w
def regsOk (r : RoleHdr) (l : List Reg) : Bool := l.all fun x => match x with | .v n => decide (n < r.nv) | .m n => decide (n < r.nm)
def permLegal (width : Nat) (p : Perm) : Bool := match p with | .rot n => decide (n < width) | _ => true
def srcPops (x : Src) : List Nat := match x.code with | .q n => [n] | _ => []
def codePops (c : Code) : List Nat := match c with | .q n => [n] | _ => []
/-- Whether a field asks for a COOP body (R22, R40). -/
def srcCrewy (x : Src) : Bool := decide (x.perm ≠ .ident) || !(srcPops x).isEmpty
def crewDst (c : Code) : Bool := match c with | .a _ | .q _ => true | _ => false

/-! ### Reading operands (R42, R47, R50 check 4) -/

/-- Whether a read of the register is declared for the thread (R47): live-in, or written earlier in the block. -/
def declared (e : Env) (t : Thread) (r : Reg) : Bool :=
  t.written.contains r || e.b.live.any fun l =>
    match r with
    | .v n => !l.m && decide (l.base ≤ n ∧ n < l.base + l.len)
    | .m n => l.m && decide (l.base ≤ n ∧ n < l.base + l.len)
/-- A declared register, once its load has returned (R90). -/
def useReg (e : Env) (t : Thread) (r : Reg) : L Unit :=
  if declared e t r then (if t.pend.contains r then .error .stall else .ok ()) else trapE cUndeclared
def readV (e : Env) (t : Thread) (n : Nat) : L Nat := do
  useReg e t (.v n)
  return (t.getV n).toNat
def readM (e : Env) (t : Thread) (n : Nat) : L Nat := do
  useReg e t (.m n)
  return (t.getM n).toNat
def readPair (e : Env) (t : Thread) (n : Nat) : L Nat := do
  let lo ← readV e t n
  let hi ← readV e t (n + 1)
  return lo + 2 ^ 32 * hi

/-- The register an indexed access names (R42, R46): BOUNDS of the length, then BOUNDS of the allotment. Of an odd register of a 64-bit
operand the allotment bounds the register itself (R101; log entry 85). -/
def idxReg (e : Env) (t : Thread) (n off : Nat) (w : Bool) : L Nat :=
  let x := t.getX n
  let r := xOrg x + xIdx x + off
  if xLen x ≤ xIdx x + off then trapE cBounds
  else if e.r.nv ≤ r ∨ (w = true ∧ e.r.nv ≤ r + 1 ∧ r % 2 = 0) then trapE cBounds
  else .ok r

/-- The lane a permutation reads (R38), and whether R39 turns it back to the reader and sets WIDE. -/
def permLane (width : Nat) (p : Perm) (l : Nat) : Nat × Bool :=
  let x := match p with
    | .ident => l
    | .rot n => (l + n) % width
    | .bc n => n
    | .bfly n => l ^^^ n
    | .mir n => l ^^^ (2 ^ n - 1)
  if width ≤ x then (l, true) else (x, false)
/-- The slot whose register a permuted field reads, when that thread is in the batch (R41). -/
def permSlot (e : Env) (i : Nat) (p : Perm) : Option Nat :=
  let j := i - e.lane i + (permLane e.width p (e.lane i)).1
  if p = .ident then some i else if e.b.slots.contains j then some j else none
def wideHit (e : Env) (i : Nat) (p : Perm) : Bool := (permLane e.width p (e.lane i)).2

/-- The writes of an affine register that slot `i` does not see yet at a tick, oldest first: those after the last that it sees, whose latency
has ended or which its own body set made (R98, R118). -/
def affHidden (k : Crew) (n i tick : Nat) : List AffOld :=
  ((rget [] k.affOld n).reverse.takeWhile fun o => decide (tick < o.till) && !o.set.contains i).reverse
/-- An affine register as slot `i` sees it: a thread outside the body set that wrote it sees a write when its latency has ended (R118). -/
def affSeen (e : Env) (k : Crew) (n i : Nat) : Word64 :=
  match affHidden k n i (now e.s) with
  | o :: _ => o.old
  | [] => rget 0 k.aff n
/-- An affine register as slot `i` reads it, in lane `l` (R42). -/
def affAt (e : Env) (k : Crew) (n i l : Nat) : Nat :=
  let x := affSeen e k n i
  ((lo32 x).toNat + (hi32 x).toNat * l) % 2 ^ 32
/-- An affine write keeps the old value for those who may not see the new one yet. -/
def hideAff (e : Env) (k : Crew) (n : Nat) : SMap (List AffOld) :=
  let lat := match decode e.word with | .ok i => latencyOf i | .error _ => 0
  put k.affOld n (((rget [] k.affOld n).filter fun o => decide (now e.s < o.till)) ++ [{ old := rget 0 k.aff n, till := now e.s + lat, set := e.b.slots }])

/-- The head entry's word for a lane of a queue register; 0 where there is none. -/
def queueWord (w : WG) (q lane : Nat) : Nat := ((((rget {} w.queues q).entries.headD [])[lane]?).getD 0).toNat

/-- A source value; `odd` marks the ALIGN of an odd indexed pair (R101), which check 6 raises, after the UNDECLARED check of the register
it names (R47, R50; log entry 85). -/
structure Val where
  x : Nat
  odd : Bool := false
deriving DecidableEq, Repr

/-- A 32-bit or 64-bit source of R100 and R101 in lane `i`. -/
def readSrc (e : Env) (i : Nat) (t : Thread) (x : Src) (w : Bool) : L Val :=
  match x.code with
  | .v n =>
    match permSlot e i x.perm with
    | none => .ok { x := 0 }
    | some j => do
      let u := if j = i then t else e.thread j
      let r ← if w then readPair e u n else readV e u n
      return { x := r }
  | .a n =>
    match permSlot e i x.perm with
    | none => .ok { x := 0 }
    | some j => .ok { x := affAt e (e.crew t) n i (e.lane j) }
  | .q n => .ok { x := queueWord (e.wg t) n (e.lane i) }
  | .idx n => do
    let r ← idxReg e t n x.off w
    if w then
      (if r % 2 = 1 then do
         useReg e t (.v r)
         return { x := 0, odd := true }
       else do
         let y ← readPair e t r
         return { x := y })
    else do
      let y ← readV e t r
      return { x := y }
  | .zero => .ok { x := 0 }
  | .lane => .ok { x := e.lane i }
  | .slot => .ok { x := i % 2 ^ 32 }
  | .crew => .ok { x := (e.crew t).num % 2 ^ 32 }
  | .wgid => .ok { x := (e.wg t).id % 2 ^ 32 }
def readCode (e : Env) (i : Nat) (t : Thread) (c : Code) (w : Bool) : L Val := readSrc e i t { code := c } w
/-- An m source in lane `i` (R159): an absent lane reads (+0, +0). -/
def readMSrc (e : Env) (i : Nat) (t : Thread) (x : MSrc) : L Nat :=
  match permSlot e i x.perm with
  | none => .ok 0
  | some j => readM e (if j = i then t else e.thread j) x.m

/-- A list of sources in field order; `odd` when one is misaligned. -/
def readSrcs (e : Env) (i : Nat) (t : Thread) : List (Src × Bool) → L (List Nat × Bool)
  | [] => .ok ([], false)
  | (x, w) :: r => do
    let v ← readSrc e i t x w
    let (vs, odd) ← readSrcs e i t r
    return (v.x :: vs, v.odd || odd)

/-! ### Writing results (R42, R101) -/

/-- Where a result goes: a v register or pair, or nowhere in this thread. -/
inductive Dest where | v (n : Nat) | odd | none
deriving DecidableEq, Repr
/-- The destination of a dst code, after the sources (R50): an indexed one is checked, a register with a load in flight waits. -/
def destOf (e : Env) (t : Thread) (d : Code) (w : Bool) : L Dest :=
  let wait := fun (n : Nat) => if t.pend.contains (.v n) || (w && t.pend.contains (.v (n + 1))) then (.error .stall : L Dest) else .ok (.v n)
  match d with
  | .v n => wait n
  | .idx n => do
    let r ← idxReg e t n 0 w
    if w && decide (r % 2 = 1) then return .odd else wait r
  | _ => .ok .none
def Dest.put (d : Dest) (t : Thread) (w : Bool) (x : Nat) : Thread :=
  match d with
  | .v n => if w then t.setPair n x else t.setV n (BitVec.ofNat 32 x)
  | _ => t
def Dest.regs (d : Dest) (w : Bool) : List Reg := match d with | .v n => if w then pairRegs n else [.v n] | _ => []

/-! ### The issue of a word -/

/-- What a lane makes of a word: its thread afterwards, the value of a crew-wide destination, and a memory access. -/
structure LaneOut where
  t : Thread
  out : Nat := 0
  acc : List PLane := []
deriving DecidableEq, Repr

/-- What the issue needs to know of a word. `srcs`: the source values of a word that pops, as a trap of its queue operands reports them (R323).
`once`: the effect of the executing lane (R216), made when no lane trapped under checks 1-5
and that lane did not trap. `unit`: a matrix word, whose lanes complete it at its read-out (R189). `rep`: the REPST that a REP leaves in the threads that execute it. `again`: a crew-precise word, which a re-formed crew batch executes anew as a whole
when any lane retries (R192, R267). -/
structure WordSpec where
  g : Guard
  regs : List Reg := []
  perms : List Perm := []
  moment : Bool := false
  crew : Bool := false
  pops : List Nat := []
  srcs : Env → Nat → Thread → L (List Nat) := fun _ _ _ => .ok []
  push : Option Nat := none
  aff : Option Nat := none
  again : Bool := false
  unit : Bool := false
  rep : Word := 0
  once : Option (Env → Nat → LaneOut → State → State) := none

def srcVals (l : List (Src × Bool)) (e : Env) (i : Nat) (t : Thread) : L (List Nat) := (readSrcs e i t l).map (·.1)
abbrev Lane := Env → State → Nat → Thread → L (LaneOut × State)
/-- A lane that touches its own thread alone. -/
def pureLane (f : Env → Nat → Thread → L LaneOut) : Lane := fun e s i t => do
  let r ← f e i t
  return (r, s)

/-- Checks that every thread of the batch fails alike, before the guard (R49, R46, R39, R374). -/
def allowedIn (r : RoleHdr) (k : Kernel) (regs : List Reg) (perms : List Perm) (moment : Bool) : Bool :=
  regsOk r regs && perms.all (permLegal (widthOf k)) && !(moment && decide (k.ver = 6))
def legal (e : Env) (p : WordSpec) : Bool := allowedIn e.r e.w.kern p.regs p.perms p.moment

def repAct (t : Thread) : Bool := t.repst.getLsbD 31
def repCur (t : Thread) : Nat := bits t.repst.toNat 0 7
/-- The threads the present issue serves (R81, R82): those still to complete the step, without repetition or at the least one. -/
def participants (e : Env) : List Nat :=
  let left := minus e.b.slots e.b.done
  let acts := left.filter fun i => repAct (e.thread i)
  let cur := acts.foldl (fun m i => min m (repCur (e.thread i))) 64
  left.filter fun i => !repAct (e.thread i) || decide (repCur (e.thread i) = cur)

/-- Run the lanes in ascending slot, each on the state the one before it left. -/
def runLanes (lane : Lane) (e : Env) : State → List Nat → List (Nat × Except Bar LaneOut) × State
  | s, [] => ([], s)
  | s, i :: r =>
    match lane e s i (e.thread i) with
    | .ok (o, s') =>
      let (l, s'') := runLanes lane e s' r
      ((i, .ok o) :: l, s'')
    | .error b =>
      let (l, s'') := runLanes lane e s r
      ((i, .error b) :: l, s'')

def isStall (x : Nat × Except Bar LaneOut) : Bool :=
  match x.2 with | .error .stall | .error .board | .error (.fill ..) => true | _ => false
def okLane (x : Nat × Except Bar LaneOut) : Option (Nat × LaneOut) := match x.2 with | .ok o => some (x.1, o) | _ => none
def trapLane (e : Env) (x : Nat × Except Bar LaneOut) : Option (Nat × TrapInfo) :=
  match x.2 with
  | .error (.trap code srcs addr arg _) =>
    let rep := match (e.thread x.1).resume with | .refused .. | .replay .. => true | _ => false
    some (x.1, { code := code, srcs := srcs, addr := addr, arg := arg, word := e.word, replay := rep, crewb := e.crewB })
  | _ => none
def earlyTrap (x : Nat × Except Bar LaneOut) : Bool := match x.2 with | .error (.trap _ _ _ _ true) => true | _ => false
def holdLane (x : Nat × Except Bar LaneOut) : Option (Nat × Wait × Reason × Resume × Option (Nat × Bool)) :=
  match x.2 with
  | .error (.hold w r k f) => some (x.1, w, r, k, f)
  | _ => none

/-! #### After the lanes -/

/-- One repetition of a thread is complete (R81): its x registers step and REPST moves on, or becomes 0 after the last. -/
def repStep (t : Thread) : Thread :=
  if repAct t then
    let xm := bits t.repst.toNat 14 8
    let t := (List.range 8).foldl (fun t j =>
      if (xm / 2 ^ j) % 2 = 1 then t.setX j (mkX (xOrg (t.getX j)) (xLen (t.getX j)) (min (xIdx (t.getX j) + 1) 255)) else t) t
    let rem := bits t.repst.toNat 7 7 - 1
    { t with repst := if rem = 0 then 0 else BitVec.ofNat 32 (2 ^ 31 + xm * 2 ^ 14 + rem * 2 ^ 7 + (repCur t + 1)) }
  else t
/-- A thread that completed the word: no longer waiting. -/
def Thread.finishWord (t : Thread) : Thread := repStep { t with resume := .none }

def mapBatch (co : Core) (sel id : Nat) (f : Batch → Batch) : Core :=
  let x := selOf co sel
  setSel co sel { x with batches := x.batches.map fun b => if b.id = id then f b else b }
def findBatch (co : Core) (sel id : Nat) : Option Batch := (selOf co sel).batches.find? fun b => decide (b.id = id)
def dropBatch (co : Core) (sel id : Nat) : Core :=
  let x := selOf co sel
  setSel co sel { x with batches := x.batches.filter fun b => decide (b.id ≠ id) }

/-- The threads go to the walker (R91). -/
def toWalker (co : Core) (sel : Nat) (slots : List Nat) (act : WalkAct) : Core :=
  if slots.isEmpty then co else { co with walks := co.walks ++ [{ slots := slots, act := act, sel := sel }] }
/-- Pass to the next step when every thread of the active set completed this one; past the last step the batch ends and its threads
leave the block (R90). -/
def advance (co : Core) (sel id : Nat) : Core :=
  match findBatch co sel id with
  | none => co
  | some b =>
    if b.slots.all b.done.contains then
      if b.pos.step + 1 < b.count then
        let pos := { b.pos with step := b.pos.step + 1 }
        updThreads (mapBatch co sel id fun b => { b with pos := pos, done := [], matched := false, shadow := none, entered := true }) b.slots
          fun t => { t with pos := pos }
      else toWalker (dropBatch co sel id) sel b.slots (.leave b.pos.fn b.pos.node)
    else co
/-- Mark threads as having completed the step: at once, or when their repetitions are over. -/
def markDone (co : Core) (sel id : Nat) (slots : List Nat) : Core :=
  let fin := slots.filter fun i => match get? co.threads i with | some t => !repAct t | none => false
  mapBatch co sel id fun b => { b with done := unionSlots b.done fin, entered := true, boarded := false }

/-- The batch of a crew stops as a whole (R75): lanes that completed the step pass it when they come back. -/
def dissolve (s : State) (c sel id : Nat) : State :=
  match findBatch (coreOf s c) sel id with
  | none => s
  | some b =>
    let s := updCore s c fun co =>
      dropBatch (updThreads (holdBody co b.slots) b.done fun t => { t with resume := .passed }) sel id
    deposit s c b.slots b.pos none 0 false

/-- Held lanes leave the batch and join the held entries of their reasons (R95); a page fault joins its group (R224). -/
def holdLanes (s : State) (c : Nat) (ctx : Nat) (pos : Pos) : List (Nat × Wait × Reason × Resume × Option (Nat × Bool)) → State
  | [] => s
  | (i, w, r, k, f) :: rest =>
    let s := updCore s c fun co => updThread (unbatch co [i]) i fun t => { t with wait := w, resume := k }
    let s := deposit s c [i] pos (some r) 0 false
    let s := match f with
      | some (va, wr) => pageFault s (clusterOf c) ctx va wr (.lane c i)
      | none => s
    holdLanes s c ctx pos rest

/-- Queue registers (R284): the pops come before the push. -/
def popQueues (w : WG) (qs : List Nat) : WG :=
  (qs.foldl insertSlot []).foldl (fun w q => { w with queues := put w.queues q { rget {} w.queues q with entries := (rget {} w.queues q).entries.tail } }) w
/-- The entry a push makes: lane L's result, 0 for a lane outside (R284). -/
def entryOf (width : Nat) (outs : List (Nat × Nat)) : List Word :=
  (List.range 128).map fun l => match outs.find? fun (i, _) => decide (i % width = l) with | some (_, x) => BitVec.ofNat 32 x | none => 0
def pushQueue (w : WG) (q : Nat) (x : List Word) : WG :=
  { w with queues := put w.queues q { rget {} w.queues q with entries := (rget {} w.queues q).entries ++ [x] } }

/-- The end of a single-stepped word (R338): a thread that stays in its block raises STEP at its next step; one that passes the last step
raises it where the walker deposits it. No word raised it: its record's WORD is 0 (log entry 105). -/
def stepTraps (s : State) (c sel id : Nat) (slots : List Nat) : State :=
  let co := coreOf s c
  match findBatch co sel id with
  | none => s
  | some b =>
    let l := slots.filter fun i => b.slots.contains i &&
      match get? co.threads i with | some t => t.stepping && decide (t.repst = 0) && t.trap.isNone | none => false
    if l.isEmpty then s
    else
      let late := l.filter fun i => b.done.contains i
      let out := if b.pos.step + 1 < b.count then [] else late
      let s := updCore s c fun co =>
        let co := updThreads co late fun t => { t with pos := { b.pos with step := b.pos.step + 1 } }
        if out.isEmpty then co else toWalker (unbatch co out) sel out (.leave b.pos.fn b.pos.node)
      takeTrap s c sel ((minus l out).map fun i => (i, { code := cStep, arg := (threadOf co i).stepArg }))

/-- An issue counts for its context's share of the cluster (R311, R312), and for the issue ticks of each workgroup in the batch (R411). The fetch from `page` went
well (R226). -/
def countIssue (s : State) (c ctx : Nat) (bases : List Nat) (page : Nat) : State :=
  let s := updCore s c fun co => bases.foldl (fun co base => updWG co base fun w =>
    { w with counts := put w.counts 0 (rget 0 w.counts 0 + 1), fetchTries := w.fetchTries.filter fun x => decide (x.1 ≠ page) }) co
  updCtx s ctx fun x => { x with issueSpent := put x.issueSpent (clusterOf c) (rget 0 x.issueSpent (clusterOf c) + 1) }

/-- A handler batch's first word starts its limit (R319); the words of this tick still issue when a word traps in it (R316). -/
def noteIssue (s : State) (e : Env) (traps : Bool) : State :=
  updCore s e.c fun co => { co with stop := { co.stop with
    since := if co.stop.running.isSome && co.stop.since.isNone then some (now s) else co.stop.since
    grace := if traps && !stopped co then some (now s) else co.stop.grace } }
/-- The workgroups that a batch serves (R84, R93). -/
def basesOf (e : Env) : List Nat := (e.b.slots.filterMap (wgKey e.co)).foldl insertSlot []
/-- The end of an issue: completed lanes are marked, waiting and trapping lanes leave, and the batch passes on (R90, R95, R316). In a
crew batch a waiting lane, or a trapping lane of a repeated or crew-precise word, holds the whole set (R75, R82, R192); a crew-precise
word then ends no repetition, since the set executes it anew as a whole. -/
def settle (s : State) (e : Env) (p : WordSpec) (done : List Nat) (traps : List (Nat × TrapInfo))
    (holds : List (Nat × Wait × Reason × Resume × Option (Nat × Bool))) : State :=
  let s := noteIssue (countIssue s e.c e.w.ctx (basesOf e) (((wordVA e.s e.w.ctx e.b.pos e.r.nv).getD 0) / 4096)) e (!traps.isEmpty)
  let rep := done.any (fun i => repAct (e.thread i)) || traps.any fun (i, _) => repAct (e.thread i)
  let regather := e.crewB && (!holds.isEmpty || (!traps.isEmpty && (rep || p.again)))
  let s := updCore s e.c fun co =>
    let here := match findBatch co e.sel e.b.id with
      | some b => if p.again && regather then [] else unionSlots [] (done.filter b.slots.contains)
      | none => []
    let co := markDone (updThreads co here Thread.finishWord) e.sel e.b.id here
    if p.rep = 0 then co else updThreads co (done.filter fun i => guardHolds p.g (e.thread i)) fun t => { t with repst := p.rep }
  let s := if regather then updCore s e.c fun co => holdBody co e.b.slots else s
  let s := holdLanes s e.c e.w.ctx e.b.pos holds
  let s := takeTrap s e.c e.sel traps
  let s := if regather then
      let s := if p.again then updCore s e.c fun co => mapBatch co e.sel e.b.id fun b => { b with done := b.slots } else s
      dissolve s e.c e.sel e.b.id
    else updCore s e.c fun co => advance co e.sel e.b.id
  stepTraps s e.c e.sel e.b.id done

/-- The operand-log entries in use (R225), but for those of some lanes. -/
def logUsed (co : Core) (but : List Nat) : Nat :=
  (co.threads.filter fun (i, t) => !but.contains i && match t.resume with | .replay .. => true | _ => false).length

/-- The threads whose wait at the step is over pass it; a crew-precise word is executed anew by all when one of them retries. -/
def passedOf (e : Env) (again : Bool) : List Nat :=
  let parts := participants e
  parts.filter fun i => decide ((e.thread i).resume = .passed) && !(again && parts.any fun j => decide ((e.thread j).resume ≠ .passed))
/-- The threads that execute the word: those whose guard is true, and those that come back to it. -/
def liveOf (e : Env) (g : Guard) (again : Bool) : List Nat :=
  (minus (participants e) (passedOf e again)).filter fun i =>
    match (e.thread i).resume with
    | .none | .passed => guardHolds g (e.thread i)
    | _ => true
/-- The executing, issuing or writing lane (R116, R178, R216, R267): the lowest slot. -/
def firstLane (e : Env) (g : Guard) (again : Bool) : Option Nat := (liveOf e g again).head?

/-- Whether any of some lanes' threads still has an access to perform. -/
def lanesBusy (e : Env) (l : List Nat) : Bool := anyPending e.co l
/-- The queue registers that the issue pops: a lane that comes back to the word has its popped values already (R224, R284). -/
def popsOf (e : Env) (p : WordSpec) : List Nat :=
  if (liveOf e p.g p.again).any fun i => decide ((e.thread i).resume = .none ∨ (e.thread i).resume = .passed) then p.pops else []

/-- What the queue operands of a word ask for (R284, R285). `wait`: a push is a release, so the accesses of the batch come first (R295). -/
inductive Gate where | go | hold (q : Nat) (push : Bool) | trap (code : Nat) | wait
deriving DecidableEq, Repr
/-- Whether a queue register is orphaned (R285): empty, nothing owed, and every producer thread done or closed. -/
def orphaned (co : Core) (base : Nat) (w : WG) (q : Nat) : Bool :=
  let x := rget {} w.queues q
  x.entries.isEmpty && decide (x.owed = 0) &&
  match w.kern.queues[q]? with
  | none => false
  | some b => co.threads.all fun (_, t) =>
      match crewOf co t with
      | none => true
      | some k => decide (k.wg ≠ base ∨ k.role ≠ b.prod) || t.closed.contains q
def gateOf (e : Env) (p : WordSpec) (live : List Nat) : Gate :=
  if live.isEmpty then .go
  else
    let bind := fun (q : Nat) => (e.w.kern.queues[q]?).getD { kind := .thread, prod := 0, cons := 0, depth := 0 }
    let pops := popsOf e p
    let badPop := pops.any fun q => decide ((bind q).depth = 0 ∨ (bind q).cons ≠ e.b.role)
    let badPush := match p.push with | some q => decide ((bind q).depth = 0 ∨ (bind q).prod ≠ e.b.role ∨ (bind q).kind ≠ .thread) | none => false
    if badPop || badPush then .trap cIllegal
    else
      match pops.find? fun q => (rget {} e.w.queues q).entries.isEmpty with
      | some q => if orphaned e.co e.base e.w q then .trap cOrphan else .hold q false
      | none =>
        match p.push with
        | some q =>
          let n := (rget {} e.w.queues q).entries.length - (if pops.contains q then 1 else 0)
          if (bind q).depth ≤ n then .hold q true else if lanesBusy e e.b.slots then .wait else .go
        | none => .go

/-- A word that does not issue: no issue is in progress; the scoreboard's hold counts for the workgroups of its batch (R229), and the sectors
that accesses wait for are noted (R217). -/
def stallWord (s : State) (e : Env) (res : List (Nat × Except Bar LaneOut)) : State :=
  let board := res.any fun x => match x.2 with | .error .board => true | _ => false
  let s := updCore s e.c fun co => mapBatch co e.sel e.b.id fun b => { b with boarded := board }
  let fills := res.filterMap fun x => match x.2 with | .error (.fill c w k i) => some (c, w, k, i) | _ => none
  let s := if board then updCore s e.c fun co => e.b.slots.foldl (fun co i => updWG co (e.wgBase (e.thread i)) fun w => { w with sbmark := true }) co else s
  let s := fills.foldl (fun s (c, w, k, i) => updCore s c fun co =>
    { co with wants := if co.wants.contains (w, k, i) then co.wants else co.wants ++ [(w, k, i)] }) s
  { s with cur := none }

/-- WIDE in the lanes whose permutation came back to its reader (R39). -/
def widenLanes (e : Env) (p : WordSpec) (slots : List Nat) (co : Core) : Core :=
  slots.foldl (fun co i => if p.perms.any (wideHit e i) then updThread co i fun t => { t with lwidth := t.lwidth ||| 1 } else co) co
/-- What the lanes that completed a word leave: their threads, WIDE, the popped and pushed queue registers (R284), and the affine register,
written once with the first executing lane's value (R116). The lanes `held` have read their sources and wait at the word: they too get
WIDE, and what was popped is gone. A crew-precise word that a lane bars has no effect in any (R192). -/
def storeLanes (e : Env) (p : WordSpec) (live : List Nat) (oks : List (Nat × LaneOut)) (held : List Nat) (early : Bool) (s : State) : State :=
  let s := updCore s e.c fun co => oks.foldl (fun co (i, o) => { co with threads := put co.threads i o.t }) co
  let s := if p.unit && early then s else updCore s e.c fun co => widenLanes e p (oks.map (·.1) ++ held) co
  let s := if oks.isEmpty && held.isEmpty then s else updCore s e.c fun co => updWG co e.base fun w => popQueues w (popsOf e p)
  let s := match p.push with
    | some q => if oks.isEmpty then s else updCore s e.c fun co => updWG co e.base fun w => pushQueue w q (entryOf e.width (oks.map fun (i, o) => (i, o.out)))
    | none => s
  match p.aff, live.head?, oks.head? with
  | some n, some i, some (j, o) =>
    if early || decide (i ≠ j) then s
    else updCore s e.c fun co => updCrew co (e.thread i).crew fun k =>
      { k with aff := rput 0 k.aff n (pair (BitVec.ofNat 32 o.out) (BitVec.ofNat 32 (o.out / 2 ^ 32))), affOld := hideAff e k n }
  | _, _, _ => s

/-- The values that a trap of a word's queue operands reports: its other sources, where they can be read (R323). -/
def gateSrcs (e : Env) (p : WordSpec) (i : Nat) : List Nat := match p.srcs e i (e.thread i) with | .ok vs => vs | .error _ => []
/-- ISSUE ONE WORD to the present batch: the checks of R50 in order, the guard per thread, the lanes in ascending slot, the queue and
affine effects of the crew, `post` on the lanes that completed, and the end of the issue. A word whose operands are not ready
does not issue. -/
def issueWord (s : State) (p : WordSpec) (lane : Lane) (post : Env → List (Nat × LaneOut) → State → State) : Out :=
  match envOf s with
  | none => .next s
  | some e =>
    let parts := participants e
    let illegal := parts.map fun i => (i, ({ code := cIllegal, word := e.word, crewb := e.crewB } : TrapInfo))
    if !legal e p then .next (settle s e p [] illegal [])
    else
      let passed := passedOf e p.again
      let live := liveOf e p.g p.again
      let idle := minus (minus parts passed) live
      let all := fun (code : Nat) => live.map fun i => (i, ({ code := code, word := e.word, crewb := e.crewB } : TrapInfo))
      if p.crew && !e.crewB then .next (settle s e p (unionSlots passed idle) (all cCrewctx) [])
      else
        let (res, s') := runLanes lane e s live
        match gateOf e p live with
        | .trap code =>
          if res.any isStall then .next (stallWord s e res)
          else .next (settle s e p (unionSlots passed idle) (res.filterMap fun x => if earlyTrap x then trapLane e x
            else some (x.1, { code := code, srcs := gateSrcs e p x.1, word := e.word, crewb := e.crewB })) [])
        | .hold q push =>
          if res.any isStall then .next (stallWord s e res)
          else
            let early := (res.filter earlyTrap).filterMap (trapLane e)
            let wait := minus live (early.map (·.1))
            if wait.isEmpty then .next (settle s e p (unionSlots passed idle) early [])
            else .next (settle s e p passed early ((wait.map fun i => (i, .queue q push e.word (gateSrcs e p i), .queue, .none, none)) ++
              idle.map fun i => (i, .ready, .queue, .none, none)))
        | .wait => .next (stallWord s e [])
        | .go =>
          let faults := (res.filterMap holdLane).filter fun (_, _, _, _, f) => f.isSome
          if res.any isStall || (!faults.isEmpty && decide (Config.nLog < logUsed e.co live + faults.length)) then .next (stallWord s e res)
          else
            let early := res.any earlyTrap
            let oks := res.filterMap okLane
            let holds := res.filterMap holdLane
            let s' := storeLanes e p live oks (holds.map (·.1)) early s'
            let bars := holds.filter fun (_, _, r, _, _) => decide (r = .barrier)
            let s' := post e oks (chargeWord s' e.c e.word (oks.map (·.1) ++ bars.map (·.1)))
            let s' := match p.once, live.head?, oks.head? with
              | some f, some i, some (j, o) => if early || decide (i ≠ j) then s' else f e j o s'
              | _, _, _ => s'
            .next (settle s' e p (unionSlots (unionSlots passed idle) (if p.unit then [] else oks.map (·.1))) (res.filterMap (trapLane e)) holds)

def noPost : Env → List (Nat × LaneOut) → State → State := fun _ _ s => s
/-- The workgroups of threads that executed ENQ, JOIN, QCLOSE.c or BULK are not discardable (R310). -/
def markSticky (e : Env) (oks : List (Nat × LaneOut)) (s : State) : State :=
  updCore s e.c fun co => oks.foldl (fun co (i, _) => updWG co (e.wgBase (e.thread i)) fun w => { w with sticky := true }) co

/-! ### The common shape of an arithmetic word -/

/-- dst and sources of a word that computes one value per lane. -/
structure Alu where
  g : Guard
  d : Code
  w : Bool := false
  srcs : List (Src × Bool)
  moment : Bool := false

def Alu.spec (a : Alu) : WordSpec :=
  { g := a.g
    regs := codeRegs a.d a.w ++ a.srcs.flatMap fun (x, w) => srcRegs x w
    perms := a.srcs.map fun (x, _) => x.perm
    moment := a.moment
    crew := crewDst a.d || a.srcs.any fun (x, _) => srcCrewy x
    pops := a.srcs.flatMap fun (x, _) => srcPops x
    srcs := srcVals a.srcs
    push := match a.d with | .q n => some n | _ => none
    aff := match a.d with | .a n => some n | _ => none }

/-- One lane: the sources in field order, an indexed dst, then `f` on the values, which may trap; the result is written (R50, R104). -/
def aluLane (a : Alu) (f : Env → Thread → List Nat → L (Nat × Thread)) : Lane := pureLane fun e i t => do
  let (vs, odd) ← readSrcs e i t a.srcs
  let d ← destOf e t a.d a.w
  if odd || decide (d = .odd) then trapL cAlign vs
  else do
    let (x, t') ← f e t vs
    return { t := d.put t' a.w x, out := x % 2 ^ 32 }

def runAlu (s : State) (a : Alu) (f : Env → Thread → List Nat → L (Nat × Thread)) : Out := issueWord s a.spec (aluLane a f) noPost
/-- A result that depends on the source values alone. -/
def runPure (s : State) (a : Alu) (f : List Nat → Nat) : Out := runAlu s a fun _ t vs => .ok (f vs, t)

def alu3 (x : R3) (w : Bool) : Alu := { g := x.g, d := x.d, w := w, srcs := [(x.a, w), (x.b, w)] }
def alu2 (x : R2) (w : Bool) : Alu := { g := x.g, d := x.d, w := w, srcs := [(x.a, w)] }
def aluT (x : T3) : Alu := { g := x.g, d := x.d, srcs := [(x.a, false), ({ code := x.b }, false), ({ code := x.c }, false)] }

/-- A word that writes a predicate, from sources. -/
def runPred (s : State) (g : Guard) (p : Nat) (srcs : List Src) (f : Env → Thread → List Nat → Bool × Thread) : Out :=
  let a : Alu := { g := g, d := .zero, srcs := srcs.map fun x => (x, false) }
  issueWord s a.spec (pureLane fun e i t => do
    let (vs, _) ← readSrcs e i t a.srcs
    let (b, t') := f e t vs
    return { t := t'.setP p b }) noPost

end Sys2Proof.Machine
end

