-- ==== Sys2Proof/Machine/Flags.lean ====
section
/-! DEFINITION. Floating-point values, the one rounding of R130-R133, and every computation of the FPCTL flags (R127-R129). -/
namespace Sys2Proof.Machine

/-! ### Formats (R121) -/

/-- A format: exponent bits and fraction bits. -/
structure Fmt where
  eb : Nat
  fb : Nat
deriving DecidableEq, Repr
def fp32 : Fmt := { eb := 8, fb := 23 }
def fp16 : Fmt := { eb := 5, fb := 10 }
def bf16 : Fmt := { eb := 8, fb := 7 }
def Fmt.bias (F : Fmt) : Nat := 2 ^ (F.eb - 1) - 1
def Fmt.emin (F : Fmt) : Int := 1 - (F.bias : Int)
def Fmt.p (F : Fmt) : Nat := F.fb + 1
def Fmt.ones (F : Fmt) : Nat := 2 ^ F.eb - 1
def Fmt.width (F : Fmt) : Nat := 1 + F.eb + F.fb
def Fmt.inf (F : Fmt) (neg : Bool) : Nat := encBool neg * 2 ^ (F.eb + F.fb) + F.ones * 2 ^ F.fb
def Fmt.zero (F : Fmt) (neg : Bool) : Nat := encBool neg * 2 ^ (F.eb + F.fb)
def Fmt.largest (F : Fmt) (neg : Bool) : Nat := encBool neg * 2 ^ (F.eb + F.fb) + F.ones * 2 ^ F.fb - 1
/-- The canonical NaN (R121). -/
def Fmt.canon (F : Fmt) : Nat := F.ones * 2 ^ F.fb + 2 ^ (F.fb - 1)
def fmtOf : FTy → Fmt | .f32 => fp32 | .f16x2 => fp16 | .bf16x2 => bf16

/-- A decoded image: a NaN, an infinity, or `± m * 2^e` (a signed zero when m = 0). -/
inductive FV where
  | nan (sig : Bool)
  | inf (neg : Bool)
  | fin (neg : Bool) (m : Nat) (e : Int)
deriving DecidableEq, Repr

def signBit (F : Fmt) (x : Nat) : Bool := decide (x / 2 ^ (F.eb + F.fb) % 2 = 1)
def expField (F : Fmt) (x : Nat) : Nat := x / 2 ^ F.fb % 2 ^ F.eb
def fracField (F : Fmt) (x : Nat) : Nat := x % 2 ^ F.fb
def isDenormal (F : Fmt) (x : Nat) : Bool := decide (expField F x = 0 ∧ fracField F x ≠ 0)
def isNaN (F : Fmt) (x : Nat) : Bool := decide (expField F x = F.ones ∧ fracField F x ≠ 0)
def isSignalling (F : Fmt) (x : Nat) : Bool := isNaN F x && decide (fracField F x < 2 ^ (F.fb - 1))
def decodeF (F : Fmt) (x : Nat) : FV :=
  let e := expField F x
  let f := fracField F x
  if e = F.ones then (if f = 0 then .inf (signBit F x) else .nan (isSignalling F x))
  else if e = 0 then .fin (signBit F x) f (F.emin - F.fb)
  else .fin (signBit F x) (f + 2 ^ F.fb) ((e : Int) - F.bias - F.fb)
/-- A source as an arithmetic word reads it: under FTZ a denormal counts as a zero of its sign (R132). -/
def srcF (F : Fmt) (ftz : Bool) (x : Nat) : FV :=
  if ftz && isDenormal F x then .fin (signBit F x) 0 0 else decodeF F x

/-! ### FPCTL (R127-R129) -/

/-- Flags as bits: NV 16, DZ 8, OF 4, UF 2, NX 1. -/
abbrev Flags := Nat
def fNV : Flags := 16
def fDZ : Flags := 8
def fOF : Flags := 4
def fUF : Flags := 2
def fNX : Flags := 1
/-- RM, FTZ and PROP as a word reads them at its issue. -/
structure Ctl where
  rm : Rnd
  ftz : Bool
  prop : Bool
deriving DecidableEq, Repr
def rndOf (x : Nat) : Rnd := match x with | 0 => .rne | 1 => .rtz | 2 => .rup | _ => .rdn
def ctlOf (fpctl : Word) : Ctl := { rm := rndOf (bits fpctl.toNat 0 2), ftz := fpctl.getLsbD 2, prop := fpctl.getLsbD 3 }
/-- A word that executed replaces the current flags and adds to the accrued ones (R129). -/
def setFlags (fpctl : Word) (f : Flags) : Word :=
  (fpctl &&& 0x7FF#32) ||| BitVec.ofNat 32 (f % 32 * 2048) ||| BitVec.ofNat 32 (f % 32 * 64)
def Thread.flags (t : Thread) (f : Flags) : Thread := { t with fpctl := setFlags t.fpctl f }

/-! ### One rounding (R130, R131) -/

/-- Overflow (R131): the value and OF with NX. -/
def overflowF (F : Fmt) (neg : Bool) (m : Rnd) : Nat × Flags :=
  let big := match m, neg with
    | .rne, _ => true
    | .rtz, _ => false
    | .rup, n => !n
    | .rdn, n => n
  (if big then F.inf neg else F.largest neg, fOF ||| fNX)

/-- Whether a magnitude `n + r` with a nonzero rest is raised to `n + 1`: `cmp` compares the rest with one half. -/
def raise? (m : Rnd) (neg : Bool) (odd : Bool) (cmp : Ordering) : Bool :=
  match m with
  | .rne => match cmp with | .gt => true | .lt => false | .eq => odd
  | .rtz => false
  | .rup => !neg
  | .rdn => neg

/-- Round the nonzero magnitude `(n + d) * 2^e` with `0 ≤ d < 1`, `d > 0` exactly when `sticky` (then `n` has more bits than the
format), to the format in the mode: the image and its flags (R130). -/
def roundMag (F : Fmt) (m : Rnd) (ftz : Bool) (neg : Bool) (n : Nat) (e : Int) (sticky : Bool) : Nat × Flags :=
  let lg : Int := (Nat.log2 n : Nat) + e
  let q := max lg F.emin - (F.p : Int) + 1
  let sh := q - e
  let (k, cmp, exact) : Nat × Ordering × Bool :=
    if sh ≤ 0 then (n * 2 ^ (-sh).toNat, .lt, !sticky)
    else
      let d := 2 ^ sh.toNat
      let r := n % d
      let c := compare (2 * r) d
      (n / d, (if c = .eq && sticky then .gt else c), decide (r = 0) && !sticky)
  let k := if !exact && raise? m neg (decide (k % 2 = 1)) cmp then k + 1 else k
  let fl := if exact then 0 else if lg < F.emin then fUF ||| fNX else fNX
  if k = 0 then (F.zero neg, fl)
  else
    let (k, q) := if k = 2 ^ F.p then (2 ^ (F.p - 1), q + 1) else (k, q)
    if k < 2 ^ (F.p - 1) then
      (if ftz then (F.zero neg, fUF ||| fNX) else (encBool neg * 2 ^ (F.eb + F.fb) + k, fl))
    else
      let ef := q + (F.p : Int) - 1 + F.bias
      if (F.ones : Int) ≤ ef then overflowF F neg m
      else (encBool neg * 2 ^ (F.eb + F.fb) + ef.toNat * 2 ^ F.fb + (k - 2 ^ (F.p - 1)), fl)

/-- An exact result before its rounding: an invalid operation, an infinity, or a value with the sign of a zero. -/
inductive Exact where
  | invalid
  | inf (neg : Bool)
  | fin (neg : Bool) (n : Nat) (e : Int) (sticky : Bool)
deriving DecidableEq, Repr

/-! ### Exact operations -/

def FV.neg : FV → FV
  | .nan s => .nan s
  | .inf n => .inf (!n)
  | .fin n m e => .fin (!n) m e
/-- The signed integer of a finite value over 2^g, `g ≤ e`. -/
def scaled (neg : Bool) (m : Nat) (e g : Int) : Int := let x : Int := m * 2 ^ (e - g).toNat; if neg then -x else x
/-- A sum of two finite values, with the zero signs of R131. -/
def addFin (rm : Rnd) (n1 : Bool) (m1 : Nat) (e1 : Int) (n2 : Bool) (m2 : Nat) (e2 : Int) : Exact :=
  let g := min e1 e2
  let s := scaled n1 m1 e1 g + scaled n2 m2 e2 g
  if s = 0 then .fin (if m1 = 0 ∧ m2 = 0 ∧ n1 = n2 then n1 else decide (rm = .rdn)) 0 0 false
  else .fin (decide (s < 0)) s.natAbs g false
def addX (rm : Rnd) (a b : FV) : Exact :=
  match a, b with
  | .nan _, _ | _, .nan _ => .invalid
  | .inf x, .inf y => if x = y then .inf x else .invalid
  | .inf x, _ => .inf x
  | _, .inf y => .inf y
  | .fin n1 m1 e1, .fin n2 m2 e2 => addFin rm n1 m1 e1 n2 m2 e2
def mulX (a b : FV) : Exact :=
  match a, b with
  | .nan _, _ | _, .nan _ => .invalid
  | .inf x, .inf y => .inf (x != y)
  | .inf x, .fin n m _ | .fin n m _, .inf x => if m = 0 then .invalid else .inf (x != n)
  | .fin n1 m1 e1, .fin n2 m2 e2 => .fin (n1 != n2) (m1 * m2) (e1 + e2) false
def fmaX (rm : Rnd) (np nc : Bool) (a b c : FV) : Exact :=
  let c := if nc then c.neg else c
  match mulX a b with
  | .invalid => .invalid
  | .inf x => addX rm (.inf (x != np)) c
  | .fin n m e _ => addX rm (.fin (n != np) m e) c
/-- A quotient to enough bits, the rest sticky. -/
def divX (F : Fmt) (a b : FV) : Exact :=
  match a, b with
  | .nan _, _ | _, .nan _ => .invalid
  | .inf _, .inf _ => .invalid
  | .inf x, .fin n _ _ => .inf (x != n)
  | .fin n _ _, .inf y => .fin (n != y) 0 0 false
  | .fin n1 m1 e1, .fin n2 m2 e2 =>
    if m2 = 0 then (if m1 = 0 then .invalid else .inf (n1 != n2))
    else
      let s := F.p + 4 + Nat.log2 m2
      .fin (n1 != n2) (m1 * 2 ^ s / m2) (e1 - e2 - s) (decide (m1 * 2 ^ s % m2 ≠ 0))
/-- The integer square root, by bits from `2^k` down. -/
def isqrtAux : Nat → Nat → Nat → Nat
  | 0, r, n => if (r + 1) * (r + 1) ≤ n then r + 1 else r
  | k + 1, r, n => let t := r + 2 ^ (k + 1); isqrtAux k (if t * t ≤ n then t else r) n
def isqrt (n : Nat) : Nat := isqrtAux (Nat.log2 n / 2 + 1) 0 n
def sqrtX (F : Fmt) (a : FV) : Exact :=
  match a with
  | .nan _ => .invalid
  | .inf n => if n then .invalid else .inf false
  | .fin n m e =>
    if m = 0 then .fin n 0 0 false
    else if n then .invalid
    else
      let k : Nat := 2 * F.p + 8 + (if (e - (2 * F.p + 8 : Nat)) % 2 = 0 then 0 else 1)
      let x := m * 2 ^ k
      let r := isqrt x
      .fin false r ((e - k) / 2) (decide (r * r ≠ x))

/-! ### Results -/

/-- The NaN a word writes (R133): canonical, or with PROP the first NaN source, quieted and fitted to the format. -/
def nanOut (F : Fmt) (prop : Bool) (srcs : List (Fmt × Nat)) : Nat :=
  if prop then
    match srcs.find? fun (G, x) => isNaN G x with
    | none => F.canon
    | some (G, x) =>
      let fr := fracField G x
      let fr := if F.fb ≤ G.fb then fr / 2 ^ (G.fb - F.fb) else fr * 2 ^ (F.fb - G.fb)
      encBool (signBit G x) * 2 ^ (F.eb + F.fb) + F.ones * 2 ^ F.fb + (fr ||| 2 ^ (F.fb - 1)) % 2 ^ F.fb
  else F.canon
/-- Round an exact result; a NaN source gives a NaN, a signalling one NV (R133). -/
def finishX (F : Fmt) (c : Ctl) (srcs : List (Fmt × Nat)) (x : Exact) : Nat × Flags :=
  let sig := if srcs.any fun (G, y) => isSignalling G y then fNV else 0
  if srcs.any fun (G, y) => isNaN G y then (nanOut F c.prop srcs, sig)
  else match x with
    | .invalid => (nanOut F c.prop srcs, fNV)
    | .inf n => (F.inf n, 0)
    | .fin n m e st => if m = 0 && !st then (F.zero n, 0) else roundMag F c.rm c.ftz n m e st

/-- The elements of a register of a type (R122). -/
def elems (ty : FTy) (x : Nat) : List Nat :=
  match ty with
  | .f32 => [x % 2 ^ 32]
  | _ => [x % 65536, x / 65536 % 65536]
def pack (ty : FTy) (l : List Nat) : Nat :=
  match ty with
  | .f32 => (l[0]?).getD 0
  | _ => (l[0]?).getD 0 + 65536 * (l[1]?).getD 0
/-- Apply an element function to the elements of the sources; the flags are the OR over the elements (R134). -/
def mapElems (ty : FTy) (vs : List Nat) (f : List Nat → Nat × Flags) : Nat × Flags :=
  let n := match ty with | .f32 => 1 | _ => 2
  let rs := (List.range n).map fun i => f (vs.map fun v => ((elems ty v)[i]?).getD 0)
  (pack ty (rs.map (·.1)), rs.foldl (fun a r => a ||| r.2) 0)

/-- A floating-point word of one result (R129): the value is written and the flags replace the thread's. -/
def runFp (s : State) (a : Alu) (f : Ctl → List Nat → Nat × Flags) : Out :=
  runAlu s a fun _ t vs =>
    let (x, fl) := f (ctlOf t.fpctl) vs
    .ok (x, t.flags fl)

end Sys2Proof.Machine
end

