-- ==== Sys2Proof/Machine/Approx.lean ====
section
/-! DEFINITION. The bounded functions of R141 and R170: exact values to far more bits than the bounds ask, and the choice of the free
value inside its bound (log entry 11). -/
namespace Sys2Proof.Machine

/-- Fraction bits of the fixed-point values below, and of π for the reduction of the largest arguments. -/
def fxP : Nat := 192
def fxPi : Nat := 384
def fxOne : Int := 2 ^ fxP
def fxMul (a b : Int) : Int := a * b / 2 ^ fxP
def fxDiv (a b : Int) : Int := if b = 0 then 0 else a * 2 ^ fxP / b

/-- `sum of x^(2k+1) / (2k+1)` (`alt`: with alternating signs) for x = 1/n at `bits` fraction bits. -/
def atanSeries (alt : Bool) (n2 : Nat) : Nat → Nat → Int → Int → Int
  | 0, _, _, acc => acc
  | f + 1, k, t, acc =>
    let term := t / (2 * k + 1 : Nat)
    atanSeries alt n2 f (k + 1) (t / (n2 : Nat)) (if alt && decide (k % 2 = 1) then acc - term else acc + term)
def atanInv (alt : Bool) (pb n : Nat) (fuel : Nat) : Int := atanSeries alt (n * n) fuel 0 ((2 ^ pb : Int) / (n : Nat)) 0
/-- π at `fxPi` bits, by Machin's formula. -/
def piFx : Int := 16 * atanInv true fxPi 5 90 - 4 * atanInv true fxPi 239 30
/-- ln 2 at `fxP` bits: 2 artanh (1/3). -/
def ln2Fx : Int := 2 * atanInv false fxP 3 70

/-- `±m * 2^e` as fixed point. -/
def toFx (pb : Nat) (neg : Bool) (m : Nat) (e : Int) : Int :=
  let sh := e + pb
  let x : Int := if 0 ≤ sh then (m : Int) * 2 ^ sh.toNat else (m : Int) / 2 ^ (-sh).toNat
  if neg then -x else x

/-- `sum of x^k / k!` from a given k, for |x| ≤ 1. -/
def expSeries (x : Int) : Nat → Nat → Int → Int → Int
  | 0, _, _, acc => acc
  | f + 1, k, t, acc => expSeries x f (k + 1) (fxMul t x / ((k + 1 : Nat) : Int)) (acc + t)
/-- A positive value `f * 2^(n - fxP)`. -/
structure Fx where
  f : Int
  n : Int
deriving DecidableEq, Repr
/-- exp of a fixed-point number. -/
def expFx (x : Int) : Fx :=
  let n := x / ln2Fx
  { f := expSeries (x - n * ln2Fx) 60 0 fxOne 0, n := n }
/-- `(exp x - 1) / x` for 0 ≤ x ≤ 1. -/
def expm1Ratio (x : Int) : Int := expSeries x 60 1 fxOne 0
/-- ln of y in [1, 2). -/
def lnSeries (z2 : Int) : Nat → Nat → Int → Int → Int
  | 0, _, _, acc => acc
  | f + 1, k, t, acc => lnSeries z2 f (k + 1) (fxMul t z2) (acc + t / ((2 * k + 1 : Nat) : Int))
def lnFx (y : Int) : Int := let z := fxDiv (y - fxOne) (y + fxOne); 2 * lnSeries (fxMul z z) 70 0 z 0
/-- sin and cos of |x| ≤ 1. -/
def sinSeries (x2 : Int) : Nat → Nat → Int → Int → Int
  | 0, _, _, acc => acc
  | f + 1, k, t, acc => sinSeries x2 f (k + 2) (-(fxMul t x2) / (((k + 1) * (k + 2) : Nat) : Int)) (acc + t)
def sqrtFx (x : Int) : Int := (isqrt (x.toNat * 2 ^ fxP) : Nat)
/-- The density φ and the distribution Φ of the standard normal, for |a| < 16. -/
def phiFx (a : Int) : Int :=
  let x := expFx (-(fxMul a a) / 2)
  let y := if 0 ≤ x.n then x.f * 2 ^ x.n.toNat else x.f / 2 ^ (-x.n).toNat
  fxDiv y (sqrtFx (2 * (piFx / 2 ^ (fxPi - fxP))))
def cdfSeries (a2 : Int) : Nat → Nat → Int → Int → Int
  | 0, _, _, acc => acc
  | f + 1, k, t, acc => cdfSeries a2 f (k + 2) (fxMul t a2 / ((k + 2 : Nat) : Int)) (acc + t)
def cdfFx (a : Int) : Int :=
  let x := expFx (-(fxMul a a) / 2)
  let y := fxMul x.f (cdfSeries (fxMul a a) 700 1 a 0)
  let z := if 0 ≤ x.n then y * 2 ^ x.n.toNat else y / 2 ^ (-x.n).toNat
  fxOne / 2 + fxDiv z (sqrtFx (2 * (piFx / 2 ^ (fxPi - fxP))))

/-! ### The choice inside a bound -/

/-- An exact value to many bits, `± n * 2^e`. One just below or just above a number of few bits is held as such, since the ulp of a value (R130)
is half as great below a power of 2. -/
structure Real' where
  neg : Bool
  n : Nat
  e : Int
deriving DecidableEq, Repr
def justBelow (n : Nat) (e : Int) : Real' := { neg := false, n := n * 2 ^ 400 - 1, e := e - 400 }
def justAbove (n : Nat) (e : Int) : Real' := { neg := false, n := n * 2 ^ 400 + 1, e := e - 400 }
def ofFx (x : Int) (e : Int) : Real' := { neg := decide (x < 0), n := x.natAbs, e := e - fxP }

/-- Exponent of one ulp of a format at a value (R130). -/
def ulpExp (F : Fmt) (x : Real') : Int := max ((Nat.log2 x.n : Nat) + x.e) F.emin - F.p + 1
/-- `|y - x| ≤ k * 2^g` (the greater of two such bounds when both are given). -/
def nearBy (y : FV) (x : Real') (k : Nat) (g : Int) : Bool :=
  match y with
  | .fin neg m e =>
    let lo := min (min e x.e) g
    let d := scaled neg m e lo - scaled x.neg x.n x.e lo
    decide ((d.natAbs : Int) ≤ (k : Int) * 2 ^ (g - lo).toNat)
  | _ => false

/-- The bound of a plane or a function: so many ulps, and an absolute term `a * 2^g`; the sum of both, or the greater. -/
structure Bound where
  ulps : Nat
  abs : Option Real' := none
  sum : Bool := false
/-- Whether `y` lies within the bound of `x` (R141, R170). -/
def inBound (F : Fmt) (b : Bound) (y : FV) (x : Real') : Bool :=
  let u := ulpExp F x
  match b.abs with
  | none => nearBy y x b.ulps u
  | some a =>
    if b.sum then
      (let lo := min u a.e
       nearBy y x (b.ulps * 2 ^ (u - lo).toNat + a.n * 2 ^ (a.e - lo).toNat) lo)
    else nearBy y x b.ulps u || nearBy y x a.n a.e

/-- The result of a bounded function in FP32: the free value where it lies within the bound and `ok` takes it, else the value nearest to
the exact one; the flags are those of the exact value's rounding, with NX for a finite nonzero result (R141) and UF for a tiny value
that is not the exact one (R130). `ex`: `x` is the exact value itself. An overflow, of FRCP at a small denormal, takes the row of RNE in R131
(log entry 93). -/
def chooseFx (ftz : Bool) (b : Bound) (ok : Nat → Bool) (free : BitVec 32) (x : Real') (ex : Bool) : Nat × Flags :=
  if x.n = 0 then (0, 0)
  else
    let r := roundMag fp32 .rne ftz x.neg x.n x.e (!ex)
    let y := free.toNat
    let r' := if expField fp32 r.1 = 255 then r.1 else if inBound fp32 b (decodeF fp32 y) x && !(ftz && isDenormal fp32 y) && ok y then y else r.1
    let off := if ex && decide (r' = r.1) then 0 else if (Nat.log2 x.n : Nat) + x.e < fp32.emin then fUF ||| fNX else fNX
    (r', r.2 ||| (if expField fp32 r' = 255 ∨ r' % 2 ^ 31 = 0 then 0 else off ||| fNX))

/-- The pure functions of R141. -/
inductive Fn1 where | rcp | rsq | ex2 | lg2 | sin | cos | tanh
deriving DecidableEq, Repr

/-- The exact value of a function at `± m * 2^e`, m nonzero, where R142 lists no special value; below every power that a format holds, FEX2's
values are as good as 2^-512. -/
def valueOf (f : Fn1) (neg : Bool) (m : Nat) (e : Int) : Real' :=
  let x := toFx fxP neg m e
  match f with
  | .rcp => { neg := neg, n := 2 ^ 96 / m, e := -e - 96 }
  | .rsq =>
    let k : Nat := if (e - 192) % 2 = 0 then 192 else 193
    { neg := false, n := 2 ^ 320 / isqrt (m * 2 ^ k), e := (-(e - k)) / 2 - 320 }
  | .ex2 =>
    if neg && decide (9 ≤ (Nat.log2 m : Nat) + e) then { neg := false, n := 1, e := -512 }
    else
    let n := x / fxOne
    ofFx (expSeries (fxMul (x - n * fxOne) ln2Fx) 60 0 fxOne 0) n
  | .lg2 =>
    let k := Nat.log2 m
    ofFx ((e + k) * fxOne + fxDiv (lnFx (toFx fxP false m (-(k : Int)))) ln2Fx) 0
  | .sin | .cos =>
    let x := toFx fxPi neg m e
    let h := piFx / 2
    let n := (2 * x + h) / (2 * h)
    let r := (x - n * h) / 2 ^ (fxPi - fxP)
    let r2 := fxMul r r
    let si := sinSeries r2 40 1 r 0
    let co := sinSeries r2 40 0 fxOne 0
    let q := (n + (if f = .cos then 1 else 0)) % 4
    ofFx (if q = 0 then si else if q = 1 then co else if q = 2 then -si else -co) 0
  | .tanh =>
    if (Nat.log2 m : Nat) + e < -24 then
      (let x2 := fxMul x x
       { neg := neg, n := min (m * (fxOne - x2 / 3 + 2 * fxMul x2 x2 / 15).toNat) (m * 2 ^ fxP - 1), e := e - fxP })
    else if 6 ≤ (Nat.log2 m : Nat) + e then { neg := neg, n := 2 ^ 150 - 1, e := -150 }
    else
      let y := expFx (2 * x)
      let z := if 0 ≤ y.n then y.f * 2 ^ y.n.toNat else y.f / 2 ^ (-y.n).toNat
      ofFx (fxDiv (z - fxOne) (z + fxOne)) 0

def boundOf (f : Fn1) (m : Nat) (e : Int) : Bound :=
  match f with
  | .rcp | .rsq => { ulps := 1 }
  | .ex2 | .tanh => { ulps := 2 }
  | .lg2 =>
    let lg : Int := (Nat.log2 m : Nat) + e
    if lg = -1 ∨ lg = 0 ∨ (lg = 1 ∧ m = 2 ^ Nat.log2 m) then { ulps := 0, abs := some { neg := false, n := 1, e := -22 } } else { ulps := 2 }
  | .sin | .cos => { ulps := 0, abs := some { neg := false, n := 1, e := -21 } }
def freeOf (f : Fn1) (x : BitVec 32) (ftz : Bool) : BitVec 32 :=
  match f with
  | .rcp => Config.frcp x ftz
  | .rsq => Config.frsq x ftz
  | .ex2 => Config.fex2 x ftz
  | .lg2 => Config.flg2 x ftz
  | .sin => Config.fsin x ftz
  | .cos => Config.fcos x ftz
  | .tanh => Config.ftanh x ftz

/-- The special values of R142, as an FP32 image with flags. FEX2 ignores RM (R141), so the model takes an overflow of it from the RNE row of
R131 (log entry 93). -/
def specialOf (f : Fn1) (x : FV) : Option (Nat × Flags) :=
  match f, x with
  | _, .nan _ => none
  | .rcp, .inf n => some (fp32.zero n, 0)
  | .rcp, .fin n 0 _ => some (fp32.inf n, fDZ)
  | .rsq, .inf n => some (if n then (fp32.canon, fNV) else (0, 0))
  | .rsq, .fin n 0 _ => some (fp32.inf n, fDZ)
  | .rsq, .fin true _ _ => some (fp32.canon, fNV)
  | .ex2, .inf n => some (if n then (0, 0) else (fp32.inf false, 0))
  | .ex2, .fin _ 0 _ => some (0x3F800000, 0)
  | .ex2, .fin n m e =>
    if !n && decide (8 ≤ (Nat.log2 m : Nat) + e) then some (overflowF fp32 false .rne)
    else if n && decide (9 ≤ (Nat.log2 m : Nat) + e) then none
    else
      let v := toFx fxP n m e
      if v % fxOne = 0 ∧ -149 ≤ v / fxOne ∧ v / fxOne ≤ 127 then some (roundMag fp32 .rne false false 1 (v / fxOne) false)
      else if fxOne * 128 ≤ v then some (overflowF fp32 false .rne)
      else none
  | .lg2, .inf n => some (if n then (fp32.canon, fNV) else (fp32.inf false, 0))
  | .lg2, .fin _ 0 _ => some (fp32.inf true, fDZ)
  | .lg2, .fin true _ _ => some (fp32.canon, fNV)
  | .lg2, .fin false m e =>
    let k := Nat.log2 m
    if m = 2 ^ k then
      (let v := e + k
       if v = 0 then some (0, 0) else some (roundMag fp32 .rne false (decide (v < 0)) v.natAbs 0 false))
    else none
  | .sin, .inf _ | .cos, .inf _ => some (fp32.canon, fNV)
  | .sin, .fin n 0 _ | .tanh, .fin n 0 _ => some (fp32.zero n, 0)
  | .cos, .fin _ 0 _ => some (0x3F800000, 0)
  | .tanh, .inf n => some (0x3F800000 + encBool n * 2 ^ 31, 0)
  | _, _ => none

/-- An FP32 image that is no NaN, rounded once by RNE to an element format. -/
def narrowFx (F : Fmt) (ftz : Bool) (y : Nat) : Nat × Flags :=
  match decodeF fp32 y with
  | .inf n => (F.inf n, 0)
  | .fin n m e => if m = 0 then (F.zero n, 0) else roundMag F .rne ftz n m e false
  | .nan _ => (F.canon, 0)
/-- One element: in FP32, or computed in FP32 and rounded once by RNE to the element format, within 1 ulp of it (R141). -/
def fnElem (f : Fn1) (F : Fmt) (c : Ctl) (x : Nat) : Nat × Flags :=
  if isNaN F x then finishX F c [(F, x)] .invalid
  else
    let v := srcF F c.ftz x
    let wide : BitVec 32 := BitVec.ofNat 32 (match v with
      | .inf n => fp32.inf n
      | .fin n m e => if m = 0 then fp32.zero n else (roundMag fp32 .rne false n m e false).1
      | .nan _ => 0)
    let (y, fl) := match specialOf f v with
      | some r => r
      | none =>
        match v with
        | .fin n m e =>
          let g := valueOf f n m e
          let ok := fun (y : Nat) => decide (F = fp32) || inBound F { ulps := 1 } (decodeF F (narrowFx F c.ftz y).1) g
          chooseFx c.ftz (boundOf f m e) ok (freeOf f wide c.ftz) g (decide (f = .rcp ∧ m = 2 ^ Nat.log2 m))
        | _ => (fp32.canon, fNV)
    if F = fp32 then
      (if c.ftz && isDenormal fp32 y then (fp32.zero (signBit fp32 y), fl ||| fUF ||| fNX) else (y, fl))
    else if isNaN fp32 y then (nanOut F c.prop [], fl)
    else
      let (z, fl') := narrowFx F c.ftz y
      (z, fl ||| fl')

end Sys2Proof.Machine
end

