-- ==== Sys2Proof/Machine/Float.lean ====
section
/-! DEFINITION. The meanings of majors 0x0C to 0x0F: floating-point arithmetic, functions and conversions (05_float.md). -/
namespace Sys2Proof.Machine

/-! ### Arithmetic (R135-R140) -/

/-- A word of two FP sources with one exact result, rounded once. -/
def runF3 (s : State) (x : R3) (ty : FTy) (f : Ctl → FV → FV → Exact) : Out :=
  runFp s (alu3 x false) fun c v => mapElems ty v fun l =>
    let F := fmtOf ty
    finishX F c (l.map (F, ·)) (f c (srcF F c.ftz (arg l 0)) (srcF F c.ftz (arg l 1)))
def execFadd (x : R3) (ty : FTy) (s : State) : Out := runF3 s x ty fun c a b => addX c.rm a b
def execFsub (x : R3) (ty : FTy) (s : State) : Out := runF3 s x ty fun c a b => addX c.rm a b.neg
def execFmul (x : R3) (ty : FTy) (s : State) : Out := runF3 s x ty fun _ a b => mulX a b

/-- `a < b` of two values that are no NaN; `-0 < +0` when `signed` (R136). -/
def ltFV (signed : Bool) (a b : FV) : Bool :=
  match a, b with
  | .inf x, .inf y => x && !y
  | .inf x, _ => x
  | _, .inf y => !y
  | .fin n1 m1 e1, .fin n2 m2 e2 =>
    let g := min e1 e2
    let x := scaled n1 m1 e1 g
    let y := scaled n2 m2 e2 g
    if x = 0 ∧ y = 0 then signed && n1 && !n2 else decide (x < y)
  | _, _ => false
/-- An image as FMIN and FMAX give it back: a denormal under FTZ is a zero of its sign (R136). -/
def flushed (F : Fmt) (ftz : Bool) (x : Nat) : Nat := if ftz && isDenormal F x then F.zero (signBit F x) else x
/-- minimumNumber and maximumNumber (R136). -/
def minMax (F : Fmt) (c : Ctl) (less : Bool) (l : List Nat) : Nat × Flags :=
  let a := arg l 0
  let b := arg l 1
  let fl := if isSignalling F a || isSignalling F b then fNV else 0
  if isNaN F a && isNaN F b then (nanOut F c.prop [(F, a), (F, b)], fl)
  else if isNaN F a then (flushed F c.ftz b, fl)
  else if isNaN F b then (flushed F c.ftz a, fl)
  else
    let pick := if less then ltFV true (srcF F c.ftz b) (srcF F c.ftz a) else ltFV true (srcF F c.ftz a) (srcF F c.ftz b)
    (flushed F c.ftz (if pick then b else a), fl)
def execFmin (x : R3) (ty : FTy) (s : State) : Out := runFp s (alu3 x false) fun c v => mapElems ty v (minMax (fmtOf ty) c true)
def execFmax (x : R3) (ty : FTy) (s : State) : Out := runFp s (alu3 x false) fun c v => mapElems ty v (minMax (fmtOf ty) c false)

/-- Words on bits: they raise no flag and ignore FTZ (R132, R133). -/
def withSign (F : Fmt) (neg : Bool) (x : Nat) : Nat := x % 2 ^ (F.eb + F.fb) + encBool neg * 2 ^ (F.eb + F.fb)
def execFabs (x : R2) (ty : FTy) (s : State) : Out :=
  runFp s (alu2 x false) fun _ v => mapElems ty v fun l => (withSign (fmtOf ty) false (arg l 0), 0)
def execFneg (x : R2) (ty : FTy) (s : State) : Out :=
  runFp s (alu2 x false) fun _ v => mapElems ty v fun l => (withSign (fmtOf ty) (!signBit (fmtOf ty) (arg l 0)) (arg l 0), 0)
def execFcps (x : R3) (ty : FTy) (s : State) : Out :=
  runFp s (alu3 x false) fun _ v => mapElems ty v fun l => (withSign (fmtOf ty) (signBit (fmtOf ty) (arg l 1)) (arg l 0), 0)

/-- `a * 2^n`, one rounding (R139). -/
def execFscl (x : R3) (ty : FTy) (s : State) : Out :=
  runFp s (alu3 x false) fun c v => mapElems ty v fun l =>
    let F := fmtOf ty
    let n := satInt (sextNat (arg l 1) F.width) (-512) 512
    finishX F c [(F, arg l 0)] (match srcF F c.ftz (arg l 0) with
      | .nan _ => .invalid
      | .inf g => .inf g
      | .fin g m e => .fin g m (e + n) false)

/-- One element of FCMP: the condition and its flags (R137). -/
def fcond (F : Fmt) (c : Ctl) (k : FCond) (a b : Nat) : Bool × Flags :=
  let nan := isNaN F a || isNaN F b
  let sig := if isSignalling F a || isSignalling F b then fNV else 0
  let any := if nan then fNV else 0
  let x := srcF F c.ftz a
  let y := srcF F c.ftz b
  match k with
  | .eq => (!nan && !ltFV false x y && !ltFV false y x, sig)
  | .lt => (!nan && ltFV false x y, any)
  | .le => (!nan && !ltFV false y x, any)
  | .un => (nan, sig)
def execFcmp (g : Guard) (p : Nat) (a b : Src) (k : FCond) (ty : FTy) (s : State) : Out :=
  runPred s g p [a, b] fun _ t v =>
    let rs := (List.range (elems ty 0).length).map fun i =>
      fcond (fmtOf ty) (ctlOf t.fpctl) k (((elems ty (arg v 0))[i]?).getD 0) (((elems ty (arg v 1))[i]?).getD 0)
    (rs.all (·.1), t.flags (rs.foldl (fun f r => f ||| r.2) 0))

/-- The class mask of one element (R138). -/
def classOf (F : Fmt) (x : Nat) : Nat :=
  let n := signBit F x
  if isNaN F x then (if isSignalling F x then 2 ^ 8 else 2 ^ 9)
  else if expField F x = F.ones then (if n then 2 ^ 0 else 2 ^ 7)
  else if expField F x = 0 then
    (if fracField F x = 0 then (if n then 2 ^ 3 else 2 ^ 4) else (if n then 2 ^ 2 else 2 ^ 5))
  else (if n then 2 ^ 1 else 2 ^ 6)
/-- FCLASS works on the bits (R132): a signalling NaN raises no flag, though R133 exempts only FABS, FNEG and FCPS by name (log entry 94). -/
def execFclass (x : R2) (ty : FTy) (s : State) : Out :=
  runFp s (alu2 x false) fun _ v => mapElems ty v fun l => (classOf (fmtOf ty) (arg l 0), 0)

/-- Fused multiply-add (R140): 0 times infinity is invalid whatever the addend is. -/
def fmaElem (F : Fmt) (c : Ctl) (np nc : Bool) (l : List Nat) : Nat × Flags :=
  let a := srcF F c.ftz (arg l 0)
  let b := srcF F c.ftz (arg l 1)
  let srcs := l.map (F, ·)
  if !isNaN F (arg l 0) && !isNaN F (arg l 1) && decide (mulX a b = .invalid) then (nanOut F c.prop srcs, fNV)
  else finishX F c srcs (fmaX c.rm np nc a b (srcF F c.ftz (arg l 2)))
def execFfma (x : T3) (ty : FTy) (rnd : Option Rnd) (np nc : Bool) (s : State) : Out :=
  runFp s (aluT x) fun c v => mapElems ty v (fmaElem (fmtOf ty) { c with rm := rnd.getD c.rm } np nc)

/-! ### Functions (R141, R142) -/

def runFn (s : State) (x : R2) (ty : FTy) (f : Fn1) : Out :=
  runFp s (alu2 x false) fun c v => mapElems ty v fun l => fnElem f (fmtOf ty) c (arg l 0)
def execFrcp (x : R2) (ty : FTy) (s : State) : Out := runFn s x ty .rcp
def execFrsq (x : R2) (ty : FTy) (s : State) : Out := runFn s x ty .rsq
def execFex2 (x : R2) (ty : FTy) (s : State) : Out := runFn s x ty .ex2
def execFlg2 (x : R2) (ty : FTy) (s : State) : Out := runFn s x ty .lg2
def execFsin (x : R2) (ty : FTy) (s : State) : Out := runFn s x ty .sin
def execFcos (x : R2) (ty : FTy) (s : State) : Out := runFn s x ty .cos
def execFtanh (x : R2) (ty : FTy) (s : State) : Out := runFn s x ty .tanh
def execFsqrt (x : R2) (ty : FTy) (s : State) : Out :=
  runFp s (alu2 x false) fun c v => mapElems ty v fun l =>
    let F := fmtOf ty
    finishX F c [(F, arg l 0)] (sqrtX F (srcF F c.ftz (arg l 0)))
def isZeroF : FV → Bool | .fin _ m _ => decide (m = 0) | _ => false
def isFiniteF : FV → Bool | .fin _ _ _ => true | _ => false
/-- A quotient; a finite nonzero value over a zero sets DZ. -/
def divElem (F : Fmt) (c : Ctl) (l : List Nat) : Nat × Flags :=
  let a := srcF F c.ftz (arg l 0)
  let b := srcF F c.ftz (arg l 1)
  let (y, fl) := finishX F c (l.map (F, ·)) (divX F a b)
  (y, if isFiniteF a && !isZeroF a && isZeroF b then fl ||| fDZ else fl)
def execFdiv (x : R3) (ty : FTy) (s : State) : Out :=
  runFp s (alu3 x false) fun c v => mapElems ty v (divElem (fmtOf ty) c)

/-! ### Conversions (R143-R146) -/

/-- One value from format `S` to format `D` (R143). -/
def convElem (D S : Fmt) (c : Ctl) (x : Nat) : Nat × Flags :=
  finishX D c [(S, x)] (match srcF S c.ftz x with
    | .nan _ => .invalid
    | .inf g => .inf g
    | .fin g m e => .fin g m e false)
/-- The two results of a conversion of pairs, as one 64-bit pair or as one packed word. -/
def join2 (dty : FTy) (a b : Nat × Flags) : Nat × Flags :=
  (match dty with | .f32 => a.1 + 2 ^ 32 * b.1 | _ => a.1 + 65536 * b.1, a.2 ||| b.2)
def execFcvt (g : Guard) (d : Code) (a : Src) (b : Option Src) (dty sty : FTy) (s : State) : Out :=
  let srcs := (a, false) :: (b.toList.map fun x => (x, false))
  runFp s { g := g, d := d, w := decide (dty = .f32), srcs := srcs } fun c v =>
    let f := convElem (fmtOf dty) (fmtOf sty) c
    match sty with
    | .f32 => join2 dty (f (arg v 0)) (f (arg v 1))
    | _ => join2 dty (f (arg v 0 % 65536)) (f (arg v 0 / 65536))

/-- The integer nearest to `±m * 2^e` in a mode, and whether it equals the value (R130 `rint`). -/
def rintMag (m : Rnd) (neg : Bool) (n : Nat) (e : Int) : Nat × Bool :=
  if 0 ≤ e then (n * 2 ^ e.toNat, true)
  else
    let d := 2 ^ (-e).toNat
    let r := n % d
    let q := n / d
    if r = 0 then (q, true) else (if raise? m neg (decide (q % 2 = 1)) (compare (2 * r) d) then q + 1 else q, false)
/-- FCVTI on one element of `w` result bits (R145). -/
def toIntElem (F : Fmt) (c : Ctl) (u trunc : Bool) (w x : Nat) : Nat × Flags :=
  let lo : Int := if u then 0 else -(2 ^ (w - 1) : Nat)
  let hi : Int := if u then (2 ^ w : Nat) - 1 else (2 ^ (w - 1) : Nat) - 1
  let im := fun (i : Int) => (i % (2 ^ w : Nat)).toNat
  match srcF F c.ftz x with
  | .nan _ => (0, fNV)
  | .inf g => (im (if g then lo else hi), fNV)
  | .fin g m e =>
    let (n, exact) := rintMag (if trunc then .rtz else c.rm) g m e
    let i : Int := if g then -(n : Int) else n
    if i < lo ∨ hi < i then (im (satInt i lo hi), fNV) else (im i, if exact then 0 else fNX)
def execFcvti (x : R2) (ty : FTy) (u trunc : Bool) (s : State) : Out :=
  runFp s (alu2 x false) fun c v => mapElems ty v fun l => toIntElem (fmtOf ty) c u trunc (fmtOf ty).width (arg l 0)

/-- An integer as an exact value. -/
def intX (i : Int) : Exact := .fin (decide (i < 0)) i.natAbs 0 false
def intOf (sty : IntTy) (x : Nat) : Int :=
  match sty with
  | .s32 => sextNat x 32
  | .u32 => x
  | .s16 => sextNat x 16
  | .s8 => sextNat x 8
def execIcvtf (g : Guard) (d : Code) (a : Src) (b : Option Src) (dty : FTy) (sty : IntTy) (s : State) : Out :=
  let srcs := (a, false) :: (b.toList.map fun x => (x, false))
  let wide := decide (dty = .f32 ∧ sty = .s16)
  runFp s { g := g, d := d, w := wide, srcs := srcs } fun c v =>
    let f := fun (i : Int) => finishX (fmtOf dty) c [] (intX i)
    match sty, dty with
    | .s16, _ => join2 dty (f (sextNat (arg v 0) 16)) (f (sextNat (arg v 0 / 65536) 16))
    | _, .f32 => f (intOf sty (arg v 0))
    | _, _ => join2 dty (f (intOf sty (arg v 0))) (f (intOf sty (arg v 1)))

/-- FRND on one element (R146). -/
def frndElem (F : Fmt) (c : Ctl) (dir : Rnd) (x : Nat) : Nat × Flags :=
  match srcF F c.ftz x with
  | .nan _ => finishX F c [(F, x)] .invalid
  | .inf g => (F.inf g, 0)
  | .fin g m e =>
    let (n, _) := rintMag dir g m e
    if n = 0 then (F.zero g, 0) else ((roundMag F .rne false g n 0 false).1, 0)
def execFrnd (x : R2) (ty : FTy) (dir : Rnd) (s : State) : Out :=
  runFp s (alu2 x false) fun c v => mapElems ty v fun l => frndElem (fmtOf ty) c dir (arg l 0)

end Sys2Proof.Machine
end

