-- ==== Sys2Proof/Machine/Legal.lean ====
section
/-! DEFINITION. The registers and permutations that each word names by fixed codes: the part of R49 that depends on the executing kernel (R39, R46,
R374). REP asks it of the next word (R81), and the loader of every reachable word (R46). -/
namespace Sys2Proof.Machine

/-- What a word names: its fixed v and m registers, its permutations, and whether it is a moment word. -/
structure Needs where
  regs : List Reg := []
  perms : List Perm := []
  moment : Bool := false

def vRange (n k : Nat) : List Reg := (List.range k).map fun i => .v (n + i)
/-- A base field (R199). -/
def baseRegs (spc : Space) (c : Code) : List Reg := codeRegs c (decide (spc = .g))
def dataRegs (d : Data) (sz : Size) : List Reg :=
  match d with | .m n => [.m n] | .c c => codeRegs c (decide (sz = .b64))
/-- An operand triple (R176) and an AMAX pair (R181). -/
def tripleRegs (o : Operand) : List Reg := vRange o.n 3
def ctrRegs (ctr : Option Nat) (spc : CSpace) : List Reg :=
  match ctr with | none => [] | some n => if spc = .g then vRange n 2 else [.v n]
def xRegs (x : XWord) : List Reg :=
  (if x.objShape then [.v x.shape] else vRange x.shape 2) ++ vRange x.coord x.ncoord ++ ctrRegs x.ctr x.cspace ++
  (match x.dest with | .v n => [.v n] | .q _ => [])
/-- The data registers of an atomic (R248). -/
def atRegs (cas : Bool) (d : Code) (sz : Size) : List Reg :=
  match d with
  | .v n => vRange n ((if cas then 2 else 1) * (if sz = .b64 then 2 else 1))
  | _ => []

def needs3 (x : R3) (w wb : Bool) : Needs := { regs := codeRegs x.d w ++ srcRegs x.a w ++ srcRegs x.b wb, perms := [x.a.perm, x.b.perm] }
def needs2 (x : R2) (w : Bool) : Needs := { regs := codeRegs x.d w ++ srcRegs x.a w, perms := [x.a.perm] }
def needsT (x : T3) : Needs := { regs := codeRegs x.d false ++ srcRegs x.a false ++ codeRegs x.b false ++ codeRegs x.c false, perms := [x.a.perm] }
def needsS (l : List Src) : Needs := { regs := l.flatMap fun x => srcRegs x false, perms := l.map fun x => x.perm }
def needsD (d : Code) (w : Bool) (l : List Src) : Needs := { needsS l with regs := codeRegs d w ++ (needsS l).regs }
def needsM (d : List Reg) (l : List MSrc) (k : List Src) : Needs :=
  { regs := d ++ l.map (fun x => .m x.m) ++ (needsS k).regs, perms := l.map (fun x => x.perm) ++ k.map (fun x => x.perm), moment := true }
def needsA (d : Code) (a : MAddr) (cas : Bool) : Needs := { regs := baseRegs a.space a.base ++ atRegs cas d a.size }

def needs (i : Instr) : Needs :=
  match i with
  | .iadd x w | .isub x w | .land x w | .lor x w | .lxor x w | .landn x w => needs3 x w w
  | .shl x w | .shr x w | .sar x w => needs3 x w false
  | .imul x | .imulh x | .imulhu x | .idiv x | .idivu x | .irem x | .iremu x | .imin x | .imax x | .iminu x | .imaxu x
  | .rol x | .bfx x | .bfxu x => needs3 x false false
  | .irsh x _ | .isel x _ _ => needs3 x false false
  | .lnot x w | .mov x w => needs2 x w
  | .ineg x | .iabs x | .popc x | .clz x | .brev x => needs2 x false
  | .isat x _ => needs2 x false
  | .imad x | .bfi x => needsT x
  | .iqnt x _ => needsT x
  | .movi _ d _ | .aih _ d _ => needsD d false []
  | .ail _ d a _ => needsD d false [a]
  | .icmp _ _ a b _ => needsS [a, b]
  | .pset _ _ a | .xset _ _ a => needsS [a]
  | .xmovToV _ d _ => { regs := [.v d] }
  | .xadd _ _ _ b | .xaddOrg _ _ _ b => needsS [b]
  | .aset _ _ a b => needsS [a, b]
  | .aadd _ _ _ b | .aaddStride _ _ _ b | .amul _ _ _ b | .ashl _ _ _ b => needsS [b]
  | .aval _ d _ | .avalBase _ d _ | .avalStride _ d _ => needsD d false []
  | .fadd x _ | .fsub x _ | .fmul x _ | .fmin x _ | .fmax x _ | .fcps x _ | .fscl x _ | .fdiv x _ => needs3 x false false
  | .fabs x _ | .fneg x _ | .fclass x _ | .frcp x _ | .frsq x _ | .fsqrt x _ | .fex2 x _ | .flg2 x _ | .fsin x _ | .fcos x _
  | .ftanh x _ => needs2 x false
  | .fcmp _ _ a b _ _ => needsS [a, b]
  | .ffma x _ _ _ _ => needsT x
  | .fcvt _ d a b dty _ => needsD d (decide (dty = .f32)) (a :: b.toList)
  | .fcvti x _ _ _ => needs2 x false
  | .icvtf _ d a b dty sty => needsD d (decide (dty = .f32 ∧ sty = .s16)) (a :: b.toList)
  | .frnd x _ _ => needs2 x false
  | .mset _ m a b => needsM [.m m] [] [a, b]
  | .msetDet _ m a => needsM [.m m] [] [a]
  | .msplit _ d a => needsM (codeRegs d true) [a] []
  | .mmov _ m a | .mrelu _ m a | .mexp _ m a | .msigm _ m a => needsM [.m m] [a] []
  | .mzero _ m => needsM [.m m] [] []
  | .madd _ m a b _ | .msub _ m a b _ | .mmul _ m a b _ => needsM [.m m] [a, b] []
  | .mscl _ m a b => needsM [.m m] [a] [b]
  | .mfma _ m a b c _ => needsM [.m m, .m b, .m c] [a] []
  | .mchk _ _ a => needsM [] [a] []
  | .mcol _ d a k => needsM (codeRegs d false ++ (match k with | .sample z => [.v z] | _ => [])) [a] []
  | .mma _ _ _ a b _ => { regs := tripleRegs a ++ tripleRegs b }
  | .mmad _ _ a b _ | .mmam _ _ a b => { regs := tripleRegs a ++ tripleRegs b }
  | .zld _ _ _ a _ => { regs := tripleRegs a }
  | .zst _ _ _ d amax _ _ =>
    { regs := (match d with | .mem o => tripleRegs o | .queue _ => []) ++ (match amax with | some o => vRange o.n 2 | none => []) }
  | .zrd _ d _ _ _ m => { regs := if m then [.m d] else [.v d] }
  | .zwr _ _ _ _ x => match x with | .inl x => needsS [x] | .inr x => { regs := [.m x.m], perms := [x.perm] }
  | .ld _ d a | .st _ d a => { regs := baseRegs a.space a.base ++ dataRegs d a.size }
  | .pref _ b _ _ spc _ => { regs := baseRegs spc b }
  | .linv _ b _ _ _ | .lcln _ b _ _ _ => { regs := baseRegs .g b }
  | .spmap _ _ va c _ => { regs := vRange va 2 ++ srcRegs c false, perms := [c.perm] }
  | .atadd _ d a _ | .atmin _ d a _ | .atmax _ d a _ | .atminu _ d a _ | .atmaxu _ d a _ | .atand _ d a _ | .ator _ d a _
  | .atxor _ d a _ | .atxch _ d a _ => needsA d a false
  | .atcas _ d a _ => needsA d a true
  | .atfadd _ d a _ _ => needsA d a false
  | .barinit _ b n => needsS [b, n]
  | .barr _ d b => needsD d false [b]
  | .barw _ b ph => needsS [b, ph]
  | .bars _ b => needsS [b]
  | .pharr _ d a c _ => needsD d false [a, c]
  | .phwait _ a ph _ => needsS [a, ph]
  | .cwait _ d a n spc _ =>
    { regs := codeRegs d false ++ srcRegs a (decide (spc = .g)) ++ srcRegs n false, perms := [a.perm, n.perm] }
  | .voteBallot _ d _ _ => { regs := vRange d 4 }
  | .votePopc _ d _ _ => needsD d false []
  | .shfx _ d a b w => { regs := codeRegs d w ++ (if w then vRange a 2 else [.v a]) ++ srcRegs b false, perms := [b.perm] }
  | .xcopy x | .xstore x => { regs := xRegs x }
  | .xcode _ sh c _ ob spc => { regs := (if ob then [.v sh] else vRange sh 2) ++ ctrRegs c spc }
  | .bulk _ a d c l spc => { regs := vRange a 2 ++ vRange d 2 ++ ctrRegs c spc ++ [.v l] }
  | .enq _ _ r n => { needsS [n] with regs := vRange r 8 ++ srcRegs n false }
  | .join _ _ a => { regs := vRange a 2 }
  | .qcloseC _ n => needsS [n]
  | .qstat _ d n _ => needsD d false [n]
  | .trap _ _ a | .hint _ _ a => needsS a.toList
  | .srd _ d _ w => needsD d w []
  | .swr _ _ a w => { regs := srcRegs a w }
  | .pmatch _ _ v => { regs := vRange v 2 }
  | _ => {}

/-- Whether a 64-bit value is an instruction of the executing kernel (R49). -/
def isInstrIn (r : RoleHdr) (k : Kernel) (w : Word64) : Option Instr :=
  match decode w with
  | .ok i => let n := needs i; if allowedIn r k n.regs n.perms n.moment then some i else none
  | .error _ => none

end Sys2Proof.Machine
end

