-- ==== Sys2Proof/Machine/Walk.lean ====
section
/-! DEFINITION. The tree walker: entering and leaving nodes, calls, splits and deposits (R65-R76, R416). -/
namespace Sys2Proof.Machine

/-! ### Leaving scopes early (R72, R75) -/

/-- Threads that go to a place outside nodes that `inside` picks, each at its own call level, leave those nodes' bodies and split records. -/
def leaveScopes (co : Core) (slots : List Nat) (f : Nat) (inside : Nat → Bool) (self : Bool) (top : Nat) : Core :=
  let here := fun (m : SMap Nat) => slots.filter (atLevel co m)
  let left := fun (n : Nat) => inside n && (self || decide (n ≠ top))
  let co := unbodyIf co (fun b i => decide (b.fn = f) && inside b.node && atLevel co b.depths i) slots
  let co := { co with crews := co.crews.map fun (k, w) => (k, { w with bodies := w.bodies.map fun b =>
    { b with regions := b.regions.map fun r => if r.fn = f && left r.node then r.drop (here r.depths) else r } }) }
  let co := (keys co.crews).foldl nextRegions co
  { co with splits := co.splits.filterMap fun (k, r) => if r.fn = f && left r.node then (r.drop (here r.depths)).map (k, ·) else some (k, r) }

/-! ### One visit -/

/-- The groups that leave a splitting node: their threads, how they go on and their ordinals. -/
abbrev Groups := List (List Nat × WalkAct × Nat)
/-- Threads grouped by a key, in ascending key. -/
def groupBy (key : Nat → Nat) (slots : List Nat) : List (Nat × List Nat) :=
  ((slots.map key).foldl insertSlot []).map fun k => (k, slots.filter fun i => decide (key i = k))
/-- The same in the order of each group's first thread (R88). -/
def groupFirst (key : Nat → Nat) : List Nat → List (Nat × List Nat)
  | [] => []
  | i :: r =>
    let gs := groupFirst key r
    (key i, i :: (gs.filter fun g => decide (g.1 = key i)).flatMap (·.2)) :: gs.filter fun g => decide (g.1 ≠ key i)

/-- The innermost body of a thread outside trap context. -/
def bodyAt (co : Core) (i : Nat) : Option Body :=
  let t := threadOf co i
  if t.trap.isSome then none else (crewOf co t).bind fun k => bodyOf k i
def setBody (co : Core) (i : Nat) (f : Body → Body) : Core :=
  match (bodyAt co i), get? co.threads i with
  | some b, some t => updCrew co t.crew fun k => { k with bodies := k.bodies.map fun x => if x = b then f x else x }
  | _, _ => co

/-- A split of one walk's threads at node `n` (R72, R75): inside a body the parts are served in turn, and the set is whole again at the
successor; elsewhere all go on at once and a split record counts them. `stuck` are the walk's threads that trapped or wait there. A CALLT
that sends one group on while others wait for a binding or trapped sends its threads to one group only, and opens no record (log entry
86). -/
def splitWalks (s : State) (c f n : Nat) (w : Walk) (gs : Groups) (stuck : List Nat) : State × List Walk :=
  let mk := fun (g : List Nat × WalkAct × Nat) => ({ slots := g.1, act := g.2.1, ord := g.2.2, split := true, sel := w.sel } : Walk)
  let co := coreOf s c
  let i := w.slots.headD 0
  match bodyAt co i, gs with
  | some _, g :: rest =>
    if rest.isEmpty && stuck.isEmpty then (s, [{ w with slots := g.1, act := g.2.1 }])
    else
      let r : Region := { fn := f, node := n, depths := levelsOf co w.slots, run := unionSlots g.1 stuck,
                          rest := rest.map fun x => { slots := x.1, act := x.2.1, ord := x.2.2 } }
      (updCore s c fun co => setBody co i fun b => { b with regions := r :: b.regions }, [{ mk g with split := false }])
  | some _, [] =>
    let r : Region := { fn := f, node := n, depths := levelsOf co w.slots, run := stuck }
    (updCore s c fun co => setBody co i fun b => { b with regions := r :: b.regions }, [])
  | none, [] => (s, [])
  | none, [g] => (s, [{ w with slots := g.1, act := g.2.1 }])
  | none, g :: rest =>
    let s := match (List.range Config.nSplits).find? fun k => (get? co.splits k).isNone with
      | some k => updCore s c fun co => { co with splits := put co.splits k { fn := f, node := n, depths := levelsOf co w.slots, slots := w.slots } }
      | none => s
    (s, (g :: rest).map mk)

/-- A trap that the walker raises at a node (R71, R317). -/
def nodeTrap (s : State) (c f n sel : Nat) (raw : Nat) (items : List (Nat × Nat × List Nat × Nat)) : State :=
  let s := updCore s c fun co => updThreads co (items.map (·.1)) fun t => { t with pos := { fn := f, node := n, step := 0 }, tries := 0 }
  takeTrap s c sel (items.map fun (i, code, srcs, addr) =>
    (i, { code := code, srcs := srcs, addr := addr, node := true, word := BitVec.ofNat 64 (raw / 2 ^ 64) }))

/-- The split records at a level in or out of trap context: a handler's deposits count for no record of the trapped walk (R72, R319). -/
def ownSplit (co : Core) (i k : Nat) : Bool :=
  match (get? co.splits k).bind fun r => get? r.depths i with
  | some d => decide (d % 2 = (threadOf co i).callLevel % 2)
  | none => false
/-- A deposit counts for the split records that the threads have left (R72). -/
def countDeposit (co : Core) (slots : List Nat) (pos : Pos) : Core :=
  let mine := fun (co : Core) (i : Nat) => (threadOf co i).leaving.filter (ownSplit co i)
  let kept := fun (i : Nat) => minus (threadOf co i).leaving (mine co i)
  let co := slots.foldl (fun co i =>
    let ids := mine co i
    match keyOf co i with
    | none => co
    | some (l, role, _) =>
      { co with splits := co.splits.filterMap fun (k, r) =>
          if ids.contains k then (({ r with join := some (r.join.getD (pos, l, role)) } : Split).drop [i]).map (k, ·) else some (k, r) }) co
  slots.foldl (fun co i => updThread co i fun t => { t with leaving := kept i, tries := 0 }) co
/-- The walker deposits threads at a position, ready or held (R65, R88). -/
def arrive (s : State) (c : Nat) (w : Walk) (slots : List Nat) (pos : Pos) (r : Option Reason) : State :=
  let s := updCore s c fun co => countDeposit co slots pos
  let s := deposit s c slots pos r w.ord w.split
  let l := slots.filter fun i => (threadOf (coreOf s c) i).stepping
  takeTrap s c w.sel (l.map fun i => (i, { code := cStep, arg := (threadOf (coreOf s c) i).stepArg, node := r.isSome }))

/-- A page that a walker access waits for: the thread is held at the position, and the walk goes on from the same act (R416). -/
def walkWait (s : State) (c ctx : Nat) (w : Walk) (i : Nat) (act : WalkAct) (pos : Pos) (va : Nat) (write : Bool) : State :=
  let s := updCore s c fun co => updThread { co with walks := co.walks ++ [{ w with slots := [i], act := act }] } i fun t => { t with wait := .page }
  let s := deposit s c [i] pos (some .replay) 0 false
  pageFault s (clusterOf c) ctx va write (.walk c i)

/-- The Successes counted so far for an access to a page. -/
def pageTries (x : Option (Nat × Nat)) (page : Nat) : Nat := match x with | some (p, n) => if p = page then n else 0 | none => 0
/-- The walker marks the workgroup of a thread for a swap-out: an instruction fetch met a replayable fault (R227). -/
def fetchFault (s : State) (c : Nat) (slots : List Nat) (va : Nat) : State :=
  updCore s c fun co => match slots with
    | [] => co
    | i :: _ => match wgKey co i with | some k => updWG co k fun w =>
        { w with swap := some va, fetchTries := some (va / 4096, pageTries w.fetchTries (va / 4096)) } | none => co

/-- Whether a fetch of this page has been refused to the threads' workgroup, or has met its fourth Success (R226). -/
def fetchLost (co : Core) (slots : List Nat) (va : Nat) : Bool :=
  match slots.head?.bind (wgKey co) with
  | some k => (match get? co.wgs k with | some w => w.fetchTries.any fun (p, n) => decide (p = va / 4096 ∧ 4 ≤ n) | none => false)
  | none => false

/-- What a frame access finds: `done` threads with the place, waiting or lost ones. -/
def frameVA (s : State) (co : Core) (i d : Nat) : Option (WG × Nat) :=
  (get? co.threads i).bind fun t => (crewOf co t).bind fun k => (get? co.wgs k.wg).map fun w => (w, slice s w k.wg i (512 + 8 * d))
/-- Whether the thread's frame or record access has been refused (R226): a refusal counts as a fifth Success. -/
def lostPage (t : Thread) : Bool := decide (5 ≤ t.tries)
/-- A walk that waits for an access in flight comes back to the walker (R67, R25). -/
def walkAgain (s : State) (c : Nat) (w : Walk) : State := updCore s c fun co => { co with walks := co.walks ++ [w] }
/-- The record of a node, and how the walk goes on with it. A page of it that is absent is fetched first (R227); one that is lost, and a
malformed record, trap the walk's threads at the node (R71). -/
def withNode (s : State) (c ctx f n nv : Nat) (w : Walk) (go : Node → State × List Walk) : State × List Walk :=
  match nodeAt s ctx f n nv with
  | .fault va =>
    if fetchLost (coreOf s c) w.slots va then (nodeTrap s c f n w.sel 0 (w.slots.map fun i => (i, cAccess, [], va)), [])
    else (walkAgain (fetchFault s c w.slots va) c w, [])
  | .fatal va => (nodeTrap s c f n w.sel 0 (w.slots.map fun i => (i, lostCode s ctx va, [], va)), [])
  | .ok none => (nodeTrap s c f n w.sel (rawNode s ctx f n) (w.slots.map fun i => (i, cIllegal, [], 0)), [])
  | .ok (some r) => go r
/-- Walks in ascending order of a key (R88). -/
def insertWalk (x : Nat × Walk) : List (Nat × Walk) → List (Nat × Walk)
  | [] => [x]
  | y :: r => if y.1 ≤ x.1 then y :: insertWalk x r else x :: y :: r
def inOrder (l : List (Nat × Walk)) : List Walk := (l.foldl (fun out x => insertWalk x out) []).map (·.2)
/-- Push the frame (f, n) for one thread (R67). -/
def pushFrame (s : State) (c f n g m : Nat) (w : Walk) (i : Nat) : State × List Nat × List Nat :=
  let co := coreOf s c
  let t := threadOf co i
  match frameVA s co i t.depth with
  | none => (s, [], [])
  | some (wg, va) =>
    if lostPage t then (s, [], [i])
    else match translateVA s wg.ctx va true with
    | .ok pa sn =>
      if mustWait s co wg.ctx i (.off pa sn) 8 then (walkAgain s c { w with slots := [i], act := .call f n g m }, [], [])
      else
        let s := writePlace (countTraffic s wg.ctx [(.off pa sn, 8)]) (.off pa sn) (toBytes 8 (f + 65536 * n))
        (updCore s c fun co => updThread co i fun t => { t with depth := t.depth + 1, tries := 0 }, [i], [])
    | .absent => if 4 ≤ t.tries then (s, [], [i]) else (walkWait s c wg.ctx w i (.call f n g m) { fn := f, node := n, step := 0 } va true, [], [])
    | _ => (s, [], [i])
def pushFrames (c f n g m : Nat) (w : Walk) : State → List Nat → State × List Nat × List Nat
  | s, [] => (s, [], [])
  | s, i :: r =>
    let (s, ok, bad) := pushFrame s c f n g m w i
    let (s, ok', bad') := pushFrames c f n g m w s r
    (s, ok ++ ok', bad ++ bad')

/-- Threads whose frame or record access fails beyond repair: ACCESS in the fault log and the end of their workgroup (R416). They wait
as a pending group that TRAP_DELIVERY turns into that end. -/
def frameFault (s : State) (c : Nat) (w : Walk) (pop : Nat) (slots : List Nat) : State :=
  if slots.isEmpty then s
  else updCore s c fun co =>
    let at_ := fun (i : Nat) => frameVA s co i ((threadOf co i).depth - pop)
    let addr := fun (i : Nat) => ((at_ i).map (·.2)).getD 0
    let code := fun (i : Nat) => match at_ i with | some (g, va) => lostCode s g.ctx va | none => cAccess
    let co := match w.act with
      | .call f n _ _ => updThreads co slots fun t => { t with pos := { fn := f, node := n, step := 0 } }
      | _ => co
    { co with late := co.late ++ slots.map fun i => (i, { code := code i, sel := w.sel, tick := s.tick, addr := addr i }) }

/-- Threads with room push their frames and go on at node `m` of `g` (R67). -/
def callFrames (s : State) (c f n g m : Nat) (w : Walk) (slots : List Nat) : State × List Walk :=
  let (s, ok, bad) := pushFrames c f n g m w s slots
  let s := frameFault s c w 0 bad
  (s, if ok.isEmpty then [] else [{ w with slots := ok, act := .enter g m }])
/-- Call: the threads whose depth is at the limit raise STACK at the calling node (R67, R71, R323); the others push their frames. -/
def callGroup (s : State) (c f n g m : Nat) (w : Walk) : State × List Walk :=
  let co := coreOf s c
  let lim := fun (i : Nat) => match keyOf co i with | some (_, _, wg) => wg.kern.depth | none => 64
  let past := w.slots.filter fun i => decide (lim i ≤ (threadOf co i).depth)
  match past.head?.bind (keyOf co) with
  | none => callFrames s c f n g m w w.slots
  | some (_, role, wg) => withNode s c wg.ctx f n (roleOf wg role).nv w fun r =>
    let index := fun (i : Nat) => if r.kind = 6 then [((threadOf co i).getV (r.field 48 8)).toNat] else []
    callFrames (nodeTrap s c f n w.sel r.raw (past.map fun i => (i, cStack, index i, 0))) c f n g m w (minus w.slots past)

/-- Return through the top frame (R65): each group goes on at its caller; a thread at its base depth ends, or traps in trap context
(R321). -/
def retGroup (s : State) (c : Nat) (w : Walk) : State × List Walk :=
  let co := coreOf s c
  let base := fun (i : Nat) => match (threadOf co i).trap with | some x => x.base | none => 0
  let low := w.slots.filter fun i => decide ((threadOf co i).depth ≤ base i)
  let trapped := low.filter fun i => (threadOf co i).trap.isSome
  let s := takeTrap s c w.sel (trapped.map fun i => (i, { code := cIllegal }))
  let s := updCore s c fun co => endThreads co (minus low trapped)
  let read := fun (st : State × List (Nat × Nat) × List Nat) (i : Nat) =>
    let (s, ok, bad) := st
    let co := coreOf s c
    let t := threadOf co i
    match frameVA s co i (t.depth - 1) with
    | none => (s, ok, bad)
    | some (wg, va) =>
      if lostPage t then (s, ok, bad ++ [i])
      else match translateVA s wg.ctx va false with
      | .ok pa sn =>
        if mustWait s co wg.ctx i (.off pa sn) 8 then (walkAgain s c { w with slots := [i], act := .ret }, ok, bad)
        else
        let s := countTraffic (touchLine s pa sn) wg.ctx [(.off pa sn, 8)]
        let x := readPlace s (.off pa sn) 4
        (updCore s c fun co => updThread co i fun t => { t with depth := t.depth - 1, tries := 0 }, ok ++ [(i, x)], bad)
      | .absent => if 4 ≤ t.tries then (s, ok, bad ++ [i]) else (walkWait s c wg.ctx w i .ret t.pos va false, ok, bad)
      | _ => (s, ok, bad ++ [i])
  let (s, ok, bad) := (minus w.slots low).foldl read (s, [], [])
  let s := frameFault s c w 1 bad
  let frame := fun (i : Nat) => ((ok.find? fun x => decide (x.1 = i)).map (·.2)).getD 0
  (s, (groupFirst frame (ok.map (·.1))).map fun (x, l) => { w with slots := l, act := .leave (x % 65536) (x / 65536) })

/-- What one thread finds at a CALLT (R69): a trap, a wait for a page or a binding, or a function. -/
inductive Callee where | trap (code addr : Nat) | wait (va : Nat) | bind (va : Nat) | fn (g : Nat)
deriving DecidableEq, Repr
def calleeOf (s : State) (ctx f table i : Nat) : Callee :=
  match fnOf s ctx f with
  | none => .trap cIllegal 0
  | some fn =>
    if fn.segSize < table + 8 then .trap cAccess (fn.seg + table)
    else match fetchVA s ctx (fn.seg + table) 4 with
    | .fault va => .wait va
    | .fatal va => .trap (lostCode s ctx va) va
    | .ok len =>
      if len ≤ i then .trap cTable 0
      else if fn.segSize < table + 16 + 8 * i then .trap cAccess (fn.seg + table + 8 + 8 * i)
      else match fetchVA s ctx (fn.seg + table + 8 + 8 * i) 8 with
      | .fault va => .wait va
      | .fatal va => .trap (lostCode s ctx va) va
      | .ok e =>
        if bits e 16 1 = 1 then .bind (fn.seg + table + 8 + 8 * i)
        else if fnCount s ctx ≤ e % 65536 then .trap cIllegal 0
        else .fn (e % 65536)
/-- The places of a call table's header and of entry `i`. -/
def tablePlaces (s : State) (ctx f table i : Nat) : List Place :=
  match fnOf s ctx f with
  | none => []
  | some fn => [fn.seg + table, fn.seg + table + 8 + 8 * i].filterMap fun va => match translateVA s ctx va false with | .ok pa sn => some (.off pa sn) | _ => none
/-- Whether a thread's read of a table's header or entry `i` must wait for an access of its own that is ordered before it, for an engine or for
the budget (R99, R238, R25, R312). -/
def tableBusy (s : State) (co : Core) (ctx f table i slot : Nat) : Bool :=
  acquirePending co slot || (tablePlaces s ctx f table i).any fun p => mustWait s co ctx slot p 8
/-- One binding request per entry, however many threads wait (R69). -/
def addBind (s : State) (ctx va c : Nat) (slots : List Nat) : State :=
  updCtx s ctx fun x =>
    let new := slots.map fun i => (c, i)
    if x.binds.any fun b => decide (b.va = va) then
      { x with binds := x.binds.map fun b => if b.va = va then { b with waiters := b.waiters ++ new } else b }
    else { x with binds := x.binds ++ [{ va := va, waiters := new }] }
def calltGroup (s : State) (c ctx f n : Nat) (rec : Node) (w : Walk) : State × List Walk :=
  let co := coreOf s c
  let idx := fun (i : Nat) => ((threadOf co i).getV (rec.field 48 8)).toNat
  let table := match fnOf s ctx f with | some fn => fn.seg + rec.field 17 31 | none => 0
  if w.slots.any fun i => tableBusy s co ctx f (rec.field 17 31) (idx i) i then (walkAgain s c w, []) else
  let refused := w.slots.filter fun i => lostPage (threadOf co i)
  let s := if refused.isEmpty then s else nodeTrap s c f n w.sel rec.raw (refused.map fun i => (i, cAccess, [idx i], table))
  let gs := groupBy idx (minus w.slots refused)
  let park := fun (g : Nat × List Nat) (why : Park) => (g.1, { w with slots := g.2, act := .park f n why, ord := g.1 })
  let step := fun (st : State × Groups × List (Nat × Walk) × List Nat) (g : Nat × List Nat) =>
    let (s, out, parks, stuck) := st
    let s := countTraffic s ctx ((tablePlaces s ctx f (rec.field 17 31) g.1).map fun p => (p, 8))
    match calleeOf s ctx f (rec.field 17 31) g.1 with
    | .trap code a => (nodeTrap s c f n w.sel rec.raw (g.2.map fun i => (i, code, [g.1], a)), out, parks, stuck ++ g.2)
    | .wait va =>
      let lost := g.2.filter fun i => decide (4 ≤ (threadOf (coreOf s c) i).tries)
      let held := minus g.2 lost
      let s := if lost.isEmpty then s else nodeTrap s c f n w.sel rec.raw (lost.map fun i => (i, cAccess, [g.1], va))
      (s, out, if held.isEmpty then parks else parks ++ [park (g.1, held) (.page va)], stuck ++ g.2)
    | .bind va => (s, out, parks ++ [park g (.bind va)], stuck ++ g.2)
    | .fn k => (updCore s c fun co => updThreads co g.2 fun t => { t with tries := 0 }, out ++ [(g.2, WalkAct.call f n k 0, g.1)], parks, stuck)
  let (s, out, parks, stuck) := gs.foldl step (s, [], [], refused)
  let (s, ws) := splitWalks s c f n w out stuck
  (s, inOrder (parks ++ (out.map (·.2.2)).zip ws))
/-- Threads are held at a node (R65, R69). -/
def parkGroup (s : State) (c f n : Nat) (why : Park) (w : Walk) : State :=
  let here : Pos := { fn := f, node := n, step := 0 }
  match w.slots.head?.bind (keyOf (coreOf s c)) with
  | none => s
  | some (_, _, wg) =>
    match why with
    | .gather => arrive s c w w.slots here (some .gather)
    | .bind va =>
      let s := addBind (arrive s c w w.slots here (some .binding)) wg.ctx va c w.slots
      updCore s c fun co => updThreads co w.slots fun t => { t with wait := .entry va }
    | .page va => w.slots.foldl (fun s i => walkWait s c wg.ctx w i (.enter f n) here va false) s

def condOf (t : Thread) (rec : Node) : Bool := t.getP (rec.field 51 3) != decide (rec.field 50 1 = 1)
def ctrReg (rec : Node) : Nat := rec.field 40 8

/-- Enter a node (R65). -/
def enterNode (s : State) (c : Nat) (w : Walk) (f n : Nat) : State × List Walk :=
  let co := coreOf s c
  match w.slots with
  | [] => (s, [])
  | i :: _ =>
    match keyOf co i with
    | none => (s, [])
    | some (_, role, wg) =>
      withNode s c wg.ctx f n (roleOf wg role).nv w fun rec =>
        let here : Pos := { fn := f, node := n, step := 0 }
        match rec.kind with
        | 1 => (s, [{ w with act := .enter f rec.first }])
        | 2 => (arrive (updCore s c fun co => updThreads co w.slots enterBlock) c w w.slots here none, [])
        | 3 =>
          let sel := fun (i : Nat) => ((threadOf co i).getV (ctrReg rec)).toNat
          let d := rec.field 55 1
          let arms := rec.count - d
          let bad := if d = 1 then [] else w.slots.filter fun i => decide (arms ≤ sel i)
          let s := if bad.isEmpty then s else nodeTrap s c f n w.sel rec.raw (bad.map fun i => (i, cChoose, [sel i], 0))
          let gs := groupBy (fun i => min (sel i) arms) (minus w.slots bad)
          splitWalks s c f n w (gs.map fun (k, l) => (l, .enter f (rec.first + k), k)) bad
        | 4 =>
          let go := fun (i : Nat) => match rec.field 54 2 with
            | 0 => condOf (threadOf co i) rec
            | 1 => true
            | _ => decide ((threadOf co i).getV (ctrReg rec) ≠ 0)
          let stay := w.slots.filter go
          let leave := w.slots.filter fun i => !go i
          let gs : Groups := (if stay.isEmpty then [] else [(stay, .enter f rec.first, 0)]) ++ (if leave.isEmpty then [] else [(leave, .leave f n, 1)])
          splitWalks s c f n w gs []
        | 5 => (s, [{ w with act := .call f n (((fnOf s wg.ctx f).map (·.fbase)).getD 0 + rec.field 40 16) 0 }])
        | 6 => calltGroup s c wg.ctx f n rec w
        | 7 =>
          let k := rec.field 54 2
          let inMask := fun (i : Nat) => match crewOf co (threadOf co i) with | some cr => (rget [] cr.masks k).contains i | none => false
          let held := w.slots.filter inMask
          let skip := w.slots.filter fun i => !inMask i
          let go := fun (l : List Nat) (act : WalkAct) => (if l.isEmpty then [] else [(l.headD 0, { w with slots := l, act := act })] : List (Nat × Walk))
          (s, inOrder (go held (.park f n .gather) ++ go skip (.leave f n)))
        | _ => (arrive s c w w.slots here (some .refill), [])

/-- Threads that finish a node count for the split records at it, each at its own call level (R72). -/
def markLeaving (co : Core) (slots : List Nat) (f n : Nat) : Core :=
  slots.foldl (fun co i =>
    let new := co.splits.filter fun (k, r) => decide (r.fn = f ∧ r.node = n) && atLevel co r.depths i && !(threadOf co i).leaving.contains k
    updThread co i fun t => { t with leaving := t.leaving ++ new.map (·.1) }) co
/-- Keep only the records that count the thread. -/
def trimLeaving (co : Core) (slots : List Nat) : Core :=
  let counts := fun (i k : Nat) => match get? co.splits k with | some r => r.slots.contains i | none => false
  slots.foldl (fun co i => updThread co i fun t => { t with leaving := t.leaving.filter (counts i) }) co

/-- Leave a node (R65). -/
def leaveNode (s : State) (c : Nat) (w : Walk) (f n : Nat) : State × List Walk :=
  let co := coreOf s c
  match w.slots with
  | [] => (s, [])
  | i :: _ =>
    let atRegion := fun (i : Nat) => match bodyAt co i with
      | some b => match b.regions with
        | r :: _ => decide (r.fn = f ∧ r.node = n) && atLevel co r.depths i
        | [] => false
      | none => false
    let ends := w.slots.filter atRegion
    if !ends.isEmpty then
      let rest := minus w.slots ends
      let co := setBody co (ends.headD i) fun b => { b with regions := match b.regions with
        | r :: rs => { r with run := minus r.run ends, arrived := unionSlots r.arrived ends } :: rs
        | [] => [] }
      let old := co.walks
      let co := nextRegions { co with walks := [] } (threadOf co i).crew
      (setCore s c { co with walks := old }, co.walks ++ if rest.isEmpty then [] else [{ w with slots := rest }])
    else
      let s := setCore s c (trimLeaving (markLeaving co w.slots f n) w.slots)
      let co := coreOf s c
      match keyOf co i with
      | none => (s, [])
      | some (_, role, wg) =>
        let nv := (roleOf wg role).nv
        if n = 0 then (updCore s c fun co => updThreads co w.slots fun t => { t with pos := { fn := f, node := 0, step := 0 } }, [{ w with act := .ret }])
        else
          withNode s c wg.ctx f n nv w fun self =>
          let p := self.parent
          withNode s c wg.ctx f p nv w fun P =>
            match P.kind with
            | 1 => if self.ordinal + 1 < P.count then (s, [{ w with act := .enter f (P.first + self.ordinal + 1) }])
                   else (s, [{ w with act := .leave f p }])
            | 7 =>
              let s := updCore s c fun co => unbodyIf co (fun b i => decide (b.fn = f ∧ b.node = p) && atLevel co b.depths i) w.slots
              (s, [{ w with act := .leave f p }])
            | 4 =>
              let s := if P.field 54 2 = 2 then updCore s c fun co => updThreads co w.slots fun t =>
                  { t with v := rput 0 t.v (ctrReg P) (t.getV (ctrReg P) - 1) } else s
              let co := coreOf s c
              let again := fun (i : Nat) => match P.field 54 2 with
                | 0 => condOf (threadOf co i) P
                | 1 => !condOf (threadOf co i) P
                | _ => decide ((threadOf co i).getV (ctrReg P) ≠ 0)
              let stay := w.slots.filter again
              let out := w.slots.filter fun i => !again i
              let gs : Groups := (if stay.isEmpty then [] else [(stay, .enter f P.first, 0)]) ++ (if out.isEmpty then [] else [(out, .leave f p, 1)])
              splitWalks s c f p w gs []
            | _ => (s, [{ w with act := .leave f p }])

/-- One visit of one group. -/
def walkOne (s : State) (c : Nat) (w : Walk) : State × List Walk :=
  match w.act with
  | .enter f n => enterNode s c w f n
  | .call f n g m => callGroup s c f n g m w
  | .leave f n => leaveNode s c w f n
  | .ret => retGroup s c w
  | .park f n why => (parkGroup s c f n why w, [])
/-- Visits until every group is deposited, held or ended; what the fuel leaves over stays with the walker. -/
def walkRun : Nat → State → Nat → List Walk → State
  | 0, s, c, ws => updCore s c fun co => { co with walks := co.walks ++ ws }
  | _ + 1, s, _, [] => s
  | n + 1, s, c, w :: r =>
    let (s, ws) := walkOne s c w
    walkRun n s c (ws ++ r)

/-- A walk that may go on now: its threads' loads have returned (R66, R94), no page is awaited, and its workgroup is not being swapped out.
A stop of the core holds its selectors, not its walker (R316, R353). -/
def walkReady (co : Core) (w : Walk) : Bool :=
  w.slots.all fun i =>
    let t := threadOf co i
    t.pend.isEmpty && decide (t.wait = .none) &&
      (match wgOf co t with | some g => g.swap.isNone && !g.stopping && (!g.single || t.stepping) | none => false)

/-- The walk that goes first: that of the lowest first slot (R88). -/
def nextWalk (co : Core) : Option Walk := (inOrder ((co.walks.filter (walkReady co)).map fun w => (w.slots.headD 0, w))).head?
/-- TREE_WALK (R65): a group that may go on walks to its deposits, well past the longest pass of one level of LOOPs; a longer one goes on
with the next walk. -/
def execTreeWalk (core : Nat) (s : State) : Out :=
  let co := coreOf s core
  match nextWalk co with
  | none => .next s
  | some w =>
    let s := updCore s core fun co => { co with walks := co.walks.erase w }
    .next (walkRun 131072 s core [w])

end Sys2Proof.Machine
end

