-- ==== Sys2Proof/Machine/Memory.lean ====
section
/-! DEFINITION. Loads, stores, prefetch, cache maintenance, mapped regions and atomics: majors 0x1C, 0x1D, 0x1E and 0x24 (R198-R234, R247-R252). -/
namespace Sys2Proof.Machine

/-! ### Where an access goes (R198, R205, R214-R217, R223, R228) -/

/-- What an address of a space finds: a place; ACCESS; MEMERR of a peer without a route (R400); a replayable fault; a sector to fill; the
range scoreboard. -/
inductive Reach where
  | ok (p : Place)
  | access
  | memerr (va : Nat)
  | fault (va : Nat) (write : Bool)
  | fill (core wg slot sector : Nat)
  | board
deriving DecidableEq, Repr

def vaReach (s : State) (ctx va : Nat) (read write : Bool) : Reach :=
  let r := if read then translateVA s ctx va false else translateVA s ctx va true
  let w := if write then translateVA s ctx va true else r
  match r, w with
  | .fatal, _ | _, .fatal => .access
  | .absent, _ => .fault va (!read)
  | _, .absent => .fault va true
  | .gone, _ | _, .gone => .memerr va
  | .ok pa sn, .ok _ _ => .ok (.off pa sn)
/-- A sector that must be filled before the access (R217). -/
def sectorReach (s : State) (c b : Nat) (w : WG) (write : Bool) (off : Nat) : Option Reach :=
  match mapAt w off with
  | none => none
  | some (k, m) =>
    if write && decide (m.kind = .ro) then some .access
    else
      let i := (off - m.off) / 32
      if decide (m.kind = .wo) || (get? m.sectors i).isSome then none
      else match translateVA s w.ctx (m.va + 32 * i) false with
        | .ok _ _ => some (.fill c b k i)
        | .absent => some (.fault (m.va + 32 * i) false)
        | .gone => some (.memerr (m.va + 32 * i))
        | .fatal => some .access
/-- The scratchpad of a workgroup (R198, R212). -/
def scrReach (s : State) (c b : Nat) (w : WG) (off n : Nat) (write : Bool) : Reach :=
  let starts := (List.range ((off + n - 1) / 32 - off / 32 + 1)).map fun i => max off ((off / 32 + i) * 32)
  if w.kern.scratch < off + n then .access
  else if starts.any fun o => decide (sectorReach s c b w write o = some .access) then .access
  else if (coreOf s c).ranges.any fun r => decide (r.wg = b ∧ r.lo < off + n ∧ off < r.hi) && (r.dest || write) then .board
  else match starts.findSome? (sectorReach s c b w write) with
    | some r => r
    | none => .ok (.scr c b off)
/-- The core, the first slot and the workgroup of a window member (R205): in a neighbourhood launch workgroup g * N + n of the launch, while it
stands where its group was placed. -/
def memberOf (s : State) (w : WG) (c base n : Nat) : Option (Nat × Nat × WG) :=
  if w.members.isEmpty then (if n = 0 then (get? (coreOf s c).wgs base).map fun x => (c, base, x) else none)
  else
    let N := w.members.length
    (w.members[n]?).bind fun (c', b') => (get? (coreOf s c').wgs b').bind fun x =>
      if x.ctx = w.ctx ∧ x.launch = w.launch ∧ x.id = w.id / N * N + n then some (c', b', x) else none
/-- The launch's die-scratchpad allocation on a die (R302). -/
def dieAllocOf (s : State) (w : WG) (die : Nat) : Option DieAlloc :=
  s.dieAllocs.find? fun d => decide (d.ctx = w.ctx ∧ d.launch = w.launch ∧ d.die = die)
/-- An access of `n` bytes at an address of a space, by the thread `slot` of the workgroup `base` of core `c` in function `fn`. -/
def reach (s : State) (c base : Nat) (w : WG) (slot fn : Nat) (spc : Space) (addr : Int) (n : Nat) (read write : Bool) : Reach :=
  if addr < 0 then .access
  else
    let a := addr.toNat
    match spc with
    | .g => if 2 ^ 57 < a + n then .access else vaReach s w.ctx a read write
    | .sp => scrReach s c base w a n write
    | .nw =>
      match memberOf s w c base (a / 2 ^ 19) with
      | none => .access
      | some (c', b', w') => scrReach s c' b' w' (a % 2 ^ 19) n write
    | .ds =>
      match dieAllocOf s w (dieOf c) with
      | none => .access
      | some d => if d.size < a + n then .access else .ok (.die d.die (d.off + a))
    | .lp => if w.kern.lpriv < a + n then .access else vaReach s w.ctx (slice s w base slot a) read write
    | .obj =>
      match fnOf s w.ctx fn with
      | none => .access
      | some f => if write || decide (min f.segSize (2 ^ 31) < a + n) then .access else vaReach s w.ctx (f.seg + a) true false

/-! ### The address operand (R199-R201) -/

def scopeOk (spc : Space) (n : Nat) : Bool :=
  match spc with
  | .g | .obj => decide (n ≤ 6)
  | .sp | .nw => decide (n ≤ 3)
  | .ds => decide (n ≤ 4)
  | .lp => decide (n = 0)
def sizeBytes (z : Size) : Nat := match z with | .u8 | .s8 => 1 | .u16 | .s16 => 2 | .b32 => 4 | .b64 | .m64 => 8
/-- The base value (R199). -/
def baseVal (e : Env) (i : Nat) (t : Thread) (spc : Space) (b : Code) : L Nat :=
  match b with
  | .v n => if spc = .g then readPair e t n else readV e t n
  | .a n =>
    let k := e.crew t
    let x := affAt e k n i (e.lane i)
    if spc = .g then .ok (x + 2 ^ 32 * (lo32 (affSeen e k (n + 1) i)).toNat) else .ok x
  | _ => .ok 0
def addrOf (base : Nat) (off : Int) : Int := (base : Int) + off
/-- An address as the trap record holds it (R323). -/
def addrWord (a : Int) : Nat := (a % (2 ^ 64 : Int)).toNat

/-! ### Watches (R335) -/

def watchHit (s : State) (ctx : Nat) (a n : Nat) (read write : Bool) : Bool :=
  (ctxOf s ctx).watch.any fun (_, x) =>
    let r := x.toNat
    let k := bits r 57 5
    let lo := bits r 0 57 / 2 ^ k * 2 ^ k
    decide (k ≤ 12 ∧ lo < a + n ∧ a < lo + 2 ^ k) && ((read && decide (bits r 62 1 = 1)) || (write && decide (bits r 63 1 = 1)))

/-! ### Check 6 of R50 for one lane -/

/-- What an access does, apart from its address. `host`: the AtomicOp rule of R252 refuses it in host memory. `align`: 1 for a line. -/
structure Acc where
  spc : Space
  off : Int
  n : Nat
  align : Nat
  read : Bool
  write : Bool
  watch : Bool := true
  poison : Bool := true
  host : Bool := false
  atom : Bool := false

/-- ALIGN, the extent, translation, WATCH and poison of one lane's access; `vals` are the values the lane read, the base first, and
`tries` the Successes counted for it. It issues once every acquire of its thread is bound (R244). -/
def placeOf (e : Env) (s : State) (i : Nat) (t : Thread) (x : Acc) (vals : List Nat) (odd rep : Bool) (tries : Nat) : L Place :=
  let a := addrOf (vals.headD 0) x.off
  let w := e.wg t
  if acquirePending e.co i then .error .stall
  else if odd || decide (a % (x.align : Int) ≠ 0) then trapA cAlign vals (addrWord a)
  else if x.atom && decide (x.spc = .obj) then trapA cAccess vals (addrWord a)
  else
    match reach s e.c (e.wgBase t) w i t.pos.fn x.spc a x.n x.read x.write with
    | .access => trapA cAccess vals (addrWord a)
    | .memerr va => trapA cMemerr vals va
    | .fault va wr => if 4 ≤ tries then trapA cAccess vals (addrWord a) else .error (.hold .page .replay (.replay vals tries) (some (va, wr)))
    | .fill c b k j => .error (.fill c b k j)
    | .board => .error .board
    | .ok p =>
      let host := match p with | .off pa _ => isHost pa | _ => false
      if x.atom && host && x.host then trapA cAccess vals (addrWord a)
      else if x.watch && !rep && decide (x.spc = .g) && watchHit s w.ctx a.toNat x.n x.read x.write then trapA cWatch vals (addrWord a)
      else if x.poison && x.read && placePoisoned s p x.n then trapA cMemerr vals (addrWord a / 64 * 64)
      else .ok p

/-- What the lane takes up: its logged values with the Successes, or nothing. -/
def replayOf (t : Thread) : Option (List Nat × Nat) := match t.resume with | .replay v k => some (v, k) | _ => none
/-- A refused page request raises ACCESS with the logged values (R226). -/
def refusedOf (t : Thread) (off : Int) : L Unit :=
  match t.resume with
  | .refused vals _ => trapA cAccess vals (addrWord (addrOf (vals.headD 0) off))
  | _ => .ok ()
/-- The registers that a load or an atomic will write: staged, they wait for the access (R90). -/
def awaitRegs (t : Thread) (regs : List Reg) : Thread := { t with pend := unionRegs t.pend regs, written := regs.foldl addReg t.written }

/-- A lane's access as it goes to memory; `mk` makes its data and compare value of the values after the base. -/
def accOf (i : Nat) (p : Place) (x : Acc) (vals : List Nat) (regs : List Reg) (mk : List Nat → Nat × Nat) : PLane :=
  { slot := i, place := p, len := x.n, data := (mk vals.tail).1, cmp := (mk vals.tail).2, dst := regs, va := addrWord (addrOf (vals.headD 0) x.off), srcs := vals }
/-- One lane of an M-format access: base, data and destination (check 4), SCOPE (check 5), then check 6. -/
def accLane (a : MAddr) (x : Acc) (data : Env → Nat → Thread → L (List Nat × Bool)) (dst : Env → Thread → L (List Reg × Bool))
    (mk : List Nat → Nat × Nat) : Lane := fun e s i t => do
  refusedOf t x.off
  let (regs, oddD) ← (match replayOf t with
    | some _ => dst e t
    | none => .ok ([], false))
  match replayOf t with
  | some (vals, k) =>
    let p ← placeOf e s i t x vals oddD true k
    return ({ t := awaitRegs t regs, acc := [accOf i p x vals regs mk] }, s)
  | none =>
    let b ← baseVal e i t a.space a.base
    let (ds, odd) ← data e i t
    let (regs, oddD) ← dst e t
    if !scopeOk a.space a.scope then trapE cScope
    else
      let p ← placeOf e s i t x (b :: ds) (odd || oddD) false 0
      return ({ t := awaitRegs t regs, acc := [accOf i p x (b :: ds) regs mk] }, s)

/-! ### Pending accesses (R222, R238, R244) -/

/-- A lane joins the group of its line, or begins one. -/
def joinLine (l : PLane) : List (List PLane) → List (List PLane)
  | [] => [[l]]
  | g :: r => if g.any fun x => decide (lineOf x.place = lineOf l.place) then (g ++ [l]) :: r else g :: joinLine l r
/-- Lanes by line, each distinct line once, in the order of their first lanes (R222). -/
def groupLines (l : List PLane) : List (List PLane) := l.foldl (fun gs x => joinLine x gs) []
/-- What every access of a word shares. -/
structure PendSpec where
  kind : PKind
  order : Order
  scope : Nat
  read : Bool
  write : Bool
  sampled : Bool := true
def addPends (c wg : Nat) (word : Word64) (x : PendSpec) : List (List PLane) → State → State
  | [], s => s
  | g :: r, s =>
    let (id, s) := takeSeq s
    let p : Pend := { id := id, wg := wg, kind := x.kind, lanes := g, order := x.order, scope := x.scope, read := x.read, write := x.write, word := word }
    addPends c wg word x r (updCore s c fun co => { co with pend := co.pend ++ [p] })
/-- Charge each workgroup for the places of its lanes (R410); what served them. -/
def chargeLanesBy (s : State) (c : Nat) (lanes : List PLane) : List (Place × Nat) × State :=
  let key := fun (l : PLane) => (wgKey (coreOf s c) l.slot).getD 0
  ((lanes.map key).foldl insertSlot []).foldl (fun (st : List (Place × Nat) × State) k =>
    let (l, s) := chargeLevels st.2 c k ((lanes.filter fun l => decide (key l = k)).map (·.place))
    (st.1 ++ l, s)) ([], s)
def chargeLanes (s : State) (c : Nat) (lanes : List PLane) : State := (chargeLanesBy s c lanes).2
/-- The samples of a word's lanes (R409): lanes that replay keep theirs; a word that issues, whether or not a lane's guard is true, counts toward
the period and may begin one, with its other lanes. -/
def sampleWord (e : Env) (live : List Nat) (lanes : List PLane) (s : State) : List PLane × State :=
  let replays := fun (i : Nat) => (replayOf (e.thread i)).isSome
  let first := live.filter fun i => !replays i
  let old := fun (l : PLane) => { l with sample := sampleOf (coreOf s e.c) e.b.pos l.slot }
  let s := sampleReplays s e.c ((lanes.filter fun l => replays l.slot).map old)
  let (id, s) := if first.isEmpty && !live.isEmpty then (none, s)
    else sampleStart s e.c e.w.ctx e.b.pos first (sectorsOf ((lanes.filter fun l => !replays l.slot).map (·.place)))
  (lanes.map fun l => if replays l.slot then old l else { l with sample := id }, s)
/-- The accesses of a word that issued: sampled, charged, and pending by line. Cache maintenance is neither sampled nor charged by sectors (R409,
R410). -/
def issueAccesses (g : Guard) (x : PendSpec) (e : Env) (oks : List (Nat × LaneOut)) (s : State) : State :=
  let lanes := oks.flatMap fun (_, o) => o.acc
  if !x.sampled then addPends e.c e.base e.word x (groupLines lanes) s
  else
    let (lanes, s) := sampleWord e (liveOf e g false) lanes s
    let (levels, s) := chargeLanesBy s e.c lanes
    addPends e.c e.base e.word x (groupLines lanes) (sampleDeep s e.c lanes levels)

/-! ### LD, ST and PREF (R206-R209) -/

def loadDst (d : Data) (z : Size) (e : Env) (t : Thread) : L (List Reg × Bool) :=
  match d with
  | .m n => if t.pend.contains (.m n) then .error .stall else .ok ([.m n], false)
  | .c c => do
    let r ← destOf e t c (decide (z = .b64))
    return (r.regs (decide (z = .b64)), decide (r = .odd))
def execLd (g : Guard) (d : Data) (a : MAddr) (s : State) : Out :=
  let n := sizeBytes a.size
  issueWord s { g := g, regs := baseRegs a.space a.base ++ dataRegs d a.size }
    (accLane a { spc := a.space, off := a.off, n := n, align := n, read := true, write := false } (fun _ _ _ => .ok ([], false))
      (loadDst d a.size) (fun _ => (0, 0)))
    (issueAccesses g { kind := .load a.size, order := a.order, scope := a.scope, read := true, write := false })
def storeData (d : Data) (z : Size) (e : Env) (i : Nat) (t : Thread) : L (List Nat × Bool) :=
  match d with
  | .m n => do
    let x ← readM e t n
    return ([x], false)
  | .c c => do
    let v ← readCode e i t c (decide (z = .b64))
    return ([v.x], v.odd)
def execSt (g : Guard) (d : Data) (a : MAddr) (s : State) : Out :=
  let n := sizeBytes a.size
  issueWord s { g := g, regs := baseRegs a.space a.base ++ dataRegs d a.size }
    (accLane a { spc := a.space, off := a.off, n := n, align := n, read := false, write := true } (storeData d a.size)
      (fun _ _ => .ok ([], false)) (fun ds => (ds.headD 0, 0)))
    (issueAccesses g { kind := .store, order := a.order, scope := a.scope, read := false, write := true })
/-- PREF (R209): it reads its base; it changes no value, takes no part in ordering, and raises nothing further. -/
def execPref (g : Guard) (base : Code) (_off : Int) (_evict : Nat) (space : Space) (_lv : Level) (s : State) : Out :=
  issueWord s { g := g, regs := baseRegs space base } (pureLane fun e i t => do
    let _ ← baseVal e i t space base
    return { t := t }) noPost

/-! ### LINV and LCLN (R210) -/

/-- A maintenance word is an SC access at scope device to its whole line. -/
def runMaint (s : State) (g : Guard) (base : Code) (off : Int) (inval : Bool) (lv : Level) : Out :=
  let a : MAddr := { base := base, off := off, order := .sc, scope := 5, evict := 0, space := .g, size := .b32 }
  let line := fun (p : Place) => match p with | .off pa sn => Place.off (pa / 64 * 64) sn | p => p
  let lane : Lane := fun e s i t => do
    let (o, s) ← accLane a { spc := .g, off := off, n := 1, align := 1, read := true, write := false, watch := false, poison := false } (fun _ _ _ => .ok ([], false))
      (fun _ _ => .ok ([], false)) (fun _ => (0, 0)) e s i t
    return ({ o with acc := o.acc.map fun l => { l with place := line l.place, len := 64 } }, s)
  issueWord s { g := g, regs := baseRegs .g base } lane
    (issueAccesses g { kind := .maint inval lv, order := .sc, scope := 5, read := true, write := true, sampled := false })
def execLinv (g : Guard) (base : Code) (off : Int) (_evict : Nat) (lv : Level) (s : State) : Out := runMaint s g base off true lv
def execLcln (g : Guard) (base : Code) (off : Int) (_evict : Nat) (lv : Level) (s : State) : Out := runMaint s g base off false lv

/-! ### Mapped regions (R214-R219, R234) -/

/-- Whether an access to bytes of a workgroup's scratchpad is still to be performed (R234): by a thread of any workgroup, through the
window too (R217; log entry 90), by the workgroup's matrix words, or by a copy's writes and a store's reads (R228). -/
def regionBusy (s : State) (c base lo len : Nat) : Bool :=
  (coreOf s c).ranges.any (fun r => decide (r.wg = base ∧ r.lo < lo + len ∧ lo < r.hi)) ||
  (coreOf s c).jobs.any (fun j => decide (j.wg = base) && !j.held) ||
  s.cores.any fun (_, co) => co.pend.any fun p => p.lanes.any fun l => overlap l.place l.len (.scr c base lo) len
/-- Bytes that become 0, without poison. -/
def zeroScratch (w : WG) (lo len : Nat) : WG :=
  { w with
    scratch := w.scratch.filter fun (a, _) => decide (a < lo ∨ lo + len ≤ a)
    poison := w.poison.filter fun g => !spanIn g lo len }
/-- Whether SPMAP's values are refused with ACCESS (R216). -/
def mapRefused (w : WG) (k va ctl : Nat) : Bool :=
  let off := bits ctl 0 8 * 4096
  let len := bits ctl 8 8 * 4096
  decide (bits ctl 16 16 ≠ 0 ∨ len = 0 ∨ w.granules.length * Config.granuleBytes < off + len ∨ 2 ^ 57 < va + len) ||
  (w.maps.any fun (_, m) => decide ((m.off < off + len ∧ off < m.off + m.len) ∨ (m.va < va + len ∧ va < m.va + m.len))) ||
  (get? w.maps k).isSome
def execSpmap (g : Guard) (slot : Nat) (va : Nat) (ctl : Src) (k : MapKind) (s : State) : Out :=
  issueWord s { g := g, regs := vRange va 2 ++ srcRegs ctl false, perms := [ctl.perm], crew := srcCrewy ctl, pops := srcPops ctl,
                srcs := fun e i t => do
                  let a ← readPair e t va
                  let c ← readSrc e i t ctl false
                  return [a, c.x],
                once := some fun e i o s =>
                  let x := o.out % 2 ^ 57
                  let c := o.out / 2 ^ 57
                  let m : MapSlot := { va := x, off := bits c 0 8 * 4096, len := bits c 8 8 * 4096, kind := k }
                  updCore s e.c fun co => updWG co (e.wgBase (e.thread i)) fun w => { zeroScratch w m.off m.len with maps := put w.maps slot m } }
    (pureLane fun e i t => do
      let a ← readPair e t va
      let c ← readSrc e i t ctl false
      if firstLane e g false ≠ some i then return { t := t }
      else if a % 4096 ≠ 0 then trapA cAlign [a, c.x] a
      else if mapRefused (e.wg t) slot a c.x then trapA cAccess [a, c.x] a
      else if lanesBusy e [i] || regionBusy e.s e.c (e.wgBase t) (bits c.x 0 8 * 4096) (bits c.x 8 8 * 4096) then .error .stall
      else return { t := t, out := a + 2 ^ 57 * c.x }) noPost

/-- What the write-backs of some map slots still need (R219): a sector to write, a page, or they failed; else nothing. -/
inductive Wb where | clean | write (slot sector : Nat) | wait (va : Nat) | fail (va : Nat)
deriving DecidableEq, Repr
/-- A write-back's page: absent pages are waited for; a page that forbids writing fails. -/
def wbPage (s : State) (ctx va : Nat) : Tr :=
  match pageAt (ctxOf s ctx).pages va with
  | none => .absent
  | some p => if p.wr then (match translateVA s ctx va true with | .ok a b => .ok a b | _ => .fatal) else .fatal
/-- Whether a word names a map slot. -/
def pickMap (slot : Option Nat) (k : Nat) : Bool := match slot with | none => true | some n => decide (n = k)
/-- The dirty sectors of the named slots, with their VAs. -/
def dirtySectors (w : WG) (sel : Option Nat) : List (Nat × Nat × Nat) :=
  (w.maps.filter fun (k, _) => pickMap sel k).flatMap fun (k, m) =>
    m.sectors.filterMap fun (i, x) => match x with | .dirty _ => some (k, i, m.va + 32 * i) | .clean => none
def wbState (s : State) (w : WG) (sel : Option Nat) : Wb :=
  let ds := dirtySectors w sel
  match ds.find? fun (_, _, va) => match wbPage s w.ctx va with | .ok _ _ => true | _ => false with
  | some (k, i, _) => .write k i
  | none =>
    match ds.find? fun (_, _, va) => decide (wbPage s w.ctx va = .absent) with
    | some (_, _, va) => .wait va
    | none => match ds with | (_, _, va) :: _ => .fail va | [] => .clean
/-- The Successes counted for pages, as a lane that waits keeps them in the operand log: whether it is the executing lane, the page it waits
for, and other pages with their counts (R226). -/
def wbCount (t : Thread) (page : Nat) : Nat :=
  let pairs := fun (l : List Nat) => (List.range (l.length / 2)).map fun k => (arg l (2 * k), arg l (2 * k + 1))
  match t.resume with
  | .replay vals k => if arg vals 1 = page then k else ((pairs (vals.drop 2)).find? fun x => decide (x.1 = page)).elim 0 (·.2)
  | _ => 0
/-- The log's values of a lane that waits for a page from now on. -/
def wbKeep (t : Thread) (mark : Bool) (page : Nat) : List Nat :=
  let old := match t.resume with | .replay vals k => (if arg vals 1 = page ∨ vals = [] then [] else [arg vals 1, k]) ++ vals.drop 2 | _ => []
  [encBool mark, page] ++ old
/-- Whether the host has refused a page that the lane waited for. -/
def wbRefused (t : Thread) (page : Nat) : Bool := match t.resume with | .refused vals _ => decide (arg vals 1 = page) | _ => false
/-- A lane of a word that forces the write-backs of the executing lane's workgroup, `x` that lane's thread: the batch waits together. `report`:
the lane's trap reports a failure; `mark`: it is the executing lane. The Successes count for each page (R219, R226). -/
def wbLane (e : Env) (s : State) (x t : Thread) (sel : Option Nat) (report mark : Bool) : L Unit :=
  let w := e.wg x
  let bad := fun (va : Nat) => if report then trapA cRelease [] va else .ok ()
  match wbState s w sel with
  | .clean => .ok ()
  | .fail va => bad va
  | .write k i => .error (.fill e.c (e.wgBase x) k i)
  | .wait va =>
    if wbRefused t (va / 4096) || decide (4 ≤ wbCount t (va / 4096)) then bad va
    else .error (.hold .page .replay (.replay (wbKeep t mark (va / 4096)) (wbCount t (va / 4096))) (some (va, true)))

/-- The executing lane of a region word: the one that waited as such, else the lowest (R216). -/
def regionLane (e : Env) (g : Guard) : Option Nat :=
  let live := liveOf e g false
  match live.find? fun i => match (e.thread i).resume with | .replay v _ | .refused v _ => decide (arg v 0 = 1) | _ => false with
  | some i => some i
  | none => (live.filter fun i => decide ((e.thread i).resume = .none)).head?
/-- SPWB, SPUNMAP and SPDROP: the executing lane's workgroup waits for the lane's earlier accesses (R245) and for all to the regions
(R234), then for the write-backs when there are any; `act` is the word's effect on the workgroup. -/
def runRegion (s : State) (g : Guard) (slot : Option Nat) (wb : Bool) (act : WG → WG) : Out :=
  let lane : Lane := fun e s i t =>
    match regionLane e g with
    | none => .ok ({ t := t }, s)
    | some j =>
      let x := e.thread j
      let busy := lanesBusy e [j] || (e.wg x).maps.any fun (k, m) => pickMap slot k && regionBusy e.s e.c (e.wgBase x) m.off m.len
      let head := decide (j = i)
      if busy then .error .stall
      else if wb then do
        wbLane e s x t slot head head
        return ({ t := t }, s)
      else .ok ({ t := t }, s)
  issueWord s { g := g } lane fun e oks s =>
    match regionLane e g with
    | none => s
    | some i => if oks.any fun x => decide (x.1 = i) then updCore s e.c fun co => updWG co (e.wgBase (e.thread i)) act else s
def execSpunmap (g : Guard) (slot : Option Nat) (s : State) : Out :=
  runRegion s g slot true fun w => { w with maps := w.maps.filter fun (k, _) => !pickMap slot k }
def execSpwb (g : Guard) (slot : Option Nat) (s : State) : Out := runRegion s g slot true id
def dropMaps (slot : Option Nat) (w : WG) : WG :=
  w.maps.foldl (fun w (k, m) => if pickMap slot k then { zeroScratch w m.off m.len with maps := put w.maps k { m with sectors := [] } } else w) w
def execSpdrop (g : Guard) (slot : Option Nat) (s : State) : Out := runRegion s g slot false (dropMaps slot)

/-- Whether the traffic of a sector's page is held for its context's budget (R312). -/
def sectorHeld (s : State) (core wg slot sector : Nat) : Bool :=
  match (get? (coreOf s core).wgs wg).bind fun w => (get? w.maps slot).map fun m => (w.ctx, m.va + 32 * sector) with
  | none => false
  | some (ctx, va) => match vaPlace s ctx (va : Nat) with | some p => trafficHeld s ctx [p] | none => false
/-- MAP_FILL (R217): the map unit fills a sector that an access waits for. -/
def execMapFill (core wg slot sector : Nat) (s : State) : Out :=
  if !(coreOf s core).wants.contains (wg, slot, sector) || sectorHeld s core wg slot sector then .next s
  else
    let s := updCore s core fun co => { co with wants := co.wants.erase (wg, slot, sector) }
    match get? (coreOf s core).wgs wg with
    | none => .next s
    | some w =>
      match get? w.maps slot with
      | none => .next s
      | some m =>
        if (get? m.sectors sector).isSome || decide (m.len ≤ 32 * sector ∨ m.kind = .wo) then .next s
        else match translateVA s w.ctx (m.va + 32 * sector) false with
          | .ok pa sn =>
            let off := m.off + 32 * sector
            let src := Place.off pa sn
            let s := countTraffic (touchPlace s src) w.ctx [(src, 32)]
            let x := toBytes 32 (readPlace s src 32)
            let s := updCore s core fun co => updWG co wg fun w =>
              { w with scratch := memWrite w.scratch off x, maps := put w.maps slot { m with sectors := put m.sectors sector .clean } }
            .next (copyPoison s src 32 (.scr core wg off) 32)
          | _ => .next s

/-- Write the dirty bytes of a sector to its page (R217). -/
def writeDirty (src dst : Place) (mask : BitVec 32) : Nat → State → State
  | 0, s => s
  | n + 1, s =>
    let s := writeDirty src dst mask n s
    if mask.getLsbD n then putByte s (dst.shift n) (getByte s (src.shift n)) else s
/-- The write-back of one sector, when it is dirty and its page may be written. -/
def writeBack (s : State) (core wg slot sector : Nat) : State :=
  match get? (coreOf s core).wgs wg with
  | none => s
  | some w =>
    match get? w.maps slot with
    | none => s
    | some m =>
      match get? m.sectors sector with
      | some (.dirty mask) =>
        match wbPage s w.ctx (m.va + 32 * sector) with
        | .ok pa sn =>
          let src := Place.scr core wg (m.off + 32 * sector)
          let s := writeDirty src (.off pa sn) mask 32 (touchLine s pa sn)
          let s := countTraffic (copyPoison s src 32 (.off pa sn) 32) w.ctx [(.off pa sn, 32)]
          updCore s core fun co => updWG co wg fun w => { w with maps := put w.maps slot { m with sectors := put m.sectors sector .clean } }
        | _ => s
      | _ => s
/-- MAP_WRITEBACK (R217): the map unit may write back a dirty sector at any time. -/
def execMapWriteback (core wg slot sector : Nat) (s : State) : Out :=
  if sectorHeld s core wg slot sector then .next s
  else
  let s := updCore s core fun co => { co with wants := co.wants.erase (wg, slot, sector) }
  .next (writeBack s core wg slot sector)

/-! ### Atomics (R247-R252) -/

def atomW (z : Size) : Bool := decide (z = .b64)
/-- Operand and compare values of an atomic's data field (R248). -/
def atomData (cas : Bool) (d : Code) (z : Size) (e : Env) (i : Nat) (t : Thread) : L (List Nat × Bool) :=
  match cas, d with
  | true, .v n =>
    if atomW z then do
      let c ← readPair e t n
      let x ← readPair e t (n + 2)
      return ([c + 2 ^ 64 * x], false)
    else do
      let c ← readV e t n
      let x ← readV e t (n + 1)
      return ([c + 2 ^ 32 * x], false)
  | _, c => do
    let v ← readCode e i t c (atomW z)
    return ([v.x], v.odd)
def atomDst (nr : Bool) (d : Code) (z : Size) (e : Env) (t : Thread) : L (List Reg × Bool) :=
  if nr then .ok ([], false)
  else do
    let r ← destOf e t d (atomW z)
    return (r.regs (atomW z), decide (r = .odd))
/-- The minors that a PCIe AtomicOp carries (R252). -/
def hostMinor (minor : Nat) : Bool := decide (minor = 0 ∨ minor = 8 ∨ minor = 9)
def runAtomic (s : State) (g : Guard) (minor : Nat) (d : Code) (a : MAddr) (nr : Bool) (ty : FTy) : Out :=
  let n := sizeBytes a.size
  let cas := decide (minor = 9)
  let x : Acc := { spc := a.space, off := a.off, n := n, align := n, read := true, write := true, atom := true, host := !(hostMinor minor && s.atomicEn) }
  issueWord s { g := g, regs := baseRegs a.space a.base ++ atRegs cas d a.size }
    (accLane a x (atomData cas d a.size) (atomDst nr d a.size) fun ds =>
      let v := ds.headD 0
      if cas then (v / 2 ^ (8 * n), v % 2 ^ (8 * n)) else (v, 0))
    (issueAccesses g { kind := .atomic minor (atomW a.size) nr ty, order := a.order, scope := a.scope, read := true, write := true })
def execAtadd (g : Guard) (d : Code) (a : MAddr) (nr : Bool) (s : State) : Out := runAtomic s g 0 d a nr .f32
def execAtmin (g : Guard) (d : Code) (a : MAddr) (nr : Bool) (s : State) : Out := runAtomic s g 1 d a nr .f32
def execAtmax (g : Guard) (d : Code) (a : MAddr) (nr : Bool) (s : State) : Out := runAtomic s g 2 d a nr .f32
def execAtminu (g : Guard) (d : Code) (a : MAddr) (nr : Bool) (s : State) : Out := runAtomic s g 3 d a nr .f32
def execAtmaxu (g : Guard) (d : Code) (a : MAddr) (nr : Bool) (s : State) : Out := runAtomic s g 4 d a nr .f32
def execAtand (g : Guard) (d : Code) (a : MAddr) (nr : Bool) (s : State) : Out := runAtomic s g 5 d a nr .f32
def execAtor (g : Guard) (d : Code) (a : MAddr) (nr : Bool) (s : State) : Out := runAtomic s g 6 d a nr .f32
def execAtxor (g : Guard) (d : Code) (a : MAddr) (nr : Bool) (s : State) : Out := runAtomic s g 7 d a nr .f32
def execAtxch (g : Guard) (d : Code) (a : MAddr) (nr : Bool) (s : State) : Out := runAtomic s g 8 d a nr .f32
def execAtcas (g : Guard) (d : Code) (a : MAddr) (nr : Bool) (s : State) : Out := runAtomic s g 9 d a nr .f32
def execAtfadd (g : Guard) (d : Code) (a : MAddr) (nr : Bool) (ty : FTy) (s : State) : Out := runAtomic s g 10 d a nr ty

end Sys2Proof.Machine
end

