-- ==== Sys2Proof/Machine/Copy.lean ====
section
/-! DEFINITION. The engines: shape records, XCOPY, XSTORE, XCODE and BULK, their completion and their late faults (R245, R266-R282, R294). -/
namespace Sys2Proof.Machine

/-! ### Shape records (R269-R272) -/

/-- The record of a 512-bit value for a command of `n` coordinates, or none where it is not valid. -/
def parseShape (x n : Nat) : Option Shape :=
  let dim := fun (k : Nat) => bits x (64 + 32 * k) 32
  let str : Nat → Nat := fun k => match k with | 1 => bits x 256 48 | 2 => bits x 320 48 | 3 => bits x 384 48 | 4 => bits x 448 48 | _ => 0
  let box : Nat → Nat := fun k => match k with | 0 => bits x 304 8 | 1 => bits x 312 8 | 2 => bits x 368 8 | 3 => bits x 376 8 | _ => bits x 432 8
  let ks := List.range 5
  if bits x 57 7 = 0 ∧ bits x 447 1 = 0 ∧ bits x 499 13 = 0 ∧ bits x 440 4 < 8 ∧ bits x 444 3 = n ∧
     (ks.all fun k => if k < n then decide (dim k ≠ 0) else decide (dim k = 0 ∧ str k = 0 ∧ box k = 0)) = true then
    some { base := bits x 0 57
           dims := ks.map dim
           strides := ks.map fun k => sextNat (str k) 48
           boxes := ks.map box
           fmt := bits x 440 4
           fill := bits x 224 32
           cb := bits x 496 3 }
  else none
/-! ### Engine accesses (R280) -/

/-- What a set of bytes of memory lets an engine do: go on, wait for a page, or fail with status 0x07. -/
inductive Eng where | ok | wait (va : Nat) | fail
deriving DecidableEq, Repr
def byteEng (s : State) (ctx : Nat) (va : Int) (write : Bool) : Eng :=
  if va < 0 ∨ (2 : Int) ^ 57 ≤ va then .fail
  else match translateVA s ctx va.toNat write with
    | .ok _ _ => .ok
    | .absent => .wait va.toNat
    | _ => .fail
def joinEng : Eng → Eng → Eng
  | .fail, _ => .fail
  | .wait _, .fail => .fail
  | .wait v, _ => .wait v
  | .ok, y => y
/-- First and last byte of each span: no page is smaller than a span. -/
def spansEng (s : State) (ctx : Nat) (write : Bool) (l : List (Int × Nat)) : Eng :=
  l.foldl (fun r (va, n) => joinEng r (joinEng (byteEng s ctx va write) (byteEng s ctx (va + ((n - 1 : Nat) : Int)) write))) .ok
def readVA (s : State) (ctx : Nat) (va : Int) (n : Nat) : Nat :=
  ofBytes ((List.range n).map fun i => match vaPlace s ctx (va + (i : Nat)) with | some p => getByte s p | none => 0)
def poisonVA (s : State) (ctx : Nat) (va : Int) (n : Nat) : Bool :=
  (List.range n).any fun i => match vaPlace s ctx (va + (i : Nat)) with | some p => placePoisoned s p 1 | none => false
/-- Bytes that an engine writes at virtual addresses. -/
def writeVA (s : State) (ctx : Nat) (va : Int) (bs : List Byte) : State :=
  (List.range bs.length).foldl (fun s i =>
    match vaPlace s ctx (va + (i : Nat)) with
    | none => s
    | some p => writeBytes (touchPlace s p) p [(bs[i]?).getD 0]) s
def lineStart (p : Place) : Place := match p with | .off a sn => .off (a / 64 * 64) sn | .scr c w a => .scr c w (a / 64 * 64) | .die d a => .die d (a / 64 * 64)
/-- The poison after an engine's writes (R231, R281): a granule written whole sheds it, and poisoned sources bring it. -/
def settlePoison (s : State) (ws : List (Place × Nat × Bool)) : State :=
  let add := fun (l : List Place) (p : Place) => if l.contains p then l else l ++ [p]
  let lines := ws.foldl (fun l (p, n, _) => add (add l (lineStart p)) (lineStart (p.shift (n - 1)))) []
  let s := lines.foldl (fun s q => if (List.range 64).all fun i => ws.any fun (p, n, _) => overlap p n (q.shift i) 1 then unpoison s q 64 else s) s
  ws.foldl (fun s (p, n, bad) => if bad then poisonAt s p n else s) s
/-- The places of a span of virtual addresses, byte by byte. -/
def vaBytes (s : State) (ctx : Nat) (va : Int) (n : Nat) (bad : Bool) : List (Place × Nat × Bool) :=
  (List.range n).filterMap fun i => (vaPlace s ctx (va + (i : Nat))).map fun p => (p, 1, bad)

/-! ### Expansion and packing (R270, R273, R274, R150) -/

def rneCtl : Ctl := { rm := .rne, ftz := false, prop := false }
def narrowMom (x : Nat) : Nat := (convElem bf16 fp32 rneCtl (x % 2 ^ 32)).1 + 2 ^ 16 * (convElem bf16 fp32 rneCtl (x / 2 ^ 32 % 2 ^ 32)).1
def widenMom (x : Nat) : Nat := x % 2 ^ 16 * 2 ^ 16 + x / 2 ^ 16 % 2 ^ 16 * 2 ^ 48
/-- Whether a box expands through a codebook slot that holds poisoned bytes (R281). -/
def badBook (w : WG) (h : Shape) : Bool := decide (h.fmt = 5) && w.badBooks.contains h.cb
/-- Entry `k` of codebook slot `b`. -/
def bookEntry (w : WG) (b k : Nat) : Nat := (rget 0 w.books (16 * b + k)).toNat
def expandElem (w : WG) (h : Shape) (x : Nat) : Nat :=
  match h.fmt with
  | 5 => bookEntry w h.cb (x % 16)
  | 6 => (sextNat x 6 % 256).toNat
  | 7 => widenMom x
  | _ => x
/-- One element of the image (R271): its value, and whether its source is poisoned. -/
def imageElem (s : State) (ctx : Nat) (w : WG) (h : Shape) (coords : List Int) (r b0 : Nat) : Nat × Bool :=
  match h.elem coords r b0 with
  | none => (h.fill % 2 ^ (8 * elemBytes h.fmt), false)
  | some (va, bit) => (expandElem w h (bits (readVA s ctx va (elemSpan h.fmt bit)) bit (elemBits h.fmt)), poisonVA s ctx va (elemSpan h.fmt bit) || badBook w h)

/-! ### Completion counters (R278) -/

def ctrSpace (c : CSpace) : Space := match c with | .g => .g | .sp => .sp | .ds => .ds
/-- Where a workgroup stands: its core, its first slot and itself. -/
def homeWG (s : State) (ctx launch wid : Nat) : Option (Nat × Nat × WG) :=
  s.cores.findSome? fun (c, co) => co.wgs.findSome? fun (k, w) => if w.ctx = ctx ∧ w.launch = launch ∧ w.id = wid then some (c, k, w) else none
/-- Whether a workgroup stands saved (R227, R310). -/
def isSaved (s : State) (ctx launch wid : Nat) : Bool := (ctxOf s ctx).images.any fun (_, m) => decide (m.wg.launch = launch ∧ m.wg.id = wid)
/-- Where a counter lies, of a workgroup that may have moved (R282): a place; one that waits for the saved workgroup; or nowhere, since the
scratchpad that held it has been freed (log entry 91). -/
inductive CtrAt where | found (r : Reach) | saved | gone
/-- The counter of a command that thread `off` of a workgroup issued on core `c`. A counter in host memory is an access of the engine, which
the AtomicOp rule of R252 does not name (log entry 92). -/
def ctrReach (s : State) (c ctx launch wid off fn : Nat) (k : CSpace) (a : Nat) : CtrAt :=
  match k with
  | .g => .found (if 2 ^ 57 < a + 4 then .access else vaReach s ctx a true true)
  | .ds => match s.dieAllocs.find? fun d => decide (d.ctx = ctx ∧ d.launch = launch ∧ d.die = dieOf c) with
    | none => .gone
    | some d => .found (if d.size < a + 4 then .access else .ok (.die d.die (d.off + a)))
  | .sp => match homeWG s ctx launch wid with
    | some (c', b', w) => .found (reach s c' b' w (b' + off) fn .sp a 4 true true)
    | none => if isSaved s ctx launch wid then .saved else .gone
/-- One atomic increment of a counter of a context. -/
def bumpAt (s : State) (ctx : Nat) (p : Place) : State :=
  let s := countTraffic (touchPlace s p) ctx [(p, 4)]
  writePlace s p (toBytes 4 (readPlace s p 4 + 1))

/-! ### Issue (R266, R267, R275-R277) -/

/-- The values of a copy word in its lane: shape, first coordinate, counter, sdst, further coordinates. -/
def xVals (e : Env) (t : Thread) (x : XWord) : L (List Nat) := do
  let sh ← if x.objShape then readV e t x.shape else readPair e t x.shape
  let cs ← (List.range x.ncoord).mapM fun k => readV e t (x.coord + k)
  let k ← (match x.ctr with
    | none => .ok 0
    | some n => if x.cspace = .g then readPair e t n else readV e t n)
  let d ← (match x.dest with
    | .v n => readV e t n
    | .q _ => .ok 0)
  return sh :: cs.headD 0 :: k :: d :: cs.tail
def xLogged (e : Env) (t : Thread) (x : XWord) : L (List Nat) := match replayOf t with | some (v, _) => .ok v | none => xVals e t x
/-- The shape record, read as an LD reads (R275): it waits for an engine that owns its line (R245) and for its context's budget (R312). -/
def shapePlace (e : Env) (s : State) (i : Nat) (t : Thread) (obj : Bool) (vals : List Nat) : L Place := do
  let acc : Acc := { spc := if obj then .obj else .g, off := 0, n := 64, align := 64, read := true, write := false, watch := false, poison := false }
  let p ← placeOf e s i t acc vals false true (match replayOf t with | some (_, k) => k | none => 0)
  if engineOwns s p || trafficHeld s (e.wg t).ctx [p] then .error .stall else return p
def readShape (e : Env) (s : State) (i : Nat) (t : Thread) (obj : Bool) (vals : List Nat) : L Nat := do
  let p ← shapePlace e s i t obj vals
  if placePoisoned s p 64 then trapA cMemerr vals (addrWord (vals.headD 0) / 64 * 64) else return readPlace s p 64
def engineTrap {α : Type} (n : Nat) : L α := trapL cEngine [n]
def ctrOdd (x : XWord) (vals : List Nat) : Bool := x.ctr.isSome && decide (arg vals 2 % 4 ≠ 0)
/-- The shape record that a lane's command reads, for its context's budget (R30): it is read before the command's own checks. -/
def shapeRead (x : XWord) (e : Env) (s : State) (i : Nat) (t : Thread) : List Place :=
  match t.resume, xLogged e t x with
  | .refused .., _ | _, .error _ => []
  | _, .ok vals => if ctrOdd x vals then [] else match shapePlace e s i t x.objShape vals with | .ok p => [p] | .error _ => []
/-- The command of an XCOPY or XSTORE, with its number still 0, after the checks of the issuing lane (R275, R276, R278, R280). -/
def xCmd (e : Env) (s : State) (i : Nat) (t : Thread) (x : XWord) (store : Bool) : L Cmd := do
  refusedOf t 0
  let vals ← xLogged e t x
  let w := e.wg t
  let k := arg vals 2
  let dst := arg vals 3
  if ctrOdd x vals then trapA cAlign (vals.take 3) k
  else
    let img ← readShape e s i t x.objShape vals
    match parseShape img x.ncoord with
    | none => engineTrap 1
    | some h =>
      let cs := (arg vals 1 :: vals.drop 4).map fun y => sextNat y 32
      if store && decide (h.fmt = 6 ∧ (cs.headD 0 % 4 ≠ 0 ∨ h.ext 0 % 4 ≠ 0)) then engineTrap 1
      else if store && decide (h.fmt = 5) then engineTrap 5
      else if h.fmt = 5 ∧ w.kern.cbslot ≤ h.cb then engineTrap 2
      else
        let pitch := h.pitch x.pad
        let span := h.span x.pad
        let cmd : Cmd := { id := 0, wg := e.wgBase t, ctx := w.ctx, launch := w.launch, wid := w.id, slot := i, fn := t.pos.fn, sel := e.sel, word := e.word,
                           kind := if store then .store h cs dst pitch else .load h cs dst pitch (match x.dest with | .q n => some n | .v _ => none),
                           ctr := x.ctr.map fun _ => (x.cspace, k) }
        match x.dest with
        | .q n =>
          let b := (w.kern.queues[n]?).getD { kind := .thread, prod := 0, cons := 0, depth := 0 }
          if b.depth = 0 ∨ b.kind ≠ .copy ∨ b.prod ≠ e.b.role then trapL cIllegal (vals.take 3)
          else if span % 512 ≠ 0 then engineTrap 9
          else return cmd
        | .v _ =>
          if dst % 16 ≠ 0 then trapA cAlign (vals.take 3) dst
          else if w.kern.scratch < dst + span then engineTrap 3
          else if !store && w.maps.any fun (_, m) => decide (m.off < dst + span ∧ dst < m.off + m.len) then engineTrap 4
          else return cmd
/-- The bytes that a command holds in the range scoreboard (R228). -/
def cmdRange (x : Cmd) : Option (Nat × Nat × Bool) :=
  match x.kind with
  | .load h _ dst pitch none => some (dst, dst + h.rows * pitch, true)
  | .store h _ src pitch => some (src, src + h.rows * pitch, false)
  | _ => none
def cmdOwed (x : Cmd) : Option (Nat × Nat) := match x.kind with | .load h _ _ pitch (some q) => some (q, h.rows * pitch / 512) | _ => none
def addOwed (w : WG) (q : Nat) (n : Nat) (sub : Bool) : WG :=
  let y := rget {} w.queues q
  { w with queues := put w.queues q { y with owed := if sub then y.owed - n else y.owed + n } }
/-- The entries that a matrix word owes to a queue register (R186, R349). -/
def jobOwed (i : Instr) : Option (Nat × Nat) := match i with | .zst _ _ _ (.queue q) _ f _ => some (q, zBytes f / 4) | _ => none
/-- Stopped matrix words that no thread will take up again leave the tile order and owe nothing more. -/
def dropHeld (co : Core) (gone : Job → Bool) : Core :=
  let co := (co.jobs.filter fun j => j.held && gone j).foldl (fun co j => match jobOwed j.instr with
    | some (q, n) => updWG co j.wg fun w => addOwed w q n true
    | none => co) co
  { co with jobs := co.jobs.filter fun j => !(j.held && gone j) }
/-- A command enters its unit, its range the scoreboard, and its entries are owed (R275, R281, R285). -/
def startCmd (c : Nat) (x : Cmd) (s : State) : State :=
  let (id, s) := takeSeq s
  updCore s c fun co =>
    let co := { co with copies := co.copies ++ [{ x with id := id }] }
    let co := match cmdRange x with
      | some (lo, hi, d) => { co with ranges := co.ranges ++ [{ cmd := id, wg := x.wg, lo := lo, hi := hi, dest := d }] }
      | none => co
    match cmdOwed x with
    | some (q, n) => updWG co x.wg fun w => addOwed w q n false
    | none => co
/-- Whether the unit has no room for a command, or the scoreboard none for its range (R281). -/
def unitFull (co : Core) (range : Bool) : Bool :=
  decide (Config.nCopies ≤ (co.copies.filter fun x => x.failed.isNone).length) || (range && decide (Config.nRanges ≤ co.ranges.length))

/-- Whether a lane's check raises a trap. -/
def raises {α : Type} (x : L α) : Bool := match x with | .error (.trap ..) => true | _ => false
/-- Whether a lane's trap bars an engine word's command (R267). -/
def barredCmd (spec : WordSpec) (check : Env → Thread → L Unit) (e : Env) : Bool :=
  (liveOf e spec.g spec.again).any fun j => (replayOf (e.thread j)).isNone && raises (check e (e.thread j))
/-- An engine word: every lane's registers are checked; the issuing lane makes the command, unless a lane's trap already bars it (R267). The
command counts as made by every thread of the active set (R294), so it follows all their accesses (R245). `reads`: what it reads at issue. -/
def runEngine (s : State) (spec : WordSpec) (check : Env → Thread → L Unit) (full : Env → Bool) (mk : Env → State → Nat → Thread → L Cmd)
    (reads : Env → State → Nat → Thread → List Place) : Out :=
  let lane : Lane := fun e s i t => do
    if (replayOf t).isNone then check e t
    if firstLane e spec.g spec.again ≠ some i || barredCmd spec check e then return ({ t := t }, s)
    else if full e || lanesBusy e e.b.slots then .error .stall
    else do
      let _ ← mk e s i t
      return ({ t := t }, s)
  let once := fun (e : Env) (i : Nat) (_ : LaneOut) (s : State) => match mk e e.s i (e.thread i) with | .ok x => startCmd e.c x s | .error _ => s
  issueWord s { spec with once := some once } lane fun e _ s =>
    match firstLane e spec.g spec.again with
    | none => s
    | some i =>
      let t := e.thread i
      if barredCmd spec check e then s else countTraffic s (e.wg t).ctx ((reads e e.s i t).map fun p => (p, 64))
def runCopy (s : State) (x : XWord) (store : Bool) : Out :=
  let toQ := match x.dest with | .q _ => true | .v _ => false
  runEngine s { g := x.g, regs := xRegs x, crew := true, again := true }
    (fun e t => do let _ ← xVals e t x) (fun e => unitFull e.co (!toQ)) (fun e s i t => xCmd e s i t x store) (shapeRead x)
def execXcopy (x : XWord) (s : State) : Out := runCopy s x false
def execXstore (x : XWord) (s : State) : Out := runCopy s x true

/-- XCODE's values: address and counter. -/
def codeVals (e : Env) (t : Thread) (shape : Nat) (ctr : Option Nat) (obj : Bool) (k : CSpace) : L (List Nat) := do
  let a ← if obj then readV e t shape else readPair e t shape
  let c ← (match ctr with
    | none => .ok 0
    | some n => if k = .g then readPair e t n else readV e t n)
  return [a, 0, c]
def codeCmd (e : Env) (i : Nat) (t : Thread) (shape : Nat) (ctr : Option Nat) (slot : Nat) (obj : Bool) (k : CSpace) : L Cmd := do
  let vals ← codeVals e t shape ctr obj k
  let w := e.wg t
  if ctr.isSome && decide (arg vals 2 % 4 ≠ 0) then trapA cAlign vals (arg vals 2)
  else if arg vals 0 % 32 ≠ 0 then trapA cAlign vals (arg vals 0)
  else if w.kern.cbslot ≤ slot then trapL cBounds vals
  else return { id := 0, wg := e.wgBase t, ctx := w.ctx, launch := w.launch, wid := w.id, slot := i, fn := t.pos.fn, sel := e.sel, word := e.word,
                kind := .code (arg vals 0) obj slot, ctr := ctr.map fun _ => (k, arg vals 2) }
def execXcode (g : Guard) (shape : Nat) (ctr : Option Nat) (slot : Nat) (objShape : Bool) (cspace : CSpace) (s : State) : Out :=
  runEngine s { g := g, regs := (if objShape then [.v shape] else vRange shape 2) ++ ctrRegs ctr cspace, crew := true, again := true }
    (fun e t => do let _ ← codeVals e t shape ctr objShape cspace) (fun e => unitFull e.co false)
    (fun e _ i t => codeCmd e i t shape ctr slot objShape cspace) fun _ _ _ _ => []

/-- BULK (R279): once per batch, through the executing lane (R216). -/
def bulkCmd (e : Env) (i : Nat) (t : Thread) (src dst : Nat) (ctr : Option Nat) (len : Nat) (k : CSpace) : L Bulk := do
  let a ← readPair e t src
  let b ← readPair e t dst
  let c ← (match ctr with
    | none => .ok 0
    | some n => if k = .g then readPair e t n else readV e t n)
  let n ← readV e t len
  let w := e.wg t
  if a % 64 ≠ 0 then trapA cAlign [a, b, c] a
  else if b % 64 ≠ 0 then trapA cAlign [a, b, c] b
  else if ctr.isSome && decide (c % 4 ≠ 0) then trapA cAlign [a, b, c] c
  else if n = 0 ∨ 262144 < n ∨ n % 64 ≠ 0 ∨ (a < b + n ∧ b < a + n) then engineTrap 6
  else return { id := 0, ctx := w.ctx, core := e.c, wg := e.wgBase t, launch := w.launch, wid := w.id, slot := i, fn := t.pos.fn, sel := e.sel,
                word := e.word, src := a, dst := b, len := n, ctr := ctr.map fun _ => (k, c) }
/-- The registers of a BULK, read in field order. -/
def bulkVals (e : Env) (t : Thread) (src dst : Nat) (ctr : Option Nat) (len : Nat) (k : CSpace) : L Unit := do
  let _ ← readPair e t src
  let _ ← readPair e t dst
  let _ ← (match ctr with
    | none => .ok 0
    | some n => if k = .g then readPair e t n else readV e t n)
  let _ ← readV e t len
/-- Whether a package copy engine has a command. -/
def engineBusy (s : State) (k : Nat) : Bool := s.bulks.any fun b => decide (b.engine = some k) && b.failed.isNone
/-- An idle package copy engine, the lowest; none that is being replaced (R387; log entry 98). -/
def freeEngine (s : State) : Option Nat :=
  (List.range Config.nEngines).find? fun k => !engineBusy s k &&
    (match s.fw.repl with | some r => decide (r.cls ≠ 3 ∨ r.unit ≠ k) || r.gap | none => true)
def execBulk (g : Guard) (src dst : Nat) (ctr : Option Nat) (len : Nat) (cspace : CSpace) (s : State) : Out :=
  let lane : Lane := fun e s i t => do
    bulkVals e t src dst ctr len cspace
    let barredBy := (liveOf e g false).any fun j => raises (bulkVals e (e.thread j) src dst ctr len cspace)
    if firstLane e g false ≠ some i || barredBy then return ({ t := t }, s)
    else if decide (Config.nBulks ≤ (s.bulks.filter fun b => decide (b.ctx = (e.wg t).ctx) && b.failed.isNone).length) || lanesBusy e e.b.slots then .error .stall
    else do
      let _ ← bulkCmd e i t src dst ctr len cspace
      return ({ t := t }, s)
  let once := fun (e : Env) (i : Nat) (_ : LaneOut) (s : State) =>
    match bulkCmd e i (e.thread i) src dst ctr len cspace with
    | .ok b =>
      let (id, s) := takeSeq s
      { s with bulks := s.bulks ++ [{ b with id := id, engine := freeEngine s }] }
    | .error _ => s
  issueWord s { g := g, regs := vRange src 2 ++ vRange dst 2 ++ ctrRegs ctr cspace ++ [.v len], once := some once } lane markSticky

/-! ### Completion (R277-R281) -/

def updCmd (s : State) (c id : Nat) (f : Cmd → Cmd) : State :=
  updCore s c fun co => { co with copies := co.copies.map fun x => if x.id = id then f x else x }
/-- A command leaves its range and what it owes; a failed one stays for ENGINE_LATE_FAULT. -/
def freeCmd (s : State) (c : Nat) (x : Cmd) : State :=
  updCore s c fun co =>
    let co := { co with ranges := co.ranges.filter fun r => decide (r.cmd ≠ x.id) }
    match cmdOwed x with
    | some (q, n) => updWG co x.wg fun w => addOwed w q (n - x.pushed) true
    | none => co
def failCmd (s : State) (c : Nat) (x : Cmd) (status : Nat) : State := updCmd (freeCmd s c x) c x.id fun y => { y with failed := some status, parked := false }
/-- A command waits for a page (R280), or fails after that page's fourth Success (R226). -/
def parkCmd (s : State) (c : Nat) (x : Cmd) (va : Nat) (write : Bool) : State :=
  let n := if x.last = va / 4096 then x.tries else 0
  if 4 ≤ n then failCmd s c x 7
  else pageFault (updCmd s c x.id fun y => { y with parked := true, last := va / 4096, tries := n }) (clusterOf c) x.ctx va write (.cmd c x.id)
/-- The end of a command: its counter goes up by 1; a counter that cannot be reached fails it (status 0x08). -/
def endCmd (s : State) (c : Nat) (x : Cmd) (ctr : Option Place) : State :=
  match x.ctr, ctr with
  | some _, none => failCmd s c x 8
  | _, _ =>
    let s := updCore s c fun co => { co with copies := co.copies.filter fun y => decide (y.id ≠ x.id) }
    match ctr with
    | some p => bumpAt s x.ctx p
    | none => s
/-- What a command's counter needs: none to wait for; a page; a sector or a range (nothing happens yet); or there is none any more. -/
inductive CtrState where | go (p : Option Place) | park (va : Nat) | later (s : State) | gone
def wantFill (s : State) (c b k i : Nat) : State :=
  updCore s c fun co => { co with wants := if co.wants.contains (b, k, i) then co.wants else co.wants ++ [(b, k, i)] }
def ctrOf (s : State) (c : Nat) (x : Cmd) : CtrState :=
  match x.ctr with
  | none => .go none
  | some (k, a) =>
    match ctrReach s c x.ctx x.launch x.wid (x.slot - x.wg) x.fn k a with
    | .found (.ok p) => if engineOwns s p || trafficHeld s x.ctx [p] then .later s else .go (some p)
    | .found .access | .found (.memerr _) => .go none
    | .found (.fault va _) => .park va
    | .found (.fill c' b j i) => .later (wantFill s c' b j i)
    | .found .board | .saved => .later s
    | .gone => .gone
/-- A command whose bytes have moved leaves the range scoreboard (R228), then increments its counter, or waits for the counter's page, its
sector, an engine that owns it or its context's budget (R278, R280, R312). -/
def closeCmd (s : State) (c : Nat) (x : Cmd) : State :=
  let x := { x with moved := true }
  let s := updCmd (freeCmd s c x) c x.id fun _ => x
  match ctrOf s c x with
  | .park va => parkCmd s c x va true
  | .later s => s
  | .go p => endCmd s c x p
  | .gone => endCmd s c { x with ctr := none } none

/-- The next `k` elements of a load's image, written into scratchpad (R275). -/
def writeImage (s : State) (c : Nat) (x : Cmd) (w : WG) (h : Shape) (cs : List Int) (dst pitch k : Nat) : State :=
  let n := elemBytes h.fmt
  ((h.cells.drop x.done).take k).foldl (fun u (r, b) =>
    writeBytes u (.scr c x.wg (dst + r * pitch + b * n)) (toBytes n (imageElem s x.ctx w h cs r b).1)) s
/-- The elements among the next `k` whose source is poisoned. -/
def badCells (s : State) (x : Cmd) (w : WG) (h : Shape) (cs : List Int) (k : Nat) : List Nat :=
  (List.range k).filterMap fun i => (h.cells[x.done + i]?).bind fun (r, b) => if (imageElem s x.ctx w h cs r b).2 then some (x.done + i) else none
/-- The poison of the whole image (R231, R281). -/
def settleImage (s : State) (c : Nat) (x : Cmd) (h : Shape) (dst pitch : Nat) : State :=
  settlePoison s (h.cells.zipIdx.map fun ((r, b), i) =>
    (.scr c x.wg (dst + r * pitch + b * elemBytes h.fmt), elemBytes h.fmt, x.bads.contains i))
/-- Bytes of the image stream of a load to a queue (R275); pad bytes are 0. -/
def streamByte (s : State) (x : Cmd) (w : WG) (h : Shape) (cs : List Int) (pitch o : Nat) : Byte :=
  let n := elemBytes h.fmt
  if o % pitch / n < h.ext 0 then byteAt (imageElem s x.ctx w h cs (o / pitch) (o % pitch / n)).1 (o % pitch % n) else 0
/-- One queue entry of a stream: lanes past the crew's width hold 0 (R284). -/
def streamEntry (s : State) (x : Cmd) (w : WG) (h : Shape) (cs : List Int) (pitch j : Nat) : List Word :=
  (List.range 128).map fun l => if widthOf w.kern ≤ l then 0 else BitVec.ofNat 32 (ofBytes ((List.range 4).map fun i => streamByte s x w h cs pitch (512 * j + 4 * l + i)))
/-- The bytes that a store writes for one span, whose first element has the tensor coordinate `first` (R274). -/
def storeBytes (s : State) (c wg : Nat) (h : Shape) (n src : Nat) (first : Int) : List Byte :=
  let byte := fun (k : Nat) => (getByte s (.scr c wg (src + k))).toNat
  match h.fmt with
  | 6 =>
    let six := fun (k : Nat) => if first + (k : Nat) < ((h.dims[0]?).getD 0 : Nat) then (satInt (sextNat (byte k) 8) (-32) 31 % 64).toNat else 0
    toBytes 3 (six 0 + 64 * six 1 + 4096 * six 2 + 262144 * six 3)
  | 7 => toBytes 4 (narrowMom (readPlace s (.scr c wg src) 8))
  | _ => (List.range n).map fun k => getByte s (.scr c wg (src + k))
/-- The next `k` spans of a store (R274, R276). -/
def writeStore (s : State) (c : Nat) (x : Cmd) (h : Shape) (cs : List Int) (src pitch k : Nat) : State :=
  (((storeSpans h cs src pitch).drop x.done).take k).foldl (fun u (va, n, o, first) => writeVA u x.ctx va (storeBytes s c x.wg h n o first)) s
/-- The spans among the next `k` whose source is poisoned. -/
def badSpans (s : State) (c : Nat) (x : Cmd) (h : Shape) (cs : List Int) (src pitch k : Nat) : List Nat :=
  (List.range k).filterMap fun i => ((storeSpans h cs src pitch)[x.done + i]?).bind fun (_, _, o, _) =>
    if placePoisoned s (.scr c x.wg o) (if h.fmt = 6 then 4 else elemBytes h.fmt) then some (x.done + i) else none
/-- The poison of the lines that a store has written for the last time with the `k` spans after `done` (R231, R281). -/
def settleStore (s : State) (x : Cmd) (h : Shape) (cs : List Int) (src pitch done k : Nat) : State :=
  let all := storeSpans h cs src pitch
  let lines := fun (l : List (Int × Nat × Nat × Int)) => l.flatMap fun (va, n, _, _) => spanLines s x.ctx va n
  let rest := lines (all.drop (done + k))
  let last := (lines ((all.drop done).take k)).filter fun y => !rest.contains y
  settlePoison s ((all.take (done + k)).zipIdx.flatMap fun ((va, n, _, _), i) =>
    if (spanLines s x.ctx va n).any last.contains then vaBytes s x.ctx va n (x.bads.contains i) else [])
/-- A sector that a store's source still needs (R220). -/
def sourceFill (s : State) (c : Nat) (x : Cmd) (w : WG) (lo n : Nat) : Option Reach :=
  ((List.range ((n + 31) / 32)).map fun i => lo / 32 * 32 + 32 * i).findSome? fun o => sectorReach s c x.wg w false (max lo o)
/-- The places of spans of virtual addresses, with their bytes. -/
def spanPlaces (s : State) (ctx : Nat) (l : List (Int × Nat)) : List (Place × Nat) := l.filterMap fun (va, n) => (vaPlace s ctx va).map fun p => (p, n)
/-- Whether an engine's traffic is held for its context's budget (R30, R312). -/
def spansHeld (s : State) (ctx : Nat) (l : List (Int × Nat)) : Bool := trafficHeld s ctx ((spanPlaces s ctx l).map (·.1))
/-- Units of an engine command (R410). -/
def chargeEngine (s : State) (c : Nat) (x : Cmd) (bytes : Nat) (src : List (Int × Nat)) : State :=
  let s := updCore s c fun co => updWG co x.wg fun w => addEnergy w (ceilDiv bytes 64)
  chargePlaces s c x.wg (src.filterMap fun (va, _) => vaPlace s x.ctx va)
/-- The bytes of an engine at the home agents (R311). -/
def countSpans (s : State) (ctx : Nat) (l : List (Int × Nat)) : State := countTraffic s ctx (spanPlaces s ctx l)

/-- Whether a workgroup's copies run to their ends before it leaves its core (R282): none then waits for room in a queue, since no consumer of
the workgroup could make it (log entry 109). -/
def drains (w : WG) : Bool := w.stopping || w.marked || w.swap.isSome
/-- A load to scratchpad moves the next `k` elements; with the last one the image is whole (R275). -/
def moveImage (s : State) (c : Nat) (x : Cmd) (w : WG) (h : Shape) (cs : List Int) (dst pitch k : Nat) : State :=
  let y := { x with done := x.done + k, bads := x.bads ++ badCells s x w h cs k }
  let s := countSpans (writeImage s c x w h cs dst pitch k) x.ctx (cellSpans h cs ((h.cells.drop x.done).take k))
  if y.done < h.cells.length then updCmd s c x.id fun _ => y
  else closeCmd (chargeEngine (settleImage s c y h dst pitch) c y (h.rows * h.ext 0 * elemBytes h.fmt) (loadSpans h cs)) c y
/-- A store moves the next `k` spans, and lets go of the lines that it has written for the last time (R245, R276). -/
def moveStore (s : State) (c : Nat) (x : Cmd) (h : Shape) (cs : List Int) (src pitch k : Nat) : State :=
  let all := storeSpans h cs src pitch
  let y := { x with done := x.done + k, bads := x.bads ++ badSpans s c x h cs src pitch k }
  let s := settleStore (writeStore s c x h cs src pitch k) y h cs src pitch x.done k
  let s := countSpans s x.ctx (((all.drop x.done).take k).map fun (va, n, _, _) => (va, n))
  if y.done < all.length then updCmd s c x.id fun _ => y
  else closeCmd (chargeEngine s c y (all.foldl (fun k (_, n, _, _) => k + n) 0) []) c y
/-- COPY_COMPLETE (R275, R276, R278): the head XCOPY or XSTORE makes its writes, all at once or some of them (R243; log entry 29), or waits for a
page, a sector or room, or fails. -/
def execCopyComplete (core : Nat) (s : State) : Out :=
  match headCmd (coreOf s core) with
  | none => .next s
  | some x =>
    match get? (coreOf s core).wgs x.wg with
    | none => .next s
    | some w =>
      if x.moved then .next (match x.kind with | .code .. => s | _ => closeCmd s core x)
      else match x.kind with
      | .code .. => .next s
      | .load h cs dst pitch q =>
        let spans := cellSpans h cs (h.cells.drop x.done)
        match spansEng s x.ctx false spans with
        | .fail => .next (failCmd s core x 7)
        | .wait va => .next (parkCmd s core x va false)
        | .ok =>
          if spansHeld s x.ctx spans then .next s
          else match q with
          | none =>
            let (k, s) := portion s (h.cells.length - x.done)
            .next (moveImage s core x w h cs dst pitch k)
          | some n =>
            let y := rget {} w.queues n
            let depth := ((w.kern.queues[n]?).map (·.depth)).getD 0
            if depth ≤ y.entries.length && !drains w then .next s
            else
              let s := updCore s core fun co => updWG co x.wg fun w => addOwed (pushQueue w n (streamEntry s x w h cs pitch x.pushed)) n 1 true
              let x := { x with pushed := x.pushed + 1 }
              let s := updCmd s core x.id fun _ => x
              if h.rows * pitch / 512 ≤ x.pushed then
                .next (closeCmd (chargeEngine (countSpans s x.ctx (loadSpans h cs)) core x (h.rows * h.ext 0 * elemBytes h.fmt) (loadSpans h cs)) core x)
              else .next s
      | .store h cs src pitch =>
        match sourceFill s core x w src (h.rows * pitch) with
        | some (.fill c b k i) => .next (wantFill s c b k i)
        | some (.fault va wr) => .next (parkCmd s core x va wr)
        | some (.memerr _) | some .access => .next (failCmd s core x 7)
        | _ =>
          let spans := ((storeSpans h cs src pitch).drop x.done).map fun (va, n, _, _) => (va, n)
          match spansEng s x.ctx true spans with
          | .fail => .next (failCmd s core x 7)
          | .wait va => .next (parkCmd s core x va true)
          | .ok =>
            if spansHeld s x.ctx spans then .next s
            else
              let (k, s) := portion s spans.length
              .next (moveStore s core x h cs src pitch k)
/-- XCODE_COMPLETE (R277): the bytes arrive, the slot is written and the counter goes up. -/
def execXcodeComplete (core : Nat) (s : State) : Out :=
  match headCmd (coreOf s core) with
  | none => .next s
  | some x =>
    match x.kind with
    | .code a obj slot =>
      if x.moved then .next (closeCmd s core x)
      else match codeVA s x a obj with
      | none => .next (failCmd s core x 7)
      | some va =>
        match byteEng s x.ctx va false with
        | .fail => .next (failCmd s core x 7)
        | .wait v => .next (parkCmd s core x v false)
        | .ok =>
          if spansHeld s x.ctx [(va, 32)] then .next s
          else
          let v := readVA s x.ctx va 32
          let bad := poisonVA s x.ctx va 32
          let s := updCore s core fun co => updWG co x.wg fun w =>
            { w with badBooks := if bad then insertSlot w.badBooks slot else w.badBooks.erase slot, books := (List.range 16).foldl (fun m k => rput 0 m (16 * slot + k) (BitVec.ofNat 32 (bits v (16 * k) 16))) w.books }
          .next (closeCmd (chargeEngine (countSpans s x.ctx [(va, 32)]) core x 0 [(va, 32)]) core x)
    | _ => .next s

/-! ### BULK (R279, R282, R312) -/

def updBulk (s : State) (id : Nat) (f : Bulk → Bulk) : State := { s with bulks := s.bulks.map fun x => if x.id = id then f x else x }
/-- Whether a context has spent its copy-engine time of the period (R311). -/
def spentCopy (s : State) (ctx : Nat) : Bool :=
  let x := ctxOf s ctx
  let n := bits x.budget.toNat 32 16
  decide (n ≠ 0xFFFF ∧ 16 * n ≤ x.copySpent)
def parkBulk (s : State) (x : Bulk) (va : Nat) (write : Bool) : State :=
  let n := if x.last = va / 4096 then x.tries else 0
  if 4 ≤ n then updBulk s x.id fun y => { y with failed := some 7 }
  else pageFault (updBulk s x.id fun y => { y with parked := true, last := va / 4096, tries := n }) (clusterOf x.core) x.ctx va write (.bulk x.id)
/-- The next `k` lines of a BULK, with their poison and their bytes at the homes (R281, R311). -/
def moveLines (s : State) (x : Bulk) (k : Nat) : State :=
  let s := (List.zip ((bulkSrc x).take k) (bulkDst x)).foldl (fun s (a, b) =>
    match vaPlace s x.ctx a.1, vaPlace s x.ctx b.1 with
    | some p, some q =>
      let s := touchPlace s p
      let bad := placePoisoned s p 64
      let s := writePlace s q (toBytes 64 (readPlace s p 64))
      if bad then poisonAt s q 64 else s
    | _, _ => s) s
  countSpans s x.ctx ((bulkSrc x).take k ++ (bulkDst x).take k)
/-- A BULK's time on its engine (R311), and its units, while its workgroup is there (R410). -/
def chargeBulk (s : State) (x : Bulk) : State :=
  let s := updCtx s x.ctx fun k => { k with copySpent := k.copySpent + (x.len + 127) / 128 }
  match get? (coreOf s x.core).wgs x.wg with
  | none => s
  | some w =>
    if w.launch = x.launch ∧ w.id = x.wid ∧ w.ctx = x.ctx then
      let s := updCore s x.core fun co => updWG co x.wg fun w => addEnergy w (x.len / 64)
      chargePlaces s x.core x.wg ((List.range (x.len / 32)).filterMap fun i => vaPlace s x.ctx ((x.src + 32 * i : Nat) : Int))
    else s
/-- A BULK whose lines have moved increments its counter, or waits for the counter's page or sector (R279, R280). -/
def closeBulk (s : State) (x : Bulk) : State :=
  let s := updBulk s x.id fun y => { y with moved := true }
  let done := fun (s : State) => { s with bulks := s.bulks.filter fun y => decide (y.id ≠ x.id) }
  match x.ctr with
  | none => done s
  | some (k, a) =>
    match ctrReach s x.core x.ctx x.launch x.wid (x.slot - x.wg) x.fn k a with
    | .found (.ok p) => if engineOwns s p || trafficHeld s x.ctx [p] then s else bumpAt (done s) x.ctx p
    | .found .access | .found (.memerr _) => updBulk s x.id fun y => { y with failed := some 8 }
    | .found (.fault va _) => parkBulk s x va true
    | .found (.fill c b j i) => wantFill s c b j i
    | .found .board | .saved => s
    | .gone => done s
/-- A BULK moves its next `k` lines; with the last ones the copy is made and its counter is due. -/
def moveBulk (s : State) (x : Bulk) (k : Nat) : State :=
  let s := moveLines s x k
  if 64 * (x.done + k) < x.len then updBulk s x.id fun y => { y with done := x.done + k }
  else closeBulk (chargeBulk s x) x
/-- BULK_COMPLETE: a command that waits for an engine takes one; else lines are copied, all or some (log entry 29), and at the end its counter is
incremented, when its context's budget or the absence of other commands lets it. -/
def execBulkComplete (id : Nat) (s : State) : Out :=
  match s.bulks.find? fun x => decide (x.id = id) with
  | none => .next s
  | some x =>
    if x.parked || x.failed.isSome || (spentCopy s x.ctx && s.bulks.any fun y => decide (y.ctx ≠ x.ctx) && y.failed.isNone) then .next s
    else if x.engine.isNone then .next (updBulk s x.id fun y => { y with engine := freeEngine s })
    else if x.moved then .next (closeBulk s x)
    else
      match spansEng s x.ctx false (bulkSrc x), spansEng s x.ctx true (bulkDst x) with
      | .fail, _ | _, .fail => .next (updBulk s x.id fun y => { y with failed := some 7 })
      | .wait va, _ => .next (parkBulk s x va false)
      | _, .wait va => .next (parkBulk s x va true)
      | .ok, .ok =>
        if spansHeld s x.ctx (bulkSrc x ++ bulkDst x) then .next s
        else
          let (k, s) := portion s (x.len / 64 - x.done)
          .next (moveBulk s x k)

end Sys2Proof.Machine
end

