-- ==== Sys2Proof/Machine/Complete.lean ====
section
/-! DEFINITION. The performing of memory accesses (R207, R208, R210, R233, R237-R238, R244, R249-R252). -/
namespace Sys2Proof.Machine

/-! ### Effects -/

/-- A value bound to the registers that wait for it: one register, a pair, or an m register. -/
def bindRegs (t : Thread) (regs : List Reg) (x : Nat) : Thread :=
  let t := { t with pend := t.pend.filter fun r => !regs.contains r }
  match regs with
  | [.m n] => { t with m := rput 0 t.m n (BitVec.ofNat 64 x) }
  | [.v a] => { t with v := rput 0 t.v a (BitVec.ofNat 32 x) }
  | [.v a, .v b] => { t with v := rput 0 (rput 0 t.v a (BitVec.ofNat 32 x)) b (BitVec.ofNat 32 (x / 2 ^ 32)) }
  | _ => t
/-- The register image of loaded bytes (R207). -/
def loadImage (z : Size) (x : Nat) : Nat :=
  match z with
  | .s8 => (sextNat x 8 % (2 ^ 32 : Int)).toNat
  | .s16 => (sextNat x 16 % (2 ^ 32 : Int)).toNat
  | _ => x
/-- ATFADD's sum of one element (R250): no FTZ, no flag, the canonical NaN. -/
def fpAdd (F : Fmt) (a b : Nat) : Nat := (finishX F rneCtl [(F, a), (F, b)] (addX .rne (decodeF F a) (decodeF F b))).1
/-- The value an atomic writes, or none where it writes nothing (R249). -/
def atomNew (minor : Nat) (b64 : Bool) (ty : FTy) (x d cmp : Nat) : Option Nat :=
  let n := if b64 then 64 else 32
  let sx := sextNat x n
  let sd := sextNat d n
  match minor with
  | 0 => some ((x + d) % 2 ^ n)
  | 1 => some (if sd < sx then d else x)
  | 2 => some (if sx < sd then d else x)
  | 3 => some (min x d)
  | 4 => some (max x d)
  | 5 => some (x &&& d)
  | 6 => some (x ||| d)
  | 7 => some (x ^^^ d)
  | 8 => some d
  | 9 => if x = cmp then some d else none
  | _ => some (pack ty ((List.zip (elems ty x) (elems ty d)).map fun (a, b) => fpAdd (fmtOf ty) a b))
/-- LINV and LCLN (R210): at the memory's point the device's copy is written out, and LINV removes it; a nearer point changes nothing
that memory or a later read shows, since a copy may leave a cache at any time. -/
def maintain (s : State) (inval : Bool) (lv : Level) (p : Place) : State :=
  match p with
  | .off pa false => if lv = .far then cleanLine s (pa / 64) (!inval) else s
  | _ => s
/-- One lane's access is performed, on a line that the caches hold as they stand. -/
def performLane (s : State) (c : Nat) (k : PKind) (l : PLane) : State :=
  let bind := fun (s : State) (x : Nat) => updCore s c fun co => updThread co l.slot fun t => bindRegs t l.dst x
  match k with
  | .load z => bind s (loadImage z (readPlace s l.place l.len))
  | .store => writeBytes s l.place (toBytes l.len l.data)
  | .atomic minor b64 _ ty =>
    let x := readPlace s l.place l.len
    let s := match atomNew minor b64 ty x (l.data % 2 ^ (8 * l.len)) l.cmp with
      | some y => writeBytes s l.place (toBytes l.len y)
      | none => s
    bind s x
  | .maint inval lv => maintain s inval lv l.place
def performAll (c : Nat) (k : PKind) : State → List PLane → State
  | s, [] => s
  | s, l :: r => performAll c k (performLane s c k l) r
/-- The lanes of one line share one reply: the caches are asked once (R208, R222). -/
def touchAccess (s : State) (k : PKind) (lanes : List PLane) : State :=
  match k, lanes with
  | .maint .., _ | _, [] => s
  | _, l :: _ => touchPlace s l.place
/-- The lanes of a line are performed together; a store by all of them that covers its granule clears the poison (R231). -/
def performAccess (s : State) (c : Nat) (k : PKind) (lanes : List PLane) : State :=
  let s := performAll c k (touchAccess s k lanes) lanes
  match k with
  | .store => settlePoison s (lanes.map fun l => (l.place, l.len, false))
  | _ => s
/-- A load takes its own store's bytes where they overlap it (R237); the lanes left read memory. -/
def takeOwn (s : State) (c : Nat) (co : Core) (p : Pend) (lanes : List PLane) : List PLane × State :=
  match p.kind with
  | .load z => lanes.foldl (fun (rest, s) l => match ownStore co p l with
    | some (some x) => (rest, updCore s c fun co => updThread co l.slot fun t => bindRegs t l.dst (loadImage z x))
    | _ => (rest ++ [l], s)) ([], s)
  | _ => (lanes, s)
/-- What an access that has been performed leaves to be noted, with the accesses `before` that R238 orders first and that are still in flight: a
thread reads a value that carries a release; a store ends the release that its bytes carried, an atomic does not (R239); a write carries its
own release and its thread's release fences; an SC store that was passed has its place in the SC order (R242). -/
def noteLane (c : Nat) (p : Pend) (before : List Pend) (s : State) (l : PLane) : State :=
  let who := agentOf s c l.slot
  let mine := before.filter fun q => q.lanes.any fun x => decide (x.slot = l.slot)
  let live := s.notes.filter (·.live s)
  let heard := if p.read then live.filterMap fun n => match n.at' with
    | .wrote q k => if overlap q k l.place l.len && decide (n.who ≠ who) then some { n with at' := .heard c l.slot } else none
    | _ => none else []
  let kept := if p.kind = .store then live.filter fun n => match n.at' with
    | .wrote q k => !((List.range k).all fun i => overlap (q.shift i) 1 l.place l.len)
    | _ => true else live
  let own := if p.releases && !mine.isEmpty then [{ at' := .wrote l.place l.len, who := who, scope := p.scope, ids := mine.map (·.id) }] else []
  let fences := if p.write then live.filterMap fun n => if n.at' = .fenced c l.slot then some { n with at' := .wrote l.place l.len } else none else []
  let placed := (mine.filter fun q => q.write && decide (q.order = .sc)).flatMap fun q =>
    (q.lanes.filter fun x => decide (x.slot = l.slot)).map fun x =>
      { at' := .scStore x.place x.len, who := who, scope := q.scope, ids := [q.id] }
  { s with notes := kept ++ heard ++ own ++ fences ++ placed }
def noteAccess (s : State) (c : Nat) (p : Pend) (lanes : List PLane) (before : List Pend) : State :=
  if s.notes.isEmpty && before.isEmpty then s else lanes.foldl (noteLane c p before) s
/-- The lanes that an event performs: an access of another agent may come between the lanes of an atomic (R251; log entry 88). -/
def lanesNow (s : State) (k : PKind) (lanes : List PLane) : List PLane × State :=
  match k with
  | .atomic .. =>
    if lanes.length ≤ 1 then (lanes, s)
    else
      let (n, s) := takeFresh s
      (if Config.lanesApart n then lanes.take 1 else lanes, s)
  | _ => (lanes, s)
/-- Lanes that read poison: an access whose granule became poisoned after it issued (R231). -/
def poisonedLanes (s : State) (p : Pend) (lanes : List PLane) : List PLane :=
  match p.kind with
  | .load _ | .atomic .. => lanes.filter fun l => p.fence.isNone && placePoisoned s l.place l.len
  | _ => []
/-- Such a lane writes nothing and raises MEMERR where its thread stands, unless that has trapped already (log entry 89). -/
def poisonTrap (c : Nat) (word : Word64) : State → List PLane → State
  | s, [] => s
  | s, l :: r =>
    let co := coreOf s c
    let s := updCore s c fun co => updThread co l.slot fun t => { t with pend := t.pend.filter fun r => !l.dst.contains r }
    let gone := l.srcs.isEmpty || co.stop.pending.any fun g => g.items.any fun x => decide (x.1 = l.slot)
    poisonTrap c word (if gone then s
      else takeTrap s c (rget 0 co.lastSel l.slot) [(l.slot, { code := cMemerr, word := word, srcs := l.srcs, addr := l.va / 64 * 64 })]) r
/-- Some lanes of an access are performed, with the accesses `before` that R238 orders first still in flight. -/
def performNow (s : State) (core : Nat) (p : Pend) (ready : List PLane) (before : List Pend) : State :=
  let co := coreOf s core
  let (now, s) := lanesNow s p.kind ready
  let rest := p.lanes.filter fun l => !now.any fun x => decide (x.slot = l.slot)
  let s := updCore s core fun co => { co with pend := co.pend.filterMap fun q =>
    if q.id = p.id then (if rest.isEmpty then none else some { q with lanes := rest }) else some q }
  let (far, s) := if before.isEmpty then (now, s) else takeOwn s core co p now
  let bad := poisonedLanes s p far
  let s := performAccess (countTraffic s (pendCtx co p) (far.map fun l => (l.place, l.len))) core p.kind (far.filter fun l => !bad.contains l)
  let s := noteAccess s core p now before
  let s := poisonTrap core p.word s bad
  let width := match get? co.wgs p.wg with | some w => widthOf w.kern | none => 128
  let s := sampleLanes s core width now
  sampleSweep s core
/-- ACCESS_COMPLETE: an issued access is performed when nothing that R238 orders before it is left, and no engine owns its line
(R245); its lanes in ascending slot (R208, R251). It may be performed earlier where only happens-before would show (R237). -/
def execAccessComplete (core id : Nat) (s : State) : Out :=
  let co := coreOf s core
  match co.pend.find? fun p => decide (p.id = id) with
  | none => .next s
  | some p =>
    let held := fun (l : List PLane) => trafficHeld s (pendCtx co p) (l.map (·.place)) || (l.map (·.place)).any (engineOwns s)
    let ready := lanesReady s core co p
    if ready.isEmpty && !p.lanes.isEmpty then
      if mayEarly s core co p && !held p.lanes then
        let (n, s) := takeFresh s
        .next (if Config.early n then performNow s core p p.lanes (ordersBefore s co p) else s)
      else .next s
    else if held ready then .next s
    else .next (performNow s core p ready [])

end Sys2Proof.Machine
end

