-- ==== Sys2Proof/Machine/Control.lean ====
section
/-! DEFINITION. The control instructions of major 0x00 (R77-R83). -/
namespace Sys2Proof.Machine

/-- A control word: `f` says per lane whether it may take effect, and `post` acts on the lanes that do. -/
def runControl (s : State) (g : Guard) (f : Env → Thread → L Unit) (post : Env → List Nat → State → State) : Out :=
  issueWord s { g := g } (pureLane fun e _ t => do
    f e t
    return { t := t }) fun e oks s => if oks.isEmpty then s else post e (oks.map (·.1)) s

/-- The lanes leave the batch and go to the walker. -/
def departTo (e : Env) (slots : List Nat) (act : WalkAct) (s : State) : State :=
  updCore s e.c fun co => toWalker (unbatch co slots) e.sel slots act

/-- The node that LEAVE or NEXT k ends: the k-th LOOP above, or its body (R78). -/
def loopTarget (e : Env) (t : Thread) (k : Nat) (body : Bool) : Option Nat :=
  (loopAbove e.s e.w.ctx t.pos.fn e.r.nv 32 t.pos.node k).map fun n => if body then (nodeOf e.s e.w.ctx t.pos.fn n e.r.nv).first else n
/-- What a fetch of the records above the batch's node meets. -/
def climbOf (e : Env) : Fetch Unit := climb e.s e.w.ctx e.b.pos.fn e.r.nv 32 e.b.pos.node
/-- An absent page of a record above the node is fetched first (R227). -/
def fetchAbove (g : Guard) (s : State) : State :=
  match envOf s with
  | none => s
  | some e => match climbOf e with
    | .fault va => if (liveOf e g false).isEmpty || fetchLost e.co e.b.slots va then s else fetchFault s e.c e.b.slots va
    | _ => s
/-- One lane of LEAVE or NEXT: ILLEGAL where too few LOOPs enclose the node. -/
def leaveLane (e : Env) (t : Thread) (k : Nat) (body : Bool) : L Unit :=
  match climbOf e with
  | .ok _ => if (loopTarget e t k body).isSome then .ok () else trapE cIllegal
  | .fault va => if fetchLost e.co e.b.slots va then trapA cAccess [] va else .error .stall
  | .fatal va => trapA (lostCode e.s e.w.ctx va) [] va
def runLeave (s : State) (g : Guard) (k : Nat) (body : Bool) : Out :=
  runControl (fetchAbove g s) g (fun e t => leaveLane e t k body) fun e slots s =>
    match loopTarget e { crew := 0, pos := e.b.pos } k body with
    | none => s
    | some n =>
      let f := e.b.pos.fn
      let s := departTo e slots (.leave f n) s
      updCore s e.c fun co => leaveScopes co slots f (fun m => within s e.w.ctx f e.r.nv 32 m n) false n
def execLeave (g : Guard) (k : Nat) (s : State) : Out := runLeave s g k false
def execNext (g : Guard) (k : Nat) (s : State) : Out := runLeave s g k true

/-- RET (R79): in trap context, a RET in the handler function itself raises ILLEGAL (R321). -/
def execRet (g : Guard) (s : State) : Out :=
  runControl s g (fun _ t => match t.trap with
    | some x => if t.depth ≤ x.base then trapE cIllegal else .ok ()
    | none => .ok ()) fun e slots s =>
    let s := departTo e slots .ret s
    updCore s e.c fun co => leaveScopes co slots e.b.pos.fn (fun _ => true) true 0
/-- DONE (R79, R321): the thread ends, in trap context too. -/
def execDone (g : Guard) (s : State) : Out :=
  runControl s g (fun _ _ => .ok ()) fun e slots s => updCore s e.c fun co => untrap (endThreads co slots) slots

/-- The word that a REP repeats, as a fetch finds it: none past the end of the block. -/
def repFetch (e : Env) : Fetch (Option Word64) :=
  if e.b.count ≤ e.b.pos.step + 1 then .ok none
  else match wordVA e.s e.w.ctx { e.b.pos with step := e.b.pos.step + 1 } e.r.nv with
    | none => .ok none
    | some va =>
      match fetchVA e.s e.w.ctx va 8 with
      | .ok x => .ok (some (BitVec.ofNat 64 x))
      | .fault a => .fault a
      | .fatal a => .fatal a
/-- Whether a REP may stand before a word (R81): no control word, an instruction of the kernel. -/
def repWord (e : Env) (x : Option Word64) : Bool :=
  match x with
  | none => false
  | some w => decide (w.toNat / 2 ^ 58 ≠ 0) && (isInstrIn e.r e.w.kern w).isSome
/-- Whether the next word is there and may be repeated. -/
def repOk (e : Env) : Bool := match repFetch e with | .ok x => repWord e x | _ => false
/-- Every thread that stands at the word traps, whatever its guard. -/
def trapAll (s : State) (e : Env) (code addr : Nat) : State :=
  settle s e { g := .always } [] ((participants e).map fun i => (i, { code := code, word := e.word, addr := addr, crewb := e.crewB })) []
/-- REP (R81, R319). The check is made for every thread of the batch, whatever its guard; a next word whose page is absent is fetched first
(R227). -/
def execRep (g : Guard) (n xmask : Nat) (s : State) : Out :=
  match envOf s with
  | none => .next s
  | some e =>
    if (participants e).any fun i => (e.thread i).trap.isSome then .next (trapAll s e cIllegal 0)
    else match repFetch e with
      | .fault va => if fetchLost e.co e.b.slots va then .next (trapAll s e cAccess va) else .next (stallWord (fetchFault s e.c e.b.slots va) e [])
      | .fatal va => .next (trapAll s e (lostCode s e.w.ctx va) va)
      | .ok x =>
        if !repWord e x then .next (trapAll s e cIllegal 0)
        else issueWord s { g := g, rep := BitVec.ofNat 32 (2 ^ 31 + xmask * 2 ^ 14 + n * 2 ^ 7) } (pureLane fun _ _ t => .ok { t := t }) noPost

/-- ENROL and STRIKE (R80): the gathers evaluated from the next tick see the mask (R74). -/
def setMask (e : Env) (k : Nat) (on : Bool) (slots : List Nat) (s : State) : State :=
  updCore s e.c fun co => slots.foldl (fun co i =>
    updCrew co (e.thread i).crew fun cr =>
      let m := rget [] cr.masks k
      { cr with masks := put cr.masks k (if on then insertSlot m i else minus m [i]) }) co
def execEnrol (g : Guard) (k : Nat) (s : State) : Out := runControl s g (fun _ _ => .ok ()) fun e slots s => setMask e k true slots s
def execStrike (g : Guard) (k : Nat) (s : State) : Out := runControl s g (fun _ _ => .ok ()) fun e slots s => setMask e k false slots s

/-- Every word that is no instruction raises ILLEGAL in every thread of the batch that reaches it, whatever its guard (R49). -/
def execIllegalWord (w : Word64) (s : State) : Out :=
  match envOf s with
  | none => .next s
  | some e => .next (trapAll s { e with word := w } cIllegal 0)

end Sys2Proof.Machine
end

