-- ==== Sys2Proof/Machine/Crypto.lean ====
section
/-! DEFINITION. The two functions that R379 and R380 name and the spec does not spell out: SHA3-256 and the verification of ML-DSA-44, as FIPS
202 and FIPS 204 define them (PRESUMED; log entry 14). -/
namespace Sys2Proof.Machine

/-! ### SHA-3 -/

/-- The 25 lanes of a Keccak state; lane (x, y) at x + 5 y. -/
abbrev Keccak := List Word64
def keccakLane (a : Keccak) (x y : Nat) : Word64 := (a[x % 5 + 5 * (y % 5)]?).getD 0
def keccakLanes (f : Nat → Nat → Word64) : Keccak := (List.range 25).map fun i => f (i % 5) (i / 5)
def rhoOffset (i : Nat) : Nat :=
  ([0, 1, 62, 28, 27, 36, 44, 6, 55, 20, 3, 10, 43, 25, 39, 41, 45, 15, 21, 8, 18, 2, 61, 56, 14][i]?).getD 0
def roundConsts : List Word64 :=
  [0x0000000000000001, 0x0000000000008082, 0x800000000000808A, 0x8000000080008000, 0x000000000000808B, 0x0000000080000001,
   0x8000000080008081, 0x8000000000008009, 0x000000000000008A, 0x0000000000000088, 0x0000000080008009, 0x000000008000000A,
   0x000000008000808B, 0x800000000000008B, 0x8000000000008089, 0x8000000000008003, 0x8000000000008002, 0x8000000000000080,
   0x000000000000800A, 0x800000008000000A, 0x8000000080008081, 0x8000000000008080, 0x0000000080000001, 0x8000000080008008]
def keccakTheta (a : Keccak) : Keccak :=
  let sums := (List.range 5).map fun x => (List.range 5).foldl (fun r y => r ^^^ keccakLane a x y) 0
  let col := fun (x : Nat) => (sums[x % 5]?).getD 0
  keccakLanes fun x y => keccakLane a x y ^^^ col (x + 4) ^^^ (col (x + 1)).rotateLeft 1
/-- The steps rho and pi: lane (x, y) turns and moves to (y, 2 x + 3 y). -/
def keccakRhoPi (a : Keccak) : Keccak :=
  keccakLanes fun u v =>
    let x := (u + 3 * v) % 5
    (keccakLane a x u).rotateLeft (rhoOffset (x + 5 * u))
def keccakChi (a : Keccak) : Keccak := keccakLanes fun x y => keccakLane a x y ^^^ (~~~keccakLane a (x + 1) y &&& keccakLane a (x + 2) y)
def keccakRound (a : Keccak) (rc : Word64) : Keccak :=
  match keccakChi (keccakRhoPi (keccakTheta a)) with
  | [] => []
  | x :: r => (x ^^^ rc) :: r
def keccakF (a : Keccak) : Keccak := roundConsts.foldl keccakRound a
def leWord (l : List (BitVec 8)) : Nat := l.foldr (fun b n => b.toNat + 256 * n) 0
def leBytes (n x : Nat) : List (BitVec 8) := (List.range n).map fun i => BitVec.ofNat 8 (x / 256 ^ i)
/-- The padding of a message to a multiple of the rate, with the bits of its domain. -/
def padMsg (rate : Nat) (dom : BitVec 8) (m : List (BitVec 8)) : List (BitVec 8) :=
  let n := rate - m.length % rate
  m ++ if n = 1 then [dom ||| 0x80] else dom :: List.replicate (n - 2) 0 ++ [0x80]
def absorbBlock (rate : Nat) (a : Keccak) (block : List (BitVec 8)) : Keccak :=
  keccakF (keccakLanes fun x y =>
    let i := x + 5 * y
    keccakLane a x y ^^^ (if i < rate / 8 then BitVec.ofNat 64 (leWord ((block.drop (8 * i)).take 8)) else 0))
def keccakAbsorb (rate : Nat) : Nat → List (BitVec 8) → Keccak → Keccak
  | 0, _, a => a
  | n + 1, m, a => keccakAbsorb rate n (m.drop rate) (absorbBlock rate a (m.take rate))
/-- `n` blocks of output. -/
def keccakSqueeze (rate : Nat) : Nat → Keccak → List (BitVec 8)
  | 0, _ => []
  | n + 1, a => (a.flatMap fun x => leBytes 8 x.toNat).take rate ++ keccakSqueeze rate n (keccakF a)
def keccakSponge (rate : Nat) (dom : BitVec 8) (m : List (BitVec 8)) (blocks : Nat) : List (BitVec 8) :=
  let p := padMsg rate dom m
  keccakSqueeze rate blocks (keccakAbsorb rate (p.length / rate) p (List.replicate 25 0))
def sha3 (m : List (BitVec 8)) : BitVec 256 := BitVec.ofNat 256 (leWord ((keccakSponge 136 0x06 m 1).take 32))
/-- Bytes of SHAKE256 and SHAKE128. -/
def shake256 (m : List (BitVec 8)) (n : Nat) : List (BitVec 8) := (keccakSponge 136 0x1F m ((n + 135) / 136)).take n
def shake128 (m : List (BitVec 8)) (n : Nat) : List (BitVec 8) := (keccakSponge 168 0x1F m ((n + 167) / 168)).take n

/-! ### ML-DSA-44 -/

def dsaQ : Nat := 8380417
/-- A polynomial of degree below 256, its coefficients modulo q. -/
abbrev DsaPoly := List Nat
def dsaCoeff (p : DsaPoly) (i : Nat) : Nat := (p[i]?).getD 0
def polyOp (f : Nat → Nat → Nat) (a b : DsaPoly) : DsaPoly := List.zipWith (fun x y => f x y % dsaQ) a b
def rev8 (i : Nat) : Nat := (List.range 8).foldl (fun r k => 2 * r + i / 2 ^ k % 2) 0
/-- The root at which entry `i` of a transform evaluates: an odd power of 1753; and its inverse. -/
def rootAt (i : Nat) : Nat := 1753 ^ (2 * rev8 i + 1) % dsaQ
def invRootAt (i : Nat) : Nat := 1753 ^ (511 - 2 * rev8 i) % dsaQ
def dsaNtt (p : DsaPoly) : DsaPoly :=
  (List.range 256).map fun i =>
    let r := rootAt i
    p.foldr (fun a acc => (a + r * acc) % dsaQ) 0
/-- The coefficients of a polynomial from its values, each with the inverse of its root. -/
def inttFrom : Nat → List (Nat × Nat) → DsaPoly
  | 0, _ => []
  | n + 1, l => (l.foldl (fun a x => a + x.1) 0 % dsaQ * 8347681 % dsaQ) :: inttFrom n (l.map fun (x, r) => (x * r % dsaQ, r))
def dsaIntt (v : DsaPoly) : DsaPoly := inttFrom 256 (List.zip v ((List.range 256).map invRootAt))
/-- `n`-bit fields of a byte string, the lowest bits first. -/
def unpackBits (n count : Nat) (l : List (BitVec 8)) : DsaPoly :=
  let x := leWord l
  (List.range count).map fun i => x / 2 ^ (n * i) % 2 ^ n
/-- A uniform polynomial from the candidates of three bytes below q (RejNTTPoly; 336 candidates, where FIPS 204 asks for 298 at least). -/
def rejPoly (seed : List (BitVec 8)) : Option DsaPoly :=
  let x := unpackBits 24 336 (shake128 seed 1008)
  let l := (x.map (· % 2 ^ 23)).filter fun z => decide (z < dsaQ)
  if 256 ≤ l.length then some (l.take 256) else none
/-- One element of SampleInBall: position `i` takes the coefficient of a lower position `j`, which becomes 1 or -1. -/
def ballStep (c : DsaPoly) (i j sign : Nat) : DsaPoly := (c.set i (dsaCoeff c j)).set j (if sign = 1 then dsaQ - 1 else 1)
def ballFrom (signs : Nat) : Nat → List Nat → DsaPoly → Option DsaPoly
  | 0, _, c => some c
  | _ + 1, [], _ => none
  | n + 1, j :: r, c =>
    let i := 255 - n
    if i < j then ballFrom signs (n + 1) r c else ballFrom signs n r (ballStep c i j (signs / 2 ^ (38 - n) % 2))
/-- The challenge: 39 coefficients 1 or -1 (SampleInBall; 264 candidates, where FIPS 204 asks for 121 at least). -/
def inBall (seed : List (BitVec 8)) : Option DsaPoly :=
  let s := shake256 seed 272
  ballFrom (leWord (s.take 8)) 39 ((s.drop 8).map BitVec.toNat) (List.replicate 256 0)
/-- The hint's positions in each of 4 polynomials (HintBitUnpack), or none where they are not in order. -/
def hintOf (y : List Nat) : Option (List (List Nat)) :=
  let ends := y.drop 80
  let from_ := fun (i : Nat) => if i = 0 then 0 else (ends[i - 1]?).getD 0
  let part := fun (i : Nat) => ((y.take 80).drop (from_ i)).take ((ends[i]?).getD 0 - from_ i)
  let rising := fun (l : List Nat) => (List.zip l l.tail).all fun (a, b) => decide (a < b)
  if (List.range 4).all (fun i => decide (from_ i ≤ (ends[i]?).getD 0 ∧ (ends[i]?).getD 0 ≤ 80) && rising (part i)) &&
      ((y.take 80).drop (from_ 4)).all (· = 0) then some ((List.range 4).map part) else none
/-- UseHint: the high part of a coefficient, moved by one where the hint says so. -/
def useHint (h : Bool) (r : Nat) : Nat :=
  let m := r % 190464
  let low : Int := if m ≤ 95232 then m else (m : Int) - 190464
  let (r1, low) := if (r : Int) - low = (dsaQ - 1 : Nat) then (0, low - 1) else ((((r : Int) - low) / 190464).toNat, low)
  if !h then r1 else if 0 < low then (r1 + 1) % 44 else (r1 + 43) % 44
/-- One row of w': the row of A times z, less c times t1. -/
def dsaRow (rho : List (BitVec 8)) (zs : List DsaPoly) (c : DsaPoly) (t1 : DsaPoly) (r : Nat) : Option DsaPoly := do
  let terms ← (List.range 4).mapM fun s => do
    let a ← rejPoly (rho ++ [BitVec.ofNat 8 s, BitVec.ofNat 8 r])
    return polyOp (· * ·) a ((zs[s]?).getD [])
  let sum := terms.foldl (polyOp (· + ·)) (List.replicate 256 0)
  let ct := polyOp (· * ·) c (dsaNtt (t1.map fun x => x * 8192 % dsaQ))
  return dsaIntt (polyOp (fun x y => x + dsaQ - y) sum ct)
/-- ML-DSA.Verify of a message of bytes with an empty context string, for a key of 1,312 and a signature of 2,420 bytes. -/
def mlDsaVerify (pk msg sig : List (BitVec 8)) : Bool :=
  let rho := pk.take 32
  let c0 := sig.take 32
  let zs := (List.range 4).map fun i => unpackBits 18 256 (((sig.drop 32).drop (576 * i)).take 576)
  let small := zs.all fun p => p.all fun x => decide ((131072 - (x : Int)).natAbs < 131072 - 78)
  let nz := zs.map fun p => dsaNtt (p.map fun x => (131072 + dsaQ - x) % dsaQ)
  let mu := shake256 (shake256 pk 64 ++ [0, 0] ++ msg) 64
  decide (pk.length = 1312 ∧ sig.length = 2420) && small &&
  match hintOf ((sig.drop 2336).map BitVec.toNat), inBall c0 with
  | some hs, some c =>
    let nc := dsaNtt c
    let rows := (List.range 4).mapM fun r => do
      let w ← dsaRow rho nz nc (unpackBits 10 256 (((pk.drop 32).drop (320 * r)).take 320)) r
      let h := (hs[r]?).getD []
      let w1 := (List.zip (List.range 256) w).map fun (i, x) => useHint (h.contains i) x
      return leBytes 192 (w1.foldr (fun x n => x + 64 * n) 0)
    match rows with
    | some l => decide (shake256 (mu ++ l.flatMap id) 32 = c0)
    | none => false
  | _, _ => false

end Sys2Proof.Machine
end

