-- ==== Sys2Proof/Machine/Moment.lean ====
section
/-! DEFINITION. Moment registers and moment arithmetic, majors 0x14 to 0x16 (06_moment.md). -/
namespace Sys2Proof.Machine

/-! ### The shape of a moment word -/

/-- A source field of a moment word: an m register or a 32-bit source (R159). -/
inductive MField where | m (x : MSrc) | s (x : Src)
/-- Where it writes. -/
inductive MDest where | m (n : Nat) | code (d : Code) (w : Bool) | p (n : Nat)
structure MWord where
  g : Guard
  d : MDest
  srcs : List MField
  regs : List Reg := []

def MField.regs : MField → List Reg | .m x => [.m x.m] | .s x => srcRegs x false
def MField.perm : MField → Perm | .m x => x.perm | .s x => x.perm
def MField.pops : MField → List Nat | .m _ => [] | .s x => srcPops x
def MDest.regs : MDest → List Reg | .m n => [.m n] | .code d w => codeRegs d w | .p _ => []
def readMFields (e : Env) (i : Nat) (t : Thread) : List MField → L (List Nat)
  | [] => .ok []
  | f :: r => do
    let x ← (match f with
      | .m x => readMSrc e i t x
      | .s x => (readSrc e i t x false).map (·.x))
    let xs ← readMFields e i t r
    return x :: xs
def MWord.spec (x : MWord) : WordSpec :=
  { g := x.g
    regs := x.d.regs ++ x.srcs.flatMap MField.regs ++ x.regs
    perms := x.srcs.map MField.perm
    moment := true
    crew := (match x.d with | .code d _ => crewDst d | _ => false) || x.srcs.any fun f => decide (f.perm ≠ .ident) || !f.pops.isEmpty
    pops := x.srcs.flatMap MField.pops
    srcs := fun e i t => readMFields e i t x.srcs
    push := match x.d with | .code (.q n) _ => some n | _ => none
    aff := match x.d with | .code (.a n) _ => some n | _ => none }
/-- One lane of a moment word: the sources in field order, then `f`, which may trap, then the result. -/
def runM (s : State) (x : MWord) (f : Thread → List Nat → L (Nat × Thread)) : Out :=
  issueWord s x.spec (pureLane fun e i t => do
    let vs ← readMFields e i t x.srcs
    match x.d with
    | .m n =>
      if t.pend.contains (.m n) then .error .stall
      else do
        let (y, t') ← f t vs
        return { t := t'.setM n (BitVec.ofNat 64 y) }
    | .code d w => do
      let ds ← destOf e t d w
      if ds = .odd then trapL cAlign vs
      else do
        let (y, t') ← f t vs
        return { t := ds.put t' w y, out := y % 2 ^ 32 }
    | .p n => do
      let (y, t') ← f t vs
      return { t := t'.setP n (decide (y = 1)) }) noPost

/-! ### Variance images (R152, R153) -/

def meanOf (x : Nat) : Nat := x % 2 ^ 32
/-- A variance image as a word reads it: -0 counts as +0. -/
def varOf (x : Nat) : Nat := let v := x / 2 ^ 32 % 2 ^ 32; if v = 2 ^ 31 then 0 else v
def negImage (v : Nat) : Bool := decide (2 ^ 31 < v % 2 ^ 32)
def negVar (x : Nat) : Bool := negImage (x / 2 ^ 32)
/-- A variance plane as written, its flags, and whether it was clamped (R153). -/
def fixVar (v : Nat) (fl : Flags) : Nat × Flags × Bool :=
  if isNaN fp32 v then (v % 2 ^ 31, fl, false)
  else if v % 2 ^ 31 = 0 then (0, fl, false)
  else if signBit fp32 v then (0, 0, true)
  else (v, fl, false)
/-- The pair a word writes, with its flags and CLAMP (R153, R158). -/
def writeMom (t : Thread) (mean var : Nat × Flags) : Nat × Thread :=
  let (v, fl, clamp) := fixVar var.1 var.2
  let t := t.flags (mean.2 ||| fl)
  (mean.1 + 2 ^ 32 * v, if clamp then { t with momctl := t.momctl ||| 4 } else t)

/-! ### Planes (R158) -/

/-- A factor of a product: a source value with its place, the square root of a variance, or a constant. -/
inductive Factor where
  | val (place img : Nat)
  | root (place img : Nat)
  | const (x : FV)
deriving Repr
def Factor.src : Factor → Option (Nat × Nat) | .val p i => some (p, i) | .root p i => some (p, i) | .const _ => none
def Factor.fv (ftz : Bool) : Factor → FV | .val _ i => srcF fp32 ftz i | .root _ i => srcF fp32 ftz i | .const x => x
def Factor.isRoot : Factor → Bool | .root .. => true | _ => false
/-- A product of factors. -/
inductive Prod where
  | nan
  | invalid
  | inf (neg : Bool)
  | zero (neg : Bool)
  | num (neg : Bool) (n : Nat) (e : Int) (rooted : Bool)
deriving DecidableEq, Repr
def prodOf (ftz : Bool) (fs : List Factor) : Prod :=
  let xs := fs.map fun f => (f.fv ftz, f.isRoot)
  let neg := xs.foldl (fun b (x, _) => b != (match x with | .inf n => n | .fin n _ _ => n | .nan _ => false)) false
  let inf := xs.any fun (x, _) => match x with | .inf _ => true | _ => false
  let zero := xs.any fun (x, _) => isZero x
  if xs.any fun (x, _) => match x with | .nan _ => true | _ => false then .nan
  else if inf && zero then .invalid
  else if inf then .inf neg
  else if zero then .zero neg
  else
    let (n, e) := xs.foldl (fun (a : Nat × Int) (x, r) => match x with | .fin _ m e => if r then a else (a.1 * m, a.2 + e) | _ => a) (1, 0)
    .num neg n e (xs.any (·.2))
where isZero : FV → Bool | .fin _ m _ => decide (m = 0) | _ => false

/-- A sum of dyadic numbers. -/
def addDy (a b : Int × Int) : Int × Int := let g := min a.2 b.2; (a.1 * 2 ^ (a.2 - g).toNat + b.1 * 2 ^ (b.2 - g).toNat, g)
/-- Round `a + r * sqrt c` by RNE, c a nonnegative dyadic: exactly where the root is rational, else from enough bits of it. -/
def roundRoot (ftz : Bool) (a r c : Int × Int) : Nat × Flags :=
  -- d = r^2 c, with an even exponent
  let d0 : Nat := r.1.natAbs * r.1.natAbs * c.1.natAbs
  let de0 : Int := 2 * r.2 + c.2
  let (d, de) := if de0 % 2 = 0 then (d0, de0) else (2 * d0, de0 - 1)
  let q := isqrt d
  if q * q = d then
    let x := addDy a ((if r.1 < 0 then -(q : Int) else q), de / 2)
    if x.1 = 0 then (0, 0) else roundMag fp32 .rne ftz (decide (x.1 < 0)) x.1.natAbs x.2 false
  else
    let g := min (2 * a.2) de
    let big : Int := max ((Nat.log2 a.1.natAbs : Nat) + a.2) ((Nat.log2 d : Nat) / 2 + de / 2 + 1) + 2
    let k : Int := max (max (-a.2) (-(de / 2))) (40 - g + big)
    let k : Int := max k 0
    let am : Int := a.1 * 2 ^ (a.2 + k).toNat
    let s : Int := (isqrt (d * 2 ^ (de + 2 * k).toNat) : Nat)
    -- the value lies strictly between `lo` and `lo + 1` over 2^k
    let lo := if r.1 < 0 then am - s - 1 else am + s
    if lo < 0 then roundMag fp32 .rne ftz true (-lo - 1).toNat (-k) true else roundMag fp32 .rne ftz false lo.toNat (-k) true

/-- One plane: the terms' sum in the extended reals, rounded once (R158). `c` is the value under the square root of the rooted
terms. A product 0 times infinity or opposite infinities raise NV, also beside a NaN source. -/
def plane (ctl : Ctl) (c : Int × Int) (terms : List (List Factor)) : Nat × Flags :=
  let srcs := terms.flatten.filterMap Factor.src
  let order := (srcs.map (·.1)).foldl insertSlot []
  let imgs := order.filterMap fun p => (srcs.find? fun x => decide (x.1 = p)).map fun x => (fp32, x.2)
  let ps := terms.map (prodOf ctl.ftz)
  let pinf := ps.any fun p => decide (p = .inf false)
  let ninf := ps.any fun p => decide (p = .inf true)
  let bad := (pinf && ninf) || ps.any fun p => decide (p = .invalid)
  let sig := imgs.any fun (F, x) => isSignalling F x
  if imgs.any fun (F, x) => isNaN F x then (nanOut fp32 ctl.prop imgs, if sig || bad then fNV else 0)
  else if bad then (nanOut fp32 ctl.prop [], fNV)
  else if pinf then (fp32.inf false, 0)
  else if ninf then (fp32.inf true, 0)
  else
    let add := fun (rooted : Bool) => ps.foldl (fun (x : Int × Int) p => match p with
      | .num n m e r => if r = rooted then addDy x ((if n then -(m : Int) else m), e) else x
      | _ => x) ((0 : Int), (0 : Int))
    if ps.any fun p => match p with | .num .. => true | _ => false then roundRoot ctl.ftz (add false) (add true) c
    else (fp32.zero (ps.all fun p => decide (p = .zero true)), 0)

/-! ### Correlation (R157) -/

def oneFV (neg : Bool) : FV := .fin neg 1 0
/-- ρ of the effective mode; a zero ρ is none. -/
def rhoOf (t : Thread) (o : Option Cov) : Option FV :=
  let mode := match o with
    | some .ind => 0
    | some .cor => 1
    | some .ant => 2
    | some .expl => 3
    | none => bits t.momctl.toNat 0 2
  match mode with
  | 0 => none
  | 1 => some (oneFV false)
  | 2 => some (oneFV true)
  | _ =>
    match srcF fp32 (ctlOf t.fpctl).ftz t.momrho.toNat with
    | .nan _ => none
    | .inf n => some (oneFV n)
    | .fin n m e => if m = 0 then none else if 0 ≤ (Nat.log2 m : Nat) + e then some (oneFV n) else some (.fin n m e)
/-- `1 + ρ^2`. -/
def onePlusSq (r : Option FV) : FV :=
  match r with
  | some (.fin _ m e) =>
    let x := addDy (1, 0) ((m * m : Nat), 2 * e)
    .fin false x.1.natAbs x.2
  | _ => oneFV false
def twoFV (neg : Bool) : FV := .fin neg 1 1
/-- The product of two variances as a dyadic; 0 where one is no number. -/
def underRoot (ftz : Bool) (va vb : Nat) : Int × Int :=
  match srcF fp32 ftz va, srcF fp32 ftz vb with
  | .fin _ m1 e1, .fin _ m2 e2 => ((m1 * m2 : Nat), e1 + e2)
  | _, _ => (0, 0)

/-! ### The words (R162, R163) -/

/-- The check of R152 on the m sources, then the two planes. -/
def runPlanes (s : State) (x : MWord) (ms : Nat) (f : Ctl → Thread → List Nat → (Nat × Flags) × (Nat × Flags)) : Out :=
  runM s x fun t vs =>
    if (vs.take ms).any negVar then trapL cNegvar vs
    else
      let (mean, var) := f (ctlOf t.fpctl) t vs
      .ok (writeMom t mean var)
def negF (neg : Bool) (img : Nat) : Nat := if neg then withFlip img else img
where withFlip (x : Nat) : Nat := if x < 2 ^ 31 then x + 2 ^ 31 else x - 2 ^ 31
/-- The place of a source value in the order of R158: mean before variance, field by field. -/
def mv (n img : Nat) : Factor := .val (2 * n) (meanOf img)
def vv (n img : Nat) : Factor := .val (2 * n + 1) (varOf img)
def rv (n img : Nat) : Factor := .root (2 * n + 1) (varOf img)

def addPlanes (sub : Bool) (o : Option Cov) (c : Ctl) (t : Thread) (vs : List Nat) : (Nat × Flags) × (Nat × Flags) :=
  let a := arg vs 0
  let b := arg vs 1
  let q := underRoot c.ftz (varOf a) (varOf b)
  let cross := match rhoOf t o with | none => [] | some r => [[.const (twoFV sub), .const r, rv 0 a, rv 1 b]]
  (plane c q [[mv 0 a], if sub then [.const (oneFV true), mv 1 b] else [mv 1 b]], plane c q ([[vv 0 a], [vv 1 b]] ++ cross))
def execMadd (g : Guard) (m : Nat) (a b : MSrc) (o : Option Cov) (s : State) : Out :=
  runPlanes s { g := g, d := .m m, srcs := [.m a, .m b] } 2 (addPlanes false o)
def execMsub (g : Guard) (m : Nat) (a b : MSrc) (o : Option Cov) (s : State) : Out :=
  runPlanes s { g := g, d := .m m, srcs := [.m a, .m b] } 2 (addPlanes true o)
/-- The terms of a product's mean and of P(a, b, ρ). -/
def mulTerms (o : Option Cov) (t : Thread) (a b : Nat) : List (List Factor) × List (List Factor) :=
  let r := rhoOf t o
  let mean := match r with | none => [] | some r => [[.const r, rv 0 a, rv 1 b]]
  let var := match r with | none => [] | some r => [[.const (twoFV false), .const r, mv 0 a, mv 1 b, rv 0 a, rv 1 b]]
  ([[mv 0 a, mv 1 b]] ++ mean,
   [[mv 0 a, mv 0 a, vv 1 b], [mv 1 b, mv 1 b, vv 0 a], [vv 0 a, vv 1 b, .const (onePlusSq r)]] ++ var)
def execMmul (g : Guard) (m : Nat) (a b : MSrc) (o : Option Cov) (s : State) : Out :=
  runPlanes s { g := g, d := .m m, srcs := [.m a, .m b] } 2 fun c t vs =>
    let (me, va) := mulTerms o t (arg vs 0) (arg vs 1)
    let q := underRoot c.ftz (varOf (arg vs 0)) (varOf (arg vs 1))
    (plane c q me, plane c q va)
def execMfma (g : Guard) (m : Nat) (a : MSrc) (b c : Nat) (o : Option Cov) (s : State) : Out :=
  runPlanes s { g := g, d := .m m, srcs := [.m a, .m { m := b }, .m { m := c }] } 3 fun ctl t vs =>
    let (me, va) := mulTerms o t (arg vs 0) (arg vs 1)
    let q := underRoot ctl.ftz (varOf (arg vs 0)) (varOf (arg vs 1))
    (plane ctl q (me ++ [[mv 2 (arg vs 2)]]), plane ctl q (va ++ [[vv 2 (arg vs 2)]]))
def execMscl (g : Guard) (m : Nat) (a : MSrc) (b : Src) (s : State) : Out :=
  runPlanes s { g := g, d := .m m, srcs := [.m a, .s b] } 1 fun c _ vs =>
    let k : Factor := .val 2 (arg vs 1)
    (plane c (0, 0) [[mv 0 (arg vs 0), k]], plane c (0, 0) [[vv 0 (arg vs 0), k, k]])

def execMset (g : Guard) (m : Nat) (a b : Src) (s : State) : Out :=
  runM s { g := g, d := .m m, srcs := [.s a, .s b] } fun t vs =>
    if negImage (arg vs 1) then trapL cNegvar vs
    else .ok (arg vs 0 + 2 ^ 32 * (if arg vs 1 = 2 ^ 31 then 0 else arg vs 1), t.flags 0)
def execMsetDet (g : Guard) (m : Nat) (a : Src) (s : State) : Out :=
  runM s { g := g, d := .m m, srcs := [.s a] } fun t vs => .ok (arg vs 0, t.flags 0)
def execMsplit (g : Guard) (d : Code) (a : MSrc) (s : State) : Out :=
  runM s { g := g, d := .code d true, srcs := [.m a] } fun t vs => .ok (arg vs 0, t.flags 0)
def execMmov (g : Guard) (m : Nat) (a : MSrc) (s : State) : Out :=
  runM s { g := g, d := .m m, srcs := [.m a] } fun t vs => .ok (arg vs 0, t.flags 0)
def execMzero (g : Guard) (m : Nat) (s : State) : Out :=
  runM s { g := g, d := .m m, srcs := [] } fun t _ => .ok (0, t.flags 0)
def execMchk (g : Guard) (p : Nat) (a : MSrc) (s : State) : Out :=
  runM s { g := g, d := .p p, srcs := [.m a] } fun t vs =>
    if negVar (arg vs 0) then trapL cNegvar vs
    else .ok (encBool (decide (expField fp32 (meanOf (arg vs 0)) ≠ 255 ∧ expField fp32 (varOf (arg vs 0)) ≠ 255)), t.flags 0)

/-- The value of an FP16 constant as a factor. -/
def halfConst (k : Nat) (neg : Bool) : Factor :=
  .const (match decodeF fp16 k with | .fin n m e => .fin (n != neg) m e | x => x)
/-- MCOL (R168). -/
def mcolOut (c : Ctl) (mode : Col) (vs : List Nat) : Nat × Flags :=
  let x := arg vs 0
  let q := underRoot c.ftz (varOf x) 0x3F800000
  match mode with
  | .mean => (meanOf x, 0)
  | .var => (varOf x, 0)
  | .std => plane c q [[rv 0 x]]
  | .upper k => plane c q [[mv 0 x], [halfConst k false, rv 0 x]]
  | .lower k => plane c q [[mv 0 x], [halfConst k true, rv 0 x]]
  | .sample _ => plane c q [[mv 0 x], [.val 2 (arg vs 1), rv 0 x]]
def execMcol (g : Guard) (d : Code) (a : MSrc) (mode : Col) (s : State) : Out :=
  let z := match mode with | .sample n => [MField.s { code := .v n }] | _ => []
  runM s { g := g, d := .code d false, srcs := .m a :: z } fun t vs =>
    if negVar (arg vs 0) then trapL cNegvar vs
    else
      let (y, fl) := mcolOut (ctlOf t.fpctl) mode vs
      .ok (y, t.flags fl)

/-! ### The bounded words (R164-R167, R170; log entry 11) -/

/-- A plane inside its bound: the free value where it lies there and `ok` takes it, else the exact value rounded. `ex`: `x` is the value
itself. The flags are those of the value written: NX where it is not the exact one, UF with it below the normal range, OF and NX on
overflow. -/
def chooseM (ftz : Bool) (b : Bound) (ok : Nat → Bool) (free : BitVec 32) (x : Real') (ex : Bool) : Nat × Flags :=
  let r := if x.n = 0 then (0, 0) else roundMag fp32 .rne ftz x.neg x.n x.e (!ex)
  if expField fp32 r.1 = 255 then r
  else
    let y := free.toNat
    let z := if inBound fp32 b (decodeF fp32 y) x && !(ftz && isDenormal fp32 y) && ok y then y else r.1
    if ex && z = r.1 then (z, r.2) else (z, if expField fp32 z = 0 then fUF ||| fNX else fNX)
/-- A plane that nothing but its bound limits. -/
def anyImg : Nat → Bool := fun _ => true
/-- The range of MSIGM's mean, and of its variance before R153: not above 0.25 (R167). -/
def unitImg (y : Nat) : Bool := decide (y ≤ 0x3F800000)
def quarterImg (y : Nat) : Bool := decide (y ≤ 0x3E800000 ∨ 2 ^ 31 ≤ y)
/-- A row of the special cases: both planes with their flags. -/
abbrev Row := Option ((Nat × Flags) × (Nat × Flags))
def infImg : Nat := 0x7F800000
/-- The first two rows that all three tables share. -/
def nanRow (c : Ctl) (mu v : Nat) : Row :=
  if isNaN fp32 mu || isNaN fp32 v then
    let fl := if isSignalling fp32 mu || isSignalling fp32 v then fNV else 0
    let n := nanOut fp32 c.prop [(fp32, mu), (fp32, v)]
    some ((n, fl), (n, fl))
  else none
def nvRow : (Nat × Flags) × (Nat × Flags) := ((fp32.canon, fNV), (fp32.canon, 0))
def dy (x : FV) : Int × Int := match x with | .fin n m e => ((if n then -(m : Int) else m), e) | _ => (0, 0)
def toFxDy (x : Int × Int) : Int := toFx fxP (decide (x.1 < 0)) x.1.natAbs x.2
/-- A value of FV kinds as the tables ask: infinite, zero. -/
def isInf : FV → Bool | .inf _ => true | _ => false
def isNegF : FV → Bool | .inf n => n | .fin n m _ => n && decide (m ≠ 0) | _ => false
def isNil : FV → Bool | .fin _ m _ => decide (m = 0) | _ => false
/-- √v of a positive dyadic, to 200 bits. -/
def rootOf (x : Int × Int) : Real' :=
  let k : Nat := if (x.2 - 400) % 2 = 0 then 400 else 401
  { neg := false, n := isqrt (x.1.natAbs * 2 ^ k), e := (x.2 - k) / 2 }
def scaleReal (r : Real') (h : Int) : Real' := { neg := decide (h < 0), n := r.n * h.natAbs, e := r.e - fxP }

def mreluOut (c : Ctl) (img : Nat) : (Nat × Flags) × (Nat × Flags) :=
  let mu := meanOf img
  let v := varOf img
  let x := srcF fp32 c.ftz mu
  let y := srcF fp32 c.ftz v
  match nanRow c mu v with
  | some r => r
  | none =>
    if isNil y then ((if isNegF x || isNil x then 0 else mu, 0), (0, 0))
    else if isInf x && isNegF x && isInf y then nvRow
    else if isInf x then (if isNegF x then ((0, 0), (0, 0)) else ((infImg, 0), (v, 0)))
    else if isInf y then ((infImg, 0), (infImg, 0))
    else
      let m := dy x
      let w := dy y
      let sd := rootOf w
      let img' : BitVec 64 := BitVec.ofNat 64 img
      let bm : Bound := { ulps := 2, abs := some { sd with e := sd.e - 22 } }
      let bv : Bound := { ulps := 2, abs := some { neg := false, n := w.1.natAbs, e := w.2 - 20 }, sum := true }
      let far := addDy (m.1 * m.1, 2 * m.2) (-196 * w.1, w.2)
      let (xm, xv) : Real' × Real' :=
        if 0 ≤ far.1 then
          (if m.1 < 0 then ({ neg := false, n := 1, e := -2000 }, { neg := false, n := 1, e := -2000 })
           else (justAbove m.1.natAbs m.2, justBelow w.1.natAbs w.2))
        else
          -- α² = μ² / v
          let a2 : Nat := (m.1 * m.1).natAbs * 2 ^ (2 * fxP + (2 * m.2 - w.2).toNat) / (w.1.natAbs * 2 ^ (w.2 - 2 * m.2).toNat)
          let al : Int := isqrt a2
          let al := if m.1 < 0 then -al else al
          let P := cdfFx al
          let p := phiFx al
          let h := fxMul al P + p
          (scaleReal sd h,
           let q := fxMul (fxMul al al + fxOne) P + fxMul al p - fxMul h h
           { neg := decide (q < 0), n := w.1.natAbs * q.natAbs, e := w.2 - fxP })
      (chooseM c.ftz bm anyImg (Config.mreluMean img' c.ftz) xm false, chooseM c.ftz bv anyImg (Config.mreluVar img' c.ftz) xv false)
def execMrelu (g : Guard) (m : Nat) (a : MSrc) (s : State) : Out :=
  runPlanes s { g := g, d := .m m, srcs := [.m a] } 1 fun c _ vs => mreluOut c (arg vs 0)

/-- exp of an exact dyadic, far values cut off where they over- or underflow. -/
def expDy (x : Int × Int) : Real' :=
  let t := addDy x (-512, 0)
  let u := addDy x (512, 0)
  let z := if 0 ≤ t.1 then 512 * fxOne else if u.1 ≤ 0 then -512 * fxOne else toFxDy x
  let r := expFx z
  ofFx r.f r.n
def mulReal (a b : Real') : Real' := { neg := a.neg != b.neg, n := a.n * b.n, e := a.e + b.e }
def mexpOut (c : Ctl) (img : Nat) : (Nat × Flags) × (Nat × Flags) :=
  let mu := meanOf img
  let v := varOf img
  let x := srcF fp32 c.ftz mu
  let y := srcF fp32 c.ftz v
  match nanRow c mu v with
  | some r => r
  | none =>
    if isInf x && isNegF x && isInf y then nvRow
    else if isNil x && isNil y then ((0x3F800000, 0), (0, 0))
    else if isInf x then (if isNegF x then ((0, 0), (0, 0)) else ((infImg, 0), (if isNil y then 0 else infImg, 0)))
    else if isInf y then ((infImg, 0), (infImg, 0))
    else
      let m := dy x
      let w := dy y
      let img' : BitVec 64 := BitVec.ofNat 64 img
      let u := addDy m (w.1, w.2 - 1)
      let mean := chooseM c.ftz { ulps := 2 } anyImg (Config.mexpMean img' c.ftz) (expDy u) (decide (u.1 = 0))
      if isNil y then (mean, (0, 0))
      else
        let one := addDy w (-1, 0)
        let xv := if one.1 ≤ 0 then
            mulReal (mulReal { neg := false, n := w.1.natAbs, e := w.2 } (ofFx (expm1Ratio (toFxDy w)) 0)) (expDy (addDy (m.1, m.2 + 1) w))
          else
            let far := addDy w (-256, 0)
            let f := if 0 ≤ far.1 then fxOne - 1 else
              let r := expFx (-(toFxDy w))
              min (fxOne - (if 0 ≤ r.n then r.f * 2 ^ r.n.toNat else r.f / 2 ^ (-r.n).toNat)) (fxOne - 1)
            mulReal (ofFx f 0) (expDy (addDy (m.1, m.2 + 1) (w.1, w.2 + 1)))
        (mean, chooseM c.ftz { ulps := 4 } anyImg (Config.mexpVar img' c.ftz) xv false)
def execMexp (g : Guard) (m : Nat) (a : MSrc) (s : State) : Out :=
  runPlanes s { g := g, d := .m m, srcs := [.m a] } 1 fun c _ vs => mexpOut c (arg vs 0)

/-- 1 / (1 + exp (-y)) at `fxP` bits, which is neither 0 nor 1. -/
def sigmoidFx (y : Int) : Int :=
  let y := satInt y (-200 * fxOne) (200 * fxOne)
  let r := expFx (-y)
  let x := if 0 ≤ r.n then r.f * 2 ^ r.n.toNat else r.f / 2 ^ (-r.n).toNat
  satInt (fxDiv fxOne (fxOne + x)) 1 (fxOne - 1)
def msigmOut (c : Ctl) (img : Nat) : (Nat × Flags) × (Nat × Flags) :=
  let mu := meanOf img
  let v := varOf img
  let x := srcF fp32 c.ftz mu
  let y := srcF fp32 c.ftz v
  match nanRow c mu v with
  | some r => r
  | none =>
    if isInf x && isInf y then nvRow
    else if isInf y then ((0x3F000000, 0), (0x3E800000, 0))
    else if isInf x then (if isNegF x then ((0, 0), (0, 0)) else ((0x3F800000, 0), (0, 0)))
    else
      let w := toFxDy (dy y)
      let kappa := fxDiv fxOne (sqrtFx (fxOne + fxMul (piFx / 2 ^ (fxPi - fxP)) w / 8))
      let p := sigmoidFx (fxMul kappa (toFxDy (dy x)))
      let img' : BitVec 64 := BitVec.ofNat 64 img
      let half := isNil x
      let bm : Bound := { ulps := 2, abs := some { neg := false, n := 1, e := -25 } }
      let bv : Bound := { ulps := 4, abs := some { neg := false, n := 1, e := -28 }, sum := true }
      let mean := chooseM c.ftz bm unitImg (Config.msigmMean img' c.ftz) (if half then { neg := false, n := 1, e := -1 } else ofFx p 0) half
      if isNil y then (mean, (0, 0))
      else (mean, chooseM c.ftz bv quarterImg (Config.msigmVar img' c.ftz) (ofFx (fxMul (fxMul p (fxOne - p)) (fxOne - kappa)) 0) false)
def execMsigm (g : Guard) (m : Nat) (a : MSrc) (s : State) : Out :=
  runPlanes s { g := g, d := .m m, srcs := [.m a] } 1 fun c _ vs => msigmOut c (arg vs 0)

end Sys2Proof.Machine
end

