-- ==== Sys2Proof/Machine/Sync.lean ====
section
/-! DEFINITION. Fences, barriers, counters, votes and shuffles of major 0x25 (R253-R263), and the releases of waiting threads. -/
namespace Sys2Proof.Machine

/-! ### FENCE (R253-R255) -/

/-- The reads of a slot that are still to be performed. -/
def pendingReads (co : Core) (i : Nat) : Bool := co.pend.any fun p => p.read && p.lanes.any fun l => decide (l.slot = i)
/-- An acquire fence: an access to no location, ordered after the reads before it (R238). -/
def addFence (c wg : Nat) (word : Word64) (scope : Nat) : List Nat → State → State
  | [], s => s
  | i :: r, s =>
    let s :=
      if pendingReads (coreOf s c) i || heardBy s c i scope then
        let (id, s) := takeSeq s
        let p : Pend := { id := id, wg := wg, kind := .load .b32, lanes := [{ slot := i, place := .die 0 0, len := 0 }], order := .free, scope := scope,
                          read := false, write := false, fence := some .acq, word := word }
        updCore s c fun co => { co with pend := co.pend ++ [p] }
      else s
    addFence c wg word scope r s
/-- What a release or SC fence waits for: every access before it that is not performed, but for those that a fence below scope device may pass,
since only happens-before shows their order to others (R237): stores, and before a release fence reads that acquire nothing; an SC
fence also waits for what its thread has read, and the SC fences before it, are to show it (R239, R242). -/
def fenceStops (s : State) (co : Core) (c i : Nat) (k : FenceKind) (scope : Nat) (early : Bool) : Bool :=
  (co.pend.any fun q => q.lanes.any (fun l => decide (l.slot = i)) &&
    !(early && decide (scope < 5) && q.fence.isNone && !q.acquires && (decide (k = .rel) || !q.read))) ||
  (decide (k = .sc) && (heardBy s c i scope || s.notes.any fun x => decide (x.at' = .scFence) && x.reaches s (agentOf s c i) scope))
/-- A fence that passes accesses still in flight notes them, and gives SC stores among them their place (R239, R242). -/
def noteFence (s : State) (co : Core) (c i : Nat) (k : FenceKind) (scope : Nat) : State :=
  let who := agentOf s c i
  let mine := co.pend.filter fun q => q.lanes.any fun l => decide (l.slot = i)
  let note := fun (a : NoteAt) => ({ at' := a, who := who, scope := scope, ids := mine.map (·.id) } : Note)
  let placed := (mine.filter fun q => q.write && decide (q.order = .sc)).flatMap fun q =>
    (q.lanes.filter fun x => decide (x.slot = i)).map fun x =>
      ({ at' := .scStore x.place x.len, who := who, scope := q.scope, ids := [q.id] } : Note)
  { s with notes := s.notes.filter (·.live s) ++ [note (.fenced c i)] ++ (if k = .sc then note .scFence :: placed else []) }
/-- FENCE. At scope device and system a release writes back the executing lane's workgroup, once for the batch, and a failure is every lane's
(R255). -/
def execFence (g : Guard) (k : FenceKind) (scope : Nat) (s : State) : Out :=
  let lane : Lane := fun e s i t =>
    if 6 < scope then trapE cScope
    else if k = .acq then .ok ({ t := t }, s)
    else if fenceStops s e.co e.c i k scope false then
      let (n, s) := takeFresh s
      if fenceStops s e.co e.c i k scope true || !Config.early n then .error .stall else .ok ({ t := t }, noteFence s e.co e.c i k scope)
    else if 5 ≤ scope then do
      let j := (regionLane e g).getD i
      wbLane e s (e.thread j) t none true (decide (j = i))
      return ({ t := t }, s)
    else .ok ({ t := t }, s)
  issueWord s { g := g } lane fun e oks s => if k = .acq then addFence e.c e.base e.word scope (oks.map (·.1)) s else s

/-! ### Named barriers (R256-R258) -/

def barWord (w : WG) (b : Nat) : Nat := (rget 0 w.bars b).toNat
def barPhase (w : WG) (b : Nat) : Nat := bits (barWord w b) 0 1
def barPend (w : WG) (b : Nat) : Nat := bits (barWord w b) 1 14
def barExp (w : WG) (b : Nat) : Nat := bits (barWord w b) 15 14
def mkBar (e p ph : Nat) : Word := BitVec.ofNat 32 (ph + 2 * p + 2 ^ 15 * e)
/-- Waiters of a barrier whose phase has changed: their wait is over (R257). -/
def readyBar (co : Core) (base b : Nat) : Core :=
  { co with threads := co.threads.map fun (i, t) => if decide (t.wait = .bar b) && decide (wgKey co i = some base) then (i, { t with wait := .ready }) else (i, t) }
/-- One arrival. -/
def arriveBar (co : Core) (base b : Nat) : Core :=
  match get? co.wgs base with
  | none => co
  | some w =>
    if barPend w b = 1 then readyBar (updWG co base fun w => { w with bars := rput 0 w.bars b (mkBar (barExp w b) (barExp w b) (1 - barPhase w b)) }) base b
    else updWG co base fun w => { w with bars := rput 0 w.bars b (mkBar (barExp w b) (barPend w b - 1) (barPhase w b)) }
/-- The barrier a lane names: BOUNDS beyond the kernel's count. -/
def barOf (e : Env) (i : Nat) (t : Thread) (b : Src) : L Nat := do
  let x ← readSrc e i t b false
  return x.x
def barSpec (g : Guard) (l : List Src) (d : Code) : WordSpec :=
  { g := g
    regs := codeRegs d false ++ l.flatMap fun x => srcRegs x false
    perms := l.map fun x => x.perm
    crew := l.any srcCrewy
    pops := l.flatMap srcPops
    srcs := srcVals (l.map fun x => (x, false)) }

/-- BARINIT: once per batch, from the executing lane. -/
def execBarinit (g : Guard) (b n : Src) (s : State) : Out :=
  issueWord s { barSpec g [b, n] .zero with
                once := some fun e i o s => updCore s e.c fun co => updWG co (e.wgBase (e.thread i)) fun w =>
                  { w with bars := rput 0 w.bars (o.out / 2 ^ 14) (mkBar (o.out % 2 ^ 14) (o.out % 2 ^ 14) (barPhase w (o.out / 2 ^ 14))) } }
    (pureLane fun e i t => do
      let x ← barOf e i t b
      let y ← readSrc e i t n false
      if firstLane e g false ≠ some i then return { t := t }
      else if (e.wg t).kern.nbar ≤ x ∨ y.x < 1 ∨ 8192 < y.x then trapL cBounds [x, y.x]
      else return { t := t, out := x * 2 ^ 14 + y.x }) noPost

/-- BARR: each lane arrives in ascending slot. Its arrival is a release: the thread's accesses are performed first (R258). -/
def execBarr (g : Guard) (d : Code) (b : Src) (s : State) : Out :=
  issueWord s (barSpec g [b] d) (fun e s i t => do
    let x ← barOf e i t b
    let r ← destOf e t d false
    let w := (get? (coreOf s e.c).wgs (e.wgBase t)).getD e.w
    if w.kern.nbar ≤ x ∨ barExp w x = 0 then trapL cBounds [x]
    else if lanesBusy e [i] then .error .stall
    else return ({ t := r.put t false (barPhase w x), out := barPhase w x }, updCore s e.c fun co => arriveBar co (e.wgBase t) x)) noPost
/-- BARW: wait while the phase is the one named. -/
def execBarw (g : Guard) (b ph : Src) (s : State) : Out :=
  issueWord s (barSpec g [b, ph] .zero) (pureLane fun e i t => do
    let x ← barOf e i t b
    let y ← readSrc e i t ph false
    let w := e.wg t
    if w.kern.nbar ≤ x then trapL cBounds [x, y.x]
    else if barPhase w x = y.x % 2 then .error (.hold (.bar x) .barrier .none none)
    else return { t := t }) noPost

/-- The arrivals of the lanes of a BARS, in ascending slot; each lane's barrier with the phase it arrived in. -/
def barsPlan (e : Env) (b : Src) : Core → List Nat → Core × List (Nat × Nat × Nat)
  | co, [] => (co, [])
  | co, i :: r =>
    let t := e.thread i
    match barOf e i t b, get? co.wgs (e.wgBase t) with
    | .ok x, some w =>
      if w.kern.nbar ≤ x ∨ barExp w x = 0 then barsPlan e b co r
      else
        let (co', l) := barsPlan e b (arriveBar co (e.wgBase t) x) r
        (co', (i, x, barPhase w x) :: l)
    | _, _ => barsPlan e b co r
/-- BARS: BARR with the phase kept internally, then BARW with that phase. -/
def execBars (g : Guard) (b : Src) (s : State) : Out :=
  issueWord s (barSpec g [b] .zero) (pureLane fun e i t => do
    let x ← barOf e i t b
    let w := e.wg t
    if w.kern.nbar ≤ x ∨ barExp w x = 0 then trapL cBounds [x]
    else if lanesBusy e [i] then .error .stall
    else
      let (co, plan) := barsPlan e b e.co (liveOf e g false)
      match plan.find? fun y => decide (y.1 = i) with
      | none => return { t := t }
      | some (_, y, ph) =>
        let w' := (get? co.wgs (e.wgBase t)).getD w
        if barPhase w' y = ph then .error (.hold (.bar y) .barrier .none none) else return { t := t }) fun e _ s =>
    let l := (barsPlan e b e.co (liveOf e g false)).2
    updCore s e.c fun co => l.foldl (fun co (i, x, _) => arriveBar co (e.wgBase (e.thread i)) x) co

/-! ### Phase-bit barriers (R259, R260) -/

def phSpace (k : PhSpace) : Space := match k with | .sp => .sp | .nw => .nw | .ds => .ds
/-- Whether a read with acquire order must wait: for accesses of its slot that it follows (R238), or for what a value that it may read releases
before it has been performed (R239). -/
def readBlocked (e : Env) (i : Nat) (p : Place) (n : Nat) : Bool :=
  (e.co.pend.any fun q => q.lanes.any fun l => decide (l.slot = i) && (q.acquires || overlap l.place l.len p n)) || notedAt e.s p n
def logVals (t : Thread) (l : L (List Nat)) : L (List Nat) := match replayOf t with | some (v, _) => .ok v | none => l
def logTries (t : Thread) : Nat := match replayOf t with | some (_, k) => k | none => 0
/-- PHARR: an atomic with order release. -/
def execPharr (g : Guard) (d : Code) (a c : Src) (spc : PhSpace) (s : State) : Out :=
  issueWord s (barSpec g [a, c] d) (fun e s i t => do
    refusedOf t 0
    let vals ← logVals t (do
      let x ← readSrc e i t a false
      let y ← readSrc e i t c false
      return [x.x, y.x])
    let r ← destOf e t d false
    let acc : Acc := { spc := phSpace spc, off := 0, n := 8, align := 8, read := true, write := true }
    let p ← placeOf e s i t acc vals false (replayOf t).isSome (logTries t)
    if lanesBusy e [i] then .error .stall
    else
      let w := readPlace s p 8
      let k := arg vals 1
      let pend := bits w 0 16
      let ph := bits w 63 1
      if k = 0 ∨ pend < k then trapL cBounds vals
      else
        let y := if pend = k then w - bits w 0 16 - ph * 2 ^ 63 + bits w 16 16 + (1 - ph) * 2 ^ 63 else w - k
        return ({ t := r.put t false ph, out := ph, acc := [{ slot := i, place := p, len := 8 }] }, writePlace s p (toBytes 8 y)))
    (fun e oks s => chargeLanes s e.c (oks.flatMap fun (_, o) => o.acc))
/-- PHWAIT: its read that finds the phase changed is an acquire. -/
def execPhwait (g : Guard) (a ph : Src) (spc : PhSpace) (s : State) : Out :=
  issueWord s (barSpec g [a, ph] .zero) (fun e s i t => do
    refusedOf t 0
    let vals ← logVals t (do
      let x ← readSrc e i t a false
      let y ← readSrc e i t ph false
      return [x.x, y.x])
    let acc : Acc := { spc := phSpace spc, off := 0, n := 8, align := 8, read := true, write := false }
    let p ← placeOf e s i t acc vals false (replayOf t).isSome (logTries t)
    if readBlocked e i p 8 then .error .stall
    else
      let one := decide (arg vals 1 % 2 = 1)
      if bits (readPlace s p 8) 63 1 = arg vals 1 % 2 then .error (.hold (.phase spc (arg vals 0) one) .barrier .none none)
      else return ({ t := t, acc := [{ slot := i, place := p, len := 8 }] }, s))
    (fun e oks s => chargeLanes s e.c (oks.flatMap fun (_, o) => o.acc))

/-! ### CWAIT (R261) -/

def condHolds (k : CCond) (x n : Word) : Bool :=
  match k with
  | .geu => decide (n.toNat ≤ x.toNat)
  | .eq => decide (x = n)
  | .ge => decide (n.toInt ≤ x.toInt)
def execCwait (g : Guard) (d : Code) (a n : Src) (spc : CSpace) (k : CCond) (s : State) : Out :=
  let wide := decide (spc = .g)
  let spec : WordSpec := { g := g, regs := codeRegs d false ++ srcRegs a wide ++ srcRegs n false, perms := [a.perm, n.perm],
                           crew := srcCrewy a || srcCrewy n, pops := srcPops a ++ srcPops n, srcs := srcVals [(a, wide), (n, false)] }
  issueWord s spec (fun e s i t => do
    refusedOf t 0
    match t.resume with
    | .counter x => do
      let r ← destOf e t d false
      return ({ t := r.put t false x.toNat, out := x.toNat }, s)
    | _ => do
      let vals ← logVals t (do
        let x ← readSrc e i t a wide
        let y ← readSrc e i t n false
        return [x.x, y.x])
      let r ← destOf e t d false
      let acc : Acc := { spc := ctrSpace spc, off := 0, n := 4, align := 4, read := true, write := false, watch := false }
      let p ← placeOf e s i t acc vals false (replayOf t).isSome (logTries t)
      if readBlocked e i p 4 || engineOwns s p || trafficHeld s (e.wg t).ctx [p] then .error .stall
      else
        let s := countTraffic (touchPlace s p) (e.wg t).ctx [(p, 4)]
        let x := BitVec.ofNat 32 (readPlace s p 4)
        let y := BitVec.ofNat 32 (arg vals 1)
        if condHolds k x y then return ({ t := r.put t false x.toNat, out := x.toNat, acc := [{ slot := i, place := p, len := 4 }] }, s)
        else .error (.hold (.count spc (arg vals 0) y k) .counter .none none))
    (fun e oks s => chargeLanes s e.c (oks.flatMap fun (_, o) => o.acc))

/-! ### VOTE and SHFX (R262, R263) -/

def voteOf (e : Env) (g : Guard) (q : Nat) (neg : Bool) : List Nat := (liveOf e g false).filter fun i => (e.thread i).getP q != neg
/-- The ballot, by crew lane. In a batch of several crews outside a COOP body, threads with one crew lane share its bit: it is set when any
of them votes (log entry 95). -/
def voteMask (e : Env) (g : Guard) (q : Nat) (neg : Bool) : Nat := (voteOf e g q neg).foldl (fun x i => x ||| 2 ^ e.lane i) 0
def execVoteAll (g : Guard) (p q : Nat) (neg : Bool) (s : State) : Out :=
  issueWord s { g := g } (pureLane fun e _ t => .ok { t := t.setP p (decide ((voteOf e g q neg).length = (liveOf e g false).length)) }) noPost
def execVoteAny (g : Guard) (p q : Nat) (neg : Bool) (s : State) : Out :=
  issueWord s { g := g } (pureLane fun e _ t => .ok { t := t.setP p (!(voteOf e g q neg).isEmpty) }) noPost
def execVoteBallot (g : Guard) (d q : Nat) (neg : Bool) (s : State) : Out :=
  issueWord s { g := g, regs := vRange d 4 } (pureLane fun e _ t =>
    if (vRange d 4).any t.pend.contains then .error .stall
    else
      let x := voteMask e g q neg
      .ok { t := (t.setPair d (x % 2 ^ 64)).setPair (d + 2) (x / 2 ^ 64) }) noPost
def execVotePopc (g : Guard) (d : Code) (q : Nat) (neg : Bool) (s : State) : Out :=
  issueWord s { g := g, regs := codeRegs d false } (pureLane fun e _ t => do
    let r ← destOf e t d false
    return { t := r.put t false (voteOf e g q neg).length }) noPost
/-- SHFX: the register read is that of the thread in lane s, which R47 checks; R263 sets no bound on its dst, so R42 and R116 hold. -/
def execShfx (g : Guard) (d : Code) (a : Nat) (b : Src) (w : Bool) (s : State) : Out :=
  let spec : WordSpec := { g := g, regs := codeRegs d w ++ (if w then vRange a 2 else [.v a]) ++ srcRegs b false, perms := [b.perm], crew := true,
                           pops := srcPops b,
                           srcs := fun e i t => do
                             let y ← readSrc e i t b false
                             return [0, y.x],
                           push := match d with | .q n => some n | _ => none
                           aff := match d with | .a n => some n | _ => none }
  issueWord s spec (pureLane fun e i t => do
    let y ← readSrc e i t b false
    let lane := y.x % 128
    let read := fun (u : Thread) => if w then readPair e u a else readV e u a
    let wide := decide (e.width ≤ lane)
    let j := i - e.lane i + lane
    let x ← (if wide then read t
             else if e.b.slots.contains j then read (if j = i then t else e.thread j) else .ok 0)
    let r ← destOf e t d w
    if r = .odd then trapL cAlign [x, y.x]
    else
      let t := r.put t w x
      return { t := if wide then { t with lwidth := t.lwidth ||| 1 } else t, out := x % 2 ^ 32 }) noPost

/-! ### Releases (R85, R95) -/

/-- A held thread goes on: it takes up `r` at its step. -/
def release (s : State) (c slot : Nat) (r : Resume) : State :=
  wake (updCore s c fun co => updThread co slot fun t => { t with resume := r }) c [slot]
/-- BARRIER_RELEASE (R257): a waiter of a completed phase passes its step. -/
def execBarrierRelease (core slot : Nat) (s : State) : Out :=
  let co := coreOf s core
  match get? co.threads slot with
  | none => .next s
  | some t => if decide (t.wait = .ready ∧ heldFor co slot = some .barrier) then .next (release s core slot .passed) else .next s

/-- A held re-read: its place, or what stands in its way. -/
def rereadAt (s : State) (c slot : Nat) (t : Thread) (spc : Space) (a n : Nat) : Reach :=
  match crewOf (coreOf s c) t with
  | none => .access
  | some k => match get? (coreOf s c).wgs k.wg with
    | none => .access
    | some w => reach s c k.wg w slot t.pos.fn spc a n true false
/-- The re-read of a held word meets something: a page that it waits for, as a replay of its word, once the operand log has room (R224, R225);
a sector to fill; or what traps when the thread comes back to its word, poison among it (R231). `vals` are the word's values. -/
def rereadStop (s : State) (c slot : Nat) (t : Thread) (vals : List Nat) (x : Reach) : State :=
  match x with
  | .ok _ | .access | .memerr _ => release s c slot (.replay vals 0)
  | .fill c' b k i => wantFill s c' b k i
  | .board => s
  | .fault va _ =>
    if Config.nLog ≤ logUsed (coreOf s c) [slot] then s
    else
      let ctx := match wgOf (coreOf s c) t with | some w => w.ctx | none => 0
      let s := updCore s c fun co => updThread (unentry co [slot]) slot fun t => { t with wait := .page, resume := .replay vals 0 }
      pageFault (deposit s c [slot] t.pos (some .replay) 0 false) (clusterOf c) ctx va false (.lane c slot)
/-- The read that ends a wait is charged by what served it, as the word's own (R410). -/
def chargeRead (s : State) (c slot : Nat) (p : Place) : State :=
  match wgKey (coreOf s c) slot with | some k => chargePlaces s c k [p] | none => s
/-- PHASE_WAIT_RELEASE (R260): a waiter reads its word anew. -/
def execPhaseWaitRelease (core slot : Nat) (s : State) : Out :=
  match get? (coreOf s core).threads slot with
  | none => .next s
  | some t =>
    match t.wait with
    | .phase spc off ph =>
      match rereadAt s core slot t (phSpace spc) off 8 with
      | .ok p =>
        if placePoisoned s p 8 then .next (rereadStop s core slot t [off, encBool ph] (.ok p))
        else if bits (readPlace s p 8) 63 1 = encBool ph || notedAt s p 8 then .next s
        else .next (chargeRead (release s core slot .passed) core slot p)
      | x => .next (rereadStop s core slot t [off, encBool ph] x)
    | _ => .next s
/-- COUNTER_WAIT_RELEASE (R261): a waiter reads its word anew; a page fault of that read is replayable, and a failing one traps when
the thread comes back to its word. The read counts at its home (R30) and waits for its budget there (R312). -/
def execCounterWaitRelease (core slot : Nat) (s : State) : Out :=
  match get? (coreOf s core).threads slot with
  | none => .next s
  | some t =>
    match t.wait with
    | .count spc a n k =>
      match rereadAt s core slot t (ctrSpace spc) a 4 with
      | .ok p =>
        let ctx := match wgOf (coreOf s core) t with | some w => w.ctx | none => 0
        if placePoisoned s p 4 then .next (rereadStop s core slot t [a, n.toNat] (.ok p))
        else if engineOwns s p || trafficHeld s ctx [p] || notedAt s p 4 then .next s
        else
          let s := countTraffic (touchPlace s p) ctx [(p, 4)]
          let x := BitVec.ofNat 32 (readPlace s p 4)
          if condHolds k x n then .next (chargeRead (release s core slot (.counter x)) core slot p) else .next s
      | x => .next (rereadStop s core slot t [a, n.toNat] x)
    | _ => .next s
/-- QUEUE_RELEASE (R284, R285): the lanes of a crew batch held on a queue register go on when an entry or room is there, or raise
QUEUE_ORPHAN. -/
def execQueueRelease (core slot : Nat) (s : State) : Out :=
  let co := coreOf s core
  match get? co.threads slot with
  | none => .next s
  | some t =>
    match t.wait, crewOf co t with
    | .queue q push _ _, some k =>
      match get? co.wgs k.wg with
      | none => .next s
      | some w =>
        let x := rget {} w.queues q
        let room := decide (x.entries.length < ((w.kern.queues[q]?).map (·.depth)).getD 0)
        let orphan := !push && orphaned co k.wg w q
        let go := if push then room else !x.entries.isEmpty
        if !go && !orphan then .next s
        else
          let mates := (co.threads.filter fun (i, u) => decide (u.crew = t.crew ∧ u.pos = t.pos ∧ heldFor co i = some .queue)).map (·.1)
          if orphan then
            let hit := mates.filterMap fun i => match (threadOf co i).wait with
              | .queue q' p' word srcs => if q' = q ∧ p' = push then some (i, ({ code := cOrphan, word := word, srcs := srcs, crewb := true } : TrapInfo)) else none
              | _ => none
            let slots := hit.map (·.1)
            let s := wake s core (minus mates slots)
            .next (takeTrap (updCore s core fun co => updThreads co slots fun t => { t with wait := .none }) core (rget 0 co.lastSel slot) hit)
          else .next (wake s core mates)
    | _, _ => .next s

end Sys2Proof.Machine
end

