-- ==== Sys2Proof/Machine/Work.lean ====
section
/-! DEFINITION. Context faults and the fault log (R334, R394, R395), the end of a workgroup (R308, R329), completion counters and the
completion of a launch (R298, R299, R313). -/
namespace Sys2Proof.Machine

/-! ### Reports to the host -/

/-- The MSI-X vector of a context (R394): the function and the vector of its table. -/
def sendMsix (s : State) (ctx : Nat) : State := { s with msix := s.msix ++ [64 * ctxField s ctx 358 6 + ctx % 64] }
def updLaunch (s : State) (ctx arr : Nat) (f : Launch → Launch) : State :=
  updCtx s ctx fun x => { x with launches := x.launches.map fun l => if l.arr = arr then f l else l }
def launchAt (s : State) (ctx arr : Nat) : Option Launch := (ctxOf s ctx).launches.find? fun l => decide (l.arr = arr)
/-- A code applies to a launch (R299): its status is the highest. -/
def raiseStatus (s : State) (ctx arr code : Nat) : State := updLaunch s ctx arr fun l => { l with status := max l.status code }
/-- A context fault of a launch (R329, R334, R394). -/
def contextFault (s : State) (ctx arr : Nat) : State :=
  sendMsix (raiseStatus (updCtx s ctx fun x => { x with fault := true }) ctx arr 1) ctx
/-- A record enters the fault log, or is lost (R395). One whose slot cannot be written is lost like one without a slot (log entry 97). -/
def faultLog (s : State) (ctx : Nat) (bytes : List Byte) : State :=
  let x := ctxOf s ctx
  let slot := ctxField s ctx 128 57 + 512 * (x.flhead % 64)
  let may := match translateVA s ctx slot true with | .ok _ _ => true | _ => false
  if (x.flhead + 2 ^ 32 - x.fltail) % 2 ^ 32 = 64 || !may then updCtx s ctx fun x => { x with flovf := true }
  else sendMsix (updCtx (storeSys s ctx slot bytes) ctx fun x => { x with flhead := (x.flhead + 1) % 2 ^ 32 }) ctx
def faultLogs (s : State) (ctx : Nat) (l : List (List Byte)) : State := l.foldl (fun s b => faultLog s ctx b) s

/-! ### Trap records (R322, R416) -/

def recordVA (s : State) (co : Core) (i : Nat) : Option (WG × Nat) :=
  (get? co.threads i).bind fun t => (crewOf co t).bind fun k => (get? co.wgs k.wg).map fun w => (w, slice s w k.wg i 0)
/-- The record of a thread's trap, as the core makes it. -/
def newRecord (s : State) (c i : Nat) (x : TrapInfo) : List Byte :=
  let co := coreOf s c
  match get? co.threads i with
  | none => []
  | some t => match crewOf co t with
    | none => []
    | some k => match get? co.wgs k.wg with
      | none => []
      | some w => recordBytes s c w k.wg k i t x
/-- The record in the thread's slice, as the handler left it; made anew where it cannot be read. -/
def oldRecord (s : State) (c i : Nat) : List Byte :=
  let co := coreOf s c
  match recordVA s co i with
  | none => []
  | some (w, va) =>
    match translateVA s w.ctx va false with
    | .ok pa sn => toBytes 512 (readPlace s (.off pa sn) 512)
    | _ => match (get? co.threads i).bind (·.trap) with
      | some x => newRecord (updCore s c fun co => updThread co i fun t => { t with pos := x.pos, depth := x.base, trap := none }) c i x.info
      | none => []

/-! ### The end of a workgroup (R308) -/

def slotsOf (co : Core) (base : Nat) : List Nat :=
  (co.threads.filter fun (_, t) => match crewOf co t with | some k => decide (k.wg = base) | none => false).map (·.1)
def waiterOf (c : Nat) (slots : List Nat) (w : Waiter) : Bool :=
  match w with
  | .lane c' i | .walk c' i | .record c' i => decide (c' = c) && slots.contains i
  | _ => false
/-- Nothing waits any more for threads that have gone. -/
def dropWaits (s : State) (c : Nat) (slots : List Nat) : State :=
  { s with
    groups := s.groups.map fun (k, l) => (k, l.map fun g => { g with waiters := g.waiters.filter fun w => !waiterOf c slots w })
    ctxs := s.ctxs.map fun (x, k) => (x, { k with binds := k.binds.map fun b => { b with waiters := b.waiters.filter fun (c', i) => !(decide (c' = c) && slots.contains i) } }) }
/-- A workgroup ends: its threads end at once, its matrix words that have not read out stop, and its map slots are dropped. What it has
issued goes on; WORKGROUP_RETIRE frees its resources. -/
def endWG (s : State) (c base : Nat) : State :=
  let slots := slotsOf (coreOf s c) base
  let s := dropWaits s c slots
  updCore s c fun co =>
    let co := untrap (endThreads co slots) slots
    let co := { co with
      jobs := (co.jobs.filter fun j => decide (j.wg ≠ base) || j.read).map fun j => if j.wg = base then { j with pushes := [] } else j
      wants := co.wants.filter fun (w, _, _) => decide (w ≠ base)
      late := co.late.filter fun (i, _) => !slots.contains i }
    updWG co base fun w => { dropMaps none w with marked := true, swap := none, stopping := false, preempt := false, halts := [], single := false }
/-- RESUME.KILL (R329, R333): records go to the fault log, a context fault is reported, and the workgroup ends. -/
def killWG (s : State) (c base : Nat) (records : List (List Byte)) : State :=
  match get? (coreOf s c).wgs base with
  | none => s
  | some w => endWG (contextFault (faultLogs s w.ctx records) w.ctx w.launch) c base

/-! ### Completion counters (R298, R299) -/

/-- The counters of a launch's record, in the order of their updates. -/
def countersOf (s : State) (ctx : Nat) (rec : List Word64) : List Nat :=
  let lctr := recField rec 448 57
  let base := ctxField s ctx 0 57
  (if lctr = 0 ∨ lctr % 8 ≠ 0 then [] else [lctr]) ++
  (if base = 0 then [] else [base + 8 * recField rec 208 16, base + 0x80000 + 8 * recField rec 224 16, base + 0x100000 + 8 * recField rec 240 16])
def bumpCounter (s : State) (ctx st va : Nat) : State :=
  match translateVA s ctx va true with
  | .ok pa sn =>
    let p := Place.off pa sn
    let s := touchPlace s p
    let x := readPlace s p 8
    let s := writePlace s p (toBytes 8 ((x + 1) % 2 ^ 32 + 2 ^ 32 * max (bits x 32 8) st + 2 ^ 40 * (x / 2 ^ 40)))
    if sn then s else cleanLine s (pa / 64) true
  | _ => s
/-- An energy sum is added to its word by one atomic at scope system (R411). -/
def addOwn (s : State) (ctx va n : Nat) : State :=
  match translateVA s ctx va true with
  | .ok pa sn =>
    let p := Place.off pa sn
    let s := touchPlace s p
    let s := writePlace s p (toBytes 8 (min (readPlace s p 8 + n) (2 ^ 64 - 1)))
    if sn then s else cleanLine s (pa / 64) true
  | _ => s
/-- The first page that the counters, or the energy words that the launch still owes, wait for. -/
def counterWait (s : State) (ctx : Nat) (l : Launch) : Option Nat :=
  (l.owed.map (·.1) ++ countersOf s ctx l.record).find? fun va => decide (translateVA s ctx va true = .absent) && !l.lost.contains (va / 4096)
/-- Whether the scheduler already waits for a page of this launch. -/
def schedWaits (s : State) (ctx arr : Nat) : Bool := s.groups.any fun (_, l) => l.any fun g => g.waiters.contains (.sched ctx arr)
def schedFault (s : State) (ctx arr va : Nat) (write : Bool) : State :=
  if schedWaits s ctx arr then s
  else updLaunch (pageFault s 0 ctx va write (.sched ctx arr)) ctx arr fun l => { l with asked := some (va / 4096) }
/-- A launch completes: the energy that it owes is added and its counters are updated, unless a page is still to come (log entries 33 and 116). What it still holds of die scratchpads
is free (R302). -/
def completeLaunch (s : State) (ctx arr : Nat) : State :=
  match launchAt s ctx arr with
  | none => s
  | some l =>
    if l.state = .complete then s
    else match counterWait s ctx l with
      | some va => schedFault s ctx arr va true
      | none =>
        let s := l.owed.foldl (fun s (va, n) => addOwn s ctx va n) s
        let s := (countersOf s ctx l.record).foldl (fun s va => bumpCounter s ctx l.status va) s
        let s := { s with dieAllocs := s.dieAllocs.filter fun d => !decide (d.ctx = ctx ∧ d.launch = arr) }
        updLaunch s ctx arr fun l => { l with state := .complete, unplaced := [], owed := [] }
/-- A launch completes when no workgroup of it is left (R313). -/
def tryComplete (s : State) (ctx arr : Nat) : State :=
  match launchAt s ctx arr with
  | none => s
  | some l => if l.state = .eligible ∧ l.unplaced = [] ∧ l.live = 0 then completeLaunch s ctx arr else s
/-- A launch ends before it places anything, with a status (R297, R300, R303, R308). -/
def finishLaunch (s : State) (ctx arr code : Nat) : State :=
  completeLaunch (updLaunch s ctx arr fun l => { l with state := .eligible, status := max l.status code, unplaced := [] }) ctx arr

/-! ### Energy and the RETIRE record (R411) -/

/-- A workgroup's energy reaches its launch's word, or is owed while the page is absent: the launch then completes after it (log entry 116). -/
def retireRecord (s : State) (c ctx : Nat) (w : WG) : State :=
  let id := launchIdOf s ctx w.launch
  let va := (ctxOf s ctx).enrbase.toNat + 8 * id
  let s := if (ctxOf s ctx).enrbase = 0 then s
    else if translateVA s ctx va true = .absent then updLaunch s ctx w.launch fun l => { l with owed := l.owed ++ [(va, w.energy.toNat)] }
    else addOwn s ctx va w.energy.toNat
  let n := fun (k : Nat) => min (rget 0 w.counts k) 0xFFFFFFFF
  emitTrace s c ctx 7 0 (pieceAt 0 64 w.energy.toNat + pieceAt 64 32 w.id + pieceAt 96 16 id)
    [toBytes 32 ((List.range 6).foldl (fun x k => x + pieceAt (32 * k) 32 (n k)) 0)]

/-! ### Resources (R302, R366) -/

/-- The code lines that a kernel's pin list names, in order. -/
def pinLines (s : State) (ctx : Nat) (k : Kernel) : List Nat :=
  if !k.pin then []
  else match k.roles with
    | [] => []
    | r :: _ => match fnOf s ctx r.entry with
      | none => []
      | some f => (List.range k.pincnt).flatMap fun i =>
          match fetchVA s ctx (f.seg + k.pinoff + 8 * i) 8 with
          | .ok x => (match fnOf s ctx (bits x 0 16) with
            | some g => (List.range (bits x 40 8)).map fun j => g.code / 64 + bits x 16 24 + j
            | none => [])
          | _ => []
/-- The lines that a kernel pinned stay pinned while a workgroup of it is on the core. -/
def unpin (co : Core) (ctx kern : Nat) : Core :=
  if co.wgs.any fun (_, w) => decide (w.ctx = ctx ∧ w.kern.va = kern) then co
  else { co with pins := co.pins.filter fun (x, k, _) => decide (x ≠ ctx ∨ k ≠ kern) }
/-- A workgroup's slots, crews, tiles and pins are free. -/
def freeCore (s : State) (c base : Nat) : State :=
  match get? (coreOf s c).wgs base with
  | none => s
  | some w =>
    updCore s c fun co =>
      let slots := slotsOf co base
      let co := endThreads co slots
      let crews := co.crews.filter fun (_, k) => decide (k.wg ≠ base)
      let co := { co with wgs := del co.wgs base, crews := crews, tiles := if w.kern.matrix then [] else co.tiles,
                          wants := co.wants.filter fun (b, _, _) => decide (b ≠ base) }
      unpin co w.ctx w.kern.va
/-- One workgroup of a launch on a die less. Its allocation goes when the last one there retires; a pre-emption that discards the last leaves
it (R302). -/
def leaveDie (s : State) (ctx arr die : Nat) (retired : Bool) : State :=
  { s with dieAllocs := s.dieAllocs.filterMap fun d =>
      if d.ctx = ctx ∧ d.launch = arr ∧ d.die = die then (if retired && decide (d.users ≤ 1) then none else some { d with users := d.users - 1 }) else some d }
/-- A workgroup leaves the core for good: it retires or was ended, or it is discarded. -/
def retireWG (s : State) (c base : Nat) (retired : Bool) : State :=
  match get? (coreOf s c).wgs base with
  | none => s
  | some w =>
    let s := retireRecord s c w.ctx w
    leaveDie (freeCore s c base) w.ctx w.launch (dieOf c) retired

end Sys2Proof.Machine
end

