-- ==== Sys2Proof/Machine/Trap.lean ====
section
/-! DEFINITION. The delivery of traps: records, handler batches, double traps, halts and late engine faults (R280, R316-R321, R333-R338, R416). -/
namespace Sys2Proof.Machine

/-! ### The record write (R318, R322, R416) -/

/-- What the write of a thread's record meets: it can be made; accesses of the thread or an engine come first (R25, R318, R416); a page to wait
for; or it fails. -/
inductive RecordState where | ok | busy | wait (va : Nat) | lost (va : Nat)
deriving DecidableEq, Repr
def recordState (s : State) (co : Core) (i : Nat) : RecordState :=
  match recordVA s co i with
  | none => .lost 0
  | some (w, va) =>
    match translateVA s w.ctx va true with
    | .ok pa sn =>
      if lostPage (threadOf co i) then .lost va
      else if (List.range 8).any fun k => mustWait s co w.ctx i (.off (pa + 64 * k) sn) 64 then .busy else .ok
    | .absent => if 4 ≤ (threadOf co i).tries then .lost va else .wait va
    | _ => .lost va
def writeRecord (s : State) (c : Nat) (x : Nat × TrapInfo) : State :=
  match recordVA s (coreOf s c) x.1 with
  | some (w, va) =>
    let lines := match translateVA s w.ctx va true with | .ok pa sn => (List.range 8).map fun k => (Place.off (pa + 64 * k) sn, 64) | _ => []
    storeVA (countTraffic s w.ctx lines) w.ctx va (newRecord s c x.1 x.2)
  | none => s
def writeRecords (c : Nat) : List (Nat × TrapInfo) → State → State
  | [], s => s
  | x :: r, s => writeRecords c r (writeRecord s c x)
/-- A thread whose record's page is not there is held with reason REPLAY at the trapped position, while its group stays pending. -/
def holdRecord (s : State) (c i va : Nat) : State :=
  match recordVA s (coreOf s c) i with
  | none => s
  | some (w, _) =>
    let s := updCore s c fun co => updThread co i fun t => { t with wait := .record }
    let s := deposit s c [i] (threadOf (coreOf s c) i).pos (some .replay) 0 false
    pageFault s (clusterOf c) w.ctx va true (.record c i)
/-- A record that cannot be written ends the workgroup with ACCESS (R416). -/
def loseRecord (s : State) (c sel i va : Nat) : State :=
  let code := match recordVA s (coreOf s c) i with | some (w, va) => lostCode s w.ctx va | none => cAccess
  updCore s c fun co => { co with late := co.late ++ [(i, { code := code, sel := sel, tick := s.tick, addr := va })] }

/-! ### The stop (R316, R317) -/

def setStop (s : State) (c : Nat) (f : Stop → Stop) : State := updCore s c fun co => { co with stop := f co.stop }
/-- When no handler is pending or running any more, issue resumes 8 ticks later. -/
def restStop (s : State) (c : Nat) : State :=
  let x := (coreOf s c).stop
  if x.pending.isEmpty && x.running.isNone && x.resumeAt.isNone then setStop s c fun x => { x with resumeAt := some (now s + Config.resumeTicks) } else s
def groupLt (a b : TrapGroup) : Bool := decide ([a.tick, a.sel, a.code] < [b.tick, b.sel, b.code])
def leastGroup : List TrapGroup → Option TrapGroup
  | [] => none
  | g :: r => match leastGroup r with | none => some g | some h => if groupLt h g then some h else some g

/-- Whether a debugger takes the trap (R336, R338). -/
def debugTrap (s : State) (co : Core) (x : Nat × TrapInfo) : Bool :=
  match wgOf co (threadOf co x.1) with
  | none => false
  | some w => (ctxOf s w.ctx).dbgctl.getLsbD 0 &&
      (decide (x.2.code = cBreak ∨ x.2.code = cWatch ∨ x.2.code = cStep) || (threadOf co x.1).stepping)
/-- The handler of a slot's kernel. -/
def handlerOf (co : Core) (i : Nat) : Option Nat := (wgOf co (threadOf co i)).bind fun w => w.kern.handler
/-- The first item of each workgroup among some. -/
def firstOfWG (co : Core) (l : List (Nat × TrapInfo)) : List (Nat × (Nat × TrapInfo)) :=
  l.foldl (fun out x => match wgKey co x.1 with
    | some k => if out.any fun y => decide (y.1 = k) then out else out ++ [(k, x)]
    | none => out) []
def killFirst (c : Nat) : List (Nat × (Nat × TrapInfo)) → State → State
  | [], s => s
  | (k, x) :: r, s => killFirst c r (killWG s c k [newRecord s c x.1 x.2])
def traceTraps (c : Nat) : List (Nat × TrapInfo) → State → State
  | [], s => s
  | (i, x) :: r, s =>
    let co := coreOf s c
    match wgOf co (threadOf co i) with
    | some w => traceTraps c r (traceTrap s c w.ctx x.code i (threadOf co i).pos)
    | none => traceTraps c r s
def enterAll (co : Core) (l : List (Nat × TrapInfo)) : Core := l.foldl (fun co (i, x) => updThread co i fun t => enterTrap t x) co
/-- The trapping threads of a debug trap stand at their positions, and their workgroups stop to be saved (R337). -/
def haltGroup (s : State) (c : Nat) (g : TrapGroup) (l : List (Nat × TrapInfo)) : State :=
  if l.isEmpty then s
  else
    let s := traceTraps c (l.take 1) (writeRecords c l s)
    let heads := firstOfWG (coreOf s c) l
    updCore s c fun co =>
      let co := unentry (enterAll co l) (l.map (·.1))
      heads.foldl (fun co (k, _) =>
        let own := l.filter fun x => decide (wgKey co x.1 = some k)
        updWG co k fun w => { w with stopping := true, halts := w.halts ++ [{ g with items := own, entered := true }] }) co
/-- The handler batch of a group starts: its threads enter the handler's root (R319), and no page or binding they waited for concerns them any
more (R318). The limit counts from the trap where a record waited, else from the first word. -/
def runGroup (s : State) (c : Nat) (g : TrapGroup) (l : List (Nat × TrapInfo)) (handler : Nat) : State :=
  let waited := l.any fun x => decide (0 < (threadOf (coreOf s c) x.1).tries)
  let s := dropWaits (traceTraps c (l.take 1) (writeRecords c l s)) c (l.map (·.1))
  let s := updCore s c fun co => toWalker (enterAll co l) g.sel (l.map (·.1)) (.enter handler 0)
  setStop s c fun x => { x with running := some { g with items := l, entered := true }, since := if waited then some g.tick else none }
/-- Whether the walker still has a group of the selector to deposit: it comes before a handler batch there (R353). -/
def stillWalks (co : Core) (sel : Nat) : Bool := co.walks.any fun w => decide (w.sel = sel) && walkReady co w
/-- One pending group is delivered. -/
def deliverGroup (s : State) (c : Nat) (g : TrapGroup) : State :=
  let co := coreOf s c
  let items := g.items.filter fun x => (get? co.threads x.1).isSome
  if stillWalks co g.sel || items.any fun x => pendingReads co x.1 || decide ((threadOf co x.1).wait = .record) then s
  else
    let debug := items.filter (debugTrap s co)
    let rest := items.filter fun x => !debugTrap s co x
    let bare := rest.filter fun x => (handlerOf co x.1).isNone
    let own := rest.filter fun x => (handlerOf co x.1).isSome
    let lost := (debug ++ own).filterMap fun x => match recordState s co x.1 with | .lost va => some (x.1, va) | _ => none
    let waits := (debug ++ own).filterMap fun x => match recordState s co x.1 with | .wait va => some (x.1, va) | _ => none
    if (debug ++ own).any fun x => decide (recordState s co x.1 = .busy) then s
    else if !lost.isEmpty then lost.foldl (fun s x => loseRecord s c g.sel x.1 x.2) s
    else if !waits.isEmpty then waits.foldl (fun s x => holdRecord s c x.1 x.2) s
    else
      let s := setStop s c fun x => { x with pending := x.pending.erase g }
      let s := haltGroup s c g debug
      let s := match own with
        | [] => s
        | x :: _ => runGroup s c g own ((handlerOf co x.1).getD 0)
      restStop (killFirst c (firstOfWG co bare) s) c

/-- A trap raised in trap context (R333). -/
def doubleTrap (co : Core) : Option (Nat × TrapInfo) :=
  co.stop.pending.findSome? fun g => if g.entered then none else g.items.find? fun x => (threadOf co x.1).trap.isSome
/-- TRAP_DELIVERY (R317): a lost access or a double trap ends its workgroup; a handler batch that has ended makes way; else the first
pending group is delivered. -/
def execTrapDelivery (core : Nat) (s : State) : Out :=
  let co := coreOf s core
  match co.late with
  | (i, x) :: r =>
    let s := setCore s core { co with late := r }
    match wgKey co i with
    | none => .next s
    | some k => .next (restStop (killWG s core k [newRecord s core i x]) core)
  | [] =>
    match doubleTrap co with
    | some (i, x) =>
      match wgKey co i with
      | none => .next s
      | some k => .next (restStop (killWG s core k [oldRecord s core i, newRecord s core i x]) core)
    | none =>
      match co.stop.running with
      | some g => if g.items.isEmpty then .next (restStop (setStop s core fun x => { x with running := none }) core) else .next s
      | none =>
        match leastGroup co.stop.pending with
        | none => .next s
        | some g =>
          if g.entered then
            .next (setStop s core fun x => { x with pending := x.pending.erase g, running := some g, since := some (now s) })
          else .next (deliverGroup s core g)

/-- HANDLER_TIMEOUT (R319): a handler batch that has run too long, or waited too long for its record, ends as by RESUME.KILL. -/
def execHandlerTimeout (core : Nat) (s : State) : Out :=
  let co := coreOf s core
  match co.stop.running with
  | some g =>
    match g.items with
    | [] => .next s
    | (i, _) :: _ =>
      if co.stop.since.all fun t => decide (now s < t + Config.handlerLimit) then .next s
      else match wgKey co i with
        | none => .next s
        | some k => .next (killWG s core k [oldRecord s core i])
  | none =>
    match co.stop.pending.findSome? fun g => if g.tick + Config.handlerLimit ≤ now s then g.items.find? (fun x => decide ((threadOf co x.1).wait = .record)) else none with
    | none => .next s
    | some (i, x) =>
      match wgKey co i with
      | none => .next s
      | some k => .next (restStop (killWG s core k [newRecord s core i x]) core)

/-- ISSUE_RESUME (R317). -/
def execIssueResume (core : Nat) (s : State) : Out :=
  match (coreOf s core).stop.resumeAt with
  | some t => if t ≤ now s then .next (setStop s core fun x => { x with resumeAt := none }) else .next s
  | none => .next s

/-! ### ENGINE after issue (R280) -/

/-- Whether a late status of a command waits for a thread: it comes before the next word that the thread issues (R280). -/
def lateDue (s : State) (c i : Nat) : Bool :=
  match (get? (coreOf s c).threads i).bind fun t => (crewOf (coreOf s c) t).bind fun k => (get? (coreOf s c).wgs k.wg).map fun w => (k.wg, w) with
  | none => false
  | some (b, w) =>
    s.cores.any (fun (_, co) => co.copies.any fun x =>
      x.failed.isSome && decide (x.ctx = w.ctx ∧ x.launch = w.launch ∧ x.wid = w.id ∧ x.slot - x.wg = i - b)) ||
    s.bulks.any fun x => x.failed.isSome && decide (x.ctx = w.ctx ∧ x.launch = w.launch ∧ x.wid = w.id ∧ x.slot - x.wg = i - b)
/-- Where the issuing thread of a command is. -/
inductive Issuer where | gone | later | here (core slot : Nat)
deriving DecidableEq, Repr
def issuerOf (s : State) (ctx launch wid off : Nat) : Issuer :=
  match homeWG s ctx launch wid with
  | none => if isSaved s ctx launch wid then .later else .gone
  | some (c, k, w) =>
    let co := coreOf s c
    let i := k + off
    if (get? co.threads i).isNone then .gone
    else if w.halts.any (fun g => g.items.any fun x => decide (x.1 = i)) || co.walks.any (fun w => w.slots.contains i) ||
        co.sels.any (fun (_, x) => x.batches.any fun b => b.done.contains i || (b.job.isSome && b.slots.contains i)) ||
        co.stop.pending.any (fun g => g.items.any fun x => decide (x.1 = i)) then .later
    else .here c i
/-- The trap of a failed command, in its issuing thread, or a context fault when that has ended. -/
def lateFault (s : State) (ctx launch wid off sel st : Nat) (word : Word64) (drop : State → State) : State :=
  match issuerOf s ctx launch wid off with
  | .later => s
  | .gone => contextFault (drop s) ctx launch
  | .here c i =>
    let node := match heldFor (coreOf s c) i with | some .gather | some .refill | some .binding => true | _ => false
    takeTrap (drop s) c sel [(i, { code := cEngine, srcs := [st], word := word, late := true, atNode := node })]
/-- ENGINE_LATE_FAULT: of a command of a tensor copy unit, or of a BULK. -/
def execEngineLateFault (core id : Nat) (s : State) : Out :=
  match (coreOf s core).copies.find? fun x => decide (x.id = id) with
  | some x =>
    match x.failed with
    | none => .next s
    | some st => .next (lateFault s x.ctx x.launch x.wid (x.slot - x.wg) x.sel st x.word fun s =>
        updCore s core fun co => { co with copies := co.copies.filter fun y => decide (y.id ≠ id) })
  | none =>
    match s.bulks.find? fun x => decide (x.id = id) with
    | none => .next s
    | some x =>
      match x.failed with
      | none => .next s
      | some st => .next (lateFault s x.ctx x.launch x.wid (x.slot - x.wg) x.sel st x.word fun s =>
          { s with bulks := s.bulks.filter fun y => decide (y.id ≠ id) })

end Sys2Proof.Machine
end

