-- ==== Sys2Proof/Machine/Matrix.lean ====
section
/-! DEFINITION. The matrix unit and the accumulator tiles: majors 0x18 and 0x19 (R173-R197). -/
namespace Sys2Proof.Machine

/-! ### Tiles (R173, R174) -/

def tileKey (tile : Nat) (v : Bool) (row col : Nat) : Nat := ((tile * 2 + encBool v) * 128 + row) * 32 + col
def tileGet (co : Core) (k : Nat) : Nat := (rget 0 co.tiles k).toNat
def tilePut (t : SMap Word) (l : SMap Word) : SMap Word := l.foldl (fun t (k, x) => rput 0 t k x) t

/-! ### What a word reads and writes (R179, R185, R186) -/

def opSpace (o : OpSpace) : Space := match o with | .g => .g | .sp => .sp | .nw => .nw | .ds => .ds
/-! ### Rows in memory (R176, R180, R183, R191, R192) -/

/-- What stops a row: a trap of a lane at an address, a page that a lane waits for, or something to wait for a moment: a sector, a line, or the
next budget period at a home agent (R312). `row` is the address of the row that a page stops. -/
inductive RowStop where
  | trap (code addr : Nat)
  | page (va : Nat) (write : Bool) (row : Nat)
  | later (f : Nat × Nat × Nat × Nat)
  | board
  | owned
  | budget
deriving DecidableEq, Repr
/-- The 16-byte pieces of a row, each inside one page; `n` bytes from `a`, the row's address (R323). -/
def rowPieces (s : State) (c base : Nat) (w : WG) (slot fn : Nat) (spc : Space) (a : Int) (rd wr : Bool) : Nat → Except RowStop (List Place)
  | 0 => .ok []
  | n + 1 => do
    let l ← rowPieces s c base w slot fn spc a rd wr n
    match reach s c base w slot fn spc (a + (16 * n : Nat)) 16 rd wr with
    | .ok p => .ok (l ++ [p])
    | .access => .error (.trap cAccess (addrWord a))
    | .memerr _ => .error (.trap cMemerr (addrWord a))
    | .fault va write => .error (.page va write (addrWord a))
    | .fill c b k i => .error (.later (c, b, k, i))
    | .board => .error .board
/-- One row: its places, once it is translated and, for a read, free of poison and of an engine's claim. -/
def rowAt (s : State) (c base : Nat) (w : WG) (slot fn : Nat) (o : Operand) (addr stride : Nat) (n r : Nat) (wr : Bool) : Except RowStop (List Place) := do
  let a : Int := (addr : Int) + sextNat stride 32 * (r : Nat)
  let ps ← rowPieces s c base w slot fn (opSpace o.sp) a (!wr) wr (n / 16)
  if !wr && ps.any fun p => placePoisoned s p 16 then .error (.trap cMemerr (addrWord a))
  else if ps.any (engineOwns s) then .error .owned
  else .ok ps
def rowBits (s : State) (ps : List Place) : Nat := ofBytes (ps.flatMap fun p => toBytes 16 (readPlace s p 16))
def rowWrite (s : State) : List Place → Nat → State
  | [], _ => s
  | p :: r, x => rowWrite (writePlace s p (toBytes 16 x)) r (x / 2 ^ 128)
/-- A drain that has written all bytes of a granule clears its poison (R231): pieces written before, and those written now. -/
def settleRows (s : State) (old new : List Place) : State :=
  settlePoison s (((old ++ new).filter fun p => new.any fun q => decide (lineOf q = lineOf p)).map fun p => (p, 16, false))

/-! ### Arithmetic (R182, R183) -/

def fvNeg (x : Nat) : Nat := if x = 2 ^ 31 then 0 else x
/-- The exact sum of products rounded once to FP32 (R182): a NaN becomes 0x7FC0_0000. -/
def sumRound (ps : List Prod) : Nat :=
  let inf := fun (b : Bool) => ps.any fun p => match p with | .inf n => n == b | _ => false
  if ps.any fun p => match p with | .nan | .invalid => true | _ => false then fp32.canon
  else if inf true && inf false then fp32.canon
  else if inf true then fp32.inf true
  else if inf false then fp32.inf false
  else
    let x := ps.foldl (fun (a : Int × Int) p => match p with | .num neg n e _ => addDy a ((if neg then -(n : Int) else n), e) | _ => a) (0, 0)
    if x.1 = 0 then fp32.zero (ps.all fun p => match p with | .zero n => n | _ => false)
    else (roundMag fp32 .rne false (decide (x.1 < 0)) x.1.natAbs x.2 false).1
def prodFV (l : List FV) : Prod := prodOf false (l.map Factor.const)
/-- Element `k` of a row in a format: one value, or mean and variance. -/
def valueAt (F : Fmt) (row k : Nat) : FV := decodeF F (bits row (F.width * k) F.width)
def meanAt (row k : Nat) : FV := decodeF fp32 (bits row (64 * k) 32)
def varAt (row k : Nat) : FV := decodeF fp32 (fvNeg (bits row (64 * k + 32) 32))
/-- The products of `term_p(i, k, j)`. -/
def termOf (i : Instr) (v : Bool) (a : Nat) (b : List Nat) (k j : Nat) : List Prod :=
  let row := (b[k]?).getD 0
  match i with
  | .mma _ _ _ _ _ .bf16 => [prodFV [valueAt bf16 a k, valueAt bf16 row j]]
  | .mma _ _ _ _ _ .f16 => [prodFV [valueAt fp16 a k, valueAt fp16 row j]]
  | .mmad _ _ _ _ f =>
    let x := match f with | .bf16 => valueAt bf16 row j | .f16 => valueAt fp16 row j | .f32 => valueAt fp32 row j
    if v then [prodFV [varAt a k, x, x]] else [prodFV [meanAt a k, x]]
  | .mmam .. =>
    if v then [prodFV [varAt a k, meanAt row j, meanAt row j], prodFV [meanAt a k, meanAt a k, varAt row j], prodFV [varAt a k, varAt row j]]
    else [prodFV [meanAt a k, meanAt row j]]
  | _ => []
/-- A tile element after the word, for a row of A. -/
def accumulate (i : Instr) (v : Bool) (z a : Nat) (b : List Nat) (j : Nat) : Nat :=
  match i with
  | .mma _ _ _ _ _ (.s8 ub ua) =>
    let el := fun (u : Bool) (row k : Nat) => if u then ((bits row (8 * k) 8 : Nat) : Int) else sextNat (bits row (8 * k) 8) 8
    let x := (List.range 64).foldl (fun (x : Int) k => x + el ua a k * el ub ((b[k]?).getD 0) j) z
    (x % (2 ^ 32 : Int)).toNat
  | _ => [0, 1].foldl (fun z g => fpAdd fp32 z (sumRound ((List.range 16).flatMap fun k => termOf i v a b (16 * g + k) j))) z
/-- The planes a word writes or reads. -/
def planesOf (i : Instr) : List Bool :=
  match i with
  | .mma _ _ v .. => [v]
  | .mmad .. | .mmam .. => [false, true]
  | .zclr _ _ v both => if both then [false, true] else [v]
  | .zld _ _ v _ f | .zst _ _ v _ _ f _ => if f = .mf32 then [false, true] else [v]
  | .zrd _ _ _ v _ m => if m then [false, true] else [v]
  | .zwr _ _ v _ x => (match x with | .inl _ => [v] | .inr _ => [false, true])
  | _ => []
/-- A negative variance image in a row of moments (R183). -/
def rowNegVar (row : Nat) : Bool := (List.range 32).any fun k => decide (2 ^ 31 < bits row (64 * k + 32) 32)
def momentA (i : Instr) : Bool := match i with | .mmad .. | .mmam .. => true | _ => false
def momentB (i : Instr) : Bool := match i with | .mmam .. => true | _ => false

/-! ### Drains (R186, R187) -/

/-- The 32-bit images of a drained row, in the order of its elements. -/
def rowImages (co : Core) (i : Instr) (row : Nat) : List Nat :=
  (List.range 32).flatMap fun c => (planesOf i).map fun v => tileGet co (tileKey (jobTile i) v row c)
def narrow (D : Fmt) (x : Nat) : Nat := (convElem D fp32 rneCtl x).1
/-- A drained row as the bytes of memory, as one number. -/
def drainRow (co : Core) (i : Instr) (f : ZFmt) (row : Nat) : Nat :=
  let l := rowImages co i row
  let join := fun (n : Nat) (l : List Nat) => l.foldr (fun x acc => x + 2 ^ n * acc) 0
  match f with
  | .bf16 => join 16 (l.map (narrow bf16))
  | .f16 => join 16 (l.map (narrow fp16))
  | _ => join 32 l
/-- The largest magnitude image among a drained row's values; means only in a moment drain. -/
def rowMax (co : Core) (i : Instr) (f : ZFmt) (row : Nat) : Option Nat :=
  let l := (List.range 32).map fun c => tileGet co (tileKey (jobTile i) (if f = .mf32 then false else (planesOf i).headD false) row c) % 2 ^ 31
  l.foldl (fun m x => if isNaN fp32 x then m else match m with | none => some x | some y => some (max x y)) none
/-- The queue entries of a drain, in column order. -/
def drainEntries (co : Core) (i : Instr) (f : ZFmt) (width : Nat) (lanes : List Nat) : List (List Word) :=
  let word := fun (row e : Nat) => bits (drainRow co i f row) (32 * e) 32
  (List.range (zBytes f / 4)).map fun e => (List.range 128).map fun r =>
    if lanes.any fun l => decide (l % width = r) then BitVec.ofNat 32 (word r e) else 0

/-! ### Issue (R178, R180, R181) -/

/-- A triple: its address and its stride, with every register checked. -/
def readTriple (e : Env) (t : Thread) (o : Operand) : L (Nat × Nat) := do
  let lo ← readV e t o.n
  let hi ← readV e t (o.n + 1)
  let st ← readV e t (o.n + 2)
  return ((if o.sp = .g then lo + 2 ^ 32 * hi else lo), st)
def readAmax (e : Env) (t : Thread) (o : Operand) : L (Nat × Nat) := do
  let lo ← readV e t o.n
  let hi ← readV e t (o.n + 1)
  return ((if o.sp = .g then lo + 2 ^ 32 * hi else lo), 0)
def optTriple (rd : Operand → L (Nat × Nat)) (o : Option Operand) : L (Nat × Nat) := match o with | some o => rd o | none => .ok (0, 0)
/-- The four operand values of a lane: the addresses and strides of the lane operand and of B or AMAX. -/
def matVals (e : Env) (t : Thread) (i : Instr) : L (List Nat) := do
  let a ← optTriple (readTriple e t) ((laneOperand i).map (·.1))
  let b ← (match operandB i with
    | some (o, _, _) => readTriple e t o
    | none => optTriple (readAmax e t) (amaxOf i))
  return [a.1, a.2, b.1, b.2]
/-- ALIGN in the issuing lane: the address and stride of a triple by 16, an AMAX address by 4. -/
def matAlign (i : Instr) (vals : List Nat) : Option Nat :=
  let bad := fun (a st : Nat) => decide (a % 16 ≠ 0 ∨ st % 16 ≠ 0)
  if (laneOperand i).isSome && bad (arg vals 0) (arg vals 1) then some (arg vals 0)
  else if (operandB i).isSome && bad (arg vals 2) (arg vals 3) then some (arg vals 2)
  else if (amaxOf i).isSome && decide (arg vals 2 % 4 ≠ 0) then some (arg vals 2)
  else none
/-- ZPROG records the stop of the word `id`; the crew's other words keep the value that they go on from (R190, R191; log entry 106). -/
def recordStop (co : Core) (crew id : Nat) (x : Word) : Core :=
  let old := match get? co.crews crew with | some k => k.zprog | none => 0
  let keep := fun (y : Job) => if y.id = id then { y with zp := none } else if y.crew = crew ∧ y.zp = none then { y with zp := some old } else y
  updCrew { co with jobs := co.jobs.map keep } crew fun k => { k with zprog := x }
/-- The word `id` has read out or is passed by: a ZPROG that records it becomes 0, or that of another stopped word of the crew (R191, R192). -/
def freeZprog (co : Core) (crew id : Nat) : Core :=
  let others := co.jobs.filter fun y => decide (y.id ≠ id ∧ y.crew = crew)
  if (co.jobs.any fun y => decide (y.id = id) && y.zp.isSome) || others.any fun y => y.held && y.zp.isNone then co
  else match others.find? fun y => y.zp.any fun z => z.getLsbD 31 with
    | some y => updCrew { co with jobs := co.jobs.map fun z => if z.id = y.id then { z with zp := none } else z } crew fun k => { k with zprog := y.zp.getD 0 }
    | none => updCrew co crew fun k => { k with zprog := 0 }
/-- The stopped word of a body's crew batch (R196): a crew may have several bodies in progress (R74). -/
def heldJob (co : Core) (crew : Nat) (slots : List Nat) : Option Job :=
  co.jobs.find? fun k => k.held && decide (k.crew = crew) && k.lanes.any slots.contains
/-- The word enters the unit and holds its batch (R189); its queue entries are owed from now (R349). A word that stood stopped takes its old
place in tile order, and goes on with the largest image it had drained. While ZPROG records another word, a new one starts from row 0 (log
entry 106). -/
def startJob (e : Env) (j : Job) (s : State) : State :=
  let (id, s) := takeSeq s
  updCore s e.c fun co =>
    let hold := fun (co : Core) (x : Nat) => mapBatch co e.sel e.b.id fun b => { b with job := some x }
    match heldJob co j.crew e.b.slots with
    | some k => hold { co with jobs := co.jobs.map fun y => if y.id = k.id then { j with id := k.id, top := k.top, zp := k.zp, drained := k.drained } else y } k.id
    | none =>
      let zp : Option Word := if co.jobs.any fun y => decide (y.crew = j.crew) && !y.read then some 0 else none
      let co := hold { co with jobs := co.jobs ++ [{ j with id := id, zp := zp }] } id
      match jobOwed j.instr with
      | some (q, n) => updWG co j.wg fun w => addOwed w q n false
      | none => co
/-- A body's word is passed by without being taken up again. -/
def passHeld (s : State) (c crew : Nat) (slots : List Nat) : State :=
  updCore s c fun co =>
    let id := match heldJob co crew slots with | some k => k.id | none => s.seq
    dropHeld (freeZprog co crew id) fun k => decide (k.id = id)
/-- A matrix word: `extra` is a lane's own check and value (a destination register, ZWR's source), and `legal` the issuing lane's. A word whose
whole set passes its step leaves ZPROG 0 (R192). -/
def runMatrix (s : State) (i : Instr) (spec : WordSpec) (extra : Env → Nat → Thread → L Nat) (legal : Env → Bool) : Out :=
  let lane : Lane := fun e s j t => do
    let own := (t.resume = .none ∨ t.resume = .passed : Bool)
    match t.resume with
    | .refused vals _ => trapA cAccess [arg vals 0, arg vals 2] (arg vals 5)
    | _ => pure ()
    let vals ← (if own then matVals e t i else logVals t (.ok []))
    let x ← extra e j t
    if firstLane e spec.g true ≠ some j then return ({ t := t, out := x }, s)
    else if !legal e then trapE cIllegal
    else match matAlign i vals with
      | some a => trapA cAlign [arg vals 0, arg vals 2] a
      | none => if lanesBusy e (liveOf e spec.g true) then .error .stall else return ({ t := t, out := x }, s)
  issueWord s { spec with crew := true, again := true, unit := true } lane fun e oks s =>
    let live := liveOf e spec.g true
    match live with
    | [] => (match e.b.slots with
      | j :: _ =>
        let crew := (e.thread j).crew
        if (passedOf e true).isEmpty && (heldJob (coreOf s e.c) crew e.b.slots).isNone then s else passHeld s e.c crew e.b.slots
      | [] => s)
    | j :: _ =>
      if oks.length ≠ live.length then s
      else
        let t := e.thread j
        let vals := match logVals t (matVals e t i) with | .ok v => v | .error _ => []
        let tries := live.foldl (fun m k => max m (logTries (e.thread k))) 0
        startJob e { id := 0, wg := e.wgBase t, crew := t.crew, sel := e.sel, batch := e.b.id, word := e.word, instr := i, lanes := live, issuer := j,
                     vals := vals.take 4, lvals := oks.map fun (_, o) => o.out, last := arg vals 4, tries := tries } s
def noExtra (_ : Env) (_ : Nat) (_ : Thread) : L Nat := .ok 0
def always (_ : Env) : Bool := true

def execMma (g : Guard) (tile : Nat) (vplane : Bool) (a b : Operand) (f : MmaFmt) (s : State) : Out :=
  runMatrix s (.mma g tile vplane a b f) { g := g, regs := vRange a.n 3 ++ vRange b.n 3 } noExtra always
def execMmad (g : Guard) (tile : Nat) (a b : Operand) (f : BFmt) (s : State) : Out :=
  runMatrix s (.mmad g tile a b f) { g := g, regs := vRange a.n 3 ++ vRange b.n 3 } noExtra always
def execMmam (g : Guard) (tile : Nat) (a b : Operand) (s : State) : Out :=
  runMatrix s (.mmam g tile a b) { g := g, regs := vRange a.n 3 ++ vRange b.n 3 } noExtra always
def execZclr (g : Guard) (tile : Nat) (vplane both : Bool) (s : State) : Out := runMatrix s (.zclr g tile vplane both) { g := g } noExtra always
def execZld (g : Guard) (tile : Nat) (vplane : Bool) (a : Operand) (f : ZFmt) (s : State) : Out :=
  runMatrix s (.zld g tile vplane a f) { g := g, regs := vRange a.n 3 } noExtra always
/-- Whether a queue register is bound for drains with the batch's role as producer (R186, R283). -/
def drainBound (e : Env) (q : Nat) : Bool :=
  match e.w.kern.queues[q]? with
  | some b => decide (b.depth ≠ 0 ∧ b.kind = .drain ∧ b.prod = e.b.role)
  | none => false
def execZst (g : Guard) (tile : Nat) (vplane : Bool) (dest : ZDest) (amax : Option Operand) (f : ZFmt) (clr : Bool) (s : State) : Out :=
  runMatrix s (.zst g tile vplane dest amax f clr)
    { g := g, regs := (match dest with | .mem o => vRange o.n 3 | .queue _ => []) ++ (match amax with | some o => vRange o.n 2 | none => []) } noExtra
    fun e => match dest with | .queue q => drainBound e q | .mem _ => true
def execZrd (g : Guard) (d tile : Nat) (vplane : Bool) (col : Nat) (m : Bool) (s : State) : Out :=
  let r : Reg := if m then .m d else .v d
  runMatrix s (.zrd g d tile vplane col m) { g := g, regs := [r] } (fun _ _ t => if t.pend.contains r then .error .stall else .ok 0) always
def execZwr (g : Guard) (tile : Nat) (vplane : Bool) (col : Nat) (src : Src ⊕ MSrc) (s : State) : Out :=
  let spec : WordSpec := match src with
    | .inl x => { g := g, regs := srcRegs x false, perms := [x.perm], pops := srcPops x, srcs := srcVals [(x, false)] }
    | .inr x => { g := g, regs := [.m x.m], perms := [x.perm] }
  runMatrix s (.zwr g tile vplane col src) spec (fun e i t => match src with
    | .inl x => do
      let v ← readSrc e i t x false
      return v.x
    | .inr x => readMSrc e i t x) always

/-! ### Read-out (R189-R192) -/

/-- The row from which a word of the crew reads (R182). -/
def startRow (k : Crew) (j : Job) : Nat :=
  if j.row ≠ 0 then j.row else
  let z := j.zp.getD k.zprog
  if z.getLsbD 31 then bits z.toNat 0 7 else 0
def zprogAt (i : Instr) (row : Nat) : Word := BitVec.ofNat 32 (2 ^ 31 + 256 * jobTile i + row)
/-- The rows of B, in order, with their places and the stop of the first that fails. -/
def readB (s : State) (c : Nat) (w : WG) (j : Job) (fn : Nat) (o : Operand) (n : Nat) : Nat → Except RowStop (List Nat × List Place)
  | 0 => .ok ([], [])
  | r + 1 => do
    let (l, q) ← readB s c w j fn o n r
    let ps ← rowAt s c j.wg w j.issuer fn o (arg j.vals 2) (arg j.vals 3) n r false
    let x := rowBits s ps
    if momentB j.instr && rowNegVar x then .error (.trap cNegvar (addrWord ((arg j.vals 2 : Int) + sextNat (arg j.vals 3) 32 * (r : Nat)))) else .ok (l ++ [x], q ++ ps)
/-- What the issuing lane checks before any row: B's rows with their places, or the AMAX word. An unsigned maximum is no PCIe AtomicOp: in
host memory it raises ACCESS (R187, R252). -/
def headRows (s : State) (c : Nat) (w : WG) (j : Job) (fn : Nat) : Except RowStop (List Nat × List Place × Option Place) :=
  match operandB j.instr with
  | some (o, rows, n) =>
    if j.row ≠ 0 then .ok (j.brows, [], none) else do
    let (l, ps) ← readB s c w j fn o n rows
    return (l, ps, none)
  | none =>
    match amaxOf j.instr with
    | none => .ok ([], [], none)
    | some o =>
      let a := arg j.vals 2
      match reach s c j.wg w j.issuer fn (opSpace o.sp) a 4 true true with
      | .ok p =>
        if (match p with | .off pa _ => isHost pa | _ => false) then .error (.trap cAccess (addrWord a))
        else if placePoisoned s p 4 then .error (.trap cMemerr (addrWord a))
        else if engineOwns s p then .error .owned
        else .ok ([], [], some p)
      | .access => .error (.trap cAccess (addrWord a))
      | .memerr va => .error (.trap cMemerr va)
      | .fault va wr => .error (.page va wr (addrWord a))
      | .fill c b k i => .error (.later (c, b, k, i))
      | .board => .error .board
/-- The lanes' rows from the start row on: those that pass, in order, with their places, and the first that does not. -/
def laneRows (s : State) (c : Nat) (w : WG) (j : Job) (fn width from0 : Nat) : List Nat → List (Nat × List Place) × Option (Nat × RowStop)
  | [] => ([], none)
  | i :: r =>
    let row := i % width
    if row < from0 then laneRows s c w j fn width from0 r
    else match laneOperand j.instr with
      | none => let (l, f) := laneRows s c w j fn width from0 r; ((i, []) :: l, f)
      | some (o, n, wr) =>
        match rowAt s c j.wg w i fn o (arg j.vals 0) (arg j.vals 1) n row wr with
        | .error x => ([], some (i, x))
        | .ok ps =>
          if momentA j.instr && rowNegVar (rowBits s ps) then
            ([], some (i, .trap cNegvar (addrWord ((arg j.vals 0 : Int) + sextNat (arg j.vals 1) 32 * (row : Nat)))))
          else let (l, f) := laneRows s c w j fn width from0 r; ((i, ps) :: l, f)
/-- An FP16 image widened exactly to FP32; a NaN keeps its payload (R185). -/
def widenHalf (x : Nat) : Nat :=
  if x / 2 ^ 10 % 32 = 31 ∧ x % 2 ^ 10 ≠ 0 then x / 2 ^ 15 * 2 ^ 31 + 0x7F800000 + x % 2 ^ 10 * 2 ^ 13 else (convElem fp32 fp16 rneCtl x).1
/-- The tile elements that a lane's row gives. -/
def rowOut (co : Core) (j : Job) (b : List Nat) (row : Nat) (x : Nat) (lval : Nat) : SMap Word :=
  let t := jobTile j.instr
  let each := fun (f : Bool → Nat → Nat) => (planesOf j.instr).flatMap fun v => (List.range 32).map fun c => (tileKey t v row c, BitVec.ofNat 32 (f v c))
  match j.instr with
  | .mma .. | .mmad .. | .mmam .. => each fun v c => accumulate j.instr v (tileGet co (tileKey t v row c)) x b c
  | .zclr .. => each fun _ _ => 0
  | .zld _ _ _ _ f => each fun v c => match f with
      | .f32 => bits x (32 * c) 32
      | .bf16 => bits x (16 * c) 16 * 65536
      | .f16 => widenHalf (bits x (16 * c) 16)
      | .mf32 => bits x (64 * c + 32 * encBool v) 32
  | .zst _ _ _ _ _ _ clr => if clr then each fun _ _ => 0 else []
  | .zwr _ _ _ col _ => (planesOf j.instr).map fun v => (tileKey t v row col, BitVec.ofNat 32 (if (planesOf j.instr).length = 2 ∧ v = true then lval / 2 ^ 32 else lval))
  | _ => []
def maxOpt : Option Nat → Option Nat → Option Nat
  | none, y => y
  | some x, some y => some (max x y)
  | some x, none => some x
/-- The largest image that the word has drained with some more rows (R187). -/
def drainTop (co : Core) (j : Job) (width : Nat) (ok : List (Nat × List Place)) : Option Nat :=
  match j.instr with
  | .zst _ _ _ _ (some _) f _ => ok.foldl (fun m (i, _) => maxOpt m (rowMax co j.instr f (i % width))) j.top
  | _ => j.top
/-- The one atomic of a drain, after every write of its word (R187, R197). -/
def mergeMax (s : State) (amax : Option Place) (top : Option Nat) : State :=
  match amax, top with
  | some p, some x => let s := touchPlace s p; writePlace s p (toBytes 4 (max (readPlace s p 4) x))
  | _, _ => s
/-- The memory writes and the register writes of the rows that read out. -/
def rowEffects (s : State) (c : Nat) (j : Job) (width : Nat) (ok : List (Nat × List Place)) : State :=
  let co := coreOf s c
  match j.instr with
  | .zst _ _ _ (.mem _) _ f _ => 
    settleRows (ok.foldl (fun s (i, ps) => rowWrite s ps (drainRow co j.instr f (i % width))) s) j.drained (ok.flatMap (·.2))
  | .zrd _ d t v col m =>
    updCore s c fun co => ok.foldl (fun co (i, _) => updThread co i fun u =>
      let x := fun (v : Bool) => tileGet co (tileKey t v (i % width) col)
      if m then u.setM d (BitVec.ofNat 64 (x false + 2 ^ 32 * x true)) else u.setV d (BitVec.ofNat 32 (x v))) co
  | _ => s
/-- The word stops at a row (R191, R192): a page holds the crew batch with its values in the log, a trap holds it until its handler ends. The
word keeps its place in tile order until it has been taken up again and has finished (R196). A range of the scoreboard holds its batch (R229);
a line that an engine owns, and a budget, let it wait in the unit. -/
def stopJob (s : State) (c : Nat) (j : Job) (lane : Nat) (x : RowStop) (row : Nat) : State :=
  let lost := match x with | .page va _ _ => decide (j.last = va ∧ 4 ≤ j.tries) | _ => false
  match x with
  | .later (c', b, k, i) => wantFill s c' b k i
  | .board => updCore s c fun co => updWG co j.wg fun w => { w with sbmark := true }
  | .owned | .budget => s
  | _ =>
    let s := updCore s c fun co => recordStop co j.crew j.id (zprogAt j.instr row)
    let co := coreOf s c
    let pos := match findBatch co j.sel j.batch with | some b => b.pos | none => {}
    let slots := match findBatch co j.sel j.batch with | some b => b.slots | none => []
    let s := updCore s c fun co => holdBody { co with jobs := co.jobs.map fun y => if y.id = j.id then { j with held := true } else y } slots
    let s := match x with
      | .page va wr at_ =>
        if lost then takeTrap s c j.sel [(lane, { code := cAccess, srcs := [arg j.vals 0, arg j.vals 2], addr := at_, word := j.word, replay := true, crewb := true })]
        else
          let tries := if j.last = va then j.tries else 0
          let keep := Resume.replay (j.vals.take 4 ++ [va, at_]) tries
          let ctx := match get? co.wgs j.wg with | some w => w.ctx | none => 0
          holdLanes s c ctx pos (j.lanes.map fun i =>
            if i = lane then (i, .page, .replay, keep, some (va, wr)) else (i, .ready, .replay, keep, none))
      | .trap code addr =>
        takeTrap s c j.sel [(lane, { code := code, srcs := [arg j.vals 0, arg j.vals 2], addr := addr, word := j.word, replay := decide (j.last ≠ 0), crewb := true })]
      | _ => s
    let s := updCore s c fun co => mapBatch co j.sel j.batch fun b => { b with job := none, done := b.slots }
    dissolve s c j.sel j.batch
/-- The word has read out: its batch goes on (R189). -/
def passJob (s : State) (c : Nat) (j : Job) : State :=
  let s := updCore s c fun co =>
    let co := freeZprog co j.crew j.id
    let here := match findBatch co j.sel j.batch with | some b => j.lanes.filter b.slots.contains | none => []
    let co := mapBatch co j.sel j.batch fun b => { b with job := none }
    advance (markDone (updThreads co here Thread.finishWord) j.sel j.batch here) j.sel j.batch
  stepTraps s c j.sel j.batch j.lanes
def queueOf (i : Instr) : Option Nat := (jobOwed i).map (·.1)
/-- One of several words that nothing orders (R414; log entry 107). -/
def anyOf (s : State) (c : Nat) (l : List Job) : Option Job :=
  match l with
  | [] => none
  | [j] => some j
  | _ => l[Config.nextWord s.tick.toNat c % l.length]?
def nextJob (s : State) (c : Nat) : Option Job := anyOf s c (mayRead (coreOf s c).jobs)
/-- Whether the operand log has no room for the word's lanes (R225). -/
def logFull (co : Core) (j : Job) (x : RowStop) : Bool :=
  match x with
  | .page va _ _ => !decide (j.last = va ∧ 4 ≤ j.tries) && decide (Config.nLog < logUsed co j.lanes + j.lanes.length)
  | _ => false
/-- The bytes that the rows move, for their homes' budgets (R30). -/
def rowTraffic (b : List Place) (ok : List (Nat × List Place)) (amax : Option Place) : List (Place × Nat) :=
  ((b ++ ok.flatMap (·.2)).map fun p => (p, 16)) ++ amax.toList.map fun p => (p, 4)
/-- How many of the rows that can read out do so now: rows in memory may come in several events (log entry 61). -/
def rowsNow (s : State) (j : Job) (rows : Nat) (failed : Bool) : Nat × State :=
  if failed || (laneOperand j.instr).isNone then (rows, s) else portion s rows
/-- A word has passed its rows `now`, and `b` are the rows of B. -/
def Job.after (j : Job) (co : Core) (width : Nat) (b : List Nat) (now : List (Nat × List Place)) : Job :=
  { j with top := drainTop co j width now, brows := b,
           drained := match j.instr with | .zst .. => j.drained ++ now.flatMap (·.2) | _ => j.drained }
def readOut (s : State) (c : Nat) (w : WG) (k : Crew) (j : Job) : State :=
  let co := coreOf s c
  let width := widthOf w.kern
  let fn := match findBatch co j.sel j.batch with | some b => b.pos.fn | none => 0
  let r0 := startRow k j
  match headRows s c w j fn with
  | .error x => stopJob s c j j.issuer (if logFull co j x then .budget else x) r0
  | .ok (b, bp, amax) =>
    let (ok, fail) := laneRows s c w j fn width r0 j.lanes
    let lval := fun (i : Nat) => ((List.zip j.lanes j.lvals).find? fun x => decide (x.1 = i)).map (·.2)
    match fail with
    | some (_, .later x) => stopJob s c j 0 (.later x) 0
    | some (_, .board) => stopJob s c j 0 .board 0
    | some (_, .owned) => stopJob s c j 0 .owned 0
    | _ =>
      if fail.any (fun x => logFull co j x.2) || trafficHeld s w.ctx ((rowTraffic bp ok amax).map (·.1)) then stopJob s c j 0 .budget 0
      else
        let (n, s) := rowsNow s j ok.length fail.isSome
        let now := ok.take n
        let out := now.flatMap fun (i, ps) => rowOut co j b (i % width) (if ps.isEmpty then 0 else rowBits s ps) ((lval i).getD 0)
        let next := ok[n]?
        let s := countTraffic (rowEffects s c j width now) w.ctx (rowTraffic bp now (if fail.isNone && next.isNone then amax else none))
        let j := j.after co width b now
        match fail, next with
        | some (i, x), _ => stopJob (updCore s c fun co => { co with tiles := tilePut co.tiles out }) c j i x (i % width)
        | none, some (i, _) =>
          updCore s c fun co => { co with tiles := tilePut co.tiles out, jobs := co.jobs.map fun y => if y.id = j.id then { j with row := i % width } else y }
        | none, none =>
          let s := mergeMax s amax j.top
          let pushes := match j.instr with | .zst _ _ _ (.queue _) _ f _ => drainEntries co j.instr f width j.lanes | _ => []
          passJob (updCore s c fun co =>
            { co with jobs := co.jobs.map fun y => if y.id = j.id then { y with read := true, out := out, pushes := pushes } else y }) c j
/-- MATRIX_READOUT (R189): a word that may reads and checks its operands, and releases its crew batch. -/
def execMatrixReadout (core : Nat) (s : State) : Out :=
  let co := coreOf s core
  match nextJob s core with
  | none => .next s
  | some j =>
    match get? co.wgs j.wg, get? co.crews j.crew with
    | some w, some k => if stopped co then .next s else .next (readOut s core w k j)
    | _, _ => .next (updCore s core fun co => { co with jobs := co.jobs.erase j })
/-- MATRIX_COMPLETE (R194): the tile of a word that has read out becomes ready; a drain to a queue pushes its entries as there is
room. -/
def execMatrixComplete (core : Nat) (s : State) : Out :=
  let co := coreOf s core
  let room := fun (j : Job) => match j.pushes, queueOf j.instr, get? co.wgs j.wg with
    | _ :: _, some q, some w => decide ((rget {} w.queues q).entries.length < ((w.kern.queues[q]?).map (·.depth)).getD 0)
    | _, _, _ => true
  match anyOf s core (co.jobs.filter fun j => j.read && room j) with
  | none => .next s
  | some j =>
    match j.pushes, queueOf j.instr with
    | x :: r, some q =>
      .next (updCore s core fun co =>
        updWG { co with jobs := co.jobs.map fun y => if y.id = j.id then { y with pushes := r } else y } j.wg fun w => addOwed (pushQueue w q x) q 1 true)
    | _, _ => .next (updCore s core fun co => { co with jobs := co.jobs.erase j, tiles := tilePut co.tiles j.out })

end Sys2Proof.Machine
end

