-- ==== Sys2Proof/Machine/Place.lean ====
section
/-! DEFINITION. Kernel headers (R363, R365), a workgroup's needs (R302, R303), placement and start (R304-R307, R366). -/
namespace Sys2Proof.Machine

/-! ### Kernel headers -/

def policyOf (x : Nat) : Policy := match x with | 0 => .fullest | 1 => .deepest | _ => .oldest
def queueKindOf (x : Nat) : QueueKind := match x with | 0 => .thread | 1 => .drain | _ => .copy
def roleOfBits (x : Nat) : RoleHdr :=
  { entry := bits x 48 16, nv := bits x 40 8, nm := bits x 32 8, crews := bits x 24 8, policy := policyOf (bits x 22 2) }
def bindOfBits (x : Nat) : QBind := { kind := queueKindOf (bits x 30 2), prod := bits x 28 2, cons := bits x 26 2, depth := bits x 0 7 }
/-- A header of 1,024 bits as a kernel. -/
def kernelOf (va x : Nat) : Kernel :=
  { va := va
    ver := bits x 56 8
    legacy := decide (bits x 52 1 = 1)
    idem := decide (bits x 51 1 = 1)
    matrix := decide (bits x 50 1 = 1)
    pin := decide (bits x 49 1 = 1)
    handler := if bits x 48 1 = 1 then some (bits x 32 16) else none
    depth := bits x 16 8
    cbslot := bits x 12 4
    nbar := bits x 0 9
    scratch := bits x 64 32
    lpriv := bits x 96 32
    dscr := bits x 160 32
    pinoff := bits x 224 32
    pincnt := bits x 192 16
    roles := (List.range (bits x 24 3)).map fun r => roleOfBits (bits x (256 + 64 * r) 64)
    queues := (List.range 16).map fun n => bindOfBits (bits x (512 + 32 * n) 32) }
/-- The rules that the loader checks of a header (R365); `own` says which functions are the object's. -/
def headerOk (own : Nat → Bool) (x : Nat) : Bool :=
  let n := bits x 24 3
  let role := fun (r : Nat) => bits x (256 + 64 * r) 64
  let q := fun (k : Nat) => bits x (512 + 32 * k) 32
  decide (bits x 208 16 = 0 ∧ bits x 128 32 = 0 ∧ bits x 53 3 = 0 ∧ bits x 27 5 = 0 ∧ bits x 9 3 = 0) &&
  decide (bits x 224 32 % 8 = 0 ∧ bits x 192 16 ≤ 4096 ∧ bits x 160 32 % 65536 = 0) &&
  decide (bits x 96 32 % 1024 = 0 ∧ 1024 ≤ bits x 96 32 ∧ bits x 96 32 ≤ 65536 ∧ bits x 64 32 % 4096 = 0) &&
  decide ((bits x 56 8 = 6 ∨ bits x 56 8 = 7) ∧ 1 ≤ n ∧ n ≤ 4 ∧ 1 ≤ bits x 16 8 ∧ bits x 16 8 ≤ 64 ∧ bits x 12 4 ≤ 8 ∧ bits x 0 9 ≤ 256) &&
  (if bits x 48 1 = 1 then own (bits x 32 16) else decide (bits x 32 16 = 0)) &&
  (List.range 4).all (fun r => if r < n then
      own (bits (role r) 48 16) && decide (1 ≤ bits (role r) 40 8 ∧ bits (role r) 40 8 ≤ 192 ∧ bits (role r) 32 8 ≤ 64 ∧
        1 ≤ bits (role r) 24 8 ∧ bits (role r) 24 8 ≤ 64 ∧ bits (role r) 22 2 ≠ 3 ∧ bits (role r) 0 22 = 0)
    else decide (role r = 0)) &&
  decide ((List.range n).foldl (fun t r => t + bits (role r) 24 8) 0 ≤ 64) &&
  (List.range 16).all fun k =>
    if bits (q k) 0 7 = 0 then decide (q k = 0)
    else decide (bits (q k) 30 2 ≠ 3 ∧ bits (q k) 7 19 = 0 ∧ bits (q k) 0 7 ≤ 64 ∧ bits (q k) 28 2 < n ∧ bits (q k) 26 2 < n ∧
      bits (q k) 28 2 ≠ bits (q k) 26 2 ∧ (bits (q k) 30 2 ≠ 0 → 12 ≤ k))
/-- The 128 bytes of a header in memory. -/
def headerAt (s : State) (ctx va : Nat) : Option Nat :=
  match fetchVA s ctx va 64, fetchVA s ctx (va + 64) 64 with
  | .ok a, .ok b => some (a + 2 ^ 512 * b)
  | _, _ => none
/-- Whether an address is that of a kernel of an accepted object of the context (R297, R373). -/
def namesKernel (s : State) (ctx va : Nat) : Bool := (ctxOf s ctx).objs.any fun o => o.kernels.contains va
/-- The kernel that a record names, where its header can be read. -/
def kernelAt (s : State) (ctx va : Nat) : Option Kernel :=
  if namesKernel s ctx va then (headerAt s ctx va).map (kernelOf va) else none
/-- The page that the reading of a header waits for, with whether it is lost for good. -/
def headerPage (s : State) (ctx va : Nat) : Option (Nat × Bool) :=
  let one := fun (a : Nat) => match fetchVA s ctx a 64 with | .ok _ => none | .fault p => some (p, false) | .fatal p => some (p, true)
  match one va with | some x => some x | none => one (va + 64)

/-! ### Needs (R302, R303) -/

def crewsOf (k : Kernel) : Nat := k.roles.foldl (fun t r => t + r.crews) 0
def slotsNeed (k : Kernel) : Nat := widthOf k * crewsOf k
def wordsNeed (k : Kernel) : Nat := k.roles.foldl (fun t r => t + r.crews * widthOf k * (r.nv + 2 * r.nm)) 0
def granulesNeed (k : Kernel) : Nat := ceilDiv (k.scratch + 512 * k.queues.foldl (fun t q => t + q.depth) 0) Config.granuleBytes
/-- A need that no empty core can hold. -/
def neverFits (k : Kernel) : Bool :=
  decide (Config.nSlots < slotsNeed k ∨ Config.crucibleWords < wordsNeed k ∨ Config.nGranules < granulesNeed k ∨ Config.nBarriers < k.nbar ∨
    Config.nCodebooks < k.cbslot ∨ 32 * 2 ^ 20 < k.dscr)
def wgSlots (w : WG) : Nat := widthOf w.kern * w.ncrews
def freeSlots (co : Core) : Nat := Config.nSlots - co.wgs.foldl (fun t (_, w) => t + wgSlots w) 0
def freeWords (co : Core) : Nat := Config.crucibleWords - co.wgs.foldl (fun t (_, w) => t + wordsNeed w.kern) 0
def freeGranules (co : Core) : List Nat := (List.range Config.nGranules).filter fun g => !co.wgs.any fun (_, w) => w.granules.contains g
/-- The lowest free aligned run of crews. -/
def freeRun (co : Core) (k : Kernel) : Option Nat :=
  let n := slotsNeed k
  ((List.range (Config.nSlots / widthOf k)).map (· * widthOf k)).find? fun b =>
    decide (b + n ≤ Config.nSlots) && co.wgs.all fun (x, w) => decide (b + n ≤ x ∨ x + wgSlots w ≤ b)
/-- A die's scratchpad: the allocation of the launch, or the lowest free place for one. -/
def dieRoom (s : State) (ctx arr die size : Nat) : Option Nat :=
  if size = 0 then some 0
  else match s.dieAllocs.find? fun d => decide (d.ctx = ctx ∧ d.launch = arr ∧ d.die = die) with
    | some d => some d.off
    | none =>
      ((List.range 512).map (· * 65536)).find? fun o =>
        decide (o + size ≤ 32 * 2 ^ 20) && s.dieAllocs.all fun d => decide (d.die ≠ die ∨ o + size ≤ d.off ∨ d.off + d.size ≤ o)
/-- Whether one workgroup fits a core now. -/
def fitsCore (s : State) (ctx arr : Nat) (k : Kernel) (c : Nat) : Bool :=
  let co := coreOf s c
  (freeRun co k).isSome && decide (wordsNeed k ≤ freeWords co ∧ granulesNeed k ≤ (freeGranules co).length) &&
  decide (k.nbar + co.wgs.foldl (fun t (_, w) => t + w.kern.nbar) 0 ≤ Config.nBarriers) &&
  decide (k.cbslot + co.wgs.foldl (fun t (_, w) => t + w.kern.cbslot) 0 ≤ Config.nCodebooks) &&
  !(k.matrix && co.wgs.any fun (_, w) => w.kern.matrix) && (dieRoom s ctx arr (dieOf c) k.dscr).isSome

/-! ### Holds of a replacement (R386-R388) -/

/-- The global scheduler is halted. -/
def schedHalted (s : State) : Bool := match s.fw.repl with | some r => decide (r.cls = 1) && !r.gap | none => false
/-- A hold, of the global scheduler or of a leaf controller: the services of R388 wait. -/
def schedHeld (s : State) : Bool := match s.fw.repl with | some r => decide (r.cls ≠ 3) && !r.gap | none => false
/-- The hold of a cluster's leaf controller. -/
def leafHeld (s : State) (cl : Nat) : Bool := match s.fw.repl with | some r => decide (r.cls = 2 ∧ r.unit = cl) && !r.gap | none => false

/-! ### The choice of a core (R305, R306) -/

def coresOf (cl : Nat) : List Nat := (List.range Config.nCores).filter fun c => decide (clusterOf c = cl)
def clusterSlots (s : State) (cl : Nat) : Nat := (coresOf cl).foldl (fun t c => t + freeSlots (coreOf s c)) 0
/-- The first number with the greatest value. -/
def argMax (f : Nat → Nat) : List Nat → Option Nat
  | [] => none
  | x :: r => match argMax f r with | none => some x | some y => if f x < f y then some y else some x
/-- The core for one workgroup, among those that `may` lets it have. -/
def chooseCore (s : State) (ctx arr : Nat) (k : Kernel) (may : Nat → Bool) : Option Nat :=
  let ok := fun (c : Nat) => may c && !leafHeld s (clusterOf c) && fitsCore s ctx arr k c
  match argMax (clusterSlots s) ((List.range Config.nClusters).filter fun cl => (coresOf cl).any ok) with
  | none => none
  | some cl => argMax (fun c => freeWords (coreOf s c)) ((coresOf cl).filter ok)
/-- The cores of a rectangle, in member order; its top-left core and its shape. -/
def rectOf (top na nb : Nat) : Option (List Nat) :=
  let d := dieOf top
  let r := top % 112 / 14
  let c := top % 14
  if r + na ≤ 8 ∧ c + nb ≤ 14 then some ((List.range (na * nb)).map fun n => 112 * d + 14 * (r + n / nb) + c + n % nb) else none
/-- The first rectangle whose cores, those of the members to be placed, can each hold one workgroup. -/
def chooseRect (s : State) (ctx arr : Nat) (k : Kernel) (na nb : Nat) (mem : List Nat) (may : Nat → Bool) : Option (List Nat) :=
  (List.range Config.nCores).findSome? fun top => (rectOf top na nb).bind fun l =>
    if mem.all fun n => match l[n]? with | some c => may c && !leafHeld s (clusterOf c) && fitsCore s ctx arr k c | none => false then some l else none

def recNA (l : Launch) : Nat := recField l.record 168 4
def recNB (l : Launch) : Nat := recField l.record 172 4
def recPrio (l : Launch) : Nat := recField l.record 176 2
/-- The workgroups of a group, or one alone. -/
def groupSize (l : Launch) : Nat := if recNA l = 0 then 1 else recNA l * recNB l
/-- The ids that the launch places next: the lowest alone, or those of the lowest group that are unplaced. Those of a group with a saved member
come back with it. -/
def nextIds (s : State) (ctx : Nat) (l : Launch) : List Nat :=
  if recNA l = 0 then l.unplaced.take 1
  else
    let n := groupSize l
    let free := l.unplaced.filter fun id => !(ctxOf s ctx).images.any fun (_, m) => decide (m.wg.launch = l.arr ∧ m.wg.id / n = id / n)
    match free with
    | [] => []
    | id :: _ => free.filter fun x => decide (x / n = id / n)
/-- The cores that the launch's next workgroup, or group, would take now. -/
def nextCores (s : State) (ctx : Nat) (l : Launch) : Option (List Nat) :=
  match l.kern, nextIds s ctx l with
  | some k, _ :: _ =>
    if recNA l = 0 then (chooseCore s ctx l.arr k fun _ => true).map fun c => [c]
    else chooseRect s ctx l.arr k (recNA l) (recNB l) ((nextIds s ctx l).map (· % groupSize l)) fun _ => true
  | _, _ => none
/-- Launches that still place workgroups, in the order of R304. -/
def waitingLaunches (s : State) (ctx : Nat) : List Launch :=
  let l := (ctxOf s ctx).launches.filter fun l => decide (l.state = .eligible ∧ nextIds s ctx l ≠ [])
  [3, 2, 1, 0].flatMap fun p => l.filter fun x => decide (recPrio x = p)
/-- The launch of the context that is placed next: the blocking one alone, else the first that fits. -/
def nextLaunch (s : State) (ctx : Nat) : Option (Launch × List Nat) :=
  let ls := waitingLaunches s ctx
  match ls.find? (·.block) with
  | some l => (nextCores s ctx l).map fun c => (l, c)
  | none => ls.findSome? fun l => (nextCores s ctx l).map fun c => (l, c)

/-! ### Placement -/

/-- The first index of a free run of slices in the context's lane-private region (R204; log entry 17). -/
def freeSlices (s : State) (ctx n : Nat) : Nat :=
  let used := (s.cores.flatMap fun (_, co) => (co.wgs.filter fun (_, w) => decide (w.ctx = ctx)).map fun (_, w) => (w.lpBase, wgSlots w)) ++
    (ctxOf s ctx).images.map fun (_, m) => (m.wg.lpBase, wgSlots m.wg)
  let free := fun (b : Nat) => used.all fun (x, k) => decide (b + n ≤ x ∨ x + k ≤ b)
  ((0 :: used.map fun (x, k) => x + k).filter free).foldl min (used.foldl (fun m (x, k) => max m (x + k)) 0)
/-- The launch's allocation on the die: made with the first workgroup there, reading 0. -/
def joinDie (s : State) (ctx arr die size : Nat) : State :=
  if size = 0 then s
  else if s.dieAllocs.any fun d => decide (d.ctx = ctx ∧ d.launch = arr ∧ d.die = die) then
    { s with dieAllocs := s.dieAllocs.map fun d => if d.ctx = ctx ∧ d.launch = arr ∧ d.die = die then { d with users := d.users + 1 } else d }
  else match dieRoom s ctx arr die size with
    | none => s
    | some o =>
      { s with
        dieAllocs := s.dieAllocs ++ [{ ctx := ctx, launch := arr, die := die, off := o, size := size, users := 1 }]
        dies := put s.dies die ((rget [] s.dies die).filter fun (a, _) => decide (a < o ∨ o + size ≤ a))
        diePoison := put s.diePoison die ((rget [] s.diePoison die).filter fun g => decide (64 * g < o ∨ o + size ≤ 64 * g)) }
/-- The role of a workgroup's crew (R301). -/
def crewRole (roles : List RoleHdr) (j : Nat) : Nat :=
  match roles with
  | [] => 0
  | r :: rs => if j < r.crews then 0 else 1 + crewRole rs (j - r.crews)
def freshThread (crew entry : Nat) : Thread := { crew := crew, pos := { fn := entry, node := 0, step := 0 } }
/-- A workgroup's crews and threads on a core: all enrolled in every mask, each at its role's entry. -/
def makeCrews (co : Core) (base : Nat) (k : Kernel) : Core :=
  let W := widthOf k
  (List.range (crewsOf k)).foldl (fun co j =>
    let b := base + W * j
    let r := crewRole k.roles j
    let slots := (List.range W).map (b + ·)
    let m := (List.range 4).map fun i => (i, slots)
    let co := { co with crews := put co.crews b { wg := base, num := b / W, role := r, masks := m, masksAt := m } }
    slots.foldl (fun co i => { co with threads := put co.threads i (freshThread b (((k.roles[r]?).map (·.entry)).getD 0)), lastSel := del co.lastSel i }) co) co
/-- The distinct lines pinned for a context on a core. -/
def pinnedLines (l : List (Nat × Nat × Nat)) (ctx : Nat) : List Nat := (l.filter fun x => decide (x.1 = ctx)).foldl (fun out x => insertSlot out x.2.2) []
/-- Pin a kernel's lines when it is the first of its kind on the core, up to the context's quota; a line that another kernel pins too counts
once (R366). -/
def pinNew (s : State) (co : Core) (ctx : Nat) (k : Kernel) : Core :=
  if !k.pin || co.wgs.any fun (_, w) => decide (w.ctx = ctx ∧ w.kern.va = k.va) then co
  else
    let quota := ctxField s ctx 347 11
    let step := fun (st : List (Nat × Nat × Nat) × Bool) (l : Nat) =>
      if st.2 || st.1.contains (ctx, k.va, l) then st
      else if !(pinnedLines st.1 ctx).contains l && decide (quota ≤ (pinnedLines st.1 ctx).length) then (st.1, true)
      else (st.1 ++ [(ctx, k.va, l)], false)
    { co with pins := ((pinLines s ctx k).foldl step (co.pins, false)).1 }
/-- Place one workgroup on a core (R305): its slots, granules, threads and pins; it starts later. -/
def placeOne (s : State) (ctx : Nat) (l : Launch) (k : Kernel) (id c member : Nat) : State × Nat :=
  match freeRun (coreOf s c) k with
  | none => (s, 0)
  | some base =>
    let lp := freeSlices s ctx (slotsNeed k)
    let s := joinDie s ctx l.arr (dieOf c) k.dscr
    let w : WG := { ctx := ctx, launch := l.arr, id := id, kern := k, ncrews := crewsOf k, ready := now s, lpBase := lp, prio := recPrio l,
                    granules := (freeGranules (coreOf s c)).take (granulesNeed k), member := member }
    let s := updCore s c fun co =>
      let co := pinNew s co ctx k
      let co := { co with wgs := put co.wgs base w, tiles := if k.matrix then [] else co.tiles }
      makeCrews co base k
    (s, base)
/-- The members of a group that has been placed: their cores and bases; one that has retired has no base. -/
def membersOf (cores : List Nat) (placed : List (Nat × Nat × Nat)) : List (Nat × Nat) :=
  (List.range cores.length).map fun n => match placed.find? fun y => decide (y.1 = n) with
    | some y => y.2
    | none => ((cores[n]?).getD 0, Config.nSlots)
/-- Place workgroups of a launch, each on the core of its place in the group; the placed ones by member, core and base. -/
def placeIds (s : State) (ctx : Nat) (l : Launch) (k : Kernel) (cores : List Nat) (ids : List Nat) : State × List (Nat × Nat × Nat) :=
  ids.foldl (fun st id =>
    let n := id % groupSize l
    match cores[n]? with
    | none => st
    | some c =>
      let (s, base) := placeOne st.1 ctx l k id c n
      (s, st.2 ++ [(n, c, base)])) (s, [])
def setMembers (s : State) (l : Launch) (cores : List Nat) (placed : List (Nat × Nat × Nat)) : State :=
  if recNA l = 0 then s
  else placed.foldl (fun s (_, c, b) => updCore s c fun co => updWG co b fun w => { w with members := membersOf cores placed }) s
def placedIds (l : Launch) (ids : List Nat) (t : Nat) : Launch :=
  { l with unplaced := minus l.unplaced ids, live := l.live + ids.length, since := t, block := false }
/-- Place the launch's next workgroup, or its next group into a rectangle. -/
def placeNext (s : State) (ctx : Nat) (l : Launch) (cores : List Nat) : State :=
  match l.kern with
  | none => s
  | some k =>
    let ids := nextIds s ctx l
    let (s, placed) := placeIds s ctx l k cores ids
    updLaunch (setMembers s l cores placed) ctx l.arr fun l => placedIds l ids (now s)
/-- WORKGROUP_PLACE (R304-R306): the launch whose turn it is takes the core, or the rectangle whose first core it is. -/
def execWorkgroupPlace (ctx idx core : Nat) (s : State) : Out :=
  if schedHeld s then .next s
  else match nextLaunch s ctx with
    | none => .next s
    | some (l, cores) => if l.arr = idx ∧ cores.head? = some core then .next (placeNext s ctx l cores) else .next s
/-- PLACEMENT_STARVATION (R304). -/
def execPlacementStarvation (ctx idx : Nat) (s : State) : Out :=
  match launchAt s ctx idx with
  | none => .next s
  | some l =>
    if schedHeld s = false ∧ l.state = .eligible ∧ nextIds s ctx l ≠ [] ∧ l.since + Config.starveTicks ≤ now s ∧ (nextCores s ctx l).isNone then
      .next (updLaunch s ctx idx fun l => { l with block := true })
    else .next s

/-! ### Start (R307) -/

/-- A workgroup becomes eligible to issue: each crew enters its role's entry function. -/
def startOne (s : State) (c base : Nat) : State :=
  updCore s c fun co =>
    match get? co.wgs base with
    | none => co
    | some w =>
      if w.started || w.marked then co else
      let co := updWG co base fun w => { w with started := true, startTick := now s }
      (co.crews.filter fun (_, k) => decide (k.wg = base)).foldl (fun co (b, k) =>
        let slots := (co.threads.filter fun (_, t) => decide (t.crew = b)).map (·.1)
        toWalker co 0 slots (.enter (roleOf w k.role).entry 0)) co
/-- Whether a launch's next start on a die is due. -/
def startDue (s : State) (l : Launch) (die : Nat) : Bool :=
  match get? l.starts die with | some t => decide (t + recField l.record 178 14 ≤ now s) | none => true
/-- WORKGROUP_START (R307): STAGGER ticks after the launch's last start on the die; a neighbourhood group starts as a whole. -/
def execWorkgroupStart (core wg : Nat) (s : State) : Out :=
  match get? (coreOf s core).wgs wg with
  | none => .next s
  | some w =>
    match launchAt s w.ctx w.launch with
    | none => .next s
    | some l =>
      let die := dieOf core
      if w.started || w.marked || !startDue s l die then .next s
      else
        let all := if w.members.isEmpty then [(core, wg)] else w.members
        let s := all.foldl (fun s (c, b) => startOne s c b) s
        .next (updLaunch s w.ctx w.launch fun l => { l with starts := put l.starts die (now s) })

end Sys2Proof.Machine
end

