-- ==== Sys2Proof/Machine/Integer.lean ====
section
/-! DEFINITION. The meanings of majors 0x04 to 0x0A: integer, logic, constants, predicates, index and affine registers (04_integer_affine.md). -/
namespace Sys2Proof.Machine

/-- `s(a)` and the image of an integer modulo 2^n (R100). -/
def sI (x : Nat) : Int := sextNat x 32
def imgN (n : Nat) (i : Int) : Nat := (i % (2 ^ n : Nat)).toNat
def img (i : Int) : Nat := imgN 32 i
def widthBits (w : Bool) : Nat := if w then 64 else 32

/-! ### Integer arithmetic (R104, R105) -/

/-- The rounding shifts of R105: ties away from zero, and unsigned. -/
def rhu (x k : Nat) : Nat := if k = 0 then x else (x + 2 ^ (k - 1)) / 2 ^ k
def rha (x : Int) (k : Nat) : Int := if x < 0 then -(rhu x.natAbs k : Nat) else (rhu x.natAbs k : Nat)

def execIadd (x : R3) (w : Bool) (s : State) : Out := runPure s (alu3 x w) fun v => (arg v 0 + arg v 1) % 2 ^ widthBits w
def execIsub (x : R3) (w : Bool) (s : State) : Out := runPure s (alu3 x w) fun v => imgN (widthBits w) ((arg v 0 : Int) - arg v 1)
def execImul (x : R3) (s : State) : Out := runPure s (alu3 x false) fun v => arg v 0 * arg v 1 % 2 ^ 32
def execImulh (x : R3) (s : State) : Out := runPure s (alu3 x false) fun v => img (sI (arg v 0) * sI (arg v 1) / 2 ^ 32)
def execImulhu (x : R3) (s : State) : Out := runPure s (alu3 x false) fun v => arg v 0 * arg v 1 / 2 ^ 32

/-- A divide word: a divisor of 0 raises DIVZERO (R104). -/
def runDiv (s : State) (x : R3) (f : Nat → Nat → Nat) : Out :=
  runAlu s (alu3 x false) fun _ t v => if arg v 1 = 0 then trapL cDivzero v else .ok (f (arg v 0) (arg v 1), t)
def execIdiv (x : R3) (s : State) : Out := runDiv s x fun a b => img (Int.tdiv (sI a) (sI b))
def execIdivu (x : R3) (s : State) : Out := runDiv s x fun a b => a / b
def execIrem (x : R3) (s : State) : Out := runDiv s x fun a b => img (Int.tmod (sI a) (sI b))
def execIremu (x : R3) (s : State) : Out := runDiv s x fun a b => a % b

def execIneg (x : R2) (s : State) : Out := runPure s (alu2 x false) fun v => img (-sI (arg v 0))
def execIabs (x : R2) (s : State) : Out := runPure s (alu2 x false) fun v => img (sI (arg v 0)).natAbs
def execImin (x : R3) (s : State) : Out := runPure s (alu3 x false) fun v => img (min (sI (arg v 0)) (sI (arg v 1)))
def execImax (x : R3) (s : State) : Out := runPure s (alu3 x false) fun v => img (max (sI (arg v 0)) (sI (arg v 1)))
def execIminu (x : R3) (s : State) : Out := runPure s (alu3 x false) fun v => min (arg v 0) (arg v 1)
def execImaxu (x : R3) (s : State) : Out := runPure s (alu3 x false) fun v => max (arg v 0) (arg v 1)

def satRange : SatW → Int × Int
  | .s8 => (-128, 127)
  | .u8 => (0, 255)
  | .s16 => (-32768, 32767)
  | .u16 => (0, 65535)
  | .nonneg => (0, 2 ^ 31 - 1)
def execIsat (x : R2) (w : SatW) (s : State) : Out :=
  runPure s (alu2 x false) fun v => img (satInt (sI (arg v 0)) (satRange w).1 (satRange w).2)
def execIrsh (x : R3) (u : Bool) (s : State) : Out :=
  runPure s (alu3 x false) fun v => if u then rhu (arg v 0) (arg v 1 % 64) else img (rha (sI (arg v 0)) (arg v 1 % 64))

/-! ### Logic, shifts, bit fields, moves (R106) -/

def notN (n x : Nat) : Nat := 2 ^ n - 1 - x % 2 ^ n
def execLand (x : R3) (w : Bool) (s : State) : Out := runPure s (alu3 x w) fun v => arg v 0 &&& arg v 1
def execLor (x : R3) (w : Bool) (s : State) : Out := runPure s (alu3 x w) fun v => arg v 0 ||| arg v 1
def execLxor (x : R3) (w : Bool) (s : State) : Out := runPure s (alu3 x w) fun v => arg v 0 ^^^ arg v 1
def execLandn (x : R3) (w : Bool) (s : State) : Out := runPure s (alu3 x w) fun v => arg v 0 &&& notN (widthBits w) (arg v 1)
def execLnot (x : R2) (w : Bool) (s : State) : Out := runPure s (alu2 x w) fun v => notN (widthBits w) (arg v 0)

/-- A shift: the count is read from a 32-bit srcB, b[5:0] or b[6:0] for .b64 (R101, R106). -/
def shiftAlu (x : R3) (w : Bool) : Alu := { g := x.g, d := x.d, w := w, srcs := [(x.a, w), (x.b, false)] }
def shiftBy (w : Bool) (b : Nat) : Nat := b % (if w then 128 else 64)
def execShl (x : R3) (w : Bool) (s : State) : Out :=
  runPure s (shiftAlu x w) fun v => arg v 0 * 2 ^ shiftBy w (arg v 1) % 2 ^ widthBits w
def execShr (x : R3) (w : Bool) (s : State) : Out := runPure s (shiftAlu x w) fun v => arg v 0 / 2 ^ shiftBy w (arg v 1)
def execSar (x : R3) (w : Bool) (s : State) : Out :=
  runPure s (shiftAlu x w) fun v => imgN (widthBits w) (sextNat (arg v 0) (widthBits w) / 2 ^ shiftBy w (arg v 1))
def execRol (x : R3) (s : State) : Out :=
  runPure s (alu3 x false) fun v => let n := arg v 1 % 32; (arg v 0 * 2 ^ n) % 2 ^ 32 + arg v 0 / 2 ^ (32 - n)

/-- pos and len′ of a field control word (R106). -/
def fieldPos (c : Nat) : Nat := c % 32
def fieldLen (c : Nat) : Nat := min (bits c 8 6) (32 - fieldPos c)
def execBfx (x : R3) (s : State) : Out :=
  runPure s (alu3 x false) fun v =>
    if fieldLen (arg v 1) = 0 then 0 else img (sextNat (bits (arg v 0) (fieldPos (arg v 1)) (fieldLen (arg v 1))) (fieldLen (arg v 1)))
def execBfxu (x : R3) (s : State) : Out :=
  runPure s (alu3 x false) fun v => bits (arg v 0) (fieldPos (arg v 1)) (fieldLen (arg v 1))
def popCount (x : Nat) : Nat := ((List.range 32).map fun i => x / 2 ^ i % 2).foldl (· + ·) 0
def execPopc (x : R2) (s : State) : Out := runPure s (alu2 x false) fun v => popCount (arg v 0)
def execClz (x : R2) (s : State) : Out := runPure s (alu2 x false) fun v => if arg v 0 = 0 then 32 else 31 - Nat.log2 (arg v 0)
def bitRev (x : Nat) : Nat := ((List.range 32).map fun i => x / 2 ^ i % 2 * 2 ^ (31 - i)).foldl (· + ·) 0
def execBrev (x : R2) (s : State) : Out := runPure s (alu2 x false) fun v => bitRev (arg v 0)
def execMov (x : R2) (w : Bool) (s : State) : Out := runPure s (alu2 x w) fun v => arg v 0

/-! ### Three sources (R107, R108) -/

def execImad (x : T3) (s : State) : Out := runPure s (aluT x) fun v => (arg v 0 * arg v 1 + arg v 2) % 2 ^ 32
def execBfi (x : T3) (s : State) : Out :=
  runPure s (aluT x) fun v =>
    let p := fieldPos (arg v 2)
    let n := fieldLen (arg v 2)
    arg v 1 - bits (arg v 1) p n * 2 ^ p + arg v 0 % 2 ^ n * 2 ^ p
def qntRange : QntW → Int × Int
  | .s8 => (-128, 127)
  | .u8 => (0, 255)
  | .s16 => (-32768, 32767)
  | .u16 => (0, 65535)
def execIqnt (x : T3) (w : QntW) (s : State) : Out :=
  runPure s (aluT x) fun v =>
    let y := rha (sI (arg v 0) * sI (arg v 1)) (32 + arg v 2 % 64) + sextNat (arg v 2 / 65536) 16
    img (satInt y (qntRange w).1 (qntRange w).2)

/-! ### Constants (R109) -/

def execMovi (g : Guard) (d : Code) (imm : Int) (s : State) : Out := runPure s { g := g, d := d, srcs := [] } fun _ => img imm
def execAil (g : Guard) (d : Code) (a : Src) (imm : Int) (s : State) : Out :=
  runPure s { g := g, d := d, srcs := [(a, false)] } fun v => img (arg v 0 + imm)
def execAih (g : Guard) (d : Code) (imm : Int) (s : State) : Out :=
  runPure s { g := g, d := d, srcs := [] } fun _ => img (imm * 4096)

/-! ### Compares and predicates (R110-R112) -/

def icond (c : ICond) (a b : Nat) : Bool :=
  match c with
  | .eq => decide (a = b)
  | .ne => decide (a ≠ b)
  | .lt => decide (sI a < sI b)
  | .le => decide (sI a ≤ sI b)
  | .gt => decide (sI b < sI a)
  | .ge => decide (sI b ≤ sI a)
  | .ltu => decide (a < b)
  | .leu => decide (a ≤ b)
  | .gtu => decide (b < a)
  | .geu => decide (b ≤ a)
def execIcmp (g : Guard) (p : Nat) (a b : Src) (c : ICond) (s : State) : Out :=
  runPred s g p [a, b] fun _ t v => (icond c (arg v 0) (arg v 1), t)
def execIsel (x : R3) (p : Nat) (neg : Bool) (s : State) : Out :=
  runAlu s (alu3 x false) fun _ t v => .ok (if t.getP p != neg then arg v 0 else arg v 1, t)
def execPset (g : Guard) (p : Nat) (a : Src) (s : State) : Out := runPred s g p [a] fun _ t v => (decide (arg v 0 ≠ 0), t)
def execPand (g : Guard) (p a b : Nat) (na nb : Bool) (s : State) : Out :=
  runPred s g p [] fun _ t _ => ((t.getP a != na) && (t.getP b != nb), t)
def execPor (g : Guard) (p a b : Nat) (na nb : Bool) (s : State) : Out :=
  runPred s g p [] fun _ t _ => ((t.getP a != na) || (t.getP b != nb), t)
def execPxor (g : Guard) (p a b : Nat) (na nb : Bool) (s : State) : Out :=
  runPred s g p [] fun _ t _ => ((t.getP a != na) != (t.getP b != nb), t)
def execPnot (g : Guard) (p a : Nat) (s : State) : Out := runPred s g p [] fun _ t _ => (!t.getP a, t)

/-! ### Index registers (R113, R114) -/

/-- A word that writes an x register from at most one 32-bit source. -/
def runX (s : State) (g : Guard) (srcs : List Src) (f : Thread → List Nat → L Thread) : Out :=
  let a : Alu := { g := g, d := .zero, srcs := srcs.map fun x => (x, false) }
  issueWord s a.spec (pureLane fun e i t => do
    let (vs, _) ← readSrcs e i t a.srcs
    let t' ← f t vs
    return { t := t' }) noPost
def execXset (g : Guard) (x : Nat) (a : Src) (s : State) : Out :=
  runX s g [a] fun t v =>
    if 192 < arg v 0 % 256 + bits (arg v 0) 8 8 then trapL cBounds v else .ok (t.setX x (BitVec.ofNat 24 (arg v 0)))
def execXmov (g : Guard) (x y : Nat) (s : State) : Out := runX s g [] fun t _ => .ok (t.setX x (t.getX y))
def execXmovToV (g : Guard) (d y : Nat) (s : State) : Out :=
  runAlu s { g := g, d := .v d, srcs := [] } fun _ t _ => .ok ((t.getX y).toNat, t)
def execXadd (g : Guard) (x y : Nat) (b : Src) (s : State) : Out :=
  runX s g [b] fun t v =>
    let i := satInt ((xIdx (t.getX y) : Int) + sI (arg v 0)) 0 255
    .ok (t.setX x (mkX (xOrg (t.getX y)) (xLen (t.getX y)) i.toNat))
def execXaddOrg (g : Guard) (x y : Nat) (b : Src) (s : State) : Out :=
  runX s g [b] fun t v =>
    let o := (xOrg (t.getX y) : Int) + sI (arg v 0)
    if o < 0 ∨ 192 < o + xLen (t.getX y) then trapL cBounds ((t.getX y).toNat :: v)
    else .ok (t.setX x (mkX o.toNat (xLen (t.getX y)) (xIdx (t.getX y))))

/-! ### Affine registers (R115-R118) -/

/-- An affine write: made once, with the values of the writing lane (R116), and the affine register it reads as that lane sees it (R118). -/
def runAff (s : State) (g : Guard) (d : Nat) (srcs : List Src) (f : (Nat → Word64) → List Nat → Nat × Nat) : Out :=
  let a : Alu := { g := g, d := .a d, srcs := srcs.map fun x => (x, false) }
  issueWord s a.spec (pureLane fun e i t => do
    let (vs, _) ← readSrcs e i t a.srcs
    let (base, stride) := f (fun n => affSeen e (e.crew t) n i) vs
    return { t := t, out := base % 2 ^ 32 + 2 ^ 32 * (stride % 2 ^ 32) }) noPost
def affBase (k : Nat → Word64) (n : Nat) : Nat := (lo32 (k n)).toNat
def affStride (k : Nat → Word64) (n : Nat) : Nat := (hi32 (k n)).toNat
def execAset (g : Guard) (d : Nat) (a b : Src) (s : State) : Out := runAff s g d [a, b] fun _ v => (arg v 0, arg v 1)
def execAadd (g : Guard) (d r : Nat) (b : Src) (s : State) : Out :=
  runAff s g d [b] fun k v => (affBase k r + arg v 0, affStride k r)
def execAaddStride (g : Guard) (d r : Nat) (b : Src) (s : State) : Out :=
  runAff s g d [b] fun k v => (affBase k r, affStride k r + arg v 0)
def execAmul (g : Guard) (d r : Nat) (b : Src) (s : State) : Out :=
  runAff s g d [b] fun k v => (affBase k r * arg v 0, affStride k r * arg v 0)
def execAshl (g : Guard) (d r : Nat) (b : Src) (s : State) : Out :=
  runAff s g d [b] fun k v => (affBase k r * 2 ^ (arg v 0 % 32), affStride k r * 2 ^ (arg v 0 % 32))
/-- AVAL in its three forms: a value of the crew's register per lane. -/
def runAval (s : State) (g : Guard) (d : Code) (f : Word64 → Nat → Nat) (r : Nat) : Out :=
  issueWord s (Alu.spec { g := g, d := d, srcs := [] }) (pureLane fun e i t => do
    let ds ← destOf e t d false
    let x := f (affSeen e (e.crew t) r i) (e.lane i)
    return { t := ds.put t false x, out := x }) noPost
def execAval (g : Guard) (d : Code) (r : Nat) (s : State) : Out := runAval s g d (fun x l => ((lo32 x).toNat + (hi32 x).toNat * l) % 2 ^ 32) r
def execAvalBase (g : Guard) (d : Code) (r : Nat) (s : State) : Out := runAval s g d (fun x _ => (lo32 x).toNat) r
def execAvalStride (g : Guard) (d : Code) (r : Nat) (s : State) : Out := runAval s g d (fun x _ => (hi32 x).toNat) r

end Sys2Proof.Machine
end

