-- ==== Sys2Proof/Machine/Queues.lean ====
section
/-! DEFINITION. Continuation queues and queue registers as words see them: major 0x2B (R286-R292, R295). -/
namespace Sys2Proof.Machine

/-- Where a record goes that is appended to a queue; none where the queue refuses it, being closed or full (R286, R290). -/
def enqueueVA (s : State) (ctx q : Nat) : Option Nat :=
  let k := rget {} (ctxOf s ctx).conts q
  if k.closed || decide (contRoom s ctx ≤ k.len) then none else some (contVA s ctx q (k.head + k.len))
/-- ENQ's effect (R290): whether the record was appended. Its 32 bytes go to the queue's spill region (R286). -/
def enqueue (s : State) (ctx q : Nat) (rec : BitVec 256) : Bool × State :=
  let k := rget {} (ctxOf s ctx).conts q
  match enqueueVA s ctx q with
  | some va =>
    let s := countTraffic s ctx ((vaPlace s ctx va).toList.map fun p => (p, 32))
    (true, updCtx (storeVA s ctx va (toBytes 32 rec.toNat)) ctx fun x => { x with conts := put x.conts q { k with len := k.len + 1 } })
  | none =>
    if k.closed then (false, s)
    else (false, updCtx s ctx fun x => { x with conts := put x.conts q { k with full := if k.full = 0xFFFFFFFF then k.full else k.full + 1 } })
/-- The write of a record to the spill region, before it is made: it waits for an engine, for the budget or for the page, as a store does;
`log` is what the lane logs, with the Successes counted, and `vals` the sources of its trap (log entry 96). -/
def spillReady (e : Env) (s : State) (i : Nat) (ctx q : Nat) (vals log : List Nat) (tries : Nat) : L Unit :=
  match enqueueVA s ctx q with
  | none => .ok ()
  | some va =>
    match vaReach s ctx va false true with
    | .ok p => if mustWait s e.co ctx i p 32 then .error .stall else .ok ()
    | .fault va wr => if 4 ≤ tries then trapA cAccess vals va else .error (.hold .page .replay (.replay log tries) (some (va, wr)))
    | .memerr va => trapA cMemerr vals va
    | _ => trapA cAccess vals va
/-- A page of the spill region that the host has refused, `va` in the lane's log. -/
def spillRefused (t : Thread) (k n : Nat) : L Unit :=
  match t.resume with
  | .refused log _ => if arg log k = 0 then refusedOf t 0 else trapA cAccess (log.take n) (arg log k - 1)
  | _ => .ok ()
/-- Eight registers as one number, the first lowest. -/
def readEight (e : Env) (t : Thread) (r : Nat) : L Nat := do
  let xs ← (List.range 8).mapM fun k => readV e t (r + k)
  return xs.foldr (fun x acc => x + 2 ^ 32 * acc) 0
/-- ENQ: a release at scope device; the thread's accesses are performed first (R295). A lane that waits for a page of the spill region logs the
record and the queue. -/
def execEnq (g : Guard) (p r : Nat) (n : Src) (s : State) : Out :=
  issueWord s { g := g, regs := vRange r 8 ++ srcRegs n false, perms := [n.perm], crew := srcCrewy n, pops := srcPops n,
                srcs := fun e i t => do
                  let x ← readEight e t r
                  let q ← readSrc e i t n false
                  return [x % 2 ^ 64, q.x] } (fun e s i t => do
    spillRefused t 2 2
    let log ← logVals t (do
      let x ← readEight e t r
      let q ← readSrc e i t n false
      return [x % 2 ^ 64, q.x, 0, x])
    let vals := log.take 2
    let q := arg log 1
    let x := arg log 3
    if 64 ≤ q ∨ bits x 32 32 ≠ 0 then trapL cBounds vals
    else if lanesBusy e [i] then .error .stall
    else do
      spillReady e s i (e.wg t).ctx q vals [arg log 0, q, ((enqueueVA s (e.wg t).ctx q).getD 0) + 1, x] (logTries t)
      let (ok, s) := enqueue s (e.wg t).ctx q (BitVec.ofNat 256 x)
      return ({ t := t.setP p ok }, s)) markSticky
/-- What a JOIN's lane logs of its two accesses, the block and the record's place: its address, the place it waits for, plus 1, or 0 for the
block, and the other access's Successes (R226). -/
def joinBlockTries (t : Thread) (log : List Nat) : Nat := if arg log 3 = 0 then logTries t else arg log 4
def joinSpillTries (t : Thread) (log : List Nat) : Nat := if arg log 3 = 0 then arg log 4 else logTries t
/-- JOIN: one atomic access at scope device, an acquire and a release (R290, R295). The record's place in the spill region is ready before the
counter changes. -/
def execJoin (g : Guard) (p a : Nat) (s : State) : Out :=
  issueWord s { g := g, regs := vRange a 2 } (fun e s i t => do
    spillRefused t 3 1
    let log ← logVals t (do
      let x ← readPair e t a
      return [x])
    let ctx := (e.wg t).ctx
    let vals := log.take 1
    let acc : Acc := { spc := .g, off := 0, n := 64, align := 64, read := true, write := true, watch := false }
    let pl ← (match placeOf e s i t acc vals false (replayOf t).isSome (joinBlockTries t log) with
      | .error (.hold w r _ f) => .error (.hold w r (.replay [arg vals 0, 0, 0, 0, joinSpillTries t log] (joinBlockTries t log)) f)
      | x => x)
    if lanesBusy e [i] || engineOwns s pl || trafficHeld s ctx [pl] || notedAt s pl 64 then .error .stall
    else
      let b := readPlace s pl 64
      let x := bits b 0 32
      let q := bits b 32 6
      let r := bits b 256 256
      if x = 0 ∨ (x = 1 ∧ bits r 32 32 ≠ 0) then trapL cBounds vals
      else do
        if x = 1 then spillReady e s i ctx q vals [arg vals 0, 0, 0, ((enqueueVA s ctx q).getD 0) + 1, joinBlockTries t log] (joinSpillTries t log)
        let s := writePlace (countTraffic (touchPlace s pl) ctx [(pl, 4)]) pl (toBytes 4 (x - 1))
        let (ok, s) := if x = 1 then enqueue s ctx q (BitVec.ofNat 256 r) else (true, s)
        return ({ t := t.setP p ok }, s)) markSticky
/-- QCLOSE of a queue register (R291). -/
def execQclose (g : Guard) (q : Nat) (s : State) : Out :=
  issueWord s { g := g } (pureLane fun e _ t =>
    match (e.wg t).kern.queues[q]? with
    | none => trapE cIllegal
    | some b =>
      if b.depth = 0 ∨ b.prod ≠ e.b.role then trapE cIllegal
      else .ok { t := { t with closed := insertSlot t.closed q } }) noPost
/-- QCLOSE.c: once per batch, through the executing lane (R216). -/
def execQcloseC (g : Guard) (n : Src) (s : State) : Out :=
  issueWord s { g := g, regs := srcRegs n false, perms := [n.perm], crew := srcCrewy n, pops := srcPops n, srcs := srcVals [(n, false)],
                once := some fun e i o s => updCtx s (e.wg (e.thread i)).ctx fun x =>
                  { x with conts := put x.conts o.out { rget {} x.conts o.out with closed := true } } }
    (pureLane fun e i t => do
      let q ← readSrc e i t n false
      if firstLane e g false = some i ∧ 64 ≤ q.x then trapL cBounds [q.x]
      else return { t := t, out := q.x }) markSticky
/-- QSTAT's value (R292). -/
def qstatOf (s : State) (co : Core) (base : Nat) (w : WG) (q : Nat) (k : QKind) : Nat :=
  match k with
  | .q =>
    let x := rget {} w.queues q
    let depth := ((w.kern.queues[q]?).map (·.depth)).getD 0
    x.entries.length % 256 + 256 * (depth % 256) + 65536 * encBool (decide (depth ≠ 0) && orphaned co base w q)
  | .c =>
    let y := rget {} (ctxOf s w.ctx).conts q
    min y.len (2 ^ 31 - 1) + 2 ^ 31 * encBool y.closed
  | .full => (rget {} (ctxOf s w.ctx).conts q).full.toNat
def execQstat (g : Guard) (d : Code) (n : Src) (k : QKind) (s : State) : Out :=
  issueWord s (barSpec g [n] d) (pureLane fun e i t => do
    let q ← readSrc e i t n false
    let r ← destOf e t d false
    if (if k = .q then 16 else 64) ≤ q.x then trapL cBounds [q.x]
    else
      let x := qstatOf e.s e.co (e.wgBase t) (e.wg t) q.x k
      return { t := r.put t false x }) noPost

end Sys2Proof.Machine
end

