-- ==== Sys2Proof/Machine/Select.lean ====
section
/-! DEFINITION. The block selectors, gathers and refills (R69-R76, R84-R92, R312). -/
namespace Sys2Proof.Machine

/-! ### The block header (R51, R52) -/

def rangeOf (x lo : Nat) : LiveRange := { m := decide (bits x (lo + 16) 1 = 1), base := bits x (lo + 8) 8, len := bits x lo 8 }
def rangeOk (l : LiveRange) : Bool :=
  if l.len = 0 then !l.m && decide (l.base = 0) else decide (l.base + l.len ≤ if l.m then 64 else 192)
/-- The count and the ranges of a header word, or none where it is ILLEGAL. -/
def headerOf (x : Nat) : Option (Nat × List LiveRange) :=
  let rs := [rangeOf x 0, rangeOf x 17, rangeOf x 34]
  if bits x 56 8 = 0 ∨ bits x 51 5 ≠ 0 ∨ !rs.all rangeOk then none else some (bits x 56 8, rs.filter fun l => decide (l.len ≠ 0))
def inRange (l : LiveRange) (r : Reg) : Bool :=
  match r with
  | .v n => !l.m && decide (l.base ≤ n ∧ n < l.base + l.len)
  | .m n => l.m && decide (l.base ≤ n ∧ n < l.base + l.len)

/-! ### Which threads of an entry may be served (R75, R89, R316) -/

/-- The threads that a body lets be served now: those of the innermost split's part in service, else the whole set. -/
def Body.serving (b : Body) : List Nat := match b.regions with | r :: _ => r.run | [] => b.slots
/-- Whether a thread is on its way: with the walker, in a batch, or waiting for a page at its step. -/
def onItsWay (co : Core) (i : Nat) : Bool :=
  co.walks.any (fun w => w.slots.contains i) || co.sels.any (fun (_, x) => x.batches.any fun b => b.slots.contains i) || decide (heldFor co i = some .replay)
/-- Where a part of a body stands, by how far back it is: deeper calls and levels first, then the lower place. -/
def placeKey (co : Core) (b : Body) (e : Entry) : List Nat :=
  let i := (e.slots.find? b.serving.contains).getD 0
  [1000 - (threadOf co i).callLevel, 32 - e.level, e.pos.node, e.pos.step, e.pos.fn]
/-- Whether a body's threads at an entry may be served: the whole set stands there; or nobody of it is on the way, and of the places where
its threads stand this is the one furthest back, or has aged (R75, R87; log entry 102). -/
def bodyTurn (co : Core) (b : Body) (e : Entry) : Bool :=
  b.serving.all e.slots.contains ||
  (!b.hold && b.serving.all (fun i => e.slots.contains i || !onItsWay co i) &&
    (decide (Config.agingLimit ≤ e.age) || (co.entries.map (·.2) ++ co.cold).all fun x =>
      x.reason.isSome || !x.slots.any b.serving.contains || !decide (placeKey co b x < placeKey co b e)))
/-- The threads of a batch that the selector would take from an entry; empty where none may be served. A further split's group that does not
fit whole behind the first is cut to fill the places left (R89; log entry 87). -/
def pickFrom (co : Core) (sel : Nat) (e : Entry) : List Nat :=
  match co.stop.running with
  | some g => if g.sel = sel then (e.slots.filter fun i => (g.items.any fun x => decide (x.1 = i)) && (threadOf co i).trap.isSome &&
      (match wgOf co (threadOf co i) with | some w => w.swap.isNone && !w.stopping | none => false)).take 128 else []
  | none =>
    if stopped co then []
    else
      let able := e.slots.filter fun i =>
        (match wgOf co (threadOf co i) with | some w => w.started && w.swap.isNone && !w.stopping && (!w.single || (threadOf co i).stepping) | none => false) &&
        match bodyAt co i with
        | none => true
        | some b => b.serving.contains i && bodyTurn co b e
      let groups := e.groups.filterMap fun g => let x := g.filter able.contains; if x.isEmpty then none else some x
      let first := match groups with | g :: _ => g | [] => able
      match first with
      | [] => []
      | i :: _ =>
        match bodyAt co i with
        | some b => able.filter b.serving.contains
        | none =>
          let free := fun (l : List Nat) => l.filter fun i => (bodyAt co i).isNone
          let head := groups.foldl (fun l g => if l.length + (free g).length ≤ 128 then unionSlots l (free g) else if l.isEmpty then (free g).take 128 else l) []
          unionSlots head ((minus (free able) head).take (128 - head.length))

/-! ### Selection (R86, R87) -/

/-- A join point is held while its record counts threads and its age is below the limit (R72). -/
def joinHeld (co : Core) (e : Entry) : Bool :=
  decide (e.age < Config.joinHold) && co.splits.any fun (_, r) => decide (r.join = some (e.pos, e.launch, e.role))
/-- Whether a context has spent its share of the cluster's issue ticks (R311, R312). -/
def spentIssue (s : State) (ctx cl : Nat) : Bool :=
  let x := ctxOf s ctx
  let share := bits x.budget.toNat 0 9
  decide (share < 256 ∧ share * 1500 ≤ rget 0 x.issueSpent cl)
/-- Whether some context with share left has a ready entry on the cluster. -/
def othersReady (s : State) (cl : Nat) : Bool :=
  s.cores.any fun (c, co) => decide (clusterOf c = cl) && co.entries.any fun (_, e) => e.reason.isNone && !spentIssue s (entryCtx co e) cl

def better (p : Policy) (a b : Nat × Entry × List Nat) : Bool :=
  let key := fun (x : Nat × Entry × List Nat) => [x.2.1.pos.node, x.2.1.ord, x.2.1.pos.fn, x.1]
  let full := fun (x : Nat × Entry × List Nat) => ((8192 : Nat) - x.2.1.slots.length) :: key x
  match p with
  | .fullest => decide (full a < full b)
  | .deepest => decide ((32 - a.2.1.level) :: full a < (32 - b.2.1.level) :: full b)
  | .oldest => decide ([Config.ageMax - a.2.1.age, a.1] < [Config.ageMax - b.2.1.age, b.1])
def bestOf (p : Policy) : List (Nat × Entry × List Nat) → Option (Nat × Entry × List Nat)
  | [] => none
  | x :: r => match bestOf p r with | none => some x | some y => if better p x y then some x else some y
def roleKey (e : Entry) : Nat × Nat := (e.launch, e.role)
def lexLt (a b : Nat × Nat) : Bool := decide (a.1 < b.1 ∨ (a.1 = b.1 ∧ a.2 < b.2))
def leastRole : List (Nat × Nat) → Option (Nat × Nat)
  | [] => none
  | x :: r => match leastRole r with | none => some x | some y => if lexLt x y then some x else some y
/-- The entry that a selector takes, with the threads it would serve. -/
def choose (s : State) (c sel : Nat) (taken : List Nat) : Option (Nat × Entry × List Nat) :=
  let co := coreOf s c
  let spent := fun (e : Entry) => spentIssue s (entryCtx co e) (clusterOf c) && othersReady s (clusterOf c)
  let R := (co.entries.filter fun (k, e) => e.reason.isNone && !taken.contains k && !spent e).filterMap fun (k, e) =>
    let l := pickFrom co sel e
    if l.isEmpty then none else some (k, e, l)
  let A := R.filter fun x => decide (Config.agingLimit ≤ x.2.1.age)
  if !A.isEmpty then bestOf .oldest A
  else
    let C := R.filter fun x => !joinHeld co x.2.1
    let roles := C.map fun x => roleKey x.2.1
    let next := match (selOf co sel).last with
      | none => leastRole roles
      | some l => match leastRole (roles.filter (lexLt l)) with | some r => some r | none => leastRole roles
    match next with
    | none => none
    | some r =>
      let own := C.filter fun x => decide (roleKey x.2.1 = r)
      match own with
      | [] => none
      | x :: _ =>
        let pol := match x.2.2 with
          | i :: _ => (match keyOf co i with | some (_, ro, w) => (roleOf w ro).policy | none => .fullest)
          | [] => .fullest
        bestOf pol own

/-- Take threads from an entry (R89): it keeps the rest with a fresh age, or frees. -/
def takeFrom (co : Core) (k : Nat) (e : Entry) (l : List Nat) : Core :=
  match e.drop l with
  | some e' => { co with entries := put co.entries k { e' with age := 0, groups := e'.groups.filter fun g => !g.isEmpty } }
  | none => thaw { co with entries := del co.entries k }
/-- Form a batch (R89, R91): the header is read; an ILLEGAL header traps at step 0 (R52), a register with an uncorrectable error its
thread (R231). Threads that were sent past the last step leave the block (R356). -/
def formBatch (s : State) (c sel k : Nat) (e : Entry) (l : List Nat) : State :=
  let co := coreOf s c
  match l with
  | [] => s
  | i :: _ =>
    match keyOf co i with
    | none => s
    | some (_, role, wg) =>
      let nv := (roleOf wg role).nv
      match headerVA s wg.ctx e.pos.fn e.pos.node nv with
      | none => s
      | some va =>
        match fetchVA s wg.ctx va 8 with
        | .fault a =>
          if fetchLost co l a then
            let s := setCore s c { takeFrom co k e l with sels := put co.sels sel { selOf co sel with last := some (roleKey e) } }
            takeTrap s c sel (l.map fun i => (i, { code := cAccess, addr := a }))
          else fetchFault s c l a
        | .fatal a =>
          let s := setCore s c { takeFrom co k e l with sels := put co.sels sel { selOf co sel with last := some (roleKey e) } }
          takeTrap s c sel (l.map fun i => (i, { code := lostCode s wg.ctx a, addr := a }))
        | .ok x =>
          let co := updThreads (takeFrom co k e l) l fun t => { t with wait := .none }
          let co := setSel co sel { selOf co sel with last := some (roleKey e) }
          let co := l.foldl (fun co i => { co with lastSel := put co.lastSel i sel }) co
          match headerOf x with
          | none =>
            let co := updThreads co l fun t => { t with pos := { e.pos with step := 0 } }
            takeTrap (setCore s c co) c sel (l.map fun i => (i, { code := cIllegal, word := BitVec.ofNat 64 x }))
          | some (count, live) =>
            if count ≤ e.pos.step then
              setCore s c (toWalker (updThreads co l fun t => { t with resume := .none }) sel l (.leave e.pos.fn e.pos.node))
            else
            let bad := l.filter fun i => (threadOf co i).bad.any fun r => live.any fun y => inRange y r
            let co := updThreads co bad fun t => { t with pos := { e.pos with step := 0 } }
            let (id, s) := takeSeq (setCore s c co)
            let ok := minus l bad
            let clr := fun (k : Crew) => { k with bodies := k.bodies.map fun b => if b.serving = ok then { b with hold := false } else b }
            let s := updCore s c fun co =>
              let co := match ok with | i :: _ => updCrew co (threadOf co i).crew clr | [] => co
              let x := selOf co sel
              if ok.isEmpty then co
              else setSel co sel { x with batches := x.batches ++
                [{ id := id, launch := e.launch, role := e.role, pos := e.pos, slots := ok, count := count, live := live }] }
            let s := if ok.isEmpty then s else traceBatch s c wg.ctx sel k e ok
            takeTrap s c sel (bad.map fun i => (i, { code := cMemerr }))

/-- The selectors in turn. A handler batch starts on its selector however many stopped batches that one has in flight (R86, R317). -/
def selectAll (c : Nat) : List Nat → State → List Nat → State
  | [], s, _ => s
  | sel :: r, s, taken =>
    let handler := (coreOf s c).stop.running.any fun g => decide (g.sel = sel)
    if Config.nInFlight ≤ (selOf (coreOf s c) sel).batches.length && !handler then selectAll c r s taken
    else match choose s c sel taken with
      | none => selectAll c r s taken
      | some (k, e, l) => selectAll c r (formBatch s c sel k e l) (taken ++ [k])
/-- BATCH_SELECT (R86): the selectors choose in ascending number, and no entry is taken twice. -/
def execBatchSelect (core : Nat) (s : State) : Out := .next (selectAll core [0, 1, 2, 3] s [])

/-- JOIN_HOLD_EXPIRY (R72): the age ends the hold by itself (`joinHeld`); records whose join point is that entry are freed of it. -/
def execJoinHoldExpiry (core entry : Nat) (s : State) : Out :=
  match get? (coreOf s core).entries entry with
  | none => .next s
  | some e =>
    if Config.joinHold ≤ e.age then
      .next (updCore s core fun co => { co with splits := co.splits.map fun (k, r) =>
        (k, if r.join = some (e.pos, e.launch, e.role) then { r with join := some ({}, 0, 0xFFFF) } else r) })
    else .next s

/-- COLD_LIST_STEAL (R88): after 4,096 ticks an entry goes to the tail of the cold list and the head key takes its place. -/
def execColdListSteal (core : Nat) (s : State) : Out :=
  let co := coreOf s core
  match co.cold with
  | [] => .next s
  | h :: r =>
    if co.coldAge < Config.coldLimit ∨ co.entries.length < Config.nEntries then .next s
    else
      let held := co.entries.find? fun (_, e) => e.reason.isSome
      let few := co.entries.foldl (fun (b : Option (Nat × Entry)) x => match b with
        | none => some x
        | some y => if x.2.slots.length < y.2.slots.length then some x else some y) none
      match (match held with | some x => some x | none => few) with
      | none => .next s
      | some (k, e) => .next (setCore s core { co with entries := put co.entries k { h with age := 0 }, cold := r ++ [e], coldAge := 0 })

/-! ### Gathers (R74, R76) -/

/-- Threads held at a COOP node: the position, the node's mask, its body, the threads. -/
abbrev Gather := Pos × Nat × Nat × List Nat
/-- Threads of a crew held at COOP nodes, by what a fetch of the node's record finds. -/
def gatherOf (s : State) (co : Core) (crew : Nat) (e : Entry) : List (Fetch Gather × List Nat) :=
  let l := e.slots.filter fun i => decide ((threadOf co i).crew = crew)
  match l.head?.bind (keyOf co) with
  | none => []
  | some (_, role, w) =>
    [match nodeAt s w.ctx e.pos.fn e.pos.node (roleOf w role).nv with
     | .fault va => (.fault va, l)
     | .fatal va => (.fatal va, l)
     | .ok r => let n := r.getD { raw := 0 }; (.ok (e.pos, n.field 54 2, n.first, l), l)]
def heldGathers (s : State) (co : Core) (crew : Nat) : List (Fetch Gather × List Nat) :=
  ((co.entries.map (·.2) ++ co.cold).filter fun e => decide (e.reason = some .gather)).flatMap (gatherOf s co crew)
def gathersOf (s : State) (co : Core) (crew : Nat) : List Gather :=
  (heldGathers s co crew).filterMap fun x => match x.1 with | .ok g => some g | _ => none
def canFire (m : SMap (List Nat)) (g : Gather) : Bool :=
  let en := rget [] m g.2.1
  !en.isEmpty && en.all g.2.2.2.contains
/-- A COOP fires: its held threads become a body set and walk into the body as one batch. -/
def fireOne (co : Core) (crew : Nat) (g : Gather) : Core :=
  let slots := g.2.2.2
  let i := slots.headD 0
  let co := updThreads (unentry co slots) slots fun t => { t with wait := .none }
  let co := updCrew co crew fun k => { k with bodies := { fn := g.1.fn, node := g.1.node, depths := levelsOf co slots, slots := slots } :: k.bodies }
  toWalker co (rget 0 co.lastSel i) slots (.enter g.1.fn g.2.2.1)
/-- Threads trap at the node where they are held (R71). -/
def trapHeld (s : State) (c code : Nat) (addr : Nat) (s0 : State) (i : Nat) : State :=
  let t := threadOf (coreOf s0 c) i
  match keyOf (coreOf s0 c) i with
  | none => s0
  | some (_, role, w) =>
    let raw := (nodeOf s w.ctx t.pos.fn t.pos.node (roleOf w role).nv).raw
    nodeTrap s0 c t.pos.fn t.pos.node (rget 0 (coreOf s c).lastSel i) raw [(i, code, [], addr)]
def slotCtx (co : Core) (i : Nat) : Nat := match wgOf co (threadOf co i) with | some w => w.ctx | none => 0
/-- A record that the core needs at a node where threads are held: its absent page is fetched first (R227), and one that is lost traps
them there. -/
def needRecord (c : Nat) (s : State) (x : Fetch Gather × List Nat) : State :=
  match x.1 with
  | .ok _ => s
  | .fault va => if fetchLost (coreOf s c) x.2 va then x.2.foldl (trapHeld s c cAccess va) s else fetchFault s c x.2 va
  | .fatal va => x.2.foldl (trapHeld s c (lostCode s (slotCtx (coreOf s c) (x.2.headD 0)) va) va) s
/-- The gathers of a crew: those that fire do; threads that are all held where nothing can fire deadlock (R76). -/
def fireGathers (s : State) (c crew : Nat) (k : Crew) : State :=
  let co := coreOf s c
  let gs := gathersOf s co crew
  let go := gs.filter (canFire k.masksAt)
  if !go.isEmpty then setCore s c (go.foldl (fun co g => fireOne co crew g) co)
  else
    let live := (co.threads.filter fun x => decide (x.2.crew = crew)).map (·.1)
    let heldAll := gs.flatMap (·.2.2.2)
    if live.isEmpty || !live.all heldAll.contains || gs.any (canFire k.masks) then s
    else
      let pos := (threadOf co (live.headD 0)).pos
      (live.filter fun i => decide ((threadOf co i).pos ≠ pos)).foldl (trapHeld s c cCrewctx 0) s
def fireCrew (s : State) (c crew : Nat) : State :=
  let co := coreOf s c
  match (get? co.crews crew).bind fun k => if (get? co.wgs k.wg).any fun w => w.single || w.stopping || w.swap.isSome then none else some k with
  | none => s
  | some k =>
    let lost := (heldGathers s co crew).filter fun x => match x.1 with | .ok _ => false | _ => true
    if lost.isEmpty then fireGathers s c crew k else lost.foldl (needRecord c) s
/-- COOP_FIRE (R74): every gather of the core, with the masks as they stood at the start of the tick. A stop of the core holds its selectors
alone (R316). -/
def execCoopFire (core : Nat) (s : State) : Out := .next ((keys (coreOf s core).crews).foldl (fun s k => fireCrew s core k) s)

/-! ### Refill (R70, R287) -/

/-- The REFILL where a slot is held, with its workgroup, as a fetch of its record finds it. -/
def refillAt (s : State) (co : Core) (i : Nat) : Option (WG × Fetch Node) :=
  (keyOf co i).map fun (_, role, w) =>
    let p := (threadOf co i).pos
    (w, match nodeAt s w.ctx p.fn p.node (roleOf w role).nv with
      | .ok r => .ok (r.getD { raw := 0 })
      | .fault va => .fault va
      | .fatal va => .fatal va)
def refillQueue (n : Node) : Nat := n.field 50 6
/-- Whether a vacant slot `j` comes before `i` at queue `q` of a context: a REFILL whose record is not there may name any queue. -/
def vacantBefore (s : State) (co : Core) (ctx q i j : Nat) : Bool :=
  decide (j < i) && match refillAt s co j with
    | some (w, .ok n) => decide (w.ctx = ctx ∧ refillQueue n = q)
    | some (w, _) => decide (w.ctx = ctx)
    | none => false
/-- The three words of a record reach the register pairs that the node names, and its predicate becomes 1 (R70). -/
def takeRecord (n : Node) (r : Nat) (t : Thread) : Thread :=
  let put2 := fun (t : Thread) (n x : Nat) => { t with v := rput 0 (rput 0 t.v n (BitVec.ofNat 32 x)) (n + 1) (BitVec.ofNat 32 (x / 2 ^ 32)) }
  let b := n.field 39 8
  (put2 (put2 (put2 t b (bits r 64 64)) (b + 2) (bits r 128 64)) (b + 4) (bits r 192 64)).setP (n.field 47 3) true
/-- A vacant thread and the record at the head of its queue: it takes the record and goes on at the node that this names. The sources of a
refused record's trap are its low three words (R287; log entry 101). -/
def popRecord (s : State) (core slot : Nat) (w : WG) (n : Node) (r : Nat) : State :=
  let t := threadOf (coreOf s core) slot
  let sel := rget 0 (coreOf s core).lastSel slot
  let f := bits r 0 16
  let m := bits r 16 16
  let ok := match fnOf s w.ctx f with | some fn => decide (m < fn.nnodes) | none => false
  let s := updCtx s w.ctx fun c => { c with conts := put c.conts (refillQueue n) (let k := rget {} c.conts (refillQueue n)
                                                                                 { k with head := (k.head + 1) % contRoom s w.ctx, len := k.len - 1 }) }
  let s := updCore s core fun co => unentry co [slot]
  if !ok then nodeTrap s core t.pos.fn t.pos.node sel n.raw [(slot, cIllegal, [bits r 0 64, bits r 64 64, bits r 128 64], 0)]
  else updCore s core fun co => toWalker (updThread co slot (takeRecord n r)) sel [slot] (.call t.pos.fn t.pos.node f m)
/-- A vacant thread at its queue: it takes the head record, read from the spill region (R286) as an access of the thread, so it may wait for a
page of it as a fetch does (log entry 96); it leaves when the queue is closed and empty, or stays. -/
def popFor (s : State) (core slot : Nat) (w : WG) (n : Node) : State :=
  let co := coreOf s core
  let t := threadOf co slot
  let k := rget {} (ctxOf s w.ctx).conts (refillQueue n)
  if k.len = 0 then
    if k.closed then updCore s core fun co =>
      toWalker (updThread (unentry co [slot]) slot fun t => t.setP (n.field 47 3) false) (rget 0 co.lastSel slot) [slot] (.leave t.pos.fn t.pos.node)
    else s
  else
    let va := contVA s w.ctx (refillQueue n) k.head
    match translateVA s w.ctx va false with
    | .ok pa sn =>
      if mustWait s co w.ctx slot (.off pa sn) 32 then s
      else popRecord (countTraffic (touchLine s pa sn) w.ctx [(.off pa sn, 32)]) core slot w n (readPlace s (.off pa sn) 32)
    | .absent => if fetchLost co [slot] va then trapHeld s core cAccess va s slot else fetchFault s core [slot] va
    | _ => trapHeld s core (lostCode s w.ctx va) va s slot
/-- REFILL_POP (R70): the lowest vacant slot of a queue takes its head record, or leaves when the queue is closed and empty. The REFILL's
record is fetched first where its page is absent. -/
def execRefillPop (core slot : Nat) (s : State) : Out :=
  let co := coreOf s core
  let vac := ((co.entries.map (·.2) ++ co.cold).filter fun e => decide (e.reason = some .refill)).flatMap (·.slots)
  let idle := match wgOf co (threadOf co slot) with | some w => w.single || w.stopping || w.swap.isSome | none => true
  if idle || !vac.contains slot then .next s
  else match refillAt s co slot with
    | none => .next s
    | some (w, .ok n) => if vac.any (vacantBefore s co w.ctx (refillQueue n) slot) then .next s else .next (popFor s core slot w n)
    | some (_, .fault va) => if fetchLost co [slot] va then .next (trapHeld s core cAccess va s slot) else .next (fetchFault s core [slot] va)
    | some (w, .fatal va) => .next (trapHeld s core (lostCode s w.ctx va) va s slot)

end Sys2Proof.Machine
end

