-- ==== Sys2Proof/Machine/System.lean ====
section
/-! DEFINITION. The system words of major 0x2E: TRAP, BRKP, RESUME, SRD, SWR, NOP, HINT and PMATCH, and the run of a match handler
(R325-R332, R339-R341). -/
namespace Sys2Proof.Machine

/-! ### TRAP, BRKP, NOP and HINT -/

/-- The source that may be left out. -/
def optVal (e : Env) (i : Nat) (t : Thread) (a : Option Src) : L Nat :=
  match a with
  | none => .ok 0
  | some x => do
    let v ← readSrc e i t x false
    return v.x
def optSpec (g : Guard) (a : Option Src) : WordSpec :=
  match a with
  | none => { g := g }
  | some x => { g := g, regs := srcRegs x false, perms := [x.perm], crew := srcCrewy x, pops := srcPops x, srcs := srcVals [(x, false)] }
def execTrap (g : Guard) (n : Nat) (a : Option Src) (s : State) : Out :=
  issueWord s (optSpec g a) (pureLane fun e i t => do
    let x ← optVal e i t a
    .error (.trap cTrapi [x] 0 n false)) noPost
/-- BRKP is a NOP when no debugger is attached and breakpoints are ignored (R327). -/
def brkIgnored (s : State) (ctx : Nat) : Bool := let x := (ctxOf s ctx).dbgctl; !x.getLsbD 0 && x.getLsbD 1
def execBrkp (g : Guard) (n : Nat) (s : State) : Out :=
  issueWord s { g := g } (pureLane fun e _ t => if brkIgnored e.s (e.wg t).ctx then .ok { t := t } else .error (.trap cBreak [] 0 n false)) noPost
def execNop (g : Guard) (s : State) : Out := issueWord s { g := g } (pureLane fun _ _ t => .ok { t := t }) noPost
/-- HINT (R328): code 0x02 emits a MARK record; the fetch hint changes timing only, and the others act as NOP. -/
def execHint (g : Guard) (n : Nat) (a : Option Src) (s : State) : Out :=
  issueWord s (optSpec g a) (pureLane fun e i t => do
    let x ← optVal e i t a
    return { t := t, out := x }) fun e oks s =>
    if n = 2 then oks.foldl (fun s (i, o) => traceMark s e.c (e.wg (e.thread i)).ctx o.out i e.b.pos) s else s

/-! ### The record of a thread in trap context (R319, R322) -/

/-- The place of bytes of the thread's record: an ordinary lane-private access, that waits for the thread's accesses to those bytes. -/
def recordPlace (e : Env) (s : State) (i : Nat) (t : Thread) (off n : Nat) (write : Bool) : L Place := do
  refusedOf t 0
  let acc : Acc := { spc := .lp, off := 0, n := n, align := 1, read := !write, write := write, watch := false, poison := false }
  let p ← placeOf e s i t acc [off] false (replayOf t).isSome (logTries t)
  if mustWait s e.co (e.wg t).ctx i p n then .error .stall else return p
/-- The record with the five registers that RESUME reads, and the state after the read (R30). -/
def recordRegs (e : Env) (s : State) (i : Nat) (t : Thread) : L (Nat × State) := do
  let p ← recordPlace e s i t 80 24 false
  return (readPlace s p 24 * 2 ^ 640, countTraffic s (e.wg t).ctx [(p, 24)])

/-! ### RESUME (R329, R330) -/

/-- A RESUME word: every thread that may end its trap context with the form does so; `go` is the form's effect. Where the thread goes on
(`back`), the handler's loads reach their registers before it is deposited (R353). -/
def runResume (s : State) (g : Guard) (back : Bool) (go : Env → List (Nat × Nat) → State → State) : Out :=
  issueWord s { g := g } (fun e s i t =>
    if t.trap.isNone then trapE cIllegal
    else if back && !t.pend.isEmpty then .error .stall
    else do
      let (r, s) ← recordRegs e s i t
      return ({ t := t, out := r }, s)) fun e oks s => if oks.isEmpty then s else go e (oks.map fun (i, o) => (i, o.out)) s
/-- The threads' registers come back and they leave the handler batch; the trapped positions with their traps. A split record that was opened
inside the handler stays open (R72; log entry 103). -/
def leaveAll (co : Core) (l : List (Nat × Nat)) : Core × List (Nat × TrapCtx) :=
  let slots := l.map (·.1)
  let old := l.filterMap fun (i, _) => ((get? co.threads i).bind (·.trap)).map fun x => (i, x)
  let co := untrap (unwalk (unentry (unbatch co slots) slots) slots) slots
  (l.foldl (fun co (i, r) => updThread co i fun t => match t.trap with | some x => leaveTrap t x r | none => t) co, old)
/-- Whether the thread's crew batch waits for it at its step (R75, R192). -/
def heldBody (co : Core) (i : Nat) : Bool := match bodyAt co i with | some b => b.hold | none => false
/-- RESUME.RETRY: the word is executed again, or the node entered again, which is also where a late status found a thread held (R280; log entry
104). -/
def retryOne (c sel : Nat) (s : State) (x : Nat × TrapCtx) : State :=
  let p := x.2.pos
  if x.2.info.node || x.2.info.atNode then updCore s c fun co => toWalker co sel [x.1] (.enter p.fn p.node) else deposit s c [x.1] p none 0 false
/-- RESUME.SKIP: the thread goes on after the word, or leaves the node. Past the last step the selector finds that the block has ended, and the
thread leaves it (R356). In a crew batch that waits for it, it passes the step with the others. -/
def skipOne (c sel : Nat) (s : State) (x : Nat × TrapCtx) : State :=
  let p := x.2.pos
  let s := updCore s c fun co => updThread co x.1 fun t => { t with repst := 0 }
  if x.2.info.node || x.2.info.atNode then updCore s c fun co => toWalker co sel [x.1] (.leave p.fn p.node)
  else if heldBody (coreOf s c) x.1 then
    deposit (updCore s c fun co => updThread co x.1 fun t => { t with resume := .passed }) c [x.1] p none 0 false
  else deposit s c [x.1] { p with step := p.step + 1 } none 0 false
/-- The form of RESUME for threads in trap context, their records' registers given. -/
def resumeAll (s : State) (c sel : Nat) (form : ResumeForm) (l : List (Nat × Nat)) : State :=
  match form with
  | .retry => let (co, old) := leaveAll (coreOf s c) l; old.foldl (retryOne c sel) (setCore s c co)
  | .skip => let (co, old) := leaveAll (coreOf s c) l; old.foldl (skipOne c sel) (setCore s c co)
  | .abandon => updCore s c fun co =>
      let slots := l.map (·.1)
      let co := untrap (endThreads co slots) slots
      dropHeld co fun j => j.lanes.all fun i => (get? co.threads i).isNone
  | .kill =>
    let heads := firstOfWG (coreOf s c) (l.map fun (i, _) => (i, { code := 0 }))
    heads.foldl (fun s (k, x) => killWG s c k [oldRecord s c x.1]) s
def execResumeRetry (g : Guard) (s : State) : Out := runResume s g true fun e l s => resumeAll s e.c e.sel .retry l
def execResumeSkip (g : Guard) (s : State) : Out := runResume s g true fun e l s => resumeAll s e.c e.sel .skip l
def execResumeAbandon (g : Guard) (s : State) : Out := runResume s g false fun e l s => resumeAll s e.c e.sel .abandon l
def execResumeKill (g : Guard) (s : State) : Out := runResume s g false fun e l s => resumeAll s e.c e.sel .kill l

/-! ### SRD and SWR (R331, R332) -/

/-- MATCHST (R341). -/
def matchst (x : Context) : Nat := (keys x.matchp).foldl (fun r k => if x.matchOff.contains k then r else r + 2 ^ k) 0
/-- The value of a special register. -/
def specialVal (e : Env) (s : State) (i : Nat) (t : Thread) (reg : Nat) : L (Nat × State) :=
  let w := e.wg t
  let x := ctxOf s w.ctx
  if reg = 0x03 ∧ t.trap.isSome then do
    let p ← recordPlace e s i t 80 4 false
    return ((repstImage (readPlace s p 4)).toNat, countTraffic s w.ctx [(p, 4)])
  else
    let v := match reg with
      | 0x00 => t.fpctl.toNat
      | 0x01 => t.momctl.toNat
      | 0x02 => t.momrho.toNat
      | 0x03 => t.repst.toNat
      | 0x04 => t.lwidth.toNat
      | 0x05 => (e.crew t).zprog.toNat
      | 0x06 => w.sbstall.toNat
      | 0x08 => if t.trap.isSome then 0 else 0xFFFFFFFF
      | 0x10 => s.tick.toNat
      | 0x11 => w.energy.toNat
      | 0x1C => matchst x
      | 0x1D => x.dbgctl.toNat
      | k => (rget 0 x.watch (k - 0x18)).toNat
    .ok (v, s)
def execSrd (g : Guard) (d : Code) (reg : Nat) (w : Bool) (s : State) : Out :=
  issueWord s { g := g, regs := codeRegs d w } (fun e s i t => do
    let r ← destOf e t d w
    if r = .odd then trapL cAlign []
    else
      let (x, s) ← specialVal e s i t reg
      return ({ t := r.put t w x }, s)) noPost

/-- Whether a thread is the lowest live one with its key: it writes a register held per crew or workgroup. -/
def lowestOf (e : Env) (g : Guard) (i : Nat) (key : Thread → Nat) : Bool :=
  ((liveOf e g false).find? fun j => decide (key (e.thread j) = key (e.thread i))) = some i
/-- A write of a special register under its fields' access rules (R331). -/
def writeSpecial (e : Env) (g : Guard) (s : State) (i : Nat) (t : Thread) (reg : Nat) (x : Word) : L (Thread × State) :=
  match reg with
  | 0x00 => .ok ({ t with fpctl := (x &&& 0xF80F) ||| (t.fpctl &&& 0x7C0 &&& ~~~x) }, s)
  | 0x01 => .ok ({ t with momctl := (x &&& 3) ||| (t.momctl &&& 4 &&& ~~~x) }, s)
  | 0x02 => .ok ({ t with momrho := x }, s)
  | 0x03 =>
    if t.trap.isNone then trapE cIllegal
    else do
      let p ← recordPlace e s i t 80 4 true
      return (t, writePlace (countTraffic s (e.wg t).ctx [(p, 4)]) p (toBytes 4 (repstImage x.toNat).toNat))
  | 0x04 => .ok ({ t with lwidth := t.lwidth &&& 1 &&& ~~~x }, s)
  | 0x05 =>
    if t.trap.isNone then trapE cIllegal
    else .ok (t, if lowestOf e g i (·.crew) then updCore s e.c fun co => updCrew co t.crew fun k => { k with zprog := (x &&& 0x8000007F) ||| (k.zprog &&& 0x700) } else s)
  | 0x06 => .ok (t, if lowestOf e g i e.wgBase then updCore s e.c fun co => updWG co (e.wgBase t) fun w => { w with sbstall := x } else s)
  | _ => .ok (t, s)
def execSwr (g : Guard) (reg : Nat) (a : Src) (w : Bool) (s : State) : Out :=
  issueWord s { g := g, regs := srcRegs a w, perms := [a.perm], crew := srcCrewy a, pops := srcPops a, srcs := srcVals [(a, w)] } (fun e s i t => do
    let v ← readSrc e i t a w
    let (t, s) ← writeSpecial e g s i t reg (BitVec.ofNat 32 v.x)
    return ({ t := t }, s)) noPost

/-! ### PMATCH (R339, R340) -/

/-- Whether a word may stand in a match handler. -/
def matchWord (i : Instr) : Bool :=
  match i with
  | .iadd .. | .isub .. | .imul .. | .imulh .. | .imulhu .. | .idiv .. | .idivu .. | .irem .. | .iremu .. | .ineg .. | .iabs ..
  | .imin .. | .imax .. | .iminu .. | .imaxu .. | .isat .. | .irsh .. | .land .. | .lor .. | .lxor .. | .landn .. | .lnot ..
  | .shl .. | .shr .. | .sar .. | .rol .. | .bfx .. | .bfxu .. | .popc .. | .clz .. | .brev .. | .mov .. | .movi .. | .ail ..
  | .aih .. | .srd .. | .nop .. => true
  | .ld _ _ a | .st _ _ a | .atadd _ _ a _ | .atmin _ _ a _ | .atmax _ _ a _ | .atminu _ _ a _ | .atmaxu _ _ a _ | .atand _ _ a _
  | .ator _ _ a _ | .atxor _ _ a _ | .atxch _ _ a _ | .atcas _ _ a _ | .atfadd _ _ a _ _ => decide (a.space = .g)
  | _ => false
def shadowRole : RoleHdr := { entry := 0, nv := 32, nm := 0, crews := 1, policy := .fullest }
def fetchThen {α β : Type} (x : Fetch α) (f : α → Fetch β) : Fetch β :=
  match x with
  | .ok a => f a
  | .fault va => .fault va
  | .fatal va => .fatal va
/-- `n` words from an address. -/
def fetchWords (s : State) (ctx va : Nat) : Nat → Fetch (List Nat)
  | 0 => .ok []
  | n + 1 => fetchThen (fetchVA s ctx va 8) fun x => fetchThen (fetchWords s ctx (va + 8) n) fun r => .ok (x :: r)
/-- The header and the words of a function whose root is a block; none where it is another node. -/
def rootBlock (s : State) (ctx f : Nat) : Fetch (Option (Nat × Nat × List Nat)) :=
  match fnOf s ctx f with
  | none => .ok none
  | some fn => fetchThen (nodeAt s ctx f 0 192) fun r =>
    match r with
    | none => .ok none
    | some r =>
      if r.kind ≠ 2 then .ok none
      else
        let va := fn.code + 8 * r.field 24 32
        fetchThen (fetchVA s ctx va 8) fun h =>
          let n := bits h 56 8
          fetchThen (fetchWords s ctx (va + 8) n) fun ws => .ok (some (h, n, ws))
/-- A match handler (R340): one block of at most 32 of the words allowed, whose header declares no range. -/
def isMatchHandler (s : State) (k : Kernel) (ctx f : Nat) : Fetch Bool :=
  fetchThen (rootBlock s ctx f) fun r => .ok (match r with
    | none => false
    | some (h, n, ws) =>
      decide (1 ≤ n ∧ n ≤ 32 ∧ h % 2 ^ 56 = 0) &&
      ws.all fun x => match isInstrIn shadowRole k (BitVec.ofNat 64 x) with | some i => matchWord i | none => false)
/-- Whether a position of a function is a step of a block (R339). -/
def isStep (s : State) (ctx f n step nv : Nat) : Fetch Bool :=
  fetchThen (nodeAt s ctx f n nv) fun r =>
    match r, headerVA s ctx f n nv with
    | some r, some va =>
      if r.kind ≠ 2 then .ok false
      else fetchThen (fetchVA s ctx va 8) fun h => .ok (match headerOf h with | some (k, _) => decide (step < k) | none => false)
    | _, _ => .ok false
/-- The values of a PMATCH pair: key and handler with context indices, or none where BOUNDS holds. A page of the key's or the handler's
function that is absent is fetched first (R227). -/
def matchKey (s : State) (k : Kernel) (ctx f nv x : Nat) : Fetch (Option Word64) :=
  match fnOf s ctx f with
  | none => .ok none
  | some fn =>
    let own := fun (g : Nat) => match fnOf s ctx (fn.fbase + g) with | some h => decide (h.fbase = fn.fbase) | none => false
    let kf := bits x 0 16
    let hf := bits x 40 16
    if bits x 56 8 ≠ 0 ∨ own kf = false ∨ own hf = false then .ok none
    else fetchThen (isStep s ctx (fn.fbase + kf) (bits x 16 16) (bits x 32 8) nv) fun step =>
      if !step then .ok none
      else fetchThen (isMatchHandler s k ctx (fn.fbase + hf)) fun ok => .ok (if ok
        then some (BitVec.ofNat 64 (fn.fbase + kf + 2 ^ 16 * bits x 16 16 + 2 ^ 32 * bits x 32 8 + 2 ^ 40 * (fn.fbase + hf)))
        else none)
/-- What the executing lane's pair names. -/
def pmatchKey (e : Env) (t : Thread) (x : Nat) : Fetch (Option Word64) := matchKey e.s (e.wg t).kern (e.wg t).ctx t.pos.fn e.r.nv x
/-- The page that PMATCH's check of its key and its handler waits for. -/
def pmatchPage (e : Env) (g : Guard) (v : Nat) : Option Nat :=
  match firstLane e g false with
  | none => none
  | some i => match readPair e (e.thread i) v with
    | .error _ => none
    | .ok x => match pmatchKey e (e.thread i) x with
      | .fault va => if fetchLost e.co [i] va then none else some va
      | _ => none
def execPmatch (g : Guard) (k v : Nat) (s : State) : Out :=
  let s := match envOf s with
    | none => s
    | some e => match pmatchPage e g v with | some va => fetchFault s e.c e.b.slots va | none => s
  issueWord s { g := g, regs := vRange v 2,
                once := some fun e i o s => updCtx s (e.wg (e.thread i)).ctx fun x =>
                  { x with matchp := put x.matchp k (BitVec.ofNat 64 o.out), matchOff := minus x.matchOff [k] } }
    (pureLane fun e i t => do
      let x ← readPair e t v
      if firstLane e g false ≠ some i then return { t := t }
      else match pmatchKey e t x with
        | .ok none => trapL cBounds [x]
        | .ok (some y) => return { t := t, out := y.toNat }
        | .fault va => if fetchLost e.co [i] va then trapA cAccess [x] va else .error .stall
        | .fatal va => trapA (lostCode e.s (e.wg t).ctx va) [x] va) noPost
def execPmatchRm (g : Guard) (k : Nat) (s : State) : Out :=
  issueWord s { g := g, once := some fun e i _ s => updCtx s (e.wg (e.thread i)).ctx fun x =>
      { x with matchp := del x.matchp k, matchOff := minus x.matchOff [k] } }
    (pureLane fun _ _ t => .ok { t := t }) noPost

/-! ### MATCH_HANDLER (R340, R341) -/

def matchPos (x : Word64) : Pos := { fn := bits x.toNat 0 16, node := bits x.toNat 16 16, step := bits x.toNat 32 8 }
/-- The enabled match points at a position, in ascending number, with their handlers. -/
def matchesAt (x : Context) (p : Pos) : List (Nat × Nat) :=
  x.matchp.filterMap fun (k, y) => if matchPos y = p ∧ !x.matchOff.contains k then some (k, bits y.toNat 40 16) else none
/-- The threads of a batch for which a match handler is still to run. -/
def matchDue (s : State) (co : Core) (b : Batch) : List Nat :=
  let live := b.slots.filter fun i =>
    let t := threadOf co i
    !b.matched && t.trap.isNone && decide (t.resume = .none) && !(repAct t && decide (0 < repCur t))
  match live.head?.bind (fun i => wgOf co (threadOf co i)) with
  | some w => if b.shadow.isNone && (matchesAt (ctxOf s w.ctx) b.pos).isEmpty then [] else live
  | none => []

/-- A word of a match handler. -/
def runMatchWord (i : Instr) (s : State) : Out :=
  match i with
  | .iadd x w => execIadd x w s
  | .isub x w => execIsub x w s
  | .imul x => execImul x s
  | .imulh x => execImulh x s
  | .imulhu x => execImulhu x s
  | .idiv x => execIdiv x s
  | .idivu x => execIdivu x s
  | .irem x => execIrem x s
  | .iremu x => execIremu x s
  | .ineg x => execIneg x s
  | .iabs x => execIabs x s
  | .imin x => execImin x s
  | .imax x => execImax x s
  | .iminu x => execIminu x s
  | .imaxu x => execImaxu x s
  | .isat x w => execIsat x w s
  | .irsh x u => execIrsh x u s
  | .land x w => execLand x w s
  | .lor x w => execLor x w s
  | .lxor x w => execLxor x w s
  | .landn x w => execLandn x w s
  | .lnot x w => execLnot x w s
  | .shl x w => execShl x w s
  | .shr x w => execShr x w s
  | .sar x w => execSar x w s
  | .rol x => execRol x s
  | .bfx x => execBfx x s
  | .bfxu x => execBfxu x s
  | .popc x => execPopc x s
  | .clz x => execClz x s
  | .brev x => execBrev x s
  | .mov x w => execMov x w s
  | .movi g d n => execMovi g d n s
  | .ail g d a n => execAil g d a n s
  | .aih g d n => execAih g d n s
  | .srd g d r w => execSrd g d r w s
  | .nop g => execNop g s
  | .ld g d a => execLd g d a s
  | .st g d a => execSt g d a s
  | .atadd g d a r => execAtadd g d a r s
  | .atmin g d a r => execAtmin g d a r s
  | .atmax g d a r => execAtmax g d a r s
  | .atminu g d a r => execAtminu g d a r s
  | .atmaxu g d a r => execAtmaxu g d a r s
  | .atand g d a r => execAtand g d a r s
  | .ator g d a r => execAtor g d a r s
  | .atxor g d a r => execAtxor g d a r s
  | .atxch g d a r => execAtxch g d a r s
  | .atcas g d a r => execAtcas g d a r s
  | .atfadd g d a r ty => execAtfadd g d a r ty s
  | _ => .next s

/-- The thread that a handler runs in the selector's shadow registers: h0-h31 stand as v0-v31; its predicates and index registers can be
read. A REP of the matched word does not repeat the handler's. -/
def shadowThread (t : Thread) (h : SMap Word) (p : Pos) : Thread :=
  { t with v := h, m := [], repst := 0, pos := p, written := [], pend := [], wait := .none, resume := .none, stepping := false }
/-- h0-h5 as each run starts. -/
def shadowStart (s : State) (w : WG) (i k : Nat) : SMap Word :=
  let put1 := fun (m : SMap Word) (n x : Nat) => rput 0 m n (BitVec.ofNat 32 x)
  put1 (put1 (put1 (put1 (put1 (put1 [] 0 i) 1 k) 2 (now s)) 3 (now s / 2 ^ 32)) 4 (launchIdOf s w.ctx w.launch)) 5 w.id
def shadowBatch (id launch role i : Nat) (p : Pos) : Batch :=
  { id := id, launch := launch, role := role, pos := p, slots := [i], count := 255, live := [{ m := false, base := 0, len := 32 }] }
/-- An SRD of REPST in a handler reads the thread's own. -/
def shadowRepst (t : Thread) (i : Instr) (h : SMap Word) : SMap Word :=
  match i with
  | .srd g d 3 _ => if guardHolds g t then (match d with
      | .v n => rput 0 h n t.repst
      | .idx n => rput 0 h (xOrg (t.getX n) + xIdx (t.getX n)) t.repst
      | _ => h) else h
  | _ => h
/-- The accesses with a number from `from0` on are performed at once; none where one must wait for an engine (R25) or for its context's
bytes (R312). -/
def performNew (c from0 : Nat) (s : State) : Option State :=
  let new := (coreOf s c).pend.filter fun p => decide (from0 ≤ p.id)
  if new.any fun p => trafficHeld s (pendCtx (coreOf s c) p) (p.lanes.map (·.place)) || (p.lanes.any fun l => engineOwns s l.place) ||
      heldByNote s c p then none
  else
    let s := updCore s c fun co => { co with pend := co.pend.filter fun p => decide (p.id < from0) }
    some (new.foldl (fun s p => noteAccess (performAccess (countTraffic s (pendCtx (coreOf s c) p) (p.lanes.map fun l => (l.place, l.len))) c p.kind p.lanes)
      c p p.lanes []) s)
/-- What becomes of a handler word: it ran, it ends the thread's run, or the run must be made later. -/
inductive ShadowOut where | ran (h : SMap Word) (s : State) | ended | later
/-- One handler word for one thread in its shadow registers; it ends the run where it would trap or meet a replayable fault (R341). -/
def shadowWord (s : State) (c sel i : Nat) (w : WG) (base : Nat) (h : SMap Word) (p : Pos) (x : Nat) : ShadowOut :=
  let co := coreOf s c
  match get? co.threads i, decode (BitVec.ofNat 64 x) with
  | some t, .ok ins =>
    match crewOf co t with
    | none => .ended
    | some k =>
      let role := k.role
      let (id, s1) := takeSeq s
      let kern := { w.kern with roles := List.replicate (role + 1) shadowRole }
      let co1 := { co with
        threads := put co.threads i (shadowThread t h p)
        crews := put co.crews t.crew { k with bodies := [] }
        wgs := put co.wgs base { w with kern := kern }
        sels := put co.sels sel { batches := [shadowBatch id w.launch role i p] }
        stop := {} }
      let s1 := setCore s1 c co1
      let s1 := updCtx s1 w.ctx fun q => { q with trcctl := 0 }
      let from0 := s1.seq
      match runMatchWord ins { s1 with cur := some { core := c, sel := sel, batch := id, word := BitVec.ofNat 64 x } } with
      | .next s2 =>
        let past := match findBatch (coreOf s2 c) sel id with | some b => decide (b.pos.step = p.step + 1) | none => false
        if !past then .ended
        else match performNew c from0 s2 with
        | none => .later
        | some s3 =>
          let co3 := coreOf s3 c
          let h' := shadowRepst t ins (threadOf co3 i).v
          let energy := match get? co3.wgs base with | some u => u.energy | none => w.energy
          let back := { co3 with threads := put co3.threads i t, crews := put co3.crews t.crew k, wgs := put co3.wgs base { w with energy := energy },
                                 sels := co.sels, stop := co.stop }
          let s4 := setCore s3 c back
          .ran h' (updCtx { s4 with cur := s.cur } w.ctx fun q => { q with trcctl := (ctxOf s w.ctx).trcctl, issueSpent := (ctxOf s w.ctx).issueSpent })
      | _ => .ended
  | _, _ => .ended
/-- A run that ended early disables the point; a STEP trap of the thread names it (R322, R341). -/
def failPoint (s : State) (c i ctx k : Nat) : State :=
  updCore (updCtx s ctx fun x => { x with matchOff := insertSlot x.matchOff k }) c fun co =>
    updThread co i fun t => if t.stepping then { t with stepArg := k } else t
/-- A thread's workgroup, with its first slot. -/
def threadWG (co : Core) (i : Nat) : Option (Nat × WG) :=
  (get? co.threads i).bind fun t => (crewOf co t).bind fun k => (get? co.wgs k.wg).map fun w => (k.wg, w)
/-- One word of a handler for every thread that still runs it. A thread whose run fails disables the point for later issues; the batch's other
threads still run it at this one (R341; log entry 105). None where an access of the word must wait. -/
def shadowAll (c sel k : Nat) (p : Pos) (word : Nat) : SMap (SMap Word) → State → Option (SMap (SMap Word) × State)
  | [], s => some ([], s)
  | (i, h) :: r, s =>
    match threadWG (coreOf s c) i with
    | none => shadowAll c sel k p word r s
    | some (base, w) =>
      match shadowWord s c sel i w base h p word with
      | .later => none
      | .ended => shadowAll c sel k p word r (failPoint s c i w.ctx k)
      | .ran h' s => (shadowAll c sel k p word r s).map fun (m, s) => ((i, h') :: m, s)
/-- The handlers of some points start for the threads of a batch. -/
def startPoints (s : State) (c : Nat) (slots : List Nat) : List (Nat × Nat) → Option Shadow
  | [] => none
  | (k, f) :: r => some { point := (k, f), rest := r, regs := slots.filterMap fun i => (threadWG (coreOf s c) i).map fun (_, w) => (i, shadowStart s w i k) }
/-- The next word of a point's handler, `ws` its block, if it can be read: the point goes on, or ends with its last word or where no block is. -/
def shadowStep (s : State) (c sel : Nat) (due : List Nat) (x : Shadow) (ctx : Nat) : Option (Option Shadow × State) :=
  let (k, f) := x.point
  let regs := x.regs.filter fun (i, _) => due.contains i
  match rootBlock s ctx f with
  | .ok (some (_, _, ws)) =>
    match ws[x.step]? with
    | none => some (startPoints s c due x.rest, s)
    | some word => (shadowAll c sel k { fn := f, node := 0, step := x.step } word regs s).map fun (m, s) =>
      (if x.step + 1 < ws.length then some { x with step := x.step + 1, regs := m } else startPoints s c due x.rest, s)
  | _ => some (startPoints s c due x.rest, regs.foldl (fun s (i, _) => failPoint s c i ctx k) s)
/-- The batch whose word is about to issue, or one whose match handlers are on their way or still to run. -/
def matchBatch (s : State) (core sel : Nat) : Option Batch :=
  let co := coreOf s core
  match s.cur with
  | some u => if u.core = core ∧ u.sel = sel then findBatch co sel u.batch else none
  | none =>
    let l := (selOf co sel).batches.filter fun b => !(matchDue s co b).isEmpty
    (l.find? fun b => b.shadow.isSome).or l.head?
/-- MATCH_HANDLER (R340): the handlers of a batch's position run for its threads, a word at each event (log entry 26), once the threads' earlier
accesses are performed. -/
def execMatchHandler (core sel : Nat) (s : State) : Out :=
  match matchBatch s core sel with
  | none => .next s
  | some b =>
    let co := coreOf s core
    let due := matchDue s co b
    match due with
    | [] => .next s
    | i :: _ =>
      if stopped co || (co.pend.any fun p => p.lanes.any fun l => due.contains l.slot) then .next s
      else match wgOf co (threadOf co i) with
        | none => .next s
        | some w =>
          match b.shadow.or (startPoints s core due (matchesAt (ctxOf s w.ctx) b.pos)) with
          | none => .next s
          | some x =>
            match shadowStep s core sel due x w.ctx with
            | none => .next s
            | some (y, s) => .next (updCore s core fun co => mapBatch co sel b.id fun b => { b with shadow := y, matched := y.isNone })

end Sys2Proof.Machine
end

