-- ==== Sys2Proof/Machine/Save.lean ====
section
/-! DEFINITION. The saved image of a workgroup: pre-emption, swap-out, halts and their restores (R227, R282, R309, R310, R337, R338). -/
namespace Sys2Proof.Machine

/-! ### Waiting agents move with their workgroup -/

def mapWaiters (s : State) (f : Waiter → Waiter) : State :=
  { s with groups := s.groups.map fun (k, l) => (k, l.map fun g => { g with waiters := g.waiters.map f }) }
def toImage (c img : Nat) (slots : List Nat) (w : Waiter) : Waiter :=
  match w with
  | .lane c' i => if c' = c ∧ i ∈ slots then .imgLane img i else w
  | .walk c' i => if c' = c ∧ i ∈ slots then .imgWalk img i else w
  | .record c' i => if c' = c ∧ i ∈ slots then .imgRecord img i else w
  | _ => w
def fromImage (img c : Nat) (f : Nat → Nat) (w : Waiter) : Waiter :=
  match w with
  | .imgLane m i => if m = img then .lane c (f i) else w
  | .imgWalk m i => if m = img then .walk c (f i) else w
  | .imgRecord m i => if m = img then .record c (f i) else w
  | _ => w

/-! ### Saving -/

/-- The workgroups that are saved or restored with one: its group, those that are resident, or itself. -/
def groupOf (s : State) (core base : Nat) : List (Nat × Nat) :=
  match get? (coreOf s core).wgs base with
  | none => []
  | some w => if w.members.isEmpty then [(core, base)]
    else w.members.filter fun (c, b) => match get? (coreOf s c).wgs b with
      | some u => decide (u.ctx = w.ctx ∧ u.launch = w.launch ∧ u.id / w.members.length = w.id / w.members.length)
      | none => false
/-- What a workgroup has issued is done: its accesses, its copies, its matrix words but for drains that wait for room (R193, R282), and the match
handlers that have begun (R340). -/
def drained (s : State) (c base : Nat) : Bool :=
  let co := coreOf s c
  let slots := slotsOf co base
  !(get? co.wgs base).any (inFlight s c base) && !co.copies.any (fun x => decide (x.wg = base) && x.failed.isNone) &&
  !co.jobs.any (fun j => decide (j.wg = base) && j.read && j.pushes.isEmpty) && !co.late.any (fun (i, _) => slots.contains i) &&
  !co.sels.any fun (_, x) => x.batches.any fun b => b.shadow.isSome && b.slots.any slots.contains
/-- The threads of batches stand at their steps; those that completed the step pass it when they come back. -/
def parkBatch (s : State) (c sel : Nat) (slots : List Nat) (b : Batch) : State :=
  let own := b.slots.filter slots.contains
  if own.isEmpty then s
  else
    let s := updCore s c fun co =>
      let co := if isCrewBatch co b.slots then holdBody co own else co
      unbatch (updThreads co (own.filter b.done.contains) fun t => { t with resume := .passed }) own
    let _ := sel
    deposit s c own b.pos none 0 false
def parkBatches (s : State) (c : Nat) (slots : List Nat) : State :=
  (coreOf s c).sels.foldl (fun s (n, x) => x.batches.foldl (fun s b => parkBatch s c n slots b) s) s
/-- Matrix words that have not read out stop where they stand, as R191 records a stop (R193). -/
def stopJobs (s : State) (c base : Nat) : State :=
  ((coreOf s c).jobs.filter fun j => decide (j.wg = base) && !j.read && !j.held).foldl (fun s j =>
    let row := match get? (coreOf s c).crews j.crew with | some k => startRow k j | none => 0
    updCore s c fun co =>
      let co := recordStop co j.crew j.id (zprogAt j.instr row)
      { co with jobs := co.jobs.map fun y => if y.id = j.id then { y with held := true } else y }) s
def reasonOf (n : Nat) : Option Reason :=
  match n with
  | 1 => some .gather
  | 2 => some .refill
  | 3 => some .replay
  | 4 => some .binding
  | 5 => some .queue
  | 6 => some .barrier
  | 7 => some .counter
  | _ => none
/-- The descriptor of an entry, and the reason that stands behind SWAP in it (R84, R227). -/
def saveEntry (swapped : Bool) (slots : List Nat) (e : Entry) : Option SavedEntry :=
  let l := e.slots.filter slots.contains
  if l.isEmpty then none
  else some { desc := BitVec.ofNat 64 (descriptor (if swapped then { e with reason := some .swap } else e)), slots := l, was := if swapped then e.reason else none }
def SavedEntry.reason (e : SavedEntry) : Option Reason :=
  let n := bits e.desc.toNat 18 4
  if n = 8 then e.was else reasonOf n
def SavedEntry.pos (e : SavedEntry) : Pos := { fn := bits e.desc.toNat 48 16, node := bits e.desc.toNat 32 16, step := bits e.desc.toNat 24 8 }
/-- The entry of threads of a saved one that are ready at its position. -/
def SavedEntry.ready (e : SavedEntry) (slots : List Nat) : SavedEntry :=
  if bits e.desc.toNat 18 4 = 8 then { e with slots := slots, was := none }
  else { e with slots := slots, desc := (e.desc &&& ~~~(BitVec.ofNat 64 (63 * 2 ^ 18))) ||| BitVec.ofNat 64 (2 ^ 22) }
def onlyGroup (slots : List Nat) (g : TrapGroup) : Option TrapGroup :=
  let l := g.items.filter fun (i, _) => slots.contains i
  if l.isEmpty then none else some { g with items := l }
/-- The image of a workgroup on its core (R310); threads in `out` stand in no entry. -/
def imageOf (co : Core) (c base : Nat) (w : WG) (out : List Nat) (swapped halted : Bool) : Image :=
  let slots := slotsOf co base
  let walk := fun (x : Walk) => let l := x.slots.filter slots.contains; if l.isEmpty then none else some { x with slots := l }
  { core := c
    base := base
    wg := { w with swap := none, stopping := false, preempt := false, single := false, sbmark := false }
    crews := (co.crews.filter fun (_, k) => decide (k.wg = base)).map fun (i, k) => (i, { k with affOld := [] })
    threads := (co.threads.filter fun (i, _) => slots.contains i).map fun (i, t) => (i, { t with leaving := [], stepping := false, stepArg := 0 })
    entries := co.entries.filterMap fun (_, e) => saveEntry swapped (minus slots out) e
    cold := co.cold.filterMap (saveEntry swapped (minus slots out))
    tiles := if w.kern.matrix then co.tiles else []
    walks := co.walks.filterMap walk
    traps := (co.stop.pending ++ co.stop.running.toList).filterMap (onlyGroup slots)
    jobs := co.jobs.filter fun j => decide (j.wg = base)
    lastSel := co.lastSel.filter fun (i, _) => slots.contains i
    swapped := swapped
    halted := halted }
/-- A context's HALT bit (R393): a workgroup is halted. -/
def setHalt (s : State) (ctx : Nat) : State := updCtx s ctx fun x => { x with halt := x.images.any fun (_, m) => m.halted }
/-- Where the images of a context end in its save region: they lie one after the other (log entry 112). -/
def imagesEnd (x : Context) : Nat := x.images.foldl (fun n (_, m) => max n (m.off + Config.imageLen m.num)) 0
/-- The address of byte `k` of an image in the context's save region (R309, R392). -/
def imageVA (s : State) (ctx : Nat) (m : Image) (k : Nat) : Int := ((ctxField s ctx 64 57 + m.off + k : Nat) : Int)
/-- The bytes of an image, where the region has pages for them. -/
def writeImageBytes (s : State) (ctx : Nat) (m : Image) : State :=
  writeVA s ctx (imageVA s ctx m 0) ((List.range (Config.imageLen m.num)).map (Config.imageByte m.num))
/-- Whether an image stands as it was saved: the host has edited none of its bytes (R337). -/
def intact (s : State) (ctx : Nat) (m : Image) : Bool :=
  (List.range (Config.imageLen m.num)).all fun k =>
    match vaPlace s ctx (imageVA s ctx m k) with | some p => decide (getByte s p = Config.imageByte m.num k) | none => true
/-- The registers of a thread after an edit of its image. -/
def editedThread (m : Image) (i : Nat) (t : Thread) : Thread :=
  let r := match get? m.crews t.crew with | some k => roleOf m.wg k.role | none => { entry := 0, nv := 0, nm := 0, crews := 0, policy := .fullest }
  let word := Config.editedWord m.num i
  { t with
    v := (List.range r.nv).foldl (fun v k => rput 0 v k (word k)) t.v
    m := (List.range r.nm).foldl (fun v k => rput 0 v k (word (192 + 2 * k) ++ word (193 + 2 * k))) t.m
    x := (List.range 8).foldl (fun v k => rput 0 v k ((word (320 + k)).setWidth 24)) t.x
    p := (word 328).setWidth 7 }
/-- An image as it is restored: with the registers and the scratchpad that an edit has left (log entry 112). -/
def imageNow (s : State) (ctx : Nat) (m : Image) : Image :=
  let ok := intact s ctx m
  let bytes := fun (_ : Unit) => (List.range m.wg.kern.scratch).map fun k => (Config.editedWord m.num 8192 k).setWidth 8
  let scratch := if ok then m.wg.scratch else memWrite m.wg.scratch 0 (bytes ())
  { m with threads := m.threads.map fun (i, t) => (i, if ok then t else editedThread m i t), wg := { m.wg with scratch := scratch } }
/-- A workgroup is saved in its context's save region, and its resources are free. -/
def saveOne (s : State) (c base : Nat) (swapped halted : Bool) : State × Option Nat :=
  match get? (coreOf s c).wgs base with
  | none => (s, none)
  | some w =>
    let slots := slotsOf (coreOf s c) base
    let s := stopJobs (parkBatches s c slots) c base
    let (id, s) := takeSeq s
    let binds := (ctxOf s w.ctx).binds.flatMap fun b => b.waiters.filterMap fun (c', i) => if c' = c ∧ i ∈ slots then some i else none
    let img := imageOf (coreOf s c) c base w binds swapped halted
    -- a thread parked for a binding enters its CALLT node anew
    let again := binds.filterMap fun i => (get? img.threads i).map fun t => ({ slots := [i], act := .enter t.pos.fn t.pos.node } : Walk)
    let (num, s) := takeFresh s
    let img := { img with
      num := num
      off := imagesEnd (ctxOf s w.ctx)
      threads := img.threads.map fun (i, t) => (i, if i ∈ binds then { t with wait := .none } else t)
      walks := img.walks ++ again }
    let s := mapWaiters s (toImage c id slots)
    let s := dropWaits s c slots
    let s := updCore s c fun co => { untrap co slots with jobs := co.jobs.filter fun j => decide (j.wg ≠ base) }
    let s := freeCore s c base
    (setHalt (updCtx (writeImageBytes s w.ctx img) w.ctx fun x => { x with images := put x.images id img }) w.ctx, some id)
def saveAll (l : List (Nat × Nat)) (swapped halted : Bool) (s : State) : State × List Nat :=
  l.foldl (fun (st : State × List Nat) (c, b) => let (s, id) := saveOne st.1 c b swapped halted; (s, st.2 ++ id.toList)) (s, [])
/-- Whether a workgroup may be dropped and run again from the start (R310). -/
def discardable (w : WG) : Bool := w.kern.idem && !w.sticky
/-- A discarded workgroup returns to its launch's unplaced ones. -/
def discardOne (s : State) (c base : Nat) : State :=
  match get? (coreOf s c).wgs base with
  | none => s
  | some w =>
    let slots := slotsOf (coreOf s c) base
    let s := dropWaits s c slots
    let s := updCore s c fun co => { untrap co slots with jobs := co.jobs.filter fun j => decide (j.wg ≠ base) }
    let s := retireWG s c base false
    updLaunch s w.ctx w.launch fun l => { l with live := l.live - 1, unplaced := insertSlot l.unplaced w.id, since := now s }

/-! ### Restoring -/

/-- How the slots of an image move. -/
def shiftSlot (m : Image) (base i : Nat) : Nat := i - m.base + base
def shiftKeys {α : Type} (f : Nat → Nat) (l : SMap α) : SMap α := l.map fun (i, x) => (f i, x)
def shiftRegion (f : Nat → Nat) (r : Region) : Region :=
  { r with depths := shiftKeys f r.depths, run := r.run.map f, rest := r.rest.map fun p => { p with slots := p.slots.map f }, arrived := r.arrived.map f }
def shiftBody (f : Nat → Nat) (b : Body) : Body :=
  { b with depths := shiftKeys f b.depths, slots := b.slots.map f, regions := b.regions.map (shiftRegion f) }
def shiftCrew (f : Nat → Nat) (W base key : Nat) (k : Crew) : Crew :=
  { k with
    wg := base
    num := f key / W
    masks := k.masks.map fun (i, l) => (i, l.map f)
    masksAt := k.masks.map fun (i, l) => (i, l.map f)
    bodies := k.bodies.map (shiftBody f) }
def shiftItems (f : Nat → Nat) (g : TrapGroup) : TrapGroup := { g with items := g.items.map fun (i, x) => (f i, x) }
def shiftJob (f : Nat → Nat) (base : Nat) (j : Job) : Job := { j with wg := base, crew := f j.crew, lanes := j.lanes.map f, issuer := f j.issuer }
/-- Put an entry of the image into the block table of the new core, or on its cold list, its threads waiting as before (R310). -/
def restoreEntry (f : Nat → Nat) (co : Core) (e : SavedEntry) : Core :=
  let slots := e.slots.map f
  match slots.head?.bind (keyOf co) with
  | none => co
  | some (l, role, _) => putEntry co { launch := l, role := role, pos := e.pos, reason := e.reason, level := bits e.desc.toNat 13 5, slots := slots } false
/-- An image is placed on a core at a base: everything it holds comes back, its slots moved. -/
def restoreAt (s : State) (ctx id : Nat) (m : Image) (c base : Nat) : State :=
  let m := imageNow s ctx m
  let f := shiftSlot m base
  let W := widthOf m.wg.kern
  let s := updCore s c fun co =>
    let w := { m.wg with granules := (freeGranules co).take (granulesNeed m.wg.kern), halts := m.wg.halts.map (shiftItems f), single := m.step.isSome }
    let co := pinNew s co ctx m.wg.kern
    let co := { co with
      wgs := put co.wgs base w
      crews := m.crews.foldl (fun l (k, x) => put l (f k) (shiftCrew f W base k x)) co.crews
      threads := m.threads.foldl (fun l (i, t) => put l (f i) { t with crew := f t.crew }) co.threads
      tiles := if m.wg.kern.matrix then m.tiles else co.tiles
      walks := co.walks ++ m.walks.map fun x => { x with slots := x.slots.map f, split := false }
      jobs := co.jobs ++ m.jobs.map (shiftJob f base)
      lastSel := m.lastSel.foldl (fun l (i, n) => put l (f i) n) co.lastSel
      stop := if m.traps.isEmpty then co.stop else { co.stop with pending := co.stop.pending ++ m.traps.map (shiftItems f), resumeAt := none } }
    (m.entries ++ m.cold).foldl (restoreEntry f) co
  let s := mapWaiters s (fromImage id c f)
  setHalt (updCtx s ctx fun x => { x with images := del x.images id }) ctx
/-- The registers in a thread's record, as they can be read now. -/
def recordNow (s : State) (c i : Nat) : Nat := ofBytes (oldRecord s c i)
/-- The threads that a STEP command runs (R338): up to 128 of the position's, lowest slots first, or the body set that stands there. -/
def stepSlots (co : Core) (base : Nat) (p : Pos) : List Nat :=
  let at1 := ((co.entries.map (·.2)) ++ co.cold).filter fun e => decide (e.pos = p ∧ e.reason = none)
  let l := (at1.flatMap (·.slots)).filter fun i => decide (wgKey co i = some base)
  let l := l.foldl insertSlot []
  match l with
  | [] => []
  | i :: _ => match bodyAt co i with | some b => l.filter b.slots.contains | none => l.take 128
/-- The halted threads of a restored workgroup take a RESUME form; for a STEP, those at its position are to run one word. -/
def wakeHalts (s : State) (c base : Nat) (m : Image) : State :=
  match get? (coreOf s c).wgs base with
  | none => s
  | some w =>
    let items := w.halts.flatMap (·.items)
    match m.step with
    | none =>
      match m.form with
      | none => s
      | some form =>
        let s := updCore s c fun co => updWG co base fun w => { w with halts := [] }
        w.halts.foldl (fun s g => resumeAll s c g.sel form (g.items.map fun (i, _) => (i, recordNow s c i))) s
    | some p =>
      let here := items.filter fun (i, _) => match (threadOf (coreOf s c) i).trap with | some x => decide (x.pos = p) && !x.info.node | none => false
      let slots := here.map (·.1)
      let s := resumeAll s c 0 .retry (slots.map fun i => (i, recordNow s c i))
      updCore s c fun co =>
        let keep := fun (g : TrapGroup) =>
          let l := g.items.filter fun (i, _) => !slots.contains i
          if l.isEmpty then none else some { g with items := l }
        let co := updWG co base fun w => { w with halts := w.halts.filterMap keep }
        updThreads co (stepSlots co base p) fun t => { t with stepping := true, stepArg := 0 }
/-- Whether a workgroup id stands in the group of a member of a neighbourhood launch. -/
def inGroup (m : WG) (id : Nat) : Bool := !m.members.isEmpty && decide (id / m.members.length = m.id / m.members.length)
/-- The images that are restored with one: those of its group. -/
def imagesWith (s : State) (ctx : Nat) (m : Image) : List (Nat × Image) :=
  (ctxOf s ctx).images.filter fun (_, x) => (decide (x.wg.launch = m.wg.launch) && inGroup m.wg x.wg.id) || decide (x = m)
/-- The members of its group that were dropped, and run again beside it (R309). -/
def droppedWith (s : State) (ctx : Nat) (m : Image) : List Nat :=
  match launchAt s ctx m.wg.launch with
  | some l => if m.wg.members.isEmpty then [] else l.unplaced.filter (inGroup m.wg)
  | none => []
/-- The cores that an image, or its group, may take now: on its die when the launch holds an allocation there. -/
def restoreCores (s : State) (ctx : Nat) (m : Image) : Option (List Nat) :=
  let held := s.dieAllocs.any fun d => decide (d.ctx = ctx ∧ d.launch = m.wg.launch ∧ d.die = dieOf m.core)
  let may := fun (c : Nat) => (!held || decide (dieOf c = dieOf m.core)) && (!(m.swapped && m.wg.members.isEmpty) || decide (clusterOf c = clusterOf m.core))
  if m.wg.members.isEmpty then (chooseCore s ctx m.wg.launch m.wg.kern may).map fun c => [c]
  else match launchAt s ctx m.wg.launch with
    | none => none
    | some l =>
      let mem := ((imagesWith s ctx m).map fun (_, x) => x.wg.member) ++ (droppedWith s ctx m).map (· % groupSize l)
      chooseRect s ctx m.wg.launch m.wg.kern (recNA l) (recNB l) mem may
/-- Restore images onto the cores of their members; what was placed, by member, core and base. -/
def restoreAll (ctx : Nat) (cores : List Nat) (l : List (Nat × Image)) (s : State) : State × List (Nat × Nat × Nat × Image) :=
  l.foldl (fun (st : State × List (Nat × Nat × Nat × Image)) (id, x) =>
    match (if x.wg.members.isEmpty then cores.head? else cores[x.wg.member]?) with
    | none => st
    | some c => match freeRun (coreOf st.1 c) x.wg.kern with
      | none => st
      | some b => (restoreAt st.1 ctx id x c b, st.2 ++ [(x.wg.member, c, b, x)])) (s, [])
/-- Restore an image with its group onto the cores, the members in their places; the dropped members of the group are placed beside them and
start with them, since all members become eligible in one tick (R306). -/
def restoreOn (s : State) (ctx : Nat) (m : Image) (cores : List Nat) : State :=
  let again := droppedWith s ctx m
  let (s, placed) := restoreAll ctx cores (imagesWith s ctx m) s
  let back := placed.map fun (n, c, b, _) => (n, c, b)
  let s := match launchAt s ctx m.wg.launch with
    | some l =>
      let (s, more) := placeIds s ctx l m.wg.kern cores again
      let s := more.foldl (fun s (_, c, b) => startOne s c b) (setMembers s l cores (back ++ more))
      if again.isEmpty then s else updLaunch s ctx l.arr fun l =>
        { placedIds l again (now s) with starts := put l.starts (dieOf (cores.headD 0)) (now s) }
    | none => s
  placed.foldl (fun s (_, c, b, x) => wakeHalts s c b x) s
/-- Whether an image may return to a core now: dropped members of its group start again beside it, STAGGER ticks after the launch's last start
on the die (R306, R307). -/
def restoreDue (s : State) (ctx : Nat) (m : Image) (core : Nat) : Bool :=
  (droppedWith s ctx m).isEmpty || match launchAt s ctx m.wg.launch with | some l => startDue s l (dieOf core) | none => true
/-- Whether a launch of higher priority in the context is still to be placed where it can be, or one that has waited too long lets nothing else of
the context be placed (R304). Of the images and the waiting launches of one priority, and of several contexts, no rule says which comes first:
an image waits for no launch of its own or a lower priority, and each event takes the context it names (log entry 111). -/
def outranked (s : State) (ctx prio : Nat) : Bool := (waitingLaunches s ctx).any fun l => decide (prio < recPrio l) || l.block

/-! ### Pre-emption (R309) -/

/-- Whether a context may pre-empt others for its share of issue (R309 case 2). -/
def hasShare (s : State) (ctx : Nat) : Bool :=
  decide (bits (ctxOf s ctx).budget.toNat 0 9 < 256) &&
  (List.range Config.nClusters).any fun cl => decide (rget 0 (ctxOf s ctx).issueSpent cl < bits (ctxOf s ctx).budget.toNat 0 9 * 1500)
/-- Launches that wait with room nowhere. -/
def stuckLaunches (s : State) (ctx : Nat) : List Launch := (waitingLaunches s ctx).filter fun l => (nextCores s ctx l).isNone
def residents (s : State) : List (Nat × Nat × WG) := s.cores.flatMap fun (c, co) => co.wgs.map fun (b, w) => (c, b, w)
/-- When a workgroup started; one that waits for its STAGGER starts after every other. -/
def startKey (w : WG) : Nat := if w.started then w.startTick else 2 ^ 64
/-- The lowest priority, and among equals the most recently started; of those that started in one tick, the one on the lowest core at the lowest
base, which no rule says (log entry 110). -/
def victimOf (l : List (Nat × Nat × WG)) : Option (Nat × Nat × WG) :=
  l.foldl (fun b x => match b with
    | none => some x
    | some y => if x.2.2.prio < y.2.2.prio ∨ (x.2.2.prio = y.2.2.prio ∧ startKey y.2.2 < startKey x.2.2) then some x else some y) none
/-- The workgroup that the scheduler pre-empts now, unless one is already on its way. Of several contexts with a stuck launch the lowest-numbered
is served first (log entry 110). -/
def preemptChoice (s : State) : Option (Nat × Nat × WG) :=
  let rs := (residents s).filter fun (_, _, w) => !w.marked
  if rs.any fun (_, _, w) => w.stopping || w.preempt then none
  else match s.ctxs.findSome? fun (x, _) => (stuckLaunches s x).findSome? fun l =>
      victimOf (rs.filter fun (_, _, w) => decide (w.ctx = x ∧ w.prio < recPrio l)) with
    | some v => some v
    | none => s.ctxs.findSome? fun (x, _) => if hasShare s x && !(stuckLaunches s x).isEmpty then victimOf (rs.filter fun (_, _, w) => decide (w.ctx ≠ x)) else none
def stopWG (s : State) (l : List (Nat × Nat)) : State :=
  l.foldl (fun s (c, b) => updCore s c fun co => updWG co b fun w => { w with preempt := true, stopping := true }) s
/-- Whether a workgroup that runs one word for a STEP has run it, all its stepped threads having ended: it halts again (R338). -/
def stepOver (s : State) (c base : Nat) (w : WG) : Bool :=
  let co := coreOf s c
  let slots := slotsOf co base
  w.single && !slots.isEmpty && !slots.any fun i => (threadOf co i).stepping
/-- A stopped workgroup leaves its core: it is dropped where it may be, else saved (R309). -/
def leaveOne (s : State) (c base : Nat) (halted : Bool) : State :=
  match get? (coreOf s c).wgs base with
  | none => s
  | some w => if !halted && discardable w then discardOne s c base else (saveOne s c base false halted).1
/-- PREEMPTION (R309): the chosen workgroup, or group, stops; a stopping one is saved or dropped when it has drained. -/
def execPreemption (core wg : Nat) (s : State) : Out :=
  match get? (coreOf s core).wgs wg with
  | none => .next s
  | some w =>
    if schedHeld s && w.halts.isEmpty && !w.single then .next s
    else if !w.stopping then
      if stepOver s core wg w then .next (stopWG s (groupOf s core wg))
      else match preemptChoice s with
        | some (c, b, _) => if c = core ∧ b = wg then .next (stopWG s (groupOf s core wg)) else .next s
        | none => .next s
    else
      let all := groupOf s core wg
      let halted := all.any fun (c, b) => match get? (coreOf s c).wgs b with | some u => !u.halts.isEmpty || u.single | none => false
      if !all.all fun (c, b) => drained s c b then .next (stopWG s all)
      else
        let s := all.foldl (fun s (c, b) => leaveOne s c b halted) s
        .next (if halted then sendMsix s w.ctx else s)
/-- WORKGROUP_RESTORE (R310): a pre-empted image, or a halted one that the host drives on, is placed again. -/
def execWorkgroupRestore (ctx img core : Nat) (s : State) : Out :=
  match get? (ctxOf s ctx).images img with
  | none => .next s
  | some m =>
    if m.swapped || m.halted || schedHeld s || outranked s ctx m.wg.prio || ((imagesWith s ctx m).any fun (_, x) => x.halted || x.swapped) then .next s
    else match restoreCores s ctx m with
      | some cores => if cores.head? = some core ∧ restoreDue s ctx m core then .next (restoreOn s ctx m cores) else .next s
      | none => .next s

/-! ### Swap-out (R227) -/

/-- WORKGROUP_SWAP_OUT: a workgroup whose fetch waits for a page is saved with its group, and the page is requested for it. -/
def execWorkgroupSwapOut (core wg : Nat) (s : State) : Out :=
  match get? (coreOf s core).wgs wg with
  | none => .next s
  | some w =>
    match w.swap with
    | none => .next s
    | some va =>
      let all := groupOf s core wg
      if leafHeld s (clusterOf core) || !(all.all fun (c, b) => drained s c b) then
        .next (all.foldl (fun s (c, b) => updCore s c fun co => updWG co b fun w => { w with stopping := true }) s)
      else
        let (s, ids) := saveAll all true false s
        match ids with
        | [] => .next s
        | id :: _ => .next (pageFault s (clusterOf core) w.ctx va false (.image w.ctx ((ids[all.idxOf (core, wg)]?).getD id)))
/-- SWAP_RESTORE: when the page has come, the workgroup goes to a core of its cluster, or the group to a rectangle. -/
def execSwapRestore (ctx img core : Nat) (s : State) : Out :=
  match get? (ctxOf s ctx).images img with
  | none => .next s
  | some m =>
    if !m.swapped || !m.arrived || schedHeld s || leafHeld s (clusterOf m.core) || (waitingLaunches s ctx).any (·.block) then .next s
    else match restoreCores s ctx m with
      | some cores => if cores.head? = some core ∧ restoreDue s ctx m core then .next (restoreOn s ctx m cores) else .next s
      | none => .next s

end Sys2Proof.Machine
end

