-- ==== Sys2Proof/Machine/Launch.lean ====
section
/-! DEFINITION. Launch records, their dependences and completion, cancels, budgets and the other writes of a context's control window
(R286, R296-R300, R308, R311-R313, R335-R338, R393, R396, R404). -/
namespace Sys2Proof.Machine

/-- Whether a context exists. -/
def hasCtx (s : State) (ctx : Nat) : Bool := (get? s.ctxs ctx).isSome
/-- A control write to a context that is there; during a hold it is kept in order (R388). -/
def window (s : State) (ctx : Nat) (i : Instr) (go : State → State) : Out :=
  if !hasCtx s ctx then .next s
  else if schedHeld s then .next { s with fw := { s.fw with held := s.fw.held ++ [i] } }
  else .next (go s)

/-! ### Launch records (R296, R297, R396) -/

def recCount (r : List Word64) : Nat := recField r 128 16 * recField r 144 16 * recField r 160 8
/-- Whether the fields of a record are in their ranges. -/
def recordOk (r : List Word64) : Bool :=
  let na := recField r 168 4
  let nb := recField r 172 4
  decide (recField r 505 7 = 0 ∧ recField r 441 7 = 0 ∧ recField r 377 7 = 0 ∧ recField r 121 7 = 0 ∧ recField r 57 7 = 0) &&
  decide (recField r 128 16 ≠ 0 ∧ recField r 144 16 ≠ 0 ∧ recField r 160 8 ≠ 0 ∧ recCount r ≤ 0xFFFFFFFF) &&
  decide (na ≤ 8 ∧ nb ≤ 14 ∧ (na = 0 ↔ nb = 0) ∧ na * nb ≤ 24 ∧ (na ≠ 0 → recCount r % (na * nb) = 0)) &&
  decide (recField r 0 57 % 64 = 0 ∧ recField r 448 57 % 8 = 0 ∧ recField r 320 57 % 8 = 0 ∧ recField r 384 57 % 8 = 0)
/-- Records that still have workgroups to place. -/
def queued (x : Context) : Nat := (x.launches.filter fun l => decide (l.state = .waiting ∨ l.unplaced ≠ [])).length
/-- An appended record, with its kernel where it is valid and the header's page is there (R297). -/
def launchOf (s : State) (ctx arr : Nat) (r : List Word64) : Launch :=
  let ok := recordOk r && namesKernel s ctx (recField r 0 57)
  { arr := arr, record := r, since := now s, valid := ok, kern := if ok then kernelAt s ctx (recField r 0 57) else none }
/-- PUSH (R396): a write of 64 bytes at offset 0 is appended; any other, or one beyond 4,096 unplaced records, is discarded and counted. -/
def execPush (ctx off : Nat) (words : List Word64) (s : State) : Out :=
  if !hasCtx s ctx then .next s
  else if off = 0 ∧ words.length = 8 ∧ queued (ctxOf s ctx) < Config.maxQueue then
    let (arr, s) := takeSeq s
    .next (updCtx s ctx fun x => { x with launches := x.launches ++ [launchOf s ctx arr words], pushCnt := x.pushCnt + 1 })
  else .next (updCtx s ctx fun x => { x with discarded := min (x.discarded + 1) 0xFFFF })

/-! ### Dependences (R300) -/

/-- What a wait-on counter says, read as an acquire: it is satisfied with a status, not satisfied, its page is still to come, or it cannot be read. -/
inductive WaitOn where | yes (status : Nat) | no | page (va : Nat) | lost (va : Nat)
deriving DecidableEq, Repr
def waitOn (s : State) (ctx : Nat) (lost : List Nat) (va target : Nat) : WaitOn :=
  if va = 0 then .yes 0
  else match translateVA s ctx va false with
    | .ok pa sn =>
      let x := readPlace s (.off pa sn) 8
      if target ≤ bits x 0 32 ∧ notedAt s (.off pa sn) 8 = false then .yes (bits x 32 8) else .no
    | .absent => if lost.contains (va / 4096) then .lost va else .page va
    | _ => .lost va
def WaitOn.failed (x : WaitOn) : Bool := match x with | .yes a => decide (a ≠ 0) | _ => false
/-- A launch of the same job, a lower phase and an earlier append has not completed. -/
def phaseHeld (x : Context) (l : Launch) : Bool :=
  x.launches.any fun k => decide (k.arr < l.arr ∧ k.state ≠ .complete ∧ recField k.record 240 16 = recField l.record 240 16 ∧
    recField k.record 224 16 < recField l.record 224 16)
/-- The scheduler cannot read what a launch needs: the launch ends with ERROR, and a context fault is reported, unless the refusal of the page
has reported it already (log entry 33). -/
def loseLaunch (s : State) (ctx : Nat) (l : Launch) (va : Nat) : State :=
  finishLaunch (if l.lost.contains (va / 4096) then s else contextFault s ctx l.arr) ctx l.arr 1
/-- The reads that a waiting launch still needs, in order: a page to come, or one that will not come. -/
def needPage (s : State) (ctx : Nat) (l : Launch) (va : Nat) : State :=
  if l.lost.contains (va / 4096) then loseLaunch s ctx l va else schedFault s ctx l.arr va false
/-- The wait-on counters of a launch (R300): a satisfied one with a status fails it, whatever the other says. -/
def checkWaits (s : State) (ctx : Nat) (l : Launch) : State :=
  let a := waitOn s ctx l.lost (recField l.record 320 57) (recField l.record 256 32)
  let b := waitOn s ctx l.lost (recField l.record 384 57) (recField l.record 288 32)
  if a.failed || b.failed then finishLaunch s ctx l.arr 3
  else match a, b with
    | .lost va, _ | _, .lost va => loseLaunch s ctx l va
    | .page va, _ | _, .page va => schedFault s ctx l.arr va false
    | .yes _, .yes _ =>
      if phaseHeld (ctxOf s ctx) l then s
      else updLaunch s ctx l.arr fun l => { l with state := .eligible, unplaced := List.range (recCount l.record), since := now s }
    | _, _ => s
/-- A record that ends at once: the code of an invalid one, or of one that no core can hold (R297, R303). -/
def atOnce (l : Launch) : Option Nat := if !l.valid then some 5 else if l.kern.any neverFits then some 4 else none
/-- LAUNCH_ELIGIBLE (R297, R300, R303). A launch whose kernel header was not there when it was appended reads it first. -/
def execLaunchEligible (ctx idx : Nat) (s : State) : Out :=
  if schedHeld s then .next s
  else match launchAt s ctx idx with
    | none => .next s
    | some l =>
      match l.state with
      | .complete => .next s
      | .eligible => .next (tryComplete s ctx idx)
      | .waiting =>
        match atOnce l with
        | some code => .next (finishLaunch s ctx idx code)
        | none =>
          if l.kern.isSome then .next (checkWaits s ctx l)
          else match headerPage s ctx (recField l.record 0 57) with
            | some (va, true) => .next (loseLaunch s ctx l va)
            | some (va, false) => .next (needPage s ctx l va)
            | none => .next (updLaunch s ctx idx fun l => { l with kern := kernelAt s ctx (recField l.record 0 57) })

/-! ### Retirement (R219, R313) -/

/-- The sectors of a retiring workgroup's maps that a page does not take: they are lost, and a context fault is reported (R219). -/
def losePage (s : State) (core wg : Nat) (w : WG) (page : Nat) : State :=
  let clean := fun (m : MapSlot) => { m with sectors := m.sectors.map fun (i, x) => (i, if (m.va + 32 * i) / 4096 = page then .clean else x) }
  contextFault (updCore s core fun co => updWG co wg fun w => { w with maps := w.maps.map fun (k, m) => (k, clean m) }) w.ctx w.launch
/-- WORKGROUP_RETIRE (R313): when its threads have ended and all that they issued is done, the workgroup's map slots are written back
and its resources are free. -/
def execWorkgroupRetire (core wg : Nat) (s : State) : Out :=
  let co := coreOf s core
  match get? co.wgs wg with
  | none => .next s
  | some w =>
    if !(w.started || w.marked) || !(slotsOf co wg).isEmpty || inFlight s core wg w ||
        co.copies.any (fun x => decide (x.wg = wg)) || co.jobs.any (fun j => decide (j.wg = wg)) then .next s
    else
      match wbState s w none with
      | .write k i => .next (if sectorHeld s core wg k i then s else writeBack s core wg k i)
      | .wait va =>
        if s.groups.any fun (_, l) => l.any fun g => g.waiters.contains (.retire core wg) then .next s
        else if 4 ≤ pageTries w.fetchTries (va / 4096) then .next (losePage s core wg w (va / 4096))
        else
          let s := updCore s core fun co => updWG co wg fun w => { w with fetchTries := some (va / 4096, pageTries w.fetchTries (va / 4096)) }
          .next (pageFault s (clusterOf core) w.ctx va true (.retire core wg))
      | .fail va => .next (losePage s core wg w (va / 4096))
      | .clean =>
        let s := updLaunch (retireWG s core wg true) w.ctx w.launch fun l => { l with live := l.live - 1 }
        .next (if schedHeld s then s else tryComplete s w.ctx w.launch)

/-! ### Cancel (R308) -/

/-- Whether a cancel names a launch's launch, graph, phase or job. -/
def covers (value : Word64) (l : Launch) : Bool :=
  let id := bits value.toNat 0 16
  match bits value.toNat 62 2 with
  | 0 => decide (recField l.record 192 16 = id)
  | 1 => decide (recField l.record 208 16 = id)
  | 2 => decide (recField l.record 224 16 = id)
  | _ => decide (recField l.record 240 16 = id)
/-- Images of a launch are discarded. -/
def dropImages (s : State) (ctx arr : Nat) : State :=
  ((ctxOf s ctx).images.filter fun (_, m) => decide (m.wg.launch = arr)).foldl (fun s (id, m) =>
    let s := retireRecord s m.core ctx m.wg
    let s := leaveDie s ctx arr (dieOf m.core) true
    let s := updLaunch s ctx arr fun l => { l with live := l.live - 1, status := max l.status 2 }
    setHalt (updCtx s ctx fun x => { x with images := del x.images id }) ctx) s
/-- A launch that a cancel covers. One that ends at once for another reason has that code too (R297, R299, R303). -/
def cancelLaunch (s : State) (ctx : Nat) (l : Launch) : State :=
  let s := match (if l.state = .waiting then atOnce l else none) with | some code => raiseStatus s ctx l.arr code | none => s
  let here := (residents s).filter fun (_, _, w) => decide (w.ctx = ctx ∧ w.launch = l.arr) && !w.marked
  let s := here.foldl (fun s (c, b, _) => endWG s c b) s
  let s := if here.isEmpty then s else raiseStatus s ctx l.arr 2
  let s := dropImages s ctx l.arr
  let s := if l.state = .waiting ∨ l.unplaced ≠ [] then raiseStatus s ctx l.arr 2 else s
  let s := updLaunch s ctx l.arr fun l => { l with state := .eligible, unplaced := [] }
  tryComplete s ctx l.arr
def cancelAll (s : State) (ctx : Nat) (p : Launch → Bool) : State :=
  ((ctxOf s ctx).launches.filter fun l => decide (l.state ≠ .complete) && p l).foldl (fun s l => cancelLaunch s ctx l) s
/-- The launches that a cancel may cover: those appended before it arrived. One that waited for the end of a hold covers no launch pushed
after it, which the queue engine has appended meanwhile (R388, R401). -/
def appended (s : State) (ctx : Nat) (l : Launch) : Bool := match (ctxOf s ctx).heldCancels with | n :: _ => decide (l.arr < n) | [] => true
/-- CANCEL (R308). One that arrives in a hold notes how many records had been appended. -/
def execCancel (ctx : Nat) (value : Word64) (s : State) : Out :=
  if schedHeld s then window (updCtx s ctx fun x => { x with heldCancels := x.heldCancels ++ [s.seq] }) ctx (.cancel ctx value) id
  else window s ctx (.cancel ctx value) fun s =>
    updCtx (cancelAll s ctx fun l => covers value l && appended s ctx l) ctx fun x => { x with heldCancels := x.heldCancels.tail }

/-! ### Budgets (R311, R312) -/

/-- BUDGET_PERIOD: every budget is unspent again, under the records written since; a period that begins during a hold is accounted when it
ends (R388). -/
def execBudgetPeriod (s : State) : Out :=
  if schedHeld s then .next { s with fw := { s.fw with held := s.fw.held ++ [.budgetPeriod] } }
  else .next { s with ctxs := s.ctxs.map fun (k, x) => (k, { x with budget := x.budgetNext, issueSpent := [], memSpent := [], copySpent := 0 }) }
def execBudgetWrite (ctx : Nat) (value : Word64) (s : State) : Out :=
  window s ctx (.budgetWrite ctx value) fun s => updCtx s ctx fun x => { x with budgetNext := value &&& 0x0000FFFFFFFF01FF }

/-! ### Watches, debugging, queues and pre-emption requests -/

def execWatchWrite (ctx k : Nat) (value : Word64) (s : State) : Out :=
  window s ctx (.watchWrite ctx k value) fun s => if k < 4 then updCtx s ctx fun x => { x with watch := rput 0 x.watch k value } else s
/-- The halted workgroup that DBGSEL names (R393). -/
def haltedSel (s : State) (ctx : Nat) : Option (Nat × Image) :=
  let x := ctxOf s ctx
  x.images.find? fun (_, m) => m.halted && decide (m.wg.id = bits x.dbgsel.toNat 0 32 ∧ launchIdOf s ctx m.wg.launch = bits x.dbgsel.toNat 32 16)
def formOf (x : Nat) : ResumeForm := match x with | 0 => .retry | 1 => .skip | 2 => .abandon | _ => .kill
/-- Change the halted image, and those of its group, for their restore. -/
def drive (s : State) (ctx : Nat) (m : Image) (f : Image → Image) : State :=
  let all := (imagesWith s ctx m).map (·.1)
  setHalt (updCtx s ctx fun x => { x with images := x.images.map fun (k, y) => (k, if k ∈ all then f { y with halted := false } else y) }) ctx
/-- DBGCMD CONTINUE (R337): the workgroup is to be restored, its trapping threads taking the form. -/
def execDebugContinue (ctx : Nat) (value : Word64) (s : State) : Out :=
  window s ctx (.debugContinue ctx value) fun s =>
    match haltedSel s ctx with
    | none => s
    | some (_, m) => drive s ctx m fun y => { y with form := some (formOf (bits value.toNat 60 2)), step := none }
/-- Whether some thread of an image waits at a position, or stands there halted. -/
def standsAt (m : Image) (p : Pos) : Bool :=
  (m.entries ++ m.cold).any (fun e => decide (SavedEntry.pos e = p ∧ SavedEntry.reason e = none)) ||
  m.wg.halts.any fun g => g.items.any fun (i, _) => match (get? m.threads i).bind (·.trap) with | some x => decide (x.pos = p) && !x.info.node | none => false
/-- DBGCMD STEP (R338): the workgroup is to be restored for one word at the position; no thread there, no effect. -/
def execDebugStep (ctx : Nat) (value : Word64) (s : State) : Out :=
  window s ctx (.debugStep ctx value) fun s =>
    let p : Pos := { fn := bits value.toNat 24 16, node := bits value.toNat 8 16, step := bits value.toNat 0 8 }
    match haltedSel s ctx with
    | none => s
    | some (_, m) => if standsAt m p then drive s ctx m fun y => { y with form := none, step := some p } else s
def execQctlReopen (ctx q : Nat) (s : State) : Out :=
  window s ctx (.qctlReopen ctx q) fun s =>
    if q < 64 then updCtx s ctx fun x => { x with conts := put x.conts q { rget {} x.conts q with closed := false } } else s
def execQctlClearFull (ctx q : Nat) (s : State) : Out :=
  window s ctx (.qctlClearFull ctx q) fun s =>
    if q < 64 then updCtx s ctx fun x => { x with conts := put x.conts q { rget {} x.conts q with full := 0 } } else s
/-- PREEMPT (R309): the named resident workgroup, with its group, is to be pre-empted. -/
def execPreemptRequest (ctx : Nat) (value : Word64) (s : State) : Out :=
  window s ctx (.preemptRequest ctx value) fun s =>
    match (residents s).find? fun (_, _, w) => decide (w.ctx = ctx ∧ w.id = bits value.toNat 0 32 ∧ launchIdOf s ctx w.launch = bits value.toNat 32 16) && !w.marked with
    | none => s
    | some (c, b, _) => stopWG s (groupOf s c b)

/-! ### Trace control (R404, R407) -/

/-- TRCCTL's new value (R8, R404): the zero fields stay 0 whatever is written; RINGSZ keeps its value while EN was 1, and also where the write
names none of 0-10 (log entry 83). -/
def trcctlAfter (old value : Word64) : Word64 :=
  if old.getLsbD 0 = true ∨ 10 < bits value.toNat 16 4 then (value &&& 0xF00007) ||| (old &&& 0xF0000) else value &&& 0xFF0007
/-- TRCCTL_WRITE: EN := 1 starts a ring anew; where EN was 0, a burst is due from each core, one without a record of the context included
(R407). What was dropped before is reported now that there is room (R408). -/
def execTrcctlWrite (ctx : Nat) (value : Word64) (s : State) : Out :=
  window s ctx (.trcctlWrite ctx value) fun s =>
    let new := trcctlAfter (ctxOf s ctx).trcctl value
    let on := (ctxOf s ctx).trcctl.getLsbD 0
    let s := updCtx s ctx fun x => { x with trcctl := new }
    if new.getLsbD 0 then
      let s := updCtx s ctx fun x => { x with trchead := 0, trctail := 0 }
      let again := fun (co : Core) => match get? co.trace ctx with | some t => { co with trace := put co.trace ctx { t with burst := true } } | none => co
      roomBack (if on then s else { s with cores := s.cores.map fun (c, co) => (c, again co) }) ctx
    else s
/-- SYNC_BURST (R407): a due burst is written, and a due LOST record with the burst after it. -/
def execSyncBurst (core ctx : Nat) (s : State) : Out :=
  if traceOn s ctx && decide (core < Config.nCores) then .next (traceDue s core ctx) else .next s

/-- The registers of the window that have no row of their own (R393, R404): DBGCTL, DBGSEL, FLTAIL, STATE, TRCBASE, TRCTAIL, ENRBASE. A TRCBASE
or ENRBASE without its alignment is ignored (log entry 83). -/
def writeWindow (x : Context) (off : Nat) (value : Word64) : Context :=
  match off with
  | 0x058 => { x with dbgctl := lo32 value &&& 3 }
  | 0x088 => { x with dbgsel := value &&& 0x0000FFFFFFFFFFFF }
  | 0x0A8 => { x with fltail := bits value.toNat 0 32 }
  | 0x0B0 => { x with fault := x.fault && !value.getLsbD 0, flovf := x.flovf && !value.getLsbD 1 }
  | 0x0C8 => if x.trcctl.getLsbD 0 ∨ value.toNat % 4096 ≠ 0 then x else { x with trcbase := value }
  | 0x0D8 => { x with trctail := value }
  | 0x0E0 => if value.toNat % 8 = 0 then { x with enrbase := value } else x
  | _ => x
def execRegisterWrite (ctx off : Nat) (value : Word64) (s : State) : Out :=
  window s ctx (.registerWrite ctx off value) fun s =>
    let s := updCtx s ctx fun x => writeWindow x off value
    if off = 0x0D8 then roomBack s ctx else s

/-- What function `f` reads at an offset of the window of a context in its BAR2 (R391, R393, R404): 0 where it does not own the context. A read
changes nothing. HOST_ACCESS makes it, while the module runs (R389). -/
def windowRead (s : State) (f ctx off : Nat) : Word64 :=
  match get? s.ctxs ctx with
  | none => 0
  | some x =>
    if ctxField s ctx 358 6 ≠ f then 0
    else match off with
      | 0x040 => BitVec.ofNat 64 (pieceAt 0 32 x.pushCnt + pieceAt 32 16 x.discarded)
      | 0x050 => x.budgetNext
      | 0x058 => BitVec.ofNat 64 x.dbgctl.toNat
      | 0x060 => rget 0 x.watch 0
      | 0x068 => rget 0 x.watch 1
      | 0x070 => rget 0 x.watch 2
      | 0x078 => rget 0 x.watch 3
      | 0x088 => x.dbgsel
      | 0x0A0 => BitVec.ofNat 64 x.flhead
      | 0x0A8 => BitVec.ofNat 64 x.fltail
      | 0x0B0 => BitVec.ofNat 64 (encBool x.fault + 2 * encBool x.flovf + 4 * encBool x.halt)
      | 0x0C0 => x.trcctl
      | 0x0C8 => x.trcbase
      | 0x0D0 => x.trchead
      | 0x0D8 => x.trctail
      | 0x0E0 => x.enrbase
      | _ => 0

end Sys2Proof.Machine
end

