-- ==== Sys2Proof/Machine/Paging.lean ====
section
/-! DEFINITION. Page-request groups and the host's responses (R224, R226, R227, R397, R416), and the answers to binding requests (R372). -/
namespace Sys2Proof.Machine

/-! ### The groups of a cluster (R226) -/

def groupAt (s : State) (cluster gid : Nat) : Option PageGroup := (rget [] s.groups cluster).find? fun g => decide (g.id = gid)
def updGroup (s : State) (cluster gid : Nat) (f : PageGroup → PageGroup) : State :=
  { s with groups := modify s.groups cluster fun l => l.map fun g => if g.id = gid then f g else g }
def dropGroup (s : State) (cluster gid : Nat) : State :=
  { s with groups := modify s.groups cluster fun l => l.filter fun g => decide (g.id ≠ gid) }
/-- PAGE_GROUP_CLOSE: 64 ticks after the group's first fault; the 32nd page closes it in `PageGroup.addPage`. -/
def execPageGroupClose (cluster gid : Nat) (s : State) : Out :=
  if leafHeld s cluster then .next s
  else match groupAt s cluster gid with
    | none => .next s
    | some g => if g.state = .opened ∧ g.first + Config.groupTicks ≤ now s then .next (updGroup s cluster gid fun g => { g with state := .closed }) else .next s
/-- The requests of a group: one for each distinct page and access kind. -/
def requestsOf (g : PageGroup) : Nat := g.pages.length
def funcOf (s : State) (ctx : Nat) : Nat := ctxField s ctx 358 6
/-- Whether a group of the same function was formed before and still waits to be issued (R397). -/
def waitsBefore (s : State) (g : PageGroup) : Bool :=
  s.groups.any fun (_, l) => l.any fun h => decide (h.id < g.id ∧ h.state ≠ .issued ∧ funcOf s h.ctx = funcOf s g.ctx)
/-- PAGE_GROUP_ISSUE: a closed group is issued whole once the function's allocation has room, in the order of formation (R226, R397). -/
def execPageGroupIssue (cluster gid : Nat) (s : State) : Out :=
  if leafHeld s cluster then .next s
  else match groupAt s cluster gid with
    | none => .next s
    | some g =>
      let f := funcOf s g.ctx
      let used := rget 0 s.pageUsed f + requestsOf g
      if g.state = .closed ∧ used ≤ min 1024 (rget 0 s.pageAlloc f) ∧ waitsBefore s g = false then
        .next (updGroup { s with pageUsed := rput 0 s.pageUsed f used } cluster gid fun g => { g with state := .issued })
      else .next s

/-! ### What a response resolves -/

/-- A lane that waited replays its word, or raises the refusal's code (R224, R226). -/
def answerLane (ok : Bool) (t : Thread) : Thread :=
  let (vals, k) := match t.resume with | .replay v k => (v, k) | _ => ([], 0)
  { t with wait := .ready, resume := if ok then .replay vals (k + 1) else .refused vals 0 }
/-- A thread whose frame, table or record access waited makes it again; a refusal counts as a fifth Success. -/
def answerWalk (ok : Bool) (t : Thread) : Thread := { t with wait := .none, tries := if ok then t.tries + 1 else 5 }
/-- The lanes of a crew batch that its matrix word holds with the lane: they replay it together (R191). -/
def matesOf (co : Core) (slot : Nat) (t : Thread) : List Nat :=
  (co.threads.filter fun (i, u) => decide (i ≠ slot ∧ u.crew = t.crew ∧ u.pos = t.pos ∧ u.wait = .ready) && decide (heldFor co i = some .replay)).map (·.1)
def resolveLane (s : State) (ok : Bool) (c i : Nat) : State :=
  let co := coreOf s c
  match get? co.threads i with
  | none => s
  | some t =>
    if t.wait ≠ .page then s
    else wake (updCore s c fun co => updThread co i (answerLane ok)) c (i :: matesOf co i t)
def resolveWalk (s : State) (ok : Bool) (c i : Nat) (w : Wait) : State :=
  match get? (coreOf s c).threads i with
  | none => s
  | some t => if t.wait ≠ w then s else updCore s c fun co => updThread (unentry co [i]) i (answerWalk ok)
/-- The same on the saved image of a workgroup. -/
def updImage (s : State) (ctx img : Nat) (f : Image → Image) : State := updCtx s ctx fun x => { x with images := modify x.images img f }
/-- Slots of an image leave its entries that wait for a page, and stand ready there if they go on at their step. -/
def releaseImage (slots : List Nat) (ready : Bool) (m : Image) : Image :=
  let one := fun (e : SavedEntry) =>
    let l := e.slots.filter slots.contains
    if SavedEntry.reason e ≠ some .replay ∨ l = [] then [e]
    else
      let rest := minus e.slots l
      (if rest.isEmpty then [] else [{ e with slots := rest }]) ++ if ready then [SavedEntry.ready e l] else []
  { m with entries := m.entries.flatMap one, cold := m.cold.flatMap one }
def imageLane (ok : Bool) (i : Nat) (m : Image) : Image :=
  match get? m.threads i with
  | none => m
  | some t =>
    if t.wait ≠ .page then m
    else
      let mates := (m.threads.filter fun (j, u) => decide (j ≠ i ∧ u.crew = t.crew ∧ u.pos = t.pos ∧ u.wait = .ready) &&
        (m.entries ++ m.cold).any fun e => decide (SavedEntry.reason e = some .replay) && e.slots.contains j).map (·.1)
      let threads := modify m.threads i (answerLane ok)
      let done := fun (l : SMap Thread) (j : Nat) => modify l j fun u => { u with wait := .none }
      releaseImage (i :: mates) true { m with threads := (i :: mates).foldl done threads }
def imageWalk (ok : Bool) (i : Nat) (w : Wait) (m : Image) : Image :=
  match get? m.threads i with
  | none => m
  | some t => if t.wait ≠ w then m else releaseImage [i] false { m with threads := modify m.threads i (answerWalk ok) }
/-- A page that a fetch waited for: the image may be restored; the Successes for that page are counted, a refusal as the fourth (R226, R227). -/
def imageArrived (ok : Bool) (m : Image) : Image :=
  let last := match m.wg.fetchTries with | some x => x | none => (0, 0)
  { m with arrived := true, wg := { m.wg with fetchTries := some (last.1, if ok then last.2 + 1 else 4) } }
/-! ### Binding (R372) -/

/-- The threads of a core that wait for an entry. -/
def boundSlots (co : Core) (ctx va : Nat) : List Nat :=
  (co.threads.filter fun (_, t) => decide (t.wait = .entry va) && (match wgOf co t with | some w => decide (w.ctx = ctx) | none => false)).map (·.1)
/-- Threads by the node where they stand and the selector they last left (R317). -/
def groupByPos (co : Core) (slots : List Nat) : List ((Pos × Nat) × List Nat) :=
  slots.foldl (fun out i =>
    let p := ((threadOf co i).pos, rget 0 co.lastSel i)
    if out.any fun x => decide (x.1 = p) then out.map fun x => if x.1 = p then (p, x.2 ++ [i]) else x else out ++ [(p, [i])]) []
/-- Parked threads run the CALLT again: they read the table anew (R69, R99). -/
def bindCore (ctx va : Nat) (s : State) (c : Nat) : State :=
  let co := coreOf s c
  (groupByPos co (boundSlots co ctx va)).foldl (fun s (p, l) => updCore s c fun co =>
    let co := updThreads (unentry co l) l fun t => { t with wait := .none }
    toWalker co p.2 l (.enter p.1.fn p.1.node)) s
/-- Parked threads raise ILLEGAL at their CALLT nodes, with their indices; where the node's record is not there, they run the CALLT again, which
fetches it, and ask anew. -/
def unboundCore (ctx va : Nat) (s : State) (c : Nat) : State :=
  let co := coreOf s c
  (groupByPos co (boundSlots co ctx va)).foldl (fun s (p, l) =>
    let nv := match l.head?.bind (keyOf co) with | some (_, role, w) => (roleOf w role).nv | none => 0
    let s' := updCore s c fun co => updThreads (unentry co l) l fun t => { t with wait := .none }
    match nodeAt s ctx p.1.fn p.1.node nv with
    | .ok r =>
      let rec0 := r.getD { raw := 0 }
      let idx := fun (i : Nat) => ((threadOf co i).getV (rec0.field 48 8)).toNat
      nodeTrap s' c p.1.fn p.1.node p.2 rec0.raw (l.map fun i => (i, cIllegal, [idx i], 0))
    | _ => updCore s' c fun co => toWalker co p.2 l (.enter p.1.fn p.1.node)) s
/-- The entry of a call table, bound: FUNC set, UNRESOLVED clear, the other bits kept (R371, R372). -/
def boundEntry (e fn : Nat) : Nat := e / 2 ^ 17 * 2 ^ 17 + fn % 65536
def dropBind (s : State) (ctx va : Nat) : State := updCtx s ctx fun x => { x with binds := x.binds.filter fun b => decide (b.va ≠ va) }
/-- The request is refused: every parked thread raises ILLEGAL. -/
def refuseBind (s : State) (ctx va : Nat) : State := (keys s.cores).foldl (unboundCore ctx va) (dropBind s ctx va)
/-- The entry is written, unless it has been cleared already, before any parked thread goes on (R99, R372). A page of it that is absent is
requested first; one that cannot be written makes the answer a refusal (log entry 99). -/
def answerBind (s : State) (ctx : Nat) (b : Binding) (fn : Nat) : State :=
  match translateVA s ctx b.va true with
  | .ok pa sn =>
    let e := readPlace s (.off pa sn) 8
    let s := if bits e 16 1 = 1 then storeSys s ctx b.va (toBytes 8 (boundEntry e fn)) else s
    (keys s.cores).foldl (bindCore ctx b.va) (dropBind s ctx b.va)
  | .absent =>
    if 4 ≤ b.tries then refuseBind s ctx b.va
    else pageFault (updCtx s ctx fun x => { x with binds := x.binds.map fun y => if y.va = b.va then { y with answer := some fn } else y }) 0 ctx b.va true (.bind b.va)
  | _ => refuseBind s ctx b.va
/-- The page of an entry whose answer waits has come, or is refused. -/
def resolveBind (s : State) (ctx va : Nat) (ok : Bool) : State :=
  match (ctxOf s ctx).binds.find? fun b => decide (b.va = va) with
  | none => s
  | some b => match b.answer with
    | none => s
    | some fn =>
      if !ok then refuseBind s ctx va
      else
        let b := { b with tries := b.tries + 1 }
        answerBind (updCtx s ctx fun x => { x with binds := x.binds.map fun y => if y.va = va then b else y }) ctx b fn

/-! ### A response (R226) -/

def resolve (ctx : Nat) (ok : Bool) (s : State) (w : Waiter) : State :=
  match w with
  | .lane c i => resolveLane s ok c i
  | .walk c i => resolveWalk s ok c i .page
  | .record c i => resolveWalk s ok c i .record
  | .cmd c id =>
    match (coreOf s c).copies.find? fun x => decide (x.id = id) with
    | none => s
    | some x => if ok then updCmd s c id fun y => { y with tries := y.tries + 1, parked := false } else failCmd s c x 7
  | .bulk id => updBulk s id fun y => { y with tries := y.tries + 1, parked := false, failed := if ok then y.failed else some 7 }
  | .fetch _ _ => s
  | .image x img => updImage s x img (imageArrived ok)
  | .sched x arr => if ok then s else contextFault (updLaunch s x arr fun l => { l with lost := l.lost ++ l.asked.toList }) x arr
  | .retire c k => updCore s c fun co => updWG co k fun w => { w with fetchTries := w.fetchTries.map fun (p, n) => (p, if ok then n + 1 else 4) }
  | .bind va => resolveBind s ctx va ok
  | .imgLane img i => updImage s ctx img (imageLane ok i)
  | .imgWalk img i => updImage s ctx img (imageWalk ok i .page)
  | .imgRecord img i => updImage s ctx img (imageWalk ok i .record)
def setField (w lo n : Nat) (v : Int) : Nat := w - bits w lo n * 2 ^ lo + (v % (2 ^ n : Int)).toNat * 2 ^ lo
/-- The host writes bytes at VAs of a context at scope system: the device's own copies of their lines go first (R202, R235). -/
def hostWriteVA (s : State) (ctx va : Nat) : List Byte → State
  | [] => s
  | b :: r =>
    let s := match pageAt (ctxOf s ctx).pages va with
      | some p => let pa := p.pa + (va - p.va); let s := cleanLine s (pa / 64) false; { s with mem := memPut s.mem pa b }
      | none => s
    hostWriteVA s ctx (va + 1) r
/-- An entry of another object that is bound to one of `n` functions from `lo` on awaits binding again: at once, or when its page is there. -/
def unbindEntry (s : State) (ctx lo n va : Nat) : State :=
  match pageAt (ctxOf s ctx).pages va with
  | none => updCtx s ctx fun x => { x with unbinds := x.unbinds ++ [(va, lo, n)] }
  | some p =>
    let e := memRead (cleanLine s ((p.pa + (va - p.va)) / 64) false).mem (p.pa + (va - p.va)) 8
    if bits e 16 1 = 0 ∧ lo ≤ e % 65536 ∧ e % 65536 < lo + n then hostWriteVA s ctx va (toBytes 8 (setField e 0 17 65536)) else s
/-- Pages that the host supplies replace those they cover; entries there that an unload has unbound become UNRESOLVED (R373). -/
def addPages (s : State) (ctx : Nat) (maps : List PageMap) : State :=
  let covered := fun (p : PageMap) => maps.any fun m => decide (m.va ≤ p.va ∧ p.va + 2 ^ p.log2 ≤ m.va + 2 ^ m.log2)
  (ctxOf s ctx).unbinds.foldl (fun s (va, lo, n) => unbindEntry s ctx lo n va)
    (updCtx s ctx fun x => { x with pages := maps ++ x.pages.filter fun p => !covered p, unbinds := [] })
/-- The launch of an agent that waits on a group. -/
def waiterLaunch (s : State) (ctx : Nat) (w : Waiter) : Option Nat :=
  let ofSlot := fun (c i : Nat) => (wgOf (coreOf s c) (threadOf (coreOf s c) i)).map (·.launch)
  let ofImage := fun (x img : Nat) => (get? (ctxOf s x).images img).map (·.wg.launch)
  match w with
  | .lane c i | .walk c i | .record c i => ofSlot c i
  | .cmd c id => ((coreOf s c).copies.find? fun x => decide (x.id = id)).map (·.launch)
  | .bulk id => (s.bulks.find? fun x => decide (x.id = id)).map (·.launch)
  | .fetch c k | .retire c k => (get? (coreOf s c).wgs k).map (·.launch)
  | .image x img => ofImage x img
  | .sched _ arr => some arr
  | .bind _ => none
  | .imgLane img _ | .imgWalk img _ | .imgRecord img _ => ofImage ctx img
/-- Response Failure: the context is reported as faulted, in the launches of the agents that waited (R226, R299). -/
def faultGroup (s : State) (g : PageGroup) (arrs : List Nat) : State :=
  sendMsix (arrs.foldl (fun s a => raiseStatus s g.ctx a 1) (updCtx s g.ctx fun x => { x with fault := true })) g.ctx
/-- PAGE_RESPONSE (R226): one response resolves every agent that waits on the group; `maps` are the pages present from then on. -/
def execPageResponse (cluster gid : Nat) (reply : PageReply) (maps : List PageMap) (s : State) : Out :=
  match groupAt s cluster gid with
  | none => .next s
  | some g =>
    if g.state ≠ .issued then .next s
    else if leafHeld s cluster then .next { s with fw := { s.fw with held := s.fw.held ++ [.pageResponse cluster gid reply maps] } }
    else
      let f := funcOf s g.ctx
      let s := addPages s g.ctx maps
      let s := dropGroup { s with pageUsed := rput 0 s.pageUsed f (rget 0 s.pageUsed f - requestsOf g) } cluster gid
      let arrs := g.waiters.filterMap (waiterLaunch s g.ctx)
      let s := g.waiters.foldl (resolve g.ctx (decide (reply = .success))) s
      .next (if reply = .failure then faultGroup s g arrs else s)

/-- BINDING_RESPONSE (R372): the host's answer, an index or a refusal. -/
def execBindingResponse (ctx va : Nat) (answer : Option Nat) (s : State) : Out :=
  window s ctx (.bindingResponse ctx va answer) fun s =>
    match (ctxOf s ctx).binds.find? fun b => decide (b.va = va) with
    | none => s
    | some b =>
      if b.answer.isSome then s
      else match answer with
        | none => refuseBind s ctx va
        | some fn => answerBind s ctx b fn

end Sys2Proof.Machine
end

