-- ==== Sys2Proof/Machine/Objects.lean ====
section
/-! DEFINITION. Code objects: the container, the relocations, the checks of the loader, acceptance and unloading (R358-R373). -/
namespace Sys2Proof.Machine

/-! ### The container (R358-R361) -/

/-- `n` bytes from an offset, little-endian; bytes past the end read 0. -/
def leAt (l : List Byte) (o n : Nat) : Nat := ofBytes ((l.drop o).take n)
/-- A rejection: the status and the index of what failed (R369). -/
abbrev Load (α : Type) := Except (Nat × Nat) α
def stFormat : Nat := 1
def stTarget : Nat := 2
def stHeader : Nat := 3
def stCode : Nat := 4
def stReloc : Nat := 5
def stUndefined : Nat := 6
def stDuplicate : Nat := 7
def stSpace : Nat := 8
def reject {α : Type} (st idx : Nat) : Load α := .error (st, idx)
def must (ok : Bool) (st idx : Nat) : Load Unit := if ok then .ok () else .error (st, idx)

/-- A section of the table: its kind, its target and its bytes. -/
structure Section where
  kind : Nat
  target : Nat
  bytes : List Byte
def isPortable (x : Section) : Bool := decide (1 ≤ x.kind ∧ x.kind ≤ 4)
def isNative (x : Section) : Bool := decide (16 ≤ x.kind ∧ x.kind ≤ 21)
/-- One row of the section table, when it is well formed. -/
def sectionAt (file : List Byte) (o : Nat) : Option Section :=
  let x := leAt file o 32
  let (size, off, kind, target) := (bits x 192 64, bits x 128 64, bits x 0 8, bits x 8 8)
  let s : Section := { kind := kind, target := target, bytes := (file.drop off).take size }
  if bits x 16 112 = 0 ∧ off % 64 = 0 ∧ off + size ≤ file.length ∧ ((isPortable s ∧ target = 0) ∨ (isNative s ∧ 6 ≤ target)) then some s else none
def distinctKeys : List Section → Bool
  | [] => true
  | x :: r => !(r.any fun y => decide (y.kind = x.kind ∧ y.target = x.target)) && distinctKeys r
/-- The sections of a container; none where it breaks the format. -/
def sectionsOf (file : List Byte) : Option (List Section) :=
  let h := leAt file 0 64
  let n := bits h 32 16
  let o := bits h 0 32
  if 64 ≤ file.length ∧ bits h 128 384 = 0 ∧ bits h 48 8 = 0 ∧ bits h 56 8 = 1 ∧ 1 ≤ n ∧ n ≤ 64 ∧ o % 64 = 0 ∧ o + 32 * n ≤ file.length ∧
      bits h 64 64 % 65536 = 0 ∧ bits h 64 64 < 2 ^ 57 then
    let l := (List.range n).filterMap fun i => sectionAt file (o + 32 * i)
    if l.length = n ∧ distinctKeys l then some l else none
  else none
def sectionOf (l : List Section) (kind target : Nat) : List Byte :=
  match l.find? fun x => decide (x.kind = kind ∧ x.target = target) with | some x => x.bytes | none => []
/-- The generation whose native set runs (R360): LN7's own, else LN6's. -/
def chosenGen (l : List Section) : Option Nat :=
  [7, 6].find? fun g => l.any fun x => isNative x && decide (x.target = g)

/-- A row of the function table (R361). -/
structure FnRow where
  nodes : Nat
  nn : Nat
  code : Nat
  nw : Nat
/-- A symbol (R367). -/
structure Sym where
  name : List Byte
  kind : Nat
  value : Nat
  exported : Bool
/-- A relocation record (R368). -/
structure Reloc where
  addend : Int
  place : Nat
  sym : Nat
  bit : Nat
  ty : Nat
  seg : Bool
/-- A native set. -/
structure Native where
  img : List Byte
  seg : List Byte
  fns : List FnRow
  syms : List Sym
  rels : List Reloc
def fnRow (img : List Byte) (x : Nat) : Option FnRow :=
  let r : FnRow := { nodes := bits x 0 32, nn := bits x 32 17, code := bits x 64 32, nw := bits x 96 32 }
  if r.nodes % 16 = 0 ∧ 1 ≤ r.nn ∧ r.nn ≤ 65536 ∧ bits x 49 15 = 0 ∧ r.code % 8 = 0 ∧ r.nodes + 16 * r.nn ≤ img.length ∧
      r.code + 8 * r.nw ≤ img.length then some r else none
/-- The name at an offset of the string section, up to a zero byte (log entry 34). -/
def nameAt (strs : List Byte) (o : Nat) : List Byte := (strs.drop o).takeWhile fun b => decide (b ≠ 0)
def symRow (strs : List Byte) (nfn x : Nat) : Option Sym :=
  let k := bits x 24 8
  let v := bits x 64 64
  if bits x 0 23 = 0 ∧ k ≤ 5 ∧ (k = 0 → bits x 23 1 = 0) ∧ (k = 3 → v < nfn) ∧ bits x 32 32 ≤ strs.length then
    some { name := nameAt strs (bits x 32 32), kind := k, value := v, exported := decide (bits x 23 1 = 1) }
  else none
def relRow (x : Nat) : Reloc :=
  { addend := sextNat (bits x 64 64) 64, place := bits x 32 32, sym := bits x 12 20, bit := bits x 6 6, ty := bits x 2 4, seg := decide (bits x 1 1 = 1) }
/-- The rows of a table of 16-byte records; none where one of them is bad. -/
def rowsOf {α : Type} (l : List Byte) (f : Nat → Option α) : Option (List α) :=
  let rs := (List.range (l.length / 16)).filterMap fun i => f (leAt l (16 * i) 16)
  if l.length % 16 = 0 ∧ rs.length = l.length / 16 then some rs else none
/-- The native set of a generation; FORMAT where it breaks R361, R367 or the fixed bits of R368, and where its function table is empty, which no
rule says (log entry 114). -/
def nativeOf (l : List Section) (g : Nat) : Option Native :=
  let img := sectionOf l 0x10 g
  let seg := sectionOf l 0x11 g
  let strs := sectionOf l 0x15 g
  match rowsOf (sectionOf l 0x12 g) (fnRow img) with
  | none => none
  | some fns =>
    match rowsOf (sectionOf l 0x13 g) (symRow strs fns.length), rowsOf (sectionOf l 0x14 g) (fun x => if bits x 0 1 = 0 then some (relRow x) else none) with
    | some syms, some rels => if seg.length < 2 ^ 31 ∧ fns.length ≠ 0 then some { img := img, seg := seg, fns := fns, syms := syms, rels := rels } else none
    | _, _ => none
/-- The portable levels present, highest first: tile, loop, scalar; the cross-reference section is no level (R359, R360). -/
def portableOf (l : List Section) : List Nat := [1, 2, 3].filter fun k => l.any fun x => decide (x.kind = k)
/-- The container's native set for LN7 (R360): its own, an older one, or what the host translator makes of the highest portable level it
understands. -/
def pickNative (file : List Byte) : Load Native :=
  match sectionsOf file with
  | none => reject stFormat 0
  | some l =>
    match chosenGen l with
    | some g => match nativeOf l g with | some n => .ok n | none => reject stFormat 0
    | none =>
      match (portableOf l).findSome? fun k => Config.translate k file with
        | none => reject stTarget 0
        | some t => match (sectionsOf t).bind fun l => nativeOf l 7 with | some n => .ok n | none => reject stFormat 0

/-! ### Relocation (R367-R371) -/

/-- Where the loader puts an object: the image base, the segment base, and the function base. -/
structure At where
  base : Nat
  seg : Nat
  fbase : Nat
/-- What the accepted objects of a context export under a name: the value, and whether it is a function. -/
def exportOf (x : Context) (name : List Byte) : Option (Nat × Bool) :=
  (x.objs.flatMap (·.exports)).findSome? fun (n, v) => if n = name then some v else none
/-- A table's word count and its entries' offsets (R69). -/
def tableSyms (n : Native) : List Nat := (n.syms.filter fun y => decide (y.kind = 5)).map (·.value)
def tableEntries (seg : List Byte) (t : Nat) : List Nat :=
  (List.range (leAt seg t 4)).map fun i => t + 8 + 8 * i
/-- Whether the entry at a segment offset is that of a symbol: it is relocated against it, or it awaits it (R370, R371). -/
def entryNames (n : Native) (o sym : Nat) : Bool :=
  (n.rels.any fun r => r.seg && decide (r.place = o ∧ r.sym = sym ∧ (r.ty = 1 ∨ (r.ty = 6 ∧ r.bit = 0)))) ||
  (decide (bits (leAt n.seg o 8) 16 1 = 1 ∧ bits (leAt n.seg o 8) 40 24 = sym) && !n.rels.any fun r => r.seg && decide (r.place = o))
/-- The offset of a symbol's entry in a table with data entries after its function entries (R370; log entry 34). -/
def gotEntry (n : Native) (sym : Nat) : Option Nat :=
  (tableSyms n).findSome? fun t =>
    let data := ((List.range ((n.seg.length - t) / 8)).map fun i => t + 8 + 8 * (leAt n.seg t 4 + i)).takeWhile fun o =>
      n.rels.any fun r => r.seg && decide (r.place = o ∧ r.ty = 1)
    (tableEntries n.seg t ++ data).find? fun o => entryNames n o sym
/-- S of a relocation (R367). -/
def symValue (x : Context) (a : At) (n : Native) (r : Reloc) (idx : Nat) : Load Nat :=
  match n.syms[r.sym]? with
  | none => reject stReloc idx
  | some y =>
    if r.ty = 4 ∨ r.ty = 5 then match gotEntry n r.sym with | some o => .ok o | none => reject stReloc idx
    else match y.kind with
      | 0 => match exportOf x y.name with | some (v, _) => .ok v | none => reject stUndefined idx
      | 1 => .ok (a.base + y.value)
      | 3 => .ok (if r.ty = 1 then a.fbase + y.value else y.value)
      | _ => .ok y.value
/-- The field that a relocation writes: its lowest bit and its width. -/
def relField (r : Reloc) : Nat × Nat :=
  match r.ty with
  | 1 => (0, 64)
  | 2 | 4 => (20, 20)
  | 3 | 5 => (0, 22)
  | 6 => (r.bit, 16)
  | _ => (17, 31)
def isAih (x : Nat) : Bool := match decode (BitVec.ofNat 64 x) with | .ok (.aih ..) => true | _ => false
def isAil (x : Nat) : Bool := match decode (BitVec.ofNat 64 x) with | .ok (.ail ..) => true | _ => false
/-- Whether the place holds the kind of word that the type fills. -/
def placeOk (n : Native) (r : Reloc) (w : Nat) : Bool :=
  let inCode := !r.seg && n.fns.any fun f => decide (f.code ≤ r.place ∧ r.place + 8 ≤ f.code + 8 * f.nw)
  match r.ty with
  | 1 => true
  | 2 | 4 => inCode && isAih w
  | 3 | 5 => inCode && isAil w
  | 6 => decide (r.bit ≤ 48)
  | _ => !r.seg && n.fns.any fun f => decide (f.nodes ≤ r.place ∧ r.place + 16 ≤ f.nodes + 16 * f.nn ∧ (r.place - f.nodes) % 16 = 0) &&
      decide (bits (leAt n.img (r.place + 8) 8) 60 4 = 6)
/-- The value that a relocation writes, or none where R368 rejects it. -/
def relValue (n : Native) (a : At) (r : Reloc) (v : Int) : Option Int :=
  let h := (v + 0x800) / 4096
  let kind := (n.syms[r.sym]?).map (·.kind)
  match r.ty with
  | 1 => if 0 ≤ v ∧ v < (2 ^ 64 : Int) then some v else none
  | 2 | 4 => if -524288 ≤ h ∧ h ≤ 524287 then some h else none
  | 3 | 5 => some (sextNat (v % 4096).toNat 12)
  | 6 => if kind = some 3 ∧ 0 ≤ v ∧ v < n.fns.length then some (a.fbase + v) else none
  | 7 => if kind = some 5 ∧ v % 8 = 0 ∧ 0 ≤ v ∧ v < (2 ^ 31 : Int) then some v else none
  | _ => none
def patch (l : List Byte) (o x : Nat) : List Byte := l.take o ++ toBytes 8 x ++ l.drop (o + 8)
/-- Whether two relocations write a common bit. -/
def relClash (r q : Reloc) : Bool :=
  let (a, n) := relField r
  let (b, k) := relField q
  decide (r.seg = q.seg ∧ r.place = q.place ∧ a < b + k ∧ b < a + n)
/-- Apply the records in order; `done` are those applied (R369). -/
def relocate (x : Context) (a : At) (n : Native) : List Reloc → List Reloc → Nat → List Byte × List Byte → Load (List Byte × List Byte)
  | [], _, _, io => .ok io
  | r :: rest, done, idx, (img, seg) => do
    let area := if r.seg then seg else img
    must (decide (1 ≤ r.ty ∧ r.ty ≤ 7 ∧ r.place % 8 = 0 ∧ r.place + 8 ≤ area.length) && placeOk n r (leAt area r.place 8) && !done.any (relClash r)) stReloc idx
    let s ← symValue x a n r idx
    match relValue n a r (s + r.addend) with
    | none => reject stReloc idx
    | some v =>
      let (lo, k) := relField r
      let area := patch area r.place (setField (leAt area r.place 8) lo k v)
      relocate x a n rest (r :: done) (idx + 1) (if r.seg then (img, area) else (area, seg))
/-- Entries that the loader binds at load, and those that stay to be bound, with their names (R371). -/
def bindTables (x : Context) (n : Native) : List Nat → List Byte → Load (List Byte × List (Nat × List Byte))
  | [], seg => .ok (seg, [])
  | o :: rest, seg => do
    let e := leAt seg o 8
    if bits e 16 1 = 0 then bindTables x n rest seg
    else match n.syms[bits e 40 24]? with
      | none => reject stUndefined (o / 8)
      | some y =>
        let bound := (exportOf x y.name).bind fun (v, isFn) => if isFn then some v else none
        if bits e 17 1 = 1 && bound.isNone then reject stUndefined (o / 8)
        else
          let seg := match bound with
            | some v => if bits e 17 1 = 1 then patch seg o (setField e 0 17 (v % 65536 : Nat)) else seg
            | none => seg
          let (seg, l) ← bindTables x n rest seg
          return (seg, (o, y.name) :: l)

/-! ### The checks of the code (R365) -/

/-- A function as the checks read it: its node records, its code words, and the object it belongs to. -/
structure CodeView where
  node : Nat → Node
  nn : Nat
  word : Nat → Nat
  nw : Nat
  fbase : Nat
  nfn : Nat
  seg : Nat → Nat
  segSize : Nat
/-- What the checks read: the functions by context index, and a role's allotment with whether the code is a handler's. -/
structure Look where
  view : Nat → Option CodeView
  role : RoleHdr
  hnd : Bool
/-- A function of the object that is being loaded, read in its relocated image and segment. -/
def ownView (img seg : List Byte) (n : Native) (fbase f : Nat) : Option CodeView :=
  if f < fbase then none
  else (n.fns[f - fbase]?).map fun r =>
    { node := fun i => { raw := leAt img (r.nodes + 16 * i) 16 }, nn := r.nn, word := fun i => leAt img (r.code + 8 * i) 8, nw := r.nw, fbase := fbase,
      nfn := n.fns.length, seg := fun o => leAt seg o 8, segSize := seg.length }
/-- What the host reads at a VA of a context; bytes without a page read 0. -/
def hostReadVA (s : State) (ctx va n : Nat) : Nat :=
  ofBytes ((List.range n).map fun j => match pageAt (ctxOf s ctx).pages (va + j) with
    | some p => memGet s.mem (p.pa + (va + j - p.va))
    | none => 0)
/-- A function of an object accepted before, read in the context's memory: the loader has bound entries to it (R371). -/
def otherView (s : State) (ctx f : Nat) : Option CodeView :=
  (fnOf s ctx f).bind fun r => (objOf s ctx r).map fun o =>
    { node := fun i => { raw := hostReadVA s ctx (r.nodes + 16 * i) 16 }, nn := r.nnodes, word := fun i => hostReadVA s ctx (r.code + 8 * i) 8,
      nw := (o.words[f - r.fbase]?).getD 0, fbase := r.fbase, nfn := o.nfn,
      seg := fun o => hostReadVA s ctx (r.seg + o) 8, segSize := r.segSize }
/-- The LOOPs above a node. -/
def loopsAbove (f : CodeView) : Nat → Nat → Nat
  | 0, _ => 0
  | fuel + 1, i => if i = 0 then 0 else
      let p := (f.node i).parent
      loopsAbove f fuel p + (if (f.node p).kind = 4 then 1 else 0)
/-- A word that the loader rejects: R46, R78, or a REP that a handler reaches (R319). -/
def badWord (k : Look) (loops x : Nat) : Bool :=
  match decode (BitVec.ofNat 64 x) with
  | .error _ => false
  | .ok i =>
    !regsOk k.role (needs i).regs ||
    match i with
    | .leave _ n | .next _ n => decide (loops < n)
    | .rep .. => k.hnd
    | _ => false
def isMatrixWord (x : Nat) : Bool := decide (bits x 58 6 = 0x18 ∨ bits x 58 6 = 0x19)
/-- What the visit of a node finds: whether it is bad, whether a matrix word stands there, and the functions it calls. -/
structure Found where
  bad : Bool
  matrix : Bool
  calls : List Nat
/-- The visit of a node, with the functions it calls. An entry of a call table that is still UNRESOLVED names none, so a matrix word that only
it reaches does not mark the kernel (log entry 115). -/
def visit (k : Look) (f : CodeView) (i : Nat) : Found :=
  let r := f.node i
  let kids := (List.range r.count).all fun j =>
    let c := f.node (r.first + j)
    decide (c.parent = i ∧ c.ordinal = j ∧ c.level = r.level + 1)
  let top := i ≠ 0 ∨ (r.ordinal = 0 ∧ r.level = 0 ∧ r.parent = 0)
  if !(r.fieldsOk k.role.nv && decide (bits r.raw 96 15 = 0 ∧ r.first + r.count ≤ f.nn ∧ (r.count = 0 → r.first = 0) ∧ top)) || !kids then
    { bad := true, matrix := false, calls := [] }
  else match r.kind with
    | 2 =>
      let o := r.field 24 32
      match headerOf (f.word o) with
      | none => { bad := true, matrix := false, calls := [] }
      | some (n, _) =>
        let ws := (List.range n).map fun j => f.word (o + 1 + j)
        { bad := decide (f.nw < o + 1 + n) || ws.any (badWord k (loopsAbove f 32 i)), matrix := ws.any isMatrixWord, calls := [] }
    | 5 => { bad := decide (f.nfn ≤ r.field 40 16), matrix := false, calls := [f.fbase + r.field 40 16] }
    | 6 =>
      let o := r.field 17 31
      let es := (List.range (min (f.seg o % 2 ^ 32) ((f.segSize - o) / 8 - 1))).map fun j => f.seg (o + 8 + 8 * j)
      { bad := false, matrix := false, calls := (es.filter fun e => decide (bits e 16 1 = 0)).map (· % 65536) }
    | _ => { bad := false, matrix := false, calls := [] }
/-- The nodes of a function from a list on, in order: the first bad one, else whether a matrix word was met and the functions called. -/
def visitAll (k : Look) (f : CodeView) : Nat → List Nat → Found → Except Nat Found
  | _, [], acc => .ok acc
  | 0, i :: _, _ => .error i
  | fuel + 1, i :: rest, acc =>
    let x := visit k f i
    if x.bad then .error i
    else
      let r := f.node i
      visitAll k f fuel (rest ++ (List.range r.count).map (r.first + ·))
        { bad := false, matrix := acc.matrix || x.matrix, calls := unionSlots acc.calls x.calls }
/-- The functions reached from some: the first bad node, else whether a matrix word is reachable. -/
def reachAll (k : Look) : Nat → List Nat → List Nat → Bool → Except Nat Bool
  | _, [], _, m => .ok m
  | 0, _, _, m => .ok m
  | fuel + 1, g :: rest, seen, m =>
    if seen.contains g then reachAll k fuel rest seen m
    else match k.view g with
      | none => reachAll k fuel rest (g :: seen) m
      | some f =>
        match visitAll k f f.nn [0] { bad := false, matrix := false, calls := [] } with
        | .error i => .error i
        | .ok x => reachAll k fuel (rest ++ minus x.calls (g :: seen)) (g :: seen) (m || x.matrix)
/-- `nfn` bounds the functions there are. -/
def reachFrom (k : Look) (nfn : Nat) (fns : List Nat) : Except Nat Bool := reachAll k (nfn * nfn + nfn + 1) fns [] false
/-- The distinct lines of a pin list, by their place in the code (R366); none where it leaves the segment or an entry breaks its form (log
entry 34). -/
def pinList (img seg : List Byte) (n : Native) (a : At) (k : Kernel) : Option (List Nat) :=
  if !k.pin then some []
  else if seg.length < k.pinoff + 8 * k.pincnt then none
  else (List.range k.pincnt).foldlM (fun l i =>
    let e := leAt seg (k.pinoff + 8 * i) 8
    match ownView img seg n a.fbase (e % 65536), n.fns[e % 65536 - a.fbase]? with
    | some _, some f =>
      if bits e 48 16 = 0 ∧ 1 ≤ bits e 40 8 then
        some ((List.range (bits e 40 8)).foldl (fun l j => insertSlot l ((a.base + f.code) / 64 + bits e 16 24 + j)) l)
      else none
    | _, _ => none) []
/-- One kernel header: HEADER, TARGET or CODE; else the header with MATRIX and LEGACY as the loader sets them (R175, R365, R374). -/
def checkKernel (s : State) (ctx : Nat) (n : Native) (a : At) (img seg : List Byte) (idx off : Nat) : Load Nat := do
  let h := leAt img off 128
  let own := fun (f : Nat) => decide (a.fbase ≤ f ∧ f < a.fbase + n.fns.length)
  must (decide (bits h 56 8 ≤ 7)) stTarget idx
  must (headerOk own h) stHeader idx
  let k := kernelOf (a.base + off) h
  match pinList img seg n a k with
  | none => reject stHeader idx
  | some l =>
    must (decide (l.length ≤ ctxField s ctx 347 11)) stHeader idx
    let view := fun (f : Nat) => if own f then ownView img seg n a.fbase f else otherView s ctx f
    let nfn := (ctxOf s ctx).dir.length + n.fns.length
    let look := fun (r : RoleHdr) (hnd : Bool) => ({ view := view, role := r, hnd := hnd } : Look)
    let code := fun (x : Except Nat Bool) => (match x with | .error i => reject stCode i | .ok m => .ok m : Load Bool)
    let ms ← k.roles.mapM fun r => code (reachFrom (look r false) nfn [r.entry])
    match k.handler with
    | none => pure ()
    | some g => let _ ← k.roles.mapM fun r => code (reachFrom (look r true) nfn [g])
    let h := setField h 50 1 (encBool (ms.any id) : Nat)
    return if k.ver = 6 then setField h 52 1 1 else h
/-- The kernel headers: image symbols, 64-byte aligned, of 128 bytes inside the image and outside the functions (R376; log entry 34). -/
def kernelOffs (n : Native) : List Nat :=
  ((n.syms.filter fun y => decide (y.kind = 1 ∧ y.value % 64 = 0 ∧ y.value + 128 ≤ n.img.length) && n.fns.all fun f =>
    decide (y.value + 128 ≤ f.nodes ∨ f.nodes + 16 * f.nn ≤ y.value) && decide (y.value + 128 ≤ f.code ∨ f.code + 8 * f.nw ≤ y.value)).map (·.value)).foldl insertSlot []
def checkKernels (s : State) (ctx : Nat) (n : Native) (a : At) (seg : List Byte) : List Nat → Nat → List Byte → Load (List Byte)
  | [], _, img => .ok img
  | off :: rest, idx, img => do
    let h ← checkKernel s ctx n a img seg idx off
    checkKernels s ctx n a seg rest (idx + 1) (img.take off ++ toBytes 128 h ++ img.drop (off + 128))

/-! ### Placement and acceptance (R362, R369, R373) -/

/-- The lowest free run of function indices. -/
def freeFns (x : Context) (n : Nat) : Option Nat :=
  let free := fun (i : Nat) => (get? x.dir i).isNone
  let starts := 0 :: (keys x.dir).map (· + 1)
  (starts.foldl insertSlot []).find? fun b => decide (b + n ≤ 65536) && (List.range n).all fun i => free (b + i)
/-- Whether `n` bytes at a VA have memory: a page that is present and not fatal, whatever its rights, since the host writes them. -/
def backed (s : State) (ctx va n : Nat) : Bool :=
  decide (va + n ≤ 2 ^ 57) && (List.range (n / 4096 + 2)).all fun i =>
    let a := min (va + 4096 * i) (va + n - 1)
    n = 0 || (match pageAt (ctxOf s ctx).pages a with | some p => !p.fatal && exists? s (p.pa + (a - p.va)) | none => false)
def objFree (x : Context) (va n : Nat) : Bool :=
  x.objs.all fun o => decide (va + n ≤ o.base ∨ o.base + o.imgSize ≤ va) && decide (va + n ≤ o.seg ∨ o.seg + o.segSize ≤ va)
def dirEntry (n : Native) (a : At) (f : FnRow) : BitVec 256 :=
  BitVec.ofNat 256 (pieceAt 240 16 a.fbase + pieceAt 209 31 n.seg.length + pieceAt 192 17 f.nn + pieceAt 128 57 a.seg + pieceAt 64 57 (a.base + f.code) +
    pieceAt 0 57 (a.base + f.nodes))
def exportsOf (n : Native) (a : At) : List (List Byte × Nat × Bool) :=
  (n.syms.filter (·.exported)).map fun y =>
    (y.name, match y.kind with | 1 => a.base + y.value | 3 => a.fbase + y.value | _ => y.value, decide (y.kind = 3))
/-- What the loader makes of a container: the object with the bytes of its image and segment and its directory entries, or a rejection. -/
def loadObject (s : State) (ctx base : Nat) (file : List Byte) : Load (CodeObj × List Byte × List Byte × List (BitVec 256)) := do
  let n ← pickNative file
  let x := ctxOf s ctx
  let seg := base + (n.img.length + 65535) / 65536 * 65536
  match freeFns x n.fns.length with
  | none => reject stSpace 0
  | some fbase =>
    let a : At := { base := base, seg := seg, fbase := fbase }
    must (decide (base % 65536 = 0) && backed s ctx base n.img.length && backed s ctx seg n.seg.length && objFree x base n.img.length &&
      objFree x seg n.seg.length) stSpace 0
    must ((exportsOf n a).all fun (name, _) => (exportOf x name).isNone) stDuplicate 0
    let (img, sg) ← relocate x a n n.rels [] 0 (n.img, n.seg)
    let (sg, tabs) ← bindTables x n ((tableSyms n).flatMap (tableEntries sg)) sg
    let img ← checkKernels s ctx n a sg (kernelOffs n) 0 img
    let o : CodeObj :=
      { fbase := fbase, nfn := n.fns.length, base := base, imgSize := n.img.length, seg := seg, segSize := n.seg.length,
        kernels := (kernelOffs n).map (base + ·), words := n.fns.map (·.nw), exports := exportsOf n a, tables := tabs.map fun (o, name) => (seg + o, name) }
    return (o, img, sg, n.fns.map (dirEntry n a))
def putFns (x : Context) : Nat → List (BitVec 256) → Context
  | _, [] => x
  | i, e :: r => putFns { x with dir := put x.dir i e } (i + 1) r
/-- What the host receives: the status, 0 for acceptance, and the index (R369). -/
def report (s : State) (st idx : Nat) : State := { s with hostData := toBytes 4 st ++ toBytes 4 idx }
/-- CODE_OBJECT_LOAD (R369, R373): the object is there whole, or nothing of it. -/
def execCodeObjectLoad (ctx base : Nat) (bytes : List Byte) (s : State) : Out :=
  if !hasCtx s ctx then .next s
  else match loadObject s ctx base bytes with
    | .error (st, idx) => .next (report s st idx)
    | .ok (o, img, seg, es) =>
      let s := hostWriteVA (hostWriteVA s ctx o.base img) ctx o.seg seg
      .next (report (updCtx s ctx fun x => { putFns x o.fbase es with objs := x.objs ++ [o] }) 0 o.fbase)

/-! ### Unloading (R373) -/

/-- Whether a thread stands in some functions. -/
def standsIn (inside : Nat → Bool) (t : Thread) : Bool := inside t.pos.fn || (match t.trap with | some x => inside x.pos.fn | none => false)
/-- The function that a walk goes to or stands in. -/
def actFn (a : WalkAct) : Option Nat := match a with | .enter f _ | .call _ _ f _ | .leave f _ | .park f _ _ => some f | .ret => none
def walksIn (inside : Nat → Bool) (w : Walk) : Bool := (actFn w.act).any inside
/-- Whether a part of a crew's bodies is still to start in some functions (R75). -/
def partsIn (inside : Nat → Bool) (k : Crew) : Bool :=
  k.bodies.any fun b => b.regions.any fun r => r.rest.any fun p => (actFn p.act).any inside
/-- Whether the context has an incomplete launch of the object's kernels, or a thread that stands in one of its functions, goes on in one with
the walker, or is to start there. -/
def inUse (s : State) (ctx : Nat) (o : CodeObj) : Bool :=
  let inside := fun (f : Nat) => decide (o.fbase ≤ f ∧ f < o.fbase + o.nfn)
  ((ctxOf s ctx).launches.any fun l => decide (l.state ≠ .complete) && l.valid && o.kernels.contains (recField l.record 0 57)) ||
  (s.cores.any fun (_, co) =>
    (co.threads.any fun (_, t) => (match wgOf co t with | some w => decide (w.ctx = ctx) | none => false) && standsIn inside t) ||
    (co.walks.any fun w => (w.slots.head?.any fun i => (wgOf co (threadOf co i)).any fun u => decide (u.ctx = ctx)) && walksIn inside w) ||
    co.crews.any fun (_, k) => ((get? co.wgs k.wg).any fun u => decide (u.ctx = ctx)) && partsIn inside k) ||
  (ctxOf s ctx).images.any fun (_, m) => (m.threads.any fun (_, t) => standsIn inside t) || m.walks.any (walksIn inside) || m.crews.any fun (_, k) => partsIn inside k
def delFns (x : Context) (o : CodeObj) : Context := { x with dir := x.dir.filter fun (i, _) => decide (i < o.fbase ∨ o.fbase + o.nfn ≤ i) }
/-- CODE_OBJECT_UNLOAD (R373): the object with the function base `obj`; refused while it is in use. -/
def execCodeObjectUnload (ctx obj : Nat) (s : State) : Out :=
  match (ctxOf s ctx).objs.find? fun o => decide (o.fbase = obj) with
  | none => .next s
  | some o =>
    if inUse s ctx o then .next (report s 1 0)
    else
      let others := ((ctxOf s ctx).objs.filter fun q => decide (q.fbase ≠ obj)).flatMap fun q => q.tables.map (·.1)
      let own := o.tables.map (·.1)
      let s := others.foldl (fun s va => unbindEntry s ctx o.fbase o.nfn va) s
      let left := fun (x : Context) => x.unbinds.filter fun y => !own.contains y.1
      .next (report (updCtx s ctx fun x => { delFns x o with objs := (x.objs.filter fun q => decide (q.fbase ≠ obj)), unbinds := left x }) 0 0)

end Sys2Proof.Machine
end

