-- ==== Sys2Proof/Machine/Firmware.lean ====
section
/-! DEFINITION. Boot, the mailbox, live replacement, ownership, the stop and the command links (R33, R379-R390, R392, R402, R403). -/
namespace Sys2Proof.Machine

def updFw (s : State) (f : Firmware → Firmware) : State := { s with fw := f s.fw }

/-! ### Images and the measurement log (R379, R380, R382) -/

def blockLen : Nat := 1312 + 2420
def imageAt (fw : Firmware) (cls slot : Nat) : List Byte := rget [] fw.flash (2 * cls + slot)
/-- The slot that the flash marks active. -/
def activeSlot (fw : Firmware) (cls : Nat) : Nat := if fw.activeB.contains cls then 1 else 0
def idleSlot (fw : Firmware) (cls : Nat) : Nat := 1 - activeSlot fw cls
def setActive (fw : Firmware) (cls slot : Nat) : Firmware :=
  { fw with activeB := if slot = 1 then insertSlot fw.activeB cls else minus fw.activeB [cls] }
def imgHeader (img : List Byte) : Nat := leAt img 0 64
def imgVersion (img : List Byte) : Nat := bits (imgHeader img) 64 32
def imgSvn (img : List Byte) : Nat := bits (imgHeader img) 48 16
def bodyLen (img : List Byte) : Nat := bits (imgHeader img) 96 32
/-- D of an image. -/
def imgDigest (img : List Byte) : BitVec 256 := sha3 (img.take (64 + bodyLen img))
/-- A signature block: a key whose hash is the expected one, and its signature over a digest, whose bytes are those of the hash in order. -/
def signed (block : List Byte) (digest hash : BitVec 256) : Bool :=
  decide (block.length = blockLen ∧ sha3 (block.take 1312) = hash) && mlDsaVerify (block.take 1312) (leBytes 32 digest.toNat) (block.drop 1312)
/-- The result code of an authentication (R380, R382); 0 is a pass. -/
def authenticate (fw : Firmware) (cls : Nat) (img : List Byte) : Nat :=
  let h := imgHeader img
  let n := 64 + bodyLen img
  if img.length < n + 2 * blockLen ∨ bits h 128 384 ≠ 0 ∨ bits h 8 40 ≠ 0 ∨ bits h 0 8 ≠ cls ∨ bodyLen img % 64 ≠ 0 ∨ 2 ^ 23 < bodyLen img then 1
  else if imgSvn img < rget 0 fw.minSvn cls then 2
  else if !signed ((img.drop n).take blockLen) (imgDigest img) fw.makerHash then 3
  else match fw.owner with
    | none => 5
    | some o => if signed ((img.drop (n + blockLen)).take blockLen) (imgDigest img) o then 0 else 4
/-- Append an entry; past the 256th, OVF is set in the last (R382). -/
def addLog (s : State) (digest : BitVec 256) (version result slot event : Nat) : State :=
  updFw s fun fw =>
    if fw.log.length < 256 then
      { fw with log := fw.log ++ [BitVec.ofNat 512 (pieceAt 256 256 digest.toNat + pieceAt 192 64 s.tick.toNat + pieceAt 160 32 version +
          pieceAt 16 7 result + pieceAt 8 8 slot + pieceAt 0 8 event)] }
    else { fw with log := fw.log.take 255 ++ (fw.log.drop 255).map fun e => e ||| BitVec.ofNat 512 (2 ^ 23) }
def logImage (s : State) (cls slot result event : Nat) : State :=
  let img := imageAt s.fw cls slot
  addLog s (imgDigest img) (imgVersion img) result slot event

/-! ### Power (R33, R381, R389) -/

/-- Memory that is not the device's: the host's and the peers' (R14). -/
def outside (a : Nat) : Bool := decide (2 ≤ tierOf a)
/-- What survives a loss of power: the fuses, the flash with its marking and owner record, and what lies outside the module. -/
def atPowerOn (s : State) (p : Power) : State :=
  { power := p
    mem := s.mem.filter fun (a, _) => outside a
    poison := s.poison.filter fun g => outside (64 * g)
    inputs := s.inputs
    seq := s.seq
    fresh := s.fresh
    fw := { makerHash := s.fw.makerHash, minSvn := s.fw.minSvn, flash := s.fw.flash, activeB := s.fw.activeB, owner := s.fw.owner,
            nonces := s.fw.nonces, boots := s.fw.boots } }
/-- Step 2 for one class: the slot that the flash marks, then the other; the slot that passes. -/
def bootClass (s : State) (cls : Nat) : State × Option Nat :=
  let a := activeSlot s.fw cls
  let b := idleSlot s.fw cls
  let ra := authenticate s.fw cls (imageAt s.fw cls a)
  let s := logImage s cls a ra 1
  if ra = 0 then (s, some a)
  else
    let rb := authenticate s.fw cls (imageAt s.fw cls b)
    let s := logImage s cls b rb 1
    (s, if rb = 0 then some b else none)
/-- RSTAT: unowned, or no passing image, with the failed class. -/
def rstatOf (fw : Firmware) (cls : Nat) : BitVec 16 := BitVec.ofNat 16 ((if fw.owner.isNone then 2 else 1) + 256 * cls)
/-- Steps 2 to 5 (R381), or the recovery function (R389). -/
def boot (s : State) : State :=
  let (s, a) := bootClass s 1
  let (s, b) := bootClass s 2
  let (s, c) := bootClass s 3
  let ok := Config.trains s.fw.boots
  let s := updFw s fun fw => { fw with boots := fw.boots + 1 }
  if !ok then { s with power := .recovery }
  else
    let s := { s with mem := s.mem.filter fun (x, _) => outside x, poison := s.poison.filter fun g => outside (64 * g) }
    match a, b, c with
    | some a, some b, some c =>
      { updFw s (fun fw => { fw with running := [(1, a), (2, b), (3, c)], leaf := (List.range Config.nClusters).map fun k => (k, b) }) with power := .running }
    | none, _, _ => { updFw s (fun fw => { fw with rstat := rstatOf fw 1 }) with power := .recovery }
    | _, none, _ => { updFw s (fun fw => { fw with rstat := rstatOf fw 2 }) with power := .recovery }
    | _, _, none => { updFw s (fun fw => { fw with rstat := rstatOf fw 3 }) with power := .recovery }
/-- POWER_UP: the sequence of R381, from step 1 when the module was off. -/
def execPowerUp (s : State) : Out :=
  match s.power with
  | .off => .next (boot (atPowerOn s .hallmark))
  | .hallmark => .next (boot s)
  | _ => .next s
/-- POWER_OFF: no state of the module survives (R33). -/
def execPowerOff (s : State) : Out := .next (atPowerOn s .off)

/-! ### The mailbox (R384, R389, R403) -/

def mbOk : Nat := 0
def mbBusy : Nat := 1
def mbAuth : Nat := 2
def mbBadarg : Nat := 3
def mbState : Nat := 4
/-- Whether a command is accepted as the module stands. -/
def mbAllowed (p : Power) (code : Nat) : Bool :=
  match p with
  | .off => false
  | .running => true
  | .stopped => [0x06, 0x0A, 0x0D].contains code
  | .hallmark | .recovery => [0x03, 0x06, 0x07, 0x08, 0x0A, 0x0B].contains code
/-- Whether BUSY has commands discarded: a stopped module takes those that R403 leaves it, whatever it had begun (log entry 100). -/
def busy (s : State) : Bool := s.fw.mbstat.getLsbD 63 && decide (s.power ≠ .stopped)
/-- MBARG holds 4,096 bytes. -/
def argBytes : Nat := 4096
def setArg (s : State) (bs : List Byte) : State := updFw s fun fw => { fw with mbarg := memWrite fw.mbarg 0 (bs.take argBytes) }
/-- The host writes the arguments to MBARG, from its first byte on, and then the command with their length to MBCMD (R384; log entry 100). -/
def writeCmd (s : State) (code : Nat) (args : List Byte) : State :=
  updFw (setArg s args) fun fw => { fw with mbcmd := BitVec.ofNat 32 (code + 256 * args.length) }
/-- A mailbox command: discarded while BUSY, STATE where it is not accepted, BADARG where MBARG does not hold its arguments, else its effect and
its status. -/
def mailbox (s : State) (code : Nat) (args : List Byte) (go : State → State × Nat) : Out :=
  if s.power = .off ∨ busy s = true then .next s
  else
    let s := writeCmd s code args
    if mbAllowed s.power code then
      let (s, st) := if argBytes < args.length then (s, mbBadarg) else go s
      .next (updFw s fun fw => { fw with mbstat := BitVec.ofNat 64 st })
    else .next (updFw s fun fw => { fw with mbstat := BitVec.ofNat 64 mbState })
/-- A command that waits for the end of a hold, with BUSY set: CREATE while the global scheduler is halted, DESTROY, whose cancels wait, in any
hold (R388; log entry 100). -/
def schedMailbox (s : State) (waits : Bool) (code : Nat) (args : List Byte) (i : Instr) (go : State → State × Nat) : Out :=
  if s.power = .running ∧ waits = true ∧ busy s = false then
    .next (updFw (writeCmd s code args) fun fw => { fw with mbstat := BitVec.ofNat 64 (2 ^ 63), held := fw.held ++ [i] })
  else mailbox s code args go

/-! ### Contexts (R384, R392) -/

def createOk (s : State) (r : List Word64) : Bool :=
  let pinq := recField r 347 11
  decide (r.length = 8 ∧ recField r 448 64 = 0 ∧ recField r 326 17 = 0 ∧ recField r 313 7 = 0 ∧ recField r 249 7 = 0 ∧ recField r 185 7 = 0 ∧
    recField r 121 7 = 0 ∧ recField r 57 7 = 0) &&
  decide (recField r 358 6 ≤ 32 ∧ recField r 343 4 ≤ 10 ∧ pinq ≤ 1024) && !hasCtx s (recField r 320 6) &&
  decide (pinq + s.ctxs.foldl (fun t (_, x) => t + recField x.record 347 11) 0 ≤ 2048) &&
  decide (recField r 256 57 % 4096 = 0 ∧ recField r 192 57 % 4096 = 0 ∧ recField r 128 57 % 4096 = 0 ∧ recField r 64 57 % 4096 = 0 ∧
    recField r 0 57 % 4096 = 0)
def newContext (r : List Word64) : Context :=
  let b : Word64 := BitVec.ofNat 64 (recField r 384 64) &&& 0x0000FFFFFFFF01FF
  { record := r, budget := b, budgetNext := b }
/-- CREATE (R392). -/
def execCreate (record : List Word64) (s : State) : Out :=
  schedMailbox s (schedHalted s) 0x01 (record.flatMap fun x => toBytes 8 x.toNat) (.create record) fun s =>
    if createOk s record then ({ s with ctxs := put s.ctxs (recField record 320 6) (newContext record) }, mbOk) else (s, mbBadarg)
/-- What a context still has in the module. -/
def ctxBusy (s : State) (ctx : Nat) : Bool :=
  (residents s).any (fun (_, _, w) => decide (w.ctx = ctx)) || s.bulks.any (fun b => decide (b.ctx = ctx) && b.failed.isNone) ||
  (ctxOf s ctx).launches.any fun l => decide (l.state ≠ .complete)
/-- A context and all that names it are gone. -/
def freeCtx (s : State) (ctx : Nat) : State :=
  let f := funcOf s ctx
  let gone := s.groups.flatMap fun (_, l) => l.filter fun g => decide (g.ctx = ctx ∧ g.state = .issued)
  { s with
    ctxs := del s.ctxs ctx
    groups := s.groups.map fun (k, l) => (k, l.filter fun g => decide (g.ctx ≠ ctx))
    pageUsed := rput 0 s.pageUsed f (rget 0 s.pageUsed f - gone.foldl (fun t g => t + requestsOf g) 0)
    bulks := s.bulks.filter fun b => decide (b.ctx ≠ ctx)
    dieAllocs := s.dieAllocs.filter fun d => decide (d.ctx ≠ ctx)
    cores := s.cores.map fun (c, co) => (c, { co with pins := co.pins.filter fun (x, _) => decide (x ≠ ctx), trace := del co.trace ctx, samples := co.samples.filter fun y => decide (y.ctx ≠ ctx) }) }
/-- DESTROY: the context's jobs are cancelled, and it is freed once nothing of it is left, with BUSY set until then. -/
def destroyStep (s : State) (ctx : Nat) : State × Nat :=
  if ctxBusy s ctx then (updFw s fun fw => { fw with destroying := some ctx }, 2 ^ 63)
  else (updFw (freeCtx s ctx) fun fw => { fw with destroying := none }, mbOk)
def execDestroy (ctx : Nat) (s : State) : Out :=
  if s.fw.destroying = some ctx then
    if schedHeld s = true ∨ s.power ≠ .running then .next s
    else
      let (s, st) := destroyStep s ctx
      .next (updFw s fun fw => { fw with mbstat := BitVec.ofNat 64 st })
  else schedMailbox s (schedHeld s) 0x02 (toBytes 4 ctx) (.destroy ctx) fun s =>
    if hasCtx s ctx then destroyStep (cancelAll s ctx fun _ => true) ctx else (s, mbBadarg)

/-! ### Images through the mailbox -/

def putChunk (img : List Byte) (off : Nat) (bs : List Byte) : List Byte :=
  img.take off ++ List.replicate (off - img.length) 0 ++ bs ++ img.drop (off + bs.length)
/-- STAGE: a chunk goes into the inactive slot; the last one has the image authenticated. -/
def execStage (cls off len : Nat) (last : Bool) (bytes : List Byte) (s : State) : Out :=
  mailbox s 0x03 (toBytes 4 cls ++ toBytes 4 off ++ toBytes 4 len ++ toBytes 4 (encBool last) ++ bytes) fun s =>
    if cls < 1 ∨ 3 < cls ∨ bytes.length ≠ len ∨ 64 + 2 ^ 23 + 2 * blockLen < off + len then (s, mbBadarg)
    else
      let b := idleSlot s.fw cls
      let s := updFw s fun fw => { fw with flash := put fw.flash (2 * cls + b) (putChunk (imageAt fw cls b) off bytes) }
      if last then
        let r := authenticate s.fw cls (imageAt s.fw cls b)
        (logImage s cls b r 2, if r = 0 then mbOk else mbAuth)
      else (s, mbOk)
/-- SETDL: 5 to 500 ms. -/
def execSetdl (ms : Nat) (s : State) : Out :=
  mailbox s 0x05 (toBytes 4 ms) fun s => if 5 ≤ ms ∧ ms ≤ 500 then (updFw s fun fw => { fw with deadlineMs := ms }, mbOk) else (s, mbBadarg)
/-- READLOG: entries of 64 bytes into MBARG, which holds 64 of them. -/
def execReadlog (first n : Nat) (s : State) : Out :=
  mailbox s 0x06 (toBytes 4 first ++ toBytes 4 n) fun s =>
    if 64 < n ∨ s.fw.log.length < first + n then (s, mbBadarg)
    else (setArg s (((s.fw.log.drop first).take n).flatMap fun e => toBytes 64 e.toNat), mbOk)
/-- RELEASE (R383 step 2): the owner's signature over the issued nonce erases the owner record. -/
def execRelease (block : List Byte) (s : State) : Out :=
  mailbox s 0x07 block fun s =>
    match s.fw.owner, s.fw.nonce with
    | none, _ => (s, mbState)
    | some _, none => (s, mbAuth)
    | some o, some n =>
      if signed block n o then
        let s := updFw s fun fw => { fw with owner := none, nonce := none }
        let s := if s.power = .recovery then updFw s fun fw => { fw with rstat := rstatOf fw (bits fw.rstat.toNat 8 8) } else s
        (addLog s o 0 0 0 5, mbOk)
      else (s, mbAuth)
/-- ENROL (R383 step 3): an unowned module stores the hash of the new owner's key. -/
def execEnrolOwner (key : List Byte) (s : State) : Out :=
  mailbox s 0x08 key fun s =>
    if s.fw.owner.isSome then (s, mbState)
    else if key.length ≠ 1312 then (s, mbBadarg)
    else
      let h := sha3 key
      let s := updFw s fun fw => { fw with owner := some h }
      let s := if s.power = .recovery then updFw s fun fw => { fw with rstat := rstatOf fw (bits fw.rstat.toNat 8 8) } else s
      (addLog s h 0 0 0 6, mbOk)
/-- SVNBUMP: the fused minimum rises to the active image's SVN. -/
def execSvnbump (cls : Nat) (s : State) : Out :=
  mailbox s 0x09 (toBytes 4 cls) fun s =>
    if cls < 1 ∨ 3 < cls then (s, mbBadarg)
    else
      let img := imageAt s.fw cls (activeSlot s.fw cls)
      let s := updFw s fun fw => { fw with minSvn := rput 0 fw.minSvn cls (max (rget 0 fw.minSvn cls) (imgSvn img)) }
      (logImage s cls (activeSlot s.fw cls) 0 7, mbOk)
/-- REBOOT: a cold power-up from step 1. -/
def execReboot (s : State) : Out :=
  if s.power = .off ∨ busy s = true then .next s else .next (atPowerOn s .hallmark)
/-- NONCE: a fresh nonce in MBARG. -/
def execNonce (s : State) : Out :=
  mailbox s 0x0B [] fun s =>
    let n := Config.nonce s.fw.nonces
    (setArg (updFw s fun fw => { fw with nonce := some n, nonces := fw.nonces + 1 }) (toBytes 32 n.toNat), mbOk)

/-! ### Live replacement (R385-R388) -/

/-- The header of a hand-over record (R385): the digest and the length of its sections, whose bytes have no stated layout. -/
def handRecord (s : State) (cls version n : Nat) : BitVec 512 :=
  let bs := Config.handover n
  BitVec.ofNat 512 (pieceAt 256 256 (sha3 bs).toNat + pieceAt 224 32 bs.length + pieceAt 192 32 version + pieceAt 184 8 cls + pieceAt 64 64 s.tick.toNat)
/-- The sections of the record that a unit writes (R385): all of them for the global scheduler, those of its cluster for a leaf controller. -/
def sectionsFor (s : State) (cls unit : Nat) : Sections :=
  let here := fun (cl : Nat) => decide (cls = 1 ∨ cl = unit)
  { ctxs := if cls = 1 then s.ctxs else []
    placed := (residents s).filter fun (c, _, _) => here (clusterOf c)
    groups := s.groups.filter fun (k, _) => here k
    links := s.links.filter fun (k, _) => here (k / 2) }
/-- The slot of the image that runs in a unit. -/
def runningIn (fw : Firmware) (cls unit : Nat) : Nat := if cls = 2 then rget 0 fw.leaf unit else rget 0 fw.running cls
/-- A hold begins: the running image writes its record and halts. A copy engine, taken while it has no command, writes none (R387). -/
def beginHold (s : State) (r : Replacement) : State :=
  if r.cls = 3 then updFw s fun fw => { fw with repl := some { r with holdAt := now s, gap := false } }
  else
    let (n, s) := takeFresh s
    let v := imgVersion (imageAt s.fw r.cls (runningIn s.fw r.cls r.unit))
    updFw s fun fw =>
      { fw with repl := some { r with record := handRecord s r.cls v n, sections := sectionsFor s r.cls r.unit, holdAt := now s, gap := false } }
/-- The unit is next: its hold begins once it may (R387). -/
def awaitHold (s : State) (r : Replacement) : State := updFw s fun fw => { fw with repl := some { r with gap := true } }
/-- A hold ends: what arrived during it takes effect in order, its ticks do not count for R304, and the links' commands are taken (R388, R390). -/
def endHold (s : State) : State :=
  match s.fw.repl with
  | none => s
  | some r =>
    let d := now s - r.holdAt
    let held := s.fw.held.map Move.event
    let s := updFw s fun fw =>
      { fw with repl := none, held := [], mbstat := if fw.destroying.isNone ∧ fw.mbstat.getLsbD 63 = true then 0 else fw.mbstat }
    { s with
      agenda := held ++ s.agenda
      links := s.links.map fun (k, x) => (k, { x with permits := 16, taken := x.sent })
      ctxs := if r.cls = 3 then s.ctxs
        else s.ctxs.map fun (k, x) => (k, { x with launches := x.launches.map fun l => { l with since := min (now s) (l.since + d) } }) }
/-- ACTIVATE (R386, R387): the class's inactive slot must pass. -/
def execActivate (cls : Nat) (s : State) : Out :=
  mailbox s 0x04 (toBytes 4 cls) fun s =>
    if cls < 1 ∨ 3 < cls then (s, mbBadarg)
    else if s.fw.repl.isSome then (s, mbBusy)
    else if authenticate s.fw cls (imageAt s.fw cls (idleSlot s.fw cls)) ≠ 0 then (s, mbAuth)
    else
      let r : Replacement := { cls := cls, unit := 0, slot := idleSlot s.fw cls }
      (if cls = 3 then awaitHold s r else beginHold s r, mbOk)
/-- The replacement is over: the flash marks the new slot, and the class runs it. -/
def finishRepl (s : State) (r : Replacement) : State :=
  let s := updFw s fun fw => { setActive fw r.cls r.slot with running := put fw.running r.cls r.slot }
  logImage s r.cls r.slot 0 3
/-- The clusters that run a slot, from one on. -/
def nextLeaf (fw : Firmware) (slot from0 : Nat) : Option Nat :=
  (List.range Config.nClusters).find? fun k => decide (from0 ≤ k ∧ rget 0 fw.leaf k = slot)
/-- One unit has been switched, or returned; the next one follows. -/
def nextUnit (s : State) (r : Replacement) : State :=
  let s := endHold s
  match r.cls with
  | 1 => finishRepl s r
  | 2 =>
    let s := updFw s fun fw => { fw with leaf := put fw.leaf r.unit r.slot }
    if r.back then match nextLeaf s.fw (1 - r.slot) 0 with
      | some k => awaitHold s { cls := 2, unit := k, slot := r.slot, back := true }
      | none => s
    else if r.unit + 1 < Config.nClusters then awaitHold s { cls := 2, unit := r.unit + 1, slot := r.slot }
    else finishRepl s r
  | _ => if r.unit + 1 < Config.nEngines then awaitHold s { cls := 3, unit := r.unit + 1, slot := r.slot } else finishRepl s r
/-- HANDOVER_RESUME: the new image verifies the record, resumes and posts a heartbeat; one that does not posts none. -/
def execHandoverResume (ok : Bool) (s : State) : Out :=
  match s.fw.repl with
  | none => .next s
  | some r => if s.power = .running ∧ ok = true ∧ r.gap = false then .next (nextUnit s r) else .next s
/-- HEARTBEAT_DEADLINE: the old image is restarted and a rollback logged; switched clusters return to it one at a time. Before that, the hold of
a unit whose turn has come begins. -/
def execHeartbeatDeadline (s : State) : Out :=
  match s.fw.repl with
  | none => .next s
  | some r =>
    if s.power ≠ .running then .next s
    else if r.gap then .next (if r.cls = 3 && engineBusy s r.unit then s else beginHold s r)
    else if r.cls = 3 ∨ now s < r.holdAt + (s.fw.deadlineMs * Config.ticksPerMs - 60000) then .next s
    else if r.back then .next (nextUnit s r)
    else
      let s := logImage (endHold s) r.cls r.slot 0 4
      if r.cls = 2 then match nextLeaf s.fw r.slot 0 with
        | some k => .next (awaitHold s { cls := 2, unit := k, slot := 1 - r.slot, back := true })
        | none => .next s
      else .next s

/-! ### The stop (R403) -/

def execStop (t : Word64) (s : State) : Out :=
  mailbox s 0x0C (toBytes 8 t.toNat) fun s => if t.toNat < now s + 64 then (s, mbBadarg) else ({ s with stopAt := some t.toNat }, mbOk)
/-- CLOCK_STOP: at the named tick every clock domain but the Hallmark core's is gated; all in flight stays where it stands. -/
def execClockStop (s : State) : Out :=
  match s.stopAt with
  | some t => if s.power = .running ∧ t ≤ now s then .next { s with power := .stopped, stopAt := none } else .next s
  | none => .next s
def execScanout (chain off n : Nat) (s : State) : Out :=
  mailbox s 0x0D (toBytes 4 chain ++ toBytes 4 off ++ toBytes 4 n) fun s =>
    if 4096 < n then (s, mbBadarg) else (setArg s ((List.range n).map fun i => Config.scanByte (now s) chain (off + i)), mbOk)

/-! ### Command links (R390) -/

def linkKey (c : LinkCmd) : Nat := 2 * c.cluster + encBool c.toLeaf
/-- LINK_COMMAND: the next command in sequence is sent on a permit; the receiver takes it and returns the permit, at once or when its hold ends. -/
def execLinkCommand (c : LinkCmd) (s : State) : Out :=
  let x := rget {} s.links (linkKey c)
  if s.power ≠ .running ∨ Config.nClusters ≤ c.cluster ∨ c.body.length ≠ 8 ∨ c.seq ≠ x.sent % 2 ^ 32 ∨ x.permits = 0 then .next s
  else
    let halted := if c.toLeaf then leafHeld s c.cluster else schedHalted s
    let y : LinkEnd := if halted then { x with permits := x.permits - 1, sent := x.sent + 1 } else { x with sent := x.sent + 1, taken := x.taken + 1 }
    .next { s with links := put s.links (linkKey c) y }

end Sys2Proof.Machine
end

