-- ==== Sys2Proof/Machine/Host.lean ====
section
/-! DEFINITION. Accesses of the host and of peers, routes, translations that the host withdraws, PCIe configuration, and data errors
(R230, R231, R235, R252, R391, R397-R400). -/
namespace Sys2Proof.Machine

/-! ### Accesses from outside (R235, R252, R399) -/

def allExist (s : State) (pa n : Nat) : Bool := (List.range n).all fun i => exists? s (pa + i)
def extLen (op : ExtOp) : Nat := match op with | .read n => n | .write bs => bs.length | .atomic _ b64 _ _ _ => if b64 then 8 else 4
/-- An access performed at the home agent: the bytes it answers, and the state after it. A page that is not snooped keeps the device's copies. -/
def extAccess (s : State) (pa : Nat) (op : ExtOp) : State × List Byte :=
  let p := Place.off pa true
  match op with
  | .read n => (s, toBytes n (readPlace s p n))
  | .write bs => (writePlace s p bs, [])
  | .atomic minor b64 ty d cmp =>
    let n := extLen op
    let x := readPlace s p n
    let s := match atomNew minor b64 ty x (d % 2 ^ (8 * n)) (cmp % 2 ^ (8 * n)) with
      | some y => writePlace s p (toBytes n y)
      | none => s
    (s, toBytes n x)
/-! ### The BARs (R384, R389, R391, R393)

The host names what its BARs hold by tiers of their own: 99 for function 0's BAR0, 128 + f for BAR2 of function f (log entry 113). -/

def barMailbox : Nat := 99
def barWindows : Nat := 128
/-- A byte of BAR0: MBSTAT, in recovery RSTAT, and MBARG; MBCMD is written only. -/
def mailboxByte (s : State) (o : Nat) : Byte :=
  if 0x1000 ≤ o ∧ o < 0x2000 then memGet s.fw.mbarg (o - 0x1000)
  else if 8 ≤ o ∧ o < 16 then byteAt s.fw.mbstat.toNat (o - 8)
  else if 16 ≤ o ∧ o < 18 ∧ s.power = .recovery then byteAt s.fw.rstat.toNat (o - 16)
  else 0
/-- The part of a write that falls into MBARG, which alone takes it. -/
def writeMbarg (s : State) (o : Nat) (bs : List Byte) : State :=
  let l := (List.zip (List.range bs.length) bs).filter fun (k, _) => decide (0x1000 ≤ o + k ∧ o + k < 0x2000)
  { s with fw := { s.fw with mbarg := l.foldl (fun m (k, b) => memWrite m (o + k - 0x1000) [b]) s.fw.mbarg } }
/-- A write of 8 bytes to a register of a context's window. -/
def writeReg (s : State) (ctx off : Nat) (value : Word64) : Out :=
  let kind := bits value.toNat 62 2
  match off with
  | 0x048 => execCancel ctx value s
  | 0x050 => execBudgetWrite ctx value s
  | 0x060 => execWatchWrite ctx 0 value s
  | 0x068 => execWatchWrite ctx 1 value s
  | 0x070 => execWatchWrite ctx 2 value s
  | 0x078 => execWatchWrite ctx 3 value s
  | 0x080 => if kind = 1 then execDebugContinue ctx value s else if kind = 2 then execDebugStep ctx value s else .next s
  | 0x090 =>
    let q := bits value.toNat 0 6
    match (if value.getLsbD 8 then execQctlReopen ctx q s else .next s) with
    | .next s => if value.getLsbD 9 then execQctlClearFull ctx q s else .next s
    | x => x
  | 0x098 => execPreemptRequest ctx value s
  | 0x0C0 => execTrcctlWrite ctx value s
  | _ => execRegisterWrite ctx off value s
/-- An access to the page of a context in function `f`'s BAR2: a page of a context that the function does not own reads as 0 and ignores writes
(R391). A write that is neither a push nor of one register is ignored. -/
def windowAccess (s : State) (f o : Nat) (op : ExtOp) : Out :=
  let ctx := o / 4096
  let off := o % 4096
  match op with
  | .read n =>
    let bs := (List.range n).map fun k => byteAt (windowRead s f ctx ((off + k) / 8 * 8)).toNat ((off + k) % 8)
    .next { s with hostData := bs, hostUr := false }
  | .write bs =>
    if !hasCtx s ctx || decide (ctxField s ctx 358 6 ≠ f) then .next s
    else if off < 0x40 then
      execPush ctx off (if bs.length = 64 then (List.range 8).map fun k => BitVec.ofNat 64 (ofBytes ((bs.drop (8 * k)).take 8)) else []) s
    else if bs.length = 8 ∧ off % 8 = 0 then writeReg s ctx off (BitVec.ofNat 64 (ofBytes bs))
    else .next s
  | .atomic .. => .next (unsupported s)
/-- A BAR of a function that is there: before the module runs, function 0's BAR0 alone (R389, R391). -/
def barAccess (s : State) (addr : Nat) (op : ExtOp) : Out :=
  let o := offOf addr
  if tierOf addr = barMailbox then
    if s.power = .off then .next s
    else match op with
      | .read n => .next { s with hostData := (List.range n).map fun k => mailboxByte s (o + k), hostUr := false }
      | .write bs => .next (writeMbarg s o bs)
      | .atomic .. => .next (unsupported s)
  else match s.power with
    | .off | .stopped => .next s
    | .hallmark | .recovery => .next (unsupported s)
    | .running => if s.vfs < tierOf addr - barWindows then .next (unsupported s) else windowAccess s (tierOf addr - barWindows) o op
def isBar (addr : Nat) : Bool := decide (tierOf addr = barMailbox ∨ (barWindows ≤ tierOf addr ∧ tierOf addr ≤ barWindows + 32))

/-- HOST_ACCESS: to device or host memory, or to a BAR. Device memory is out of reach before the module runs: the access completes with Unsupported Request
(R389); it is frozen while the module is stopped. -/
def execHostAccess (addr : Nat) (op : ExtOp) (s : State) : Out :=
  if isBar addr then barAccess s addr op
  else if tierOf addr < 2 ∧ s.power ≠ .running then
    .next (if s.power = .hallmark ∨ s.power = .recovery then unsupported s else s)
  else if tierOf addr < 3 ∧ allExist s addr (extLen op) = true then
    let (s, bs) := extAccess s addr op
    .next { s with hostData := bs, hostUr := false }
  else .fault .noSuchMemory
/-- PEER_ACCESS: to this module's device memory, over a route to the peer. -/
def execPeerAccess (peer addr : Nat) (op : ExtOp) (s : State) : Out :=
  if s.power ≠ .running ∨ (rget [] s.routes peer).isEmpty = true then .next s
  else if tierOf addr < 2 ∧ allExist s addr (extLen op) = true then
    let (s, bs) := extAccess s addr op
    .next { s with peerData := bs }
  else .fault .noSuchMemory

/-! ### Routes (R399, R400) -/

def toPeer (peer : Nat) (l : PLane) : Bool := match l.place with | .off pa _ => decide (tierOf pa = 16 + peer) | _ => false
/-- A pending access loses some lanes: a store's set FAULT; any other's threads no longer wait for it. -/
def loseLanes (s : State) (c : Nat) (p : Pend) (lost : List PLane) : State :=
  match get? (coreOf s c).wgs p.wg with
  | none => s
  | some w =>
    match p.kind with
    | .store => contextFault s w.ctx w.launch
    | _ => updCore s c fun co => lost.foldl (fun co l => updThread co l.slot fun t => { t with pend := t.pend.filter fun r => !l.dst.contains r }) co
def losePends (c peer : Nat) : List Pend → State → State
  | [], s => s
  | p :: r, s =>
    let lost := p.lanes.filter (toPeer peer)
    losePends c peer r (if lost.isEmpty then s else loseLanes s c p lost)
/-- The lanes whose loss raises MEMERR, with their traps (R231, R323), under the selector that issued their word and the word. -/
def lostTraps (co : Core) (peer : Nat) (l : List Pend) : List ((Nat × Word64) × (Nat × TrapInfo)) :=
  l.flatMap fun p => if p.kind = .store then [] else
    (p.lanes.filter fun x => toPeer peer x && (get? co.threads x.slot).isSome).map fun x =>
      ((rget 0 co.lastSel x.slot, p.word), (x.slot, { code := cMemerr, word := p.word, srcs := x.srcs, addr := x.va }))
/-- One handler batch for each word and selector (R317); a thread that has trapped already raises no second one (log entry 89). -/
def trapLost (c : Nat) (l : List ((Nat × Word64) × (Nat × TrapInfo))) (s : State) : State :=
  let heads := l.foldl (fun out x => if out.contains x.1 then out else out ++ [x.1]) []
  let trapped := fun (s : State) (i : Nat) => (coreOf s c).stop.pending.any fun g => g.items.any fun x => decide (x.1 = i)
  heads.foldl (fun s k => takeTrap s c k.1 ((l.filter fun x => decide (x.1 = k) && !trapped s x.2.1).map (·.2))) s
/-- Every access in flight to a peer is lost. -/
def losePeer (peer : Nat) (s : State) (c : Nat) : State :=
  let co := coreOf s c
  let s := updCore s c fun co => { co with pend := co.pend.filterMap fun p =>
    let l := p.lanes.filter fun x => !toPeer peer x
    if l.isEmpty && !p.lanes.isEmpty then none else some { p with lanes := l } }
  trapLost c (lostTraps co peer co.pend) (losePends c peer co.pend s)
def losePeers : List Nat → State → State
  | [], s => s
  | p :: r, s => losePeers r ((keys s.cores).foldl (losePeer p) s)
/-- PEER_LINK_FAIL (R400): in a stopped module the accesses in flight stay as they stand (R403); else the link leaves every route set; a set that becomes empty loses its traffic, and what remains is reissued. -/
def execPeerLinkFail (link : Nat) (s : State) : Out :=
  let cut := (s.routes.filter fun (_, l) => decide (minus l [link] = []) && !l.isEmpty).map (·.1)
  if s.power = .stopped then .next s
  else .next (losePeers cut { s with routes := s.routes.map (fun (k, l) => (k, minus l [link])), failedLinks := insertSlot s.failedLinks link })
/-- ROUTE_RESTORE (R400): a set of the 12 links to a peer whose set is empty. -/
def execRouteRestore (peer : Nat) (links : List Nat) (s : State) : Out :=
  let l := (links.filter fun k => decide (k < 12)).foldl insertSlot []
  if 64 ≤ peer ∨ l = [] ∨ (rget [] s.routes peer).isEmpty = false then .next s
  else .next { s with routes := put s.routes peer l, failedLinks := minus s.failedLinks l }

/-! ### Translations (R397) -/

def pageHits (p : PageMap) (va len : Nat) : Bool := decide (p.va < va + len ∧ va < p.va + 2 ^ p.log2)
/-- Whether an access in flight used a translation of the range. -/
def rangeBusy (s : State) (ctx va len : Nat) : Bool :=
  let ps := (ctxOf s ctx).pages.filter fun p => pageHits p va len
  s.cores.any fun (_, co) => co.pend.any fun p =>
    decide (pendCtx co p = ctx) && p.lanes.any fun l => match l.place with
      | .off pa _ => ps.any fun q => decide (q.pa ≤ pa ∧ pa < q.pa + 2 ^ q.log2)
      | _ => false
/-- ATS_INVALIDATE: completed once no access in flight uses the translations, which are gone from then on; `maps` are those that hold instead. -/
def execAtsInvalidate (ctx va len : Nat) (maps : List PageMap) (s : State) : Out :=
  if !hasCtx s ctx then .next s
  else if rangeBusy s ctx va len then .next { s with inputs := s.inputs ++ [(now s + 1, .atsInvalidate ctx va len maps)] }
  else .next (addPages (updCtx s ctx fun x => { x with pages := x.pages.filter fun p => !pageHits p va len }) ctx maps)

/-! ### Data errors (R230, R231) and configuration (R391, R397, R398) -/

/-- The register of a Crucible error's number: v 0-191, then m from 256. -/
def regOfNumber (n : Nat) : Reg := if n < 256 then .v n else .m (n - 256)
/-- An uncorrectable error at an address: off chip, or in a scratchpad, a die scratchpad or the Crucible (log entry 35). -/
def poisonFlat (s : State) (addr : Nat) : State :=
  let o := offOf addr
  match tierOf addr with
  | 96 => if Config.nCores ≤ o / 2 ^ 40 then s else poisonAt s (.scr (o / 2 ^ 40) (o / 2 ^ 24 % 2 ^ 16) (o % 2 ^ 24 / 64 * 64)) 64
  | 97 => if Config.nDies ≤ o / 2 ^ 32 then s else poisonAt s (.die (o / 2 ^ 32) (o % 2 ^ 32 / 64 * 64)) 64
  | 98 => if Config.nCores ≤ o / 2 ^ 40 then s else updCore s (o / 2 ^ 40) fun co => updThread co (o / 2 ^ 16 % 2 ^ 24) fun t => { t with bad := addReg t.bad (regOfNumber (o % 2 ^ 16)) }
  | _ => if exists? s addr then poisonAt s (.off (addr / 64 * 64) true) 64 else s
/-- CHECK_CODE_ERROR: a correctable error is corrected and counted, an uncorrectable one poisons its granule. -/
def execCheckCodeError (addr : Nat) (correctable : Bool) (s : State) : Out :=
  if correctable then .next { s with corrected := s.corrected + 1 } else .next (poisonFlat s addr)
/-- PCIE_CONFIG_WRITE: in recovery a virtual function cannot be reached (R389); SR-IOV may be enabled once the module runs (R381 step 5). -/
def execPcieConfigWrite (r : PcieReg) (s : State) : Out :=
  match r with
  | .allocation f n => .next (if f ≠ 0 ∧ (s.power = .hallmark ∨ s.power = .recovery) then unsupported s else if f ≤ 32 then { s with pageAlloc := rput 0 s.pageAlloc f n } else s)
  | .atomicEnable on => .next { s with atomicEn := on }
  | .sriov n => .next (if s.power = .running ∧ n ≤ 32 then { s with vfs := n } else s)

end Sys2Proof.Machine
end

