-- ==== Sys2Proof/Machine/Dispatch.lean ====
section
/-! DEFINITION. The meaning of every instruction, by one call. -/
namespace Sys2Proof.Machine

def exec (i : Instr) (s : State) : Host.Outcome State Fault Refusal :=
  match i with
  | .leave g k => Sys2Proof.Machine.execLeave g k s
  | .next g k => Sys2Proof.Machine.execNext g k s
  | .ret g => Sys2Proof.Machine.execRet g s
  | .done g => Sys2Proof.Machine.execDone g s
  | .rep g n xmask => Sys2Proof.Machine.execRep g n xmask s
  | .enrol g k => Sys2Proof.Machine.execEnrol g k s
  | .strike g k => Sys2Proof.Machine.execStrike g k s
  | .iadd x w => Sys2Proof.Machine.execIadd x w s
  | .isub x w => Sys2Proof.Machine.execIsub x w s
  | .imul x => Sys2Proof.Machine.execImul x s
  | .imulh x => Sys2Proof.Machine.execImulh x s
  | .imulhu x => Sys2Proof.Machine.execImulhu x s
  | .idiv x => Sys2Proof.Machine.execIdiv x s
  | .idivu x => Sys2Proof.Machine.execIdivu x s
  | .irem x => Sys2Proof.Machine.execIrem x s
  | .iremu x => Sys2Proof.Machine.execIremu x s
  | .ineg x => Sys2Proof.Machine.execIneg x s
  | .iabs x => Sys2Proof.Machine.execIabs x s
  | .imin x => Sys2Proof.Machine.execImin x s
  | .imax x => Sys2Proof.Machine.execImax x s
  | .iminu x => Sys2Proof.Machine.execIminu x s
  | .imaxu x => Sys2Proof.Machine.execImaxu x s
  | .isat x w => Sys2Proof.Machine.execIsat x w s
  | .irsh x u => Sys2Proof.Machine.execIrsh x u s
  | .land x w => Sys2Proof.Machine.execLand x w s
  | .lor x w => Sys2Proof.Machine.execLor x w s
  | .lxor x w => Sys2Proof.Machine.execLxor x w s
  | .landn x w => Sys2Proof.Machine.execLandn x w s
  | .lnot x w => Sys2Proof.Machine.execLnot x w s
  | .shl x w => Sys2Proof.Machine.execShl x w s
  | .shr x w => Sys2Proof.Machine.execShr x w s
  | .sar x w => Sys2Proof.Machine.execSar x w s
  | .rol x => Sys2Proof.Machine.execRol x s
  | .bfx x => Sys2Proof.Machine.execBfx x s
  | .bfxu x => Sys2Proof.Machine.execBfxu x s
  | .popc x => Sys2Proof.Machine.execPopc x s
  | .clz x => Sys2Proof.Machine.execClz x s
  | .brev x => Sys2Proof.Machine.execBrev x s
  | .mov x w => Sys2Proof.Machine.execMov x w s
  | .imad x => Sys2Proof.Machine.execImad x s
  | .bfi x => Sys2Proof.Machine.execBfi x s
  | .iqnt x w => Sys2Proof.Machine.execIqnt x w s
  | .movi g d imm => Sys2Proof.Machine.execMovi g d imm s
  | .ail g d a imm => Sys2Proof.Machine.execAil g d a imm s
  | .aih g d imm => Sys2Proof.Machine.execAih g d imm s
  | .icmp g p a b c => Sys2Proof.Machine.execIcmp g p a b c s
  | .isel x p neg => Sys2Proof.Machine.execIsel x p neg s
  | .pset g p a => Sys2Proof.Machine.execPset g p a s
  | .pand g p a b na nb => Sys2Proof.Machine.execPand g p a b na nb s
  | .por g p a b na nb => Sys2Proof.Machine.execPor g p a b na nb s
  | .pxor g p a b na nb => Sys2Proof.Machine.execPxor g p a b na nb s
  | .pnot g p a => Sys2Proof.Machine.execPnot g p a s
  | .xset g x a => Sys2Proof.Machine.execXset g x a s
  | .xmov g x y => Sys2Proof.Machine.execXmov g x y s
  | .xmovToV g d y => Sys2Proof.Machine.execXmovToV g d y s
  | .xadd g x y b => Sys2Proof.Machine.execXadd g x y b s
  | .xaddOrg g x y b => Sys2Proof.Machine.execXaddOrg g x y b s
  | .aset g d a b => Sys2Proof.Machine.execAset g d a b s
  | .aadd g d sz b => Sys2Proof.Machine.execAadd g d sz b s
  | .aaddStride g d sz b => Sys2Proof.Machine.execAaddStride g d sz b s
  | .amul g d sz b => Sys2Proof.Machine.execAmul g d sz b s
  | .ashl g d sz b => Sys2Proof.Machine.execAshl g d sz b s
  | .aval g d sz => Sys2Proof.Machine.execAval g d sz s
  | .avalBase g d sz => Sys2Proof.Machine.execAvalBase g d sz s
  | .avalStride g d sz => Sys2Proof.Machine.execAvalStride g d sz s
  | .fadd x ty => Sys2Proof.Machine.execFadd x ty s
  | .fsub x ty => Sys2Proof.Machine.execFsub x ty s
  | .fmul x ty => Sys2Proof.Machine.execFmul x ty s
  | .fmin x ty => Sys2Proof.Machine.execFmin x ty s
  | .fmax x ty => Sys2Proof.Machine.execFmax x ty s
  | .fabs x ty => Sys2Proof.Machine.execFabs x ty s
  | .fneg x ty => Sys2Proof.Machine.execFneg x ty s
  | .fcps x ty => Sys2Proof.Machine.execFcps x ty s
  | .fscl x ty => Sys2Proof.Machine.execFscl x ty s
  | .fcmp g p a b c ty => Sys2Proof.Machine.execFcmp g p a b c ty s
  | .fclass x ty => Sys2Proof.Machine.execFclass x ty s
  | .ffma x ty rnd np nc => Sys2Proof.Machine.execFfma x ty rnd np nc s
  | .frcp x ty => Sys2Proof.Machine.execFrcp x ty s
  | .frsq x ty => Sys2Proof.Machine.execFrsq x ty s
  | .fsqrt x ty => Sys2Proof.Machine.execFsqrt x ty s
  | .fdiv x ty => Sys2Proof.Machine.execFdiv x ty s
  | .fex2 x ty => Sys2Proof.Machine.execFex2 x ty s
  | .flg2 x ty => Sys2Proof.Machine.execFlg2 x ty s
  | .fsin x ty => Sys2Proof.Machine.execFsin x ty s
  | .fcos x ty => Sys2Proof.Machine.execFcos x ty s
  | .ftanh x ty => Sys2Proof.Machine.execFtanh x ty s
  | .fcvt g d a b dty sty => Sys2Proof.Machine.execFcvt g d a b dty sty s
  | .fcvti x ty u trunc => Sys2Proof.Machine.execFcvti x ty u trunc s
  | .icvtf g d a b dty sty => Sys2Proof.Machine.execIcvtf g d a b dty sty s
  | .frnd x ty dir => Sys2Proof.Machine.execFrnd x ty dir s
  | .mset g m a b => Sys2Proof.Machine.execMset g m a b s
  | .msetDet g m a => Sys2Proof.Machine.execMsetDet g m a s
  | .msplit g d a => Sys2Proof.Machine.execMsplit g d a s
  | .mmov g m a => Sys2Proof.Machine.execMmov g m a s
  | .mzero g m => Sys2Proof.Machine.execMzero g m s
  | .madd g m a b c => Sys2Proof.Machine.execMadd g m a b c s
  | .msub g m a b c => Sys2Proof.Machine.execMsub g m a b c s
  | .mmul g m a b c => Sys2Proof.Machine.execMmul g m a b c s
  | .mscl g m a b => Sys2Proof.Machine.execMscl g m a b s
  | .mfma g m a b c o => Sys2Proof.Machine.execMfma g m a b c o s
  | .mrelu g m a => Sys2Proof.Machine.execMrelu g m a s
  | .mexp g m a => Sys2Proof.Machine.execMexp g m a s
  | .msigm g m a => Sys2Proof.Machine.execMsigm g m a s
  | .mchk g p a => Sys2Proof.Machine.execMchk g p a s
  | .mcol g d a mode => Sys2Proof.Machine.execMcol g d a mode s
  | .mma g tile vplane a b f => Sys2Proof.Machine.execMma g tile vplane a b f s
  | .mmad g tile a b f => Sys2Proof.Machine.execMmad g tile a b f s
  | .mmam g tile a b => Sys2Proof.Machine.execMmam g tile a b s
  | .zclr g tile vplane both => Sys2Proof.Machine.execZclr g tile vplane both s
  | .zld g tile vplane a f => Sys2Proof.Machine.execZld g tile vplane a f s
  | .zst g tile vplane dest amax f clr => Sys2Proof.Machine.execZst g tile vplane dest amax f clr s
  | .zrd g d tile vplane col m => Sys2Proof.Machine.execZrd g d tile vplane col m s
  | .zwr g tile vplane col src => Sys2Proof.Machine.execZwr g tile vplane col src s
  | .ld g d a => Sys2Proof.Machine.execLd g d a s
  | .st g d a => Sys2Proof.Machine.execSt g d a s
  | .pref g base off evict space lv => Sys2Proof.Machine.execPref g base off evict space lv s
  | .linv g base off evict lv => Sys2Proof.Machine.execLinv g base off evict lv s
  | .lcln g base off evict lv => Sys2Proof.Machine.execLcln g base off evict lv s
  | .spmap g slot va ctl k => Sys2Proof.Machine.execSpmap g slot va ctl k s
  | .spunmap g slot => Sys2Proof.Machine.execSpunmap g slot s
  | .spwb g slot => Sys2Proof.Machine.execSpwb g slot s
  | .spdrop g slot => Sys2Proof.Machine.execSpdrop g slot s
  | .atadd g d a nr => Sys2Proof.Machine.execAtadd g d a nr s
  | .atmin g d a nr => Sys2Proof.Machine.execAtmin g d a nr s
  | .atmax g d a nr => Sys2Proof.Machine.execAtmax g d a nr s
  | .atminu g d a nr => Sys2Proof.Machine.execAtminu g d a nr s
  | .atmaxu g d a nr => Sys2Proof.Machine.execAtmaxu g d a nr s
  | .atand g d a nr => Sys2Proof.Machine.execAtand g d a nr s
  | .ator g d a nr => Sys2Proof.Machine.execAtor g d a nr s
  | .atxor g d a nr => Sys2Proof.Machine.execAtxor g d a nr s
  | .atxch g d a nr => Sys2Proof.Machine.execAtxch g d a nr s
  | .atcas g d a nr => Sys2Proof.Machine.execAtcas g d a nr s
  | .atfadd g d a nr ty => Sys2Proof.Machine.execAtfadd g d a nr ty s
  | .fence g k scope => Sys2Proof.Machine.execFence g k scope s
  | .barinit g b n => Sys2Proof.Machine.execBarinit g b n s
  | .barr g d b => Sys2Proof.Machine.execBarr g d b s
  | .barw g b ph => Sys2Proof.Machine.execBarw g b ph s
  | .bars g b => Sys2Proof.Machine.execBars g b s
  | .pharr g d a c spc => Sys2Proof.Machine.execPharr g d a c spc s
  | .phwait g a ph spc => Sys2Proof.Machine.execPhwait g a ph spc s
  | .cwait g d a n spc c => Sys2Proof.Machine.execCwait g d a n spc c s
  | .voteAll g p q neg => Sys2Proof.Machine.execVoteAll g p q neg s
  | .voteAny g p q neg => Sys2Proof.Machine.execVoteAny g p q neg s
  | .voteBallot g d q neg => Sys2Proof.Machine.execVoteBallot g d q neg s
  | .votePopc g d q neg => Sys2Proof.Machine.execVotePopc g d q neg s
  | .shfx g d a b w => Sys2Proof.Machine.execShfx g d a b w s
  | .xcopy x => Sys2Proof.Machine.execXcopy x s
  | .xstore x => Sys2Proof.Machine.execXstore x s
  | .xcode g shape ctr slot objShape cspace => Sys2Proof.Machine.execXcode g shape ctr slot objShape cspace s
  | .bulk g src dst ctr len cspace => Sys2Proof.Machine.execBulk g src dst ctr len cspace s
  | .enq g p r n => Sys2Proof.Machine.execEnq g p r n s
  | .join g p a => Sys2Proof.Machine.execJoin g p a s
  | .qclose g q => Sys2Proof.Machine.execQclose g q s
  | .qcloseC g n => Sys2Proof.Machine.execQcloseC g n s
  | .qstat g d n k => Sys2Proof.Machine.execQstat g d n k s
  | .trap g n a => Sys2Proof.Machine.execTrap g n a s
  | .brkp g n => Sys2Proof.Machine.execBrkp g n s
  | .resumeRetry g => Sys2Proof.Machine.execResumeRetry g s
  | .resumeSkip g => Sys2Proof.Machine.execResumeSkip g s
  | .resumeAbandon g => Sys2Proof.Machine.execResumeAbandon g s
  | .resumeKill g => Sys2Proof.Machine.execResumeKill g s
  | .srd g d reg w => Sys2Proof.Machine.execSrd g d reg w s
  | .swr g reg a w => Sys2Proof.Machine.execSwr g reg a w s
  | .nop g => Sys2Proof.Machine.execNop g s
  | .hint g n a => Sys2Proof.Machine.execHint g n a s
  | .pmatch g k v => Sys2Proof.Machine.execPmatch g k v s
  | .pmatchRm g k => Sys2Proof.Machine.execPmatchRm g k s
  | .batchSelect core => Sys2Proof.Machine.execBatchSelect core s
  | .treeWalk core => Sys2Proof.Machine.execTreeWalk core s
  | .joinHoldExpiry core entry => Sys2Proof.Machine.execJoinHoldExpiry core entry s
  | .coldListSteal core => Sys2Proof.Machine.execColdListSteal core s
  | .coopFire core => Sys2Proof.Machine.execCoopFire core s
  | .refillPop core slot => Sys2Proof.Machine.execRefillPop core slot s
  | .matchHandler core sel => Sys2Proof.Machine.execMatchHandler core sel s
  | .accessComplete core id => Sys2Proof.Machine.execAccessComplete core id s
  | .barrierRelease core slot => Sys2Proof.Machine.execBarrierRelease core slot s
  | .phaseWaitRelease core slot => Sys2Proof.Machine.execPhaseWaitRelease core slot s
  | .counterWaitRelease core slot => Sys2Proof.Machine.execCounterWaitRelease core slot s
  | .queueRelease core slot => Sys2Proof.Machine.execQueueRelease core slot s
  | .bindingResponse ctx va answer => Sys2Proof.Machine.execBindingResponse ctx va answer s
  | .trapDelivery core => Sys2Proof.Machine.execTrapDelivery core s
  | .handlerTimeout core => Sys2Proof.Machine.execHandlerTimeout core s
  | .issueResume core => Sys2Proof.Machine.execIssueResume core s
  | .engineLateFault core id => Sys2Proof.Machine.execEngineLateFault core id s
  | .pageGroupClose cluster gid => Sys2Proof.Machine.execPageGroupClose cluster gid s
  | .pageGroupIssue cluster gid => Sys2Proof.Machine.execPageGroupIssue cluster gid s
  | .pageResponse cluster gid reply maps => Sys2Proof.Machine.execPageResponse cluster gid reply maps s
  | .workgroupSwapOut core wg => Sys2Proof.Machine.execWorkgroupSwapOut core wg s
  | .swapRestore ctx img core => Sys2Proof.Machine.execSwapRestore ctx img core s
  | .matrixReadout core => Sys2Proof.Machine.execMatrixReadout core s
  | .matrixComplete core => Sys2Proof.Machine.execMatrixComplete core s
  | .mapFill core wg slot sector => Sys2Proof.Machine.execMapFill core wg slot sector s
  | .mapWriteback core wg slot sector => Sys2Proof.Machine.execMapWriteback core wg slot sector s
  | .copyComplete core => Sys2Proof.Machine.execCopyComplete core s
  | .xcodeComplete core => Sys2Proof.Machine.execXcodeComplete core s
  | .bulkComplete id => Sys2Proof.Machine.execBulkComplete id s
  | .push ctx off words => Sys2Proof.Machine.execPush ctx off words s
  | .launchEligible ctx idx => Sys2Proof.Machine.execLaunchEligible ctx idx s
  | .workgroupPlace ctx idx core => Sys2Proof.Machine.execWorkgroupPlace ctx idx core s
  | .workgroupStart core wg => Sys2Proof.Machine.execWorkgroupStart core wg s
  | .placementStarvation ctx idx => Sys2Proof.Machine.execPlacementStarvation ctx idx s
  | .preemption core wg => Sys2Proof.Machine.execPreemption core wg s
  | .workgroupRestore ctx img core => Sys2Proof.Machine.execWorkgroupRestore ctx img core s
  | .workgroupRetire core wg => Sys2Proof.Machine.execWorkgroupRetire core wg s
  | .cancel ctx value => Sys2Proof.Machine.execCancel ctx value s
  | .budgetPeriod => Sys2Proof.Machine.execBudgetPeriod s
  | .budgetWrite ctx value => Sys2Proof.Machine.execBudgetWrite ctx value s
  | .watchWrite ctx k value => Sys2Proof.Machine.execWatchWrite ctx k value s
  | .debugContinue ctx value => Sys2Proof.Machine.execDebugContinue ctx value s
  | .debugStep ctx value => Sys2Proof.Machine.execDebugStep ctx value s
  | .qctlReopen ctx q => Sys2Proof.Machine.execQctlReopen ctx q s
  | .qctlClearFull ctx q => Sys2Proof.Machine.execQctlClearFull ctx q s
  | .preemptRequest ctx value => Sys2Proof.Machine.execPreemptRequest ctx value s
  | .trcctlWrite ctx value => Sys2Proof.Machine.execTrcctlWrite ctx value s
  | .syncBurst core ctx => Sys2Proof.Machine.execSyncBurst core ctx s
  | .registerWrite ctx off value => Sys2Proof.Machine.execRegisterWrite ctx off value s
  | .powerUp => Sys2Proof.Machine.execPowerUp s
  | .powerOff => Sys2Proof.Machine.execPowerOff s
  | .create record => Sys2Proof.Machine.execCreate record s
  | .destroy ctx => Sys2Proof.Machine.execDestroy ctx s
  | .stage cls off len last bytes => Sys2Proof.Machine.execStage cls off len last bytes s
  | .activate cls => Sys2Proof.Machine.execActivate cls s
  | .handoverResume ok => Sys2Proof.Machine.execHandoverResume ok s
  | .heartbeatDeadline => Sys2Proof.Machine.execHeartbeatDeadline s
  | .setdl ms => Sys2Proof.Machine.execSetdl ms s
  | .readlog first n => Sys2Proof.Machine.execReadlog first n s
  | .release block => Sys2Proof.Machine.execRelease block s
  | .enrolOwner key => Sys2Proof.Machine.execEnrolOwner key s
  | .svnbump cls => Sys2Proof.Machine.execSvnbump cls s
  | .reboot => Sys2Proof.Machine.execReboot s
  | .nonce => Sys2Proof.Machine.execNonce s
  | .stop t => Sys2Proof.Machine.execStop t s
  | .clockStop => Sys2Proof.Machine.execClockStop s
  | .scanout chain off n => Sys2Proof.Machine.execScanout chain off n s
  | .linkCommand c => Sys2Proof.Machine.execLinkCommand c s
  | .peerLinkFail link => Sys2Proof.Machine.execPeerLinkFail link s
  | .atsInvalidate ctx va len maps => Sys2Proof.Machine.execAtsInvalidate ctx va len maps s
  | .illegalWord w => Sys2Proof.Machine.execIllegalWord w s
  | .codeObjectLoad ctx base bytes => Sys2Proof.Machine.execCodeObjectLoad ctx base bytes s
  | .codeObjectUnload ctx obj => Sys2Proof.Machine.execCodeObjectUnload ctx obj s
  | .peerAccess peer addr op => Sys2Proof.Machine.execPeerAccess peer addr op s
  | .hostAccess addr op => Sys2Proof.Machine.execHostAccess addr op s
  | .routeRestore peer links => Sys2Proof.Machine.execRouteRestore peer links s
  | .checkCodeError addr correctable => Sys2Proof.Machine.execCheckCodeError addr correctable s
  | .pcieConfigWrite r => Sys2Proof.Machine.execPcieConfigWrite r s

end Sys2Proof.Machine
end

