-- ==== Sys2Proof/Machine/Tick.lean ====
section
/-! DEFINITION. A tick: what happens when one begins, the moves it offers, the fetch of a selector's next word (R65, R84, R90), and a
machine set up to issue one word. -/
namespace Sys2Proof.Machine

/-! ### The beginning of a tick -/

/-- Whether a workgroup has a thread held for a reason (R411). -/
def heldTick (co : Core) (k : Nat) (r : Reason) : Bool :=
  ((co.entries.map (·.2)) ++ co.cold).any fun e => decide (e.reason = some r) && e.slots.any fun i => decide (wgKey co i = some k)
def bumpCount (w : WG) (key : Nat) (on : Bool) : WG := if on then { w with counts := put w.counts key (rget 0 w.counts key + 1) } else w
def satInc (x : Word) : Word := if x = 0xFFFFFFFF then x else x + 1
/-- SBSTALL (R229) and the tick counts of a RETIRE record (R411). -/
def tickWG (co : Core) (k : Nat) (w : WG) : WG :=
  let w := bumpCount w 1 (heldTick co k .replay)
  let w := bumpCount w 2 (heldTick co k .queue)
  let w := bumpCount w 3 (heldTick co k .barrier)
  let w := bumpCount w 4 (heldTick co k .counter)
  let w := bumpCount w 5 w.sbmark
  { w with sbstall := if w.sbmark then satInc w.sbstall else w.sbstall, sbmark := false }
/-- Ages advance while the core issues (R84, R316); gathers see the masks as they stand now (R74). -/
def tickCore (co : Core) : Core :=
  { co with
    coldAge := if co.cold.isEmpty then 0 else co.coldAge + 1
    entries := if stopped co then co.entries else co.entries.map fun (k, e) => (k, { e with age := min (e.age + 1) Config.ageMax })
    crews := co.crews.map fun (k, c) => (k, { c with masksAt := c.masks })
    wgs := co.wgs.map fun (k, w) => (k, tickWG co k w) }

/-! ### The moves of a tick (log entry 6): each event that may come about, then a word of each selector -/

def heldSlots (co : Core) (p : Thread → Bool) : List Nat := (co.threads.filter fun (_, t) => p t).map (·.1)
def refillSlots (co : Core) : List Nat := (((co.entries.map (·.2)) ++ co.cold).filter fun e => decide (e.reason = some .refill)).flatMap (·.slots)
def coreEvents (c : Nat) (co : Core) : List Instr := List.flatten [
  co.pend.map fun p => .accessComplete c p.id,
  co.wants.flatMap fun (w, k, i) => [.mapFill c w k i, .mapWriteback c w k i],
  [.copyComplete c, .xcodeComplete c, .matrixReadout c, .matrixComplete c],
  (co.copies.filter fun x => x.failed.isSome).map fun x => .engineLateFault c x.id,
  (heldSlots co fun t => decide (t.wait = .ready)).map fun i => .barrierRelease c i,
  (heldSlots co fun t => match t.wait with | .phase .. => true | _ => false).map fun i => .phaseWaitRelease c i,
  (heldSlots co fun t => match t.wait with | .count .. => true | _ => false).map fun i => .counterWaitRelease c i,
  (heldSlots co fun t => match t.wait with | .queue .. => true | _ => false).map fun i => .queueRelease c i,
  [.trapDelivery c, .handlerTimeout c, .issueResume c],
  (co.sels.filter fun (_, x) => x.batches.any fun b => b.shadow.isSome).map fun (n, _) => .matchHandler c n,
  (refillSlots co).map fun i => .refillPop c i,
  co.walks.map fun _ => .treeWalk c,
  [.coopFire c],
  (keys co.entries).map fun k => .joinHoldExpiry c k,
  [.coldListSteal c, .batchSelect c],
  (keys co.wgs).flatMap fun k => [.workgroupStart c k, .workgroupSwapOut c k, .preemption c k, .workgroupRetire c k]]
/-- The events of a context's launches and images: a placement or a restore on the core that would be chosen now. -/
def launchEvents (s : State) (x : Nat) (k : Context) : List Instr := List.flatten [
  k.launches.flatMap fun l => if l.state = .complete then [] else [.launchEligible x l.arr, .placementStarvation x l.arr],
  match nextLaunch s x with
  | some (l, c :: _) => [.workgroupPlace x l.arr c]
  | _ => [],
  (k.images.filter fun (_, m) => !m.halted).flatMap fun (i, m) => match restoreCores s x m with
    | some (c :: _) => [if m.swapped then .swapRestore x i c else .workgroupRestore x i c]
    | _ => []]
def globalEvents (s : State) : List Instr := List.flatten [
  if now s % Config.periodTicks = 0 then [.budgetPeriod] else [],
  s.groups.flatMap fun (k, l) => l.flatMap fun g => [.pageGroupClose k g.id, .pageGroupIssue k g.id],
  s.bulks.flatMap fun b => if b.failed.isSome then [.engineLateFault b.core b.id] else [.bulkComplete b.id],
  s.ctxs.flatMap fun (x, k) => launchEvents s x k,
  s.ctxs.flatMap fun (x, _) => if traceOn s x then
    ((List.range Config.nCores).filter fun c => burstDue (traceCore s c x) || lostDue s c x).map fun c => .syncBurst c x else [],
  if s.fw.repl.isSome then [.heartbeatDeadline] else [],
  match s.fw.destroying with | some x => [.destroy x] | none => []]
def words (s : State) : List Move :=
  s.cores.flatMap fun (c, co) => (co.sels.filter fun (_, x) => !x.batches.isEmpty).map fun (n, _) => .word c n
def plan (s : State) : List Move :=
  (globalEvents s ++ s.cores.flatMap fun (c, co) => coreEvents c co).map Move.event ++ words s
/-- The inputs that are due; those of a stopped module come in turn, since its tick stands still (R403). -/
def dueInputs (s : State) : List (Nat × Instr) := if s.power = .stopped ∨ s.power = .off then s.inputs else s.inputs.filter fun (t, _) => decide (t ≤ now s)
/-- A tick begins: time goes on while the clocks run, and the moves are laid out (R402, R403). -/
def beginTick (s : State) : State :=
  let s := if s.power = .stopped ∨ s.power = .off then s else { s with tick := s.tick + 1 }
  let due := dueInputs s
  let s := { s with inputs := s.inputs.filter fun x => !due.contains x }
  let ins := due.map fun (_, i) => Move.event i
  match s.power with
  | .running =>
    if s.stopAt.any fun t => decide (t ≤ now s) then { s with agenda := .event .clockStop :: ins }
    else
      let s := { s with cores := s.cores.map fun (c, co) => (c, tickCore co) }
      let s := (keys s.cores).foldl sampleSweep s
      { s with agenda := ins ++ plan s }
  | .hallmark => { s with agenda := ins ++ [.event .powerUp] }
  | _ => { s with agenda := ins }

/-! ### The next word of a selector (R51, R90) -/

/-- The VA of the word that a batch stands at. -/
def batchWordVA (s : State) (co : Core) (b : Batch) : Option (Nat × Nat) :=
  match b.slots with
  | [] => none
  | i :: _ => match keyOf co i with
    | none => none
    | some (_, role, w) => (wordVA s w.ctx b.pos (roleOf w role).nv).map fun va => (w.ctx, va)
/-- A word whose fetch fails for good raises ACCESS in every thread of the batch (R226, R227), or MEMERR (R400). -/
def fetchFatal (s : State) (c sel ctx : Nat) (b : Batch) (va : Nat) : State :=
  takeTrap s c sel (b.slots.map fun i => (i, { code := lostCode s ctx va, addr := va }))
/-- Whether a batch's match handlers are still to run before its word (R340). -/
def matchLeft (s : State) (c sel id : Nat) : Bool :=
  match findBatch (coreOf s c) sel id with
  | some b => !(matchDue s (coreOf s c) b).isEmpty
  | none => false
/-- The batches behind one that issues: those whose word the range scoreboard held try it, and are counted where it holds them still (R229). -/
def noteBoards (run : Instr → State → Out) (c sel : Nat) : List Batch → State → State
  | [], s => s
  | b :: r, s =>
    if !b.boarded then noteBoards run c sel r s
    else match (batchWordVA s (coreOf s c) b).map fun x => fetchVA s x.1 x.2 8 with
      | some (.ok x) =>
        let w := BitVec.ofNat 64 x
        match run (fetchInstr w) { s with cur := some { core := c, sel := sel, batch := b.id, word := w } } with
        | .next t => noteBoards run c sel r (if t.cur.isNone then t else s)
        | _ => noteBoards run c sel r s
      | _ => noteBoards run c sel r s
/-- The oldest batch of the selector whose next word can issue issues it (R90). `run` is the meaning of an instruction. -/
def issueFrom (run : Instr → State → Out) (c sel : Nat) : List Batch → State → Out
  | [], s => .next s
  | b :: r, s =>
    match batchWordVA s (coreOf s c) b with
    | none => issueFrom run c sel r s
    | some (ctx, va) =>
      match fetchVA s ctx va 8 with
      | .fault a =>
        if fetchLost (coreOf s c) b.slots a then .next (fetchFatal s c sel ctx b a) else issueFrom run c sel r (fetchFault s c b.slots a)
      | .fatal a => .next (fetchFatal s c sel ctx b a)
      | .ok x =>
        let w := BitVec.ofNat 64 x
        let s := { s with cur := some { core := c, sel := sel, batch := b.id, word := w } }
        let ready := if matchLeft s c sel b.id then run (.matchHandler c sel) s else .next s
        match ready with
        | .next s =>
          if matchLeft s c sel b.id then issueFrom run c sel r { s with cur := none }
          else match run (fetchInstr w) s with
            | .next s' => if s'.cur.isNone then issueFrom run c sel r s' else .next (noteBoards run c sel r { s' with cur := none })
            | o => o
        | o => o
/-- The batches that may issue: of no stopping or swapped-out workgroup, without a thread that a command's late status waits for, and while
issue is stopped those in trap context (R316, R90, R280). -/
def issuable (s : State) (c sel : Nat) : List Batch :=
  let co := coreOf s c
  (selOf co sel).batches.filter fun b => b.job.isNone && b.slots.all fun i => match wgOf co (threadOf co i) with
    | some w => w.swap.isNone && !w.stopping && (!w.single || (threadOf co i).stepping) && (!barred s co || (threadOf co i).trap.isSome) && (b.done.contains i || !lateDue s c i)
    | none => false

/-! ### One move -/

/-- Commands that reach the Hallmark core's mailbox (R384, R403). -/
def isMailbox (i : Instr) : Bool :=
  match i with
  | .create .. | .destroy .. | .stage .. | .activate .. | .setdl .. | .readlog .. | .release .. | .enrolOwner .. | .svnbump .. | .reboot | .nonce
  | .stop .. | .scanout .. => true
  | _ => false
/-- What can come about as the module stands: everything while it runs; else the mailbox, the power, and the host's own side (R33, R381, R389,
R403). -/
def awake (p : Power) (i : Instr) : Bool :=
  match p with
  | .running => true
  | _ => isMailbox i || match i with
    | .powerUp | .powerOff | .hostAccess .. | .pcieConfigWrite .. | .routeRestore .. => true
    | .peerLinkFail .. => decide (p ≠ .stopped)
    | _ => false
/-- An access of the host to what the module does not expose before it runs: it completes with Unsupported Request (R389). -/
def unreached (p : Power) (i : Instr) : Bool :=
  decide (p = .hallmark ∨ p = .recovery) &&
  match i with
  | .push .. | .cancel .. | .budgetWrite .. | .watchWrite .. | .debugContinue .. | .debugStep .. | .qctlReopen .. | .qctlClearFull .. | .preemptRequest ..
  | .trcctlWrite .. | .registerWrite .. | .codeObjectLoad .. | .codeObjectUnload .. => true
  | _ => false
/-- One move of the agenda, or the beginning of the next tick. -/
def stepWith (run : Instr → State → Out) (s : State) : Out :=
  match s.agenda with
  | [] => .next (beginTick s)
  | .event i :: r =>
    if awake s.power i then run i { s with agenda := r }
    else if unreached s.power i then .next (unsupported { s with agenda := r })
    else .next { s with agenda := r }
  | .word c sel :: r =>
    if s.power = .running then issueFrom run c sel (issuable s c sel) { s with agenda := r } else .next { s with agenda := r }

/-! ### A machine whose next step issues a given word -/

def demoKernel : Kernel :=
  { va := 0, ver := 7, legacy := false, idem := false, matrix := true, pin := false, handler := none, depth := 16, cbslot := 8, nbar := 16,
    scratch := 16384, lpriv := 1024, dscr := 0, pinoff := 0, pincnt := 0,
    roles := [{ entry := 0, nv := 192, nm := 64, crews := 1, policy := .fullest }],
    queues := List.replicate 16 { kind := .thread, prod := 0, cons := 0, depth := 1 } }
def demoWG : WG := { ctx := 0, launch := 0, id := 0, kern := demoKernel, ncrews := 1, started := true, granules := [0] }
def demoCore : Core :=
  { threads := [(0, { crew := 0 })]
    crews := [(0, { wg := 0, num := 0, role := 0, bodies := [{ fn := 0, node := 1, depths := [(0, 0)], slots := [0] }] })]
    wgs := [(0, demoWG)]
    sels := [(0, { batches := [{ id := 0, launch := 0, role := 0, pos := {}, slots := [0], count := 255,
                                 live := [{ m := false, base := 0, len := 192 }, { m := true, base := 0, len := 64 }] }] })] }
/-- Where the word lies: one page of GDDR7 holds the node table at 0 and the code at 0x100. -/
def demoCtx : Context :=
  { pages := [{ va := 0, log2 := 12, pa := 0, rd := true, wr := true, fatal := false, snooped := true }]
    dir := [(0, BitVec.ofNat 256 (0x100 * 2 ^ 64 + 2 ^ 192))] }
/-- A block node, and a header of 255 words that declares every register (R51, R59, R60). -/
def demoNode : Nat := 2 * 2 ^ 124
def demoHeader : Nat := 255 * 2 ^ 56 + (64 + 2 ^ 16) * 2 ^ 17 + 192
def placeWord (s : State) (w : Nat) : State :=
  { s with
    power := .running
    mem := memWrite (memWrite (memWrite s.mem 0 (toBytes 16 demoNode)) 0x100 (toBytes 8 demoHeader)) 0x108 (toBytes 8 w)
    ctxs := put s.ctxs 0 demoCtx
    cores := put s.cores 0 demoCore
    agenda := [.word 0 0] }

end Sys2Proof.Machine
end

