-- ==== Sys2Proof/Machine/Step.lean ====
section
/-! DEFINITION. One step of the module. -/
namespace Sys2Proof.Machine

/-- One move of the agenda, or the beginning of the next tick. -/
def step (s : State) : Host.Outcome State Fault Refusal := stepWith exec s

/-- A running module whose next move issues the word: a context, a directory entry, a page with the node and the code, and a batch of one
thread that stands at the word (log entry 18). -/
def State.withFetchWord (s : State) (nbits w : Nat) : State := placeWord s (w % 2 ^ nbits)

end Sys2Proof.Machine
end

