-- ==== Sys2Proof/Safety.lean ====
section
/-! DEFINITION. The terms of the claims: a word that passes the checks its threads share, what a word leaves as it was, and the values it gives. -/
namespace Sys2Proof.Machine

/-! ### What a thread, a crew, a workgroup and a core hold -/

/-- A thread without its place in the block and what it waits for. -/
def Thread.held (t : Thread) : Thread := { t with pos := {}, wait := .none, resume := .none }
/-- A crew without the body sets it stands in, and the values of affine registers that lanes outside may still see (R118). -/
def Crew.held (k : Crew) : Crew := { k with bodies := [], affOld := [] }
/-- A workgroup without the counts of issue and energy (R311, R410), and the fetch it last waited for. -/
def WG.held (w : WG) : WG := { w with counts := [], energy := 0, fetchTries := none }
/-- The thread of a slot. -/
def threadAt (s : State) (c i : Nat) : Thread := threadOf (coreOf s c) i

/-! ### A word that issues -/

/-- The word passes the checks that the threads of its batch share (R46, R39, R374; R22), its queue operands neither trap nor wait
(R284, R285), and the slots of its batch hold threads. -/
structure Issues (s : State) (e : Env) (p : WordSpec) : Prop where
  env : envOf s = some e
  there : ∀ i ∈ e.b.slots, (get? e.co.threads i).isSome = true
  legal : legal e p = true
  body : p.crew = true → e.crewB = true
  gate : gateOf e p (liveOf e p.g p.again) = .go

/-- A lane that neither waits nor stalls: it completes the word or traps. -/
def Answers (r : L LaneOut) : Prop := ∀ b, r = .error b → ∃ c l a g y, b = .trap c l a g y
/-- The lane traps under checks 1-5 of R50. -/
def Early (r : L LaneOut) : Prop := ∃ c l a g, r = .error (.trap c l a g true)

/-- What a word that touches only its threads leaves in its core: crews but for affine registers, workgroups but for queue registers,
accesses and commands in flight, tiles, and which threads there are. -/
structure CoreQuiet (co co' : Core) : Prop where
  there : ∀ i, (get? co'.threads i).isSome = (get? co.threads i).isSome
  crews : ∀ k, (get? co'.crews k).map (fun x => { x.held with aff := [] }) = (get? co.crews k).map (fun x => { x.held with aff := [] })
  wgs : ∀ k, (get? co'.wgs k).map (fun x => { x.held with queues := [] }) = (get? co.wgs k).map (fun x => { x.held with queues := [] })
  pend : co'.pend = co.pend
  copies : co'.copies = co.copies
  ranges : co'.ranges = co.ranges
  jobs : co'.jobs = co.jobs
  tiles : co'.tiles = co.tiles

/-- What such a word leaves in the module: all memory with its caches, the other cores, every context but for its issue count (R311), and
every other field. -/
structure Quiet (c : Nat) (s t : State) : Prop where
  core : CoreQuiet (coreOf s c) (coreOf t c)
  others : ∀ d, d ≠ c → coreOf t d = coreOf s d
  ctxs : ∀ x, { ctxOf t x with issueSpent := [] } = { ctxOf s x with issueSpent := [] }
  rest : { t with cores := [], ctxs := [] } = { s with cores := [], ctxs := [] }

/-- R39: a lane whose permuted field names a lane in 64-127 of a legacy-width crew sets WIDE. -/
def widened (e : Env) (p : WordSpec) (i : Nat) (t : Thread) : Thread :=
  if p.perms.any (wideHit e i) then { t with lwidth := t.lwidth ||| 1 } else t
/-- Slot `i` of the issuing core holds the thread `u` that the word gives it, one repetition of R81 later; its place in the block apart. -/
def Gets (e : Env) (p : WordSpec) (t : State) (i : Nat) (u : Thread) : Prop :=
  (threadAt t e.c i).held = (repStep (widened e p i u)).held
/-- A thread that the word leaves as it was. -/
def Untouched (s t : State) (c i : Nat) : Prop := (threadAt t c i).held = (threadAt s c i).held

/-- The results of the lanes that completed the word. -/
def outsOf (res : Nat → L LaneOut) (live : List Nat) : List (Nat × Nat) :=
  live.filterMap fun i => match res i with | .ok o => some (i, o.out) | .error _ => none
/-- The traps of the lanes. -/
def trapsOf (e : Env) (res : Nat → L LaneOut) (live : List Nat) : List (Nat × TrapInfo) := live.filterMap fun i => trapLane e (i, res i)
/-- The queue registers after a word (R284): one entry popped from each queue it reads, then one pushed. -/
def queuesAfter (e : Env) (p : WordSpec) (outs : List (Nat × Nat)) (w : WG) : SMap Queue :=
  match p.push with
  | some q => (pushQueue (popQueues w (popsOf e p)) q (entryOf e.width outs)).queues
  | none => (popQueues w (popsOf e p)).queues

/-- WHAT A WORD DOES THAT TOUCHES ITS THREADS ALONE, with the result `res` of each lane: a lane that executes it gets its new thread, a
lane that traps keeps its own (R50), and a thread whose guard is false only steps its repetition (R81). A crew-wide destination is
written once: an affine register with the executing lane's value (R116), a queue register with the lanes' results (R284). The traps are
pending (R316). Nothing else changes. -/
structure Runs (s : State) (e : Env) (p : WordSpec) (res : Nat → L LaneOut) (t : State) : Prop where
  quiet : Quiet e.c s t
  done : ∀ i ∈ liveOf e p.g p.again, ∀ o, res i = .ok o → Gets e p t i o.t
  barred : ∀ i ∈ liveOf e p.g p.again, ∀ b, res i = .error b → Untouched s t e.c i
  idle : ∀ i ∈ participants e, i ∉ liveOf e p.g p.again → (threadAt t e.c i).held = (repStep (e.thread i)).held
  others : ∀ i, i ∉ participants e → Untouched s t e.c i
  aff : ∀ k, (get? (coreOf t e.c).crews k).map (·.aff) = (get? (coreOf s e.c).crews k).map fun x =>
    match p.aff, (liveOf e p.g p.again).head? with
    | some n, some i =>
      match res i with
      | .ok o => if k = (e.thread i).crew ∧ (liveOf e p.g p.again).all (fun j => !earlyTrap (j, res j)) then
          rput 0 x.aff n (pair (BitVec.ofNat 32 o.out) (BitVec.ofNat 32 (o.out / 2 ^ 32))) else x.aff
      | .error _ => x.aff
    | _, _ => x.aff
  queues : ∀ k, (get? (coreOf t e.c).wgs k).map (·.queues) = (get? (coreOf s e.c).wgs k).map fun w =>
    if k = e.base ∧ outsOf res (liveOf e p.g p.again) ≠ [] then queuesAfter e p (outsOf res (liveOf e p.g p.again)) w else w.queues
  traps : ∃ rest, (coreOf t e.c).stop.pending = (coreOf s e.c).stop.pending ++
    groupByCode (now s) e.sel ((trapsOf e res (liveOf e p.g p.again)).map fun (i, x) => (i, { x with sel := e.sel, tick := s.tick })) ++ rest

/-- WHAT THE END OF AN ISSUE LEAVES of a state `s`: the threads of `here`, which completed the word, end one repetition of it (R81); their
batch passes on (R90). Every register of every thread, crew and workgroup, everything in flight and all memory stay. -/
structure Ends (c : Nat) (here : List Nat) (s t : State) : Prop where
  threads : ∀ i, (get? (coreOf t c).threads i).map Thread.held =
    (get? (coreOf s c).threads i).map fun u => if i ∈ here then (repStep u).held else u.held
  crews : ∀ k, (get? (coreOf t c).crews k).map Crew.held = (get? (coreOf s c).crews k).map Crew.held
  wgs : ∀ k, (get? (coreOf t c).wgs k).map WG.held = (get? (coreOf s c).wgs k).map WG.held
  pend : (coreOf t c).pend = (coreOf s c).pend
  copies : (coreOf t c).copies = (coreOf s c).copies
  ranges : (coreOf t c).ranges = (coreOf s c).ranges
  jobs : (coreOf t c).jobs = (coreOf s c).jobs
  tiles : (coreOf t c).tiles = (coreOf s c).tiles
  others : ∀ d, d ≠ c → coreOf t d = coreOf s d
  ctxs : ∀ x, { ctxOf t x with issueSpent := [] } = { ctxOf s x with issueSpent := [] }
  rest : { t with cores := [], ctxs := [] } = { s with cores := [], ctxs := [] }

/-- The slots of `done` that still stand in the issuing batch. -/
def hereOf (e : Env) (done : List Nat) (u : State) : List Nat :=
  match findBatch (coreOf u e.c) e.sel e.b.id with
  | some b => done.filter b.slots.contains
  | none => []
/-- The instruction completes, and leaves `u` but for the end of its issue: every thread that the issue serves ends the word. -/
def Leads (i : Instr) (s : State) (e : Env) (u : State) : Prop := ∃ t, exec i s = .next t ∧ Ends e.c (hereOf e (participants e) u) u t
/-- The word issues, and one lane executes it, which resumes nothing. -/
structure Lone (s : State) (e : Env) (p : WordSpec) (i : Nat) : Prop where
  issues : Issues s e p
  only : liveOf e p.g p.again = [i]
  first : (e.thread i).resume = .none
/-- The lane's results alone, in a state: its thread, queue entries and affine register, and the units that the word is charged (R410). -/
def alone (e : Env) (p : WordSpec) (i : Nat) (o : LaneOut) (s : State) : State :=
  chargeWord (storeLanes e p [i] [(i, o)] [] false s) e.c e.word [i]

/-! ### Words of one result per lane -/

/-- The instruction issues as `p` says, and lane `k` comes to `res e k`, whenever no lane waits for a register. -/
def Computes (i : Instr) (p : WordSpec) (res : Env → Nat → L LaneOut) : Prop :=
  ∀ s e, Issues s e p → (∀ k ∈ liveOf e p.g p.again, Answers (res e k)) → ∃ t, exec i s = .next t ∧ Runs s e p (res e) t

/-- The order of R50 in one lane: the sources, an indexed destination, ALIGN of an odd pair (R101), then `f` on the values; its result goes
to the destination. -/
def resultOf (a : Alu) (f : Env → Nat → List Nat → L (Nat × Thread)) (e : Env) (k : Nat) : L LaneOut :=
  match readSrcs e k (e.thread k) a.srcs with
  | .error b => .error b
  | .ok (vs, odd) =>
    match destOf e (e.thread k) a.d a.w with
    | .error b => .error b
    | .ok d =>
      if odd = true ∨ d = .odd then .error (.trap cAlign vs 0 0 false)
      else match f e k vs with
        | .error b => .error b
        | .ok (x, t) => .ok { t := d.put t a.w x, out := x % 2 ^ 32 }
/-- The same without a destination register: `f` makes the thread. -/
def changeOf (srcs : List (Src × Bool)) (f : Env → Nat → List Nat → L Thread) (e : Env) (k : Nat) : L LaneOut :=
  match readSrcs e k (e.thread k) srcs with
  | .error b => .error b
  | .ok (vs, _) => match f e k vs with
    | .error b => .error b
    | .ok t => .ok { t := t }
/-- The instruction writes `val` of its source values, and traps on no value. -/
def Gives (i : Instr) (a : Alu) (val : List Nat → Nat) : Prop := Computes i a.spec (resultOf a fun e k vs => .ok (val vs, e.thread k))
/-- Operations on words of `n` bits. -/
def of1 (n : Nat) (op : BitVec n → BitVec n) (vs : List Nat) : Nat := (op (BitVec.ofNat n (arg vs 0))).toNat
def of2 (n : Nat) (op : BitVec n → BitVec n → BitVec n) (vs : List Nat) : Nat :=
  (op (BitVec.ofNat n (arg vs 0)) (BitVec.ofNat n (arg vs 1))).toNat
/-- The operands of a word that has no destination register. -/
def Alu.bare (g : Guard) (srcs : List Src) : Alu := { g := g, d := .zero, srcs := srcs.map fun x => (x, false) }

/-- A floating-point word (R129): it writes the first part of `f`, and the flags of the second replace its thread's current ones and join
the accrued ones; no value traps. -/
def Floats (i : Instr) (a : Alu) (f : Ctl → List Nat → Nat × Flags) : Prop :=
  Computes i a.spec (resultOf a fun e k vs =>
    .ok ((f (ctlOf (e.thread k).fpctl) vs).1, (e.thread k).flags (f (ctlOf (e.thread k).fpctl) vs).2))
/-- The order of R50 in one lane of a moment word: the sources, the destination, then `f`, which may trap. -/
def momentOf (x : MWord) (f : Thread → List Nat → L (Nat × Thread)) (e : Env) (k : Nat) : L LaneOut :=
  match readMFields e k (e.thread k) x.srcs with
  | .error b => .error b
  | .ok vs =>
    let put := fun (d : Dest) (w : Bool) =>
      match f (e.thread k) vs with
      | .error b => .error b
      | .ok (y, t) => (.ok { t := d.put t w y, out := y % 2 ^ 32 } : L LaneOut)
    match x.d with
    | .m n =>
      if (e.thread k).pend.contains (.m n) then .error .stall
      else match f (e.thread k) vs with
        | .error b => .error b
        | .ok (y, t) => .ok { t := t.setM n (BitVec.ofNat 64 y) }
    | .code d w =>
      match destOf e (e.thread k) d w with
      | .error b => .error b
      | .ok .odd => .error (.trap cAlign vs 0 0 false)
      | .ok ds => put ds w
    | .p n =>
      match f (e.thread k) vs with
      | .error b => .error b
      | .ok (y, t) => .ok { t := t.setP n (decide (y = 1)) }
/-- A moment word that traps on no value, raises no flag and writes `val`. -/
def Moves (i : Instr) (x : MWord) (val : List Nat → Nat) : Prop := Computes i x.spec (momentOf x fun t vs => .ok (val vs, t.flags 0))
/-- A moment word of two planes (R152, R153, R158): a negative variance among its first `ms` sources raises NEGVAR; else each plane is
rounded by itself, and a negative variance result is written as +0, with CLAMP set. -/
def Planes (i : Instr) (x : MWord) (ms : Nat) (f : Ctl → Thread → List Nat → (Nat × Flags) × (Nat × Flags)) : Prop :=
  Computes i x.spec (momentOf x fun t vs =>
    if (vs.take ms).any negVar then .error (.trap cNegvar vs 0 0 false)
    else .ok (writeMom t (f (ctlOf t.fpctl) t vs).1 (f (ctlOf t.fpctl) t vs).2))

/-- A word that writes an affine register: base and stride of each lane's values, of which the executing lane's are written (R116). -/
def affineOf (srcs : List (Src × Bool)) (f : Word → Word → List Nat → Word × Word) (r : Nat) (e : Env) (k : Nat) : L LaneOut :=
  match readSrcs e k (e.thread k) srcs with
  | .error b => .error b
  | .ok (vs, _) =>
    let old := affSeen e (e.crew (e.thread k)) r k
    let new := f (lo32 old) (hi32 old) vs
    .ok { t := e.thread k, out := new.1.toNat + 2 ^ 32 * new.2.toNat }

/-- The rounding shift of R105, ties away from zero. -/
def roundShift (x : Int) (k : Nat) : Int := if k = 0 then x else x.sign * (((x.natAbs + 2 ^ (k - 1)) / 2 ^ k : Nat) : Int)
/-- `min(max(x, lo), hi)`. -/
def clamp (x lo hi : Int) : Int := min (max x lo) hi
/-- Position and length of a field control word (R106). -/
def posOf (c : Nat) : Nat := c % 32
def lenOf (c : Nat) : Nat := min (c / 256 % 64) (32 - c % 32)

end Sys2Proof.Machine
end

