-- ==== Sys2Proof/Certificates/Slice0/Obligations.lean ====
section
/-! DEFINITION. The statements for the provers. -/
open Sys2Proof Sys2Proof.Machine

/-! ### Majors 0x04 to 0x0A: integer, predicates, index and affine registers -/

/-- R104, R105: the results of major 0x04 but for the divide words, as images of 32 bits, or of 64 for .b64; every lane whose operands are there
completes. -/
def Obligations.IntegerArithmeticResults : Prop :=
  (∀ x w, Gives (.iadd x w) (alu3 x w) (of2 (if w then 64 else 32) fun a b => a + b)) ∧
  (∀ x w, Gives (.isub x w) (alu3 x w) (of2 (if w then 64 else 32) fun a b => a - b)) ∧
  (∀ x, Gives (.imul x) (alu3 x false) (of2 32 fun a b => a * b)) ∧
  (∀ x, Gives (.imulh x) (alu3 x false) (of2 32 fun a b => BitVec.ofInt 32 (a.toInt * b.toInt / 2 ^ 32))) ∧
  (∀ x, Gives (.imulhu x) (alu3 x false) (of2 32 fun a b => BitVec.ofNat 32 (a.toNat * b.toNat / 2 ^ 32))) ∧
  (∀ x, Gives (.ineg x) (alu2 x false) (of1 32 fun a => -a)) ∧
  (∀ x, Gives (.iabs x) (alu2 x false) (of1 32 fun a => if a.toInt < 0 then -a else a)) ∧
  (∀ x, Gives (.imin x) (alu3 x false) (of2 32 fun a b => if a.toInt ≤ b.toInt then a else b)) ∧
  (∀ x, Gives (.imax x) (alu3 x false) (of2 32 fun a b => if a.toInt ≤ b.toInt then b else a)) ∧
  (∀ x, Gives (.iminu x) (alu3 x false) (of2 32 fun a b => if a ≤ b then a else b)) ∧
  (∀ x, Gives (.imaxu x) (alu3 x false) (of2 32 fun a b => if a ≤ b then b else a)) ∧
  (∀ x, Gives (.isat x .s8) (alu2 x false) (of1 32 fun a => BitVec.ofInt 32 (clamp a.toInt (-128) 127))) ∧
  (∀ x, Gives (.isat x .u8) (alu2 x false) (of1 32 fun a => BitVec.ofInt 32 (clamp a.toInt 0 255))) ∧
  (∀ x, Gives (.isat x .s16) (alu2 x false) (of1 32 fun a => BitVec.ofInt 32 (clamp a.toInt (-32768) 32767))) ∧
  (∀ x, Gives (.isat x .u16) (alu2 x false) (of1 32 fun a => BitVec.ofInt 32 (clamp a.toInt 0 65535))) ∧
  (∀ x, Gives (.isat x .nonneg) (alu2 x false) (of1 32 fun a => BitVec.ofInt 32 (clamp a.toInt 0 (2 ^ 31 - 1)))) ∧
  (∀ x, Gives (.irsh x false) (alu3 x false) (of2 32 fun a b => BitVec.ofInt 32 (roundShift a.toInt (b.toNat % 64)))) ∧
  (∀ x, Gives (.irsh x true) (alu3 x false) (of2 32 fun a b => BitVec.ofInt 32 (roundShift a.toNat (b.toNat % 64))))

/-- R104: the four divide words; a divisor of 0 raises DIVZERO with the sources, in its lane alone (R102). -/
def Obligations.IntegerDivideResults : Prop :=
  let divide := fun (i : Instr) (x : R3) (op : Word → Word → Word) =>
    Computes i (alu3 x false).spec (resultOf (alu3 x false) fun e k vs =>
      if arg vs 1 = 0 then .error (.trap cDivzero vs 0 0 false) else .ok (of2 32 op vs, e.thread k))
  (∀ x, divide (.idiv x) x BitVec.sdiv) ∧ (∀ x, divide (.idivu x) x fun a b => a / b) ∧
  (∀ x, divide (.irem x) x BitVec.srem) ∧ (∀ x, divide (.iremu x) x fun a b => a % b)

/-- R106: major 0x05's results. A shift count is the low six bits of a 32-bit srcB, the low seven for .b64; counts at or above the width do not
wrap. -/
def Obligations.LogicShiftAndFieldResults : Prop :=
  let W := fun (w : Bool) => if w then 64 else 32
  let shift := fun (x : R3) (w : Bool) => ({ g := x.g, d := x.d, w := w, srcs := [(x.a, w), (x.b, false)] } : Alu)
  let by' := fun (w : Bool) (vs : List Nat) => arg vs 1 % (if w then 128 else 64)
  (∀ x w, Gives (.land x w) (alu3 x w) (of2 (W w) fun a b => a &&& b)) ∧
  (∀ x w, Gives (.lor x w) (alu3 x w) (of2 (W w) fun a b => a ||| b)) ∧
  (∀ x w, Gives (.lxor x w) (alu3 x w) (of2 (W w) fun a b => a ^^^ b)) ∧
  (∀ x w, Gives (.landn x w) (alu3 x w) (of2 (W w) fun a b => a &&& ~~~b)) ∧
  (∀ x w, Gives (.lnot x w) (alu2 x w) (of1 (W w) fun a => ~~~a)) ∧
  (∀ x w, Gives (.shl x w) (shift x w) fun vs => (BitVec.ofNat (W w) (arg vs 0) <<< by' w vs).toNat) ∧
  (∀ x w, Gives (.shr x w) (shift x w) fun vs => (BitVec.ofNat (W w) (arg vs 0) >>> by' w vs).toNat) ∧
  (∀ x w, Gives (.sar x w) (shift x w) fun vs => ((BitVec.ofNat (W w) (arg vs 0)).sshiftRight (by' w vs)).toNat) ∧
  (∀ x, Gives (.rol x) (alu3 x false) (of2 32 fun a b => a.rotateLeft (b.toNat % 32))) ∧
  (∀ x, Gives (.bfx x) (alu3 x false) (of2 32 fun a c => (a.extractLsb' (posOf c.toNat) (lenOf c.toNat)).signExtend 32)) ∧
  (∀ x, Gives (.bfxu x) (alu3 x false) (of2 32 fun a c => (a.extractLsb' (posOf c.toNat) (lenOf c.toNat)).zeroExtend 32)) ∧
  (∀ x, Gives (.popc x) (alu2 x false) fun vs => (List.range 32).countP fun i => (BitVec.ofNat 32 (arg vs 0)).getLsbD i) ∧
  (∀ x, Gives (.clz x) (alu2 x false) (of1 32 fun a => a.clz)) ∧
  (∀ x, Gives (.brev x) (alu2 x false) (of1 32 fun a => a.reverse)) ∧
  (∀ x w, Gives (.mov x w) (alu2 x w) (of1 (W w) fun a => a))

/-- R107, R108, R109: the three-source words and the constants. IQNT rounds once, with ties away from zero, and saturates. -/
def Obligations.ThreeSourceAndConstantResults : Prop :=
  let s16 := fun (c : Nat) => (BitVec.ofNat 16 (c / 65536)).toInt
  let scaled := fun (vs : List Nat) =>
    roundShift ((BitVec.ofNat 32 (arg vs 0)).toInt * (BitVec.ofNat 32 (arg vs 1)).toInt) (32 + arg vs 2 % 64) + s16 (arg vs 2)
  let qnt := fun (lo hi : Int) (vs : List Nat) => (BitVec.ofInt 32 (clamp (scaled vs) lo hi)).toNat
  let mask := fun (c : Nat) => (((1 : Word) <<< lenOf c) - 1) <<< posOf c
  (∀ x, Gives (.imad x) (aluT x) fun vs => (BitVec.ofNat 32 (arg vs 0) * BitVec.ofNat 32 (arg vs 1) + BitVec.ofNat 32 (arg vs 2)).toNat) ∧
  (∀ x, Gives (.bfi x) (aluT x) fun vs =>
    ((BitVec.ofNat 32 (arg vs 1) &&& ~~~mask (arg vs 2)) ||| ((BitVec.ofNat 32 (arg vs 0) <<< posOf (arg vs 2)) &&& mask (arg vs 2))).toNat) ∧
  (∀ x, Gives (.iqnt x .s8) (aluT x) (qnt (-128) 127)) ∧ (∀ x, Gives (.iqnt x .u8) (aluT x) (qnt 0 255)) ∧
  (∀ x, Gives (.iqnt x .s16) (aluT x) (qnt (-32768) 32767)) ∧ (∀ x, Gives (.iqnt x .u16) (aluT x) (qnt 0 65535)) ∧
  (∀ g d imm, Gives (.movi g d imm) { g := g, d := d, srcs := [] } fun _ => (BitVec.ofInt 32 imm).toNat) ∧
  (∀ g d a imm, Gives (.ail g d a imm) { g := g, d := d, srcs := [(a, false)] } (of1 32 fun a => a + BitVec.ofInt 32 imm)) ∧
  (∀ g d imm, Gives (.aih g d imm) { g := g, d := d, srcs := [] } fun _ => (BitVec.ofInt 32 imm <<< 12).toNat)

/-- R110, R111, R112: compares and the words on predicates, with the condition that mod selects; a select is no predicate write. The fields
name what they should; the mod values that the rules reserve, predicate codes from 7 on, and fields that must be zero and are not, make no
instruction. -/
def Obligations.CompareAndPredicateResults : Prop :=
  let pred := fun (i : Instr) (g : Guard) (p : Nat) (srcs : List Src) (f : Thread → List Nat → Bool) =>
    Computes i (Alu.bare g srcs).spec (changeOf (Alu.bare g srcs).srcs fun e k vs => .ok ((e.thread k).setP p (f (e.thread k) vs)))
  let u := fun (vs : List Nat) (n : Nat) => BitVec.ofNat 32 (arg vs n)
  (∀ g p a b, pred (.icmp g p a b .eq) g p [a, b] fun _ vs => decide (u vs 0 = u vs 1)) ∧
  (∀ g p a b, pred (.icmp g p a b .ne) g p [a, b] fun _ vs => decide (u vs 0 ≠ u vs 1)) ∧
  (∀ g p a b, pred (.icmp g p a b .lt) g p [a, b] fun _ vs => (u vs 0).slt (u vs 1)) ∧
  (∀ g p a b, pred (.icmp g p a b .le) g p [a, b] fun _ vs => (u vs 0).sle (u vs 1)) ∧
  (∀ g p a b, pred (.icmp g p a b .gt) g p [a, b] fun _ vs => (u vs 1).slt (u vs 0)) ∧
  (∀ g p a b, pred (.icmp g p a b .ge) g p [a, b] fun _ vs => (u vs 1).sle (u vs 0)) ∧
  (∀ g p a b, pred (.icmp g p a b .ltu) g p [a, b] fun _ vs => (u vs 0).ult (u vs 1)) ∧
  (∀ g p a b, pred (.icmp g p a b .leu) g p [a, b] fun _ vs => (u vs 0).ule (u vs 1)) ∧
  (∀ g p a b, pred (.icmp g p a b .gtu) g p [a, b] fun _ vs => (u vs 1).ult (u vs 0)) ∧
  (∀ g p a b, pred (.icmp g p a b .geu) g p [a, b] fun _ vs => (u vs 1).ule (u vs 0)) ∧
  (∀ x p neg, Computes (.isel x p neg) (alu3 x false).spec (resultOf (alu3 x false) fun e k vs =>
    .ok (if (e.thread k).getP p ≠ neg then arg vs 0 else arg vs 1, e.thread k))) ∧
  (∀ g p a, pred (.pset g p a) g p [a] fun _ vs => decide (u vs 0 ≠ 0)) ∧
  (∀ g p a b na nb, pred (.pand g p a b na nb) g p [] fun t _ => (t.getP a ^^ na) && (t.getP b ^^ nb)) ∧
  (∀ g p a b na nb, pred (.por g p a b na nb) g p [] fun t _ => (t.getP a ^^ na) || (t.getP b ^^ nb)) ∧
  (∀ g p a b na nb, pred (.pxor g p a b na nb) g p [] fun t _ => (t.getP a ^^ na) ^^ (t.getP b ^^ nb)) ∧
  (∀ g p a, pred (.pnot g p a) g p [] fun t _ => !t.getP a) ∧
  (∀ g f,
    let refused := ∃ r, decCmp g f = .error r
    let other := f.b ≠ 0 ∨ f.mod ≠ 0
    (f.minor = 0 → 10 ≤ f.mod → refused) ∧ (f.minor = 1 → f.mod % 8 = 7 → refused) ∧ (f.minor = 2 → other → refused) ∧
    (f.minor = 3 ∨ f.minor = 4 ∨ f.minor = 5 → 4 ≤ f.mod → refused) ∧ (f.minor = 6 → other → refused) ∧
    (f.minor ≠ 1 → 7 ≤ f.dst → refused)) ∧
  (∀ g f p q,
    let pred := fun (x p : Nat) => x % 1024 = 0 ∧ x / 1024 = p ∧ p < 7
    let is := fun (i : Instr) => decCmp g f = .ok i
    let on := fun (k : Nat) => decide (f.mod / 2 ^ k % 2 = 1)
    (∀ a b c, f.minor = 0 → f.dst < 7 → decSrc f.a = .ok a → decSrc f.b = .ok b →
      [ICond.eq, .ne, .lt, .le, .gt, .ge, .ltu, .leu, .gtu, .geu][f.mod]? = some c → is (.icmp g f.dst a b c)) ∧
    (∀ x, f.minor = 1 → f.mod < 16 → f.mod % 8 < 7 → dR3 g f false = .ok x → is (.isel x (f.mod % 8) (on 3))) ∧
    (∀ a, f.minor = 2 → f.dst < 7 → decSrc f.a = .ok a → f.b = 0 → f.mod = 0 → is (.pset g f.dst a)) ∧
    (f.dst < 7 → pred f.a p → pred f.b q → f.mod < 4 →
      (f.minor = 3 → is (.pand g f.dst p q (on 0) (on 1))) ∧ (f.minor = 4 → is (.por g f.dst p q (on 0) (on 1))) ∧
      (f.minor = 5 → is (.pxor g f.dst p q (on 0) (on 1)))) ∧
    (f.minor = 6 → f.dst < 7 → pred f.a p → f.b = 0 → f.mod = 0 → is (.pnot g f.dst p))) ∧
  decode 0x2380020100014002 = .ok (.icmp .always 2 { code := .v 1 } { code := .v 5 } .lt) ∧
  decode 0x238301020000C002 = .ok (.pand .always 1 2 3 false true)

/-- R113, R114: the words on index registers. A record that would reach beyond register 191, or an origin below 0, raises BOUNDS and writes
nothing; an index saturates to 0 and 255. -/
def Obligations.IndexRegisterResults : Prop :=
  let ix := fun (i : Instr) (g : Guard) (srcs : List Src) (f : Thread → List Nat → L Thread) =>
    Computes i (Alu.bare g srcs).spec (changeOf (Alu.bare g srcs).srcs fun e k vs => f (e.thread k) vs)
  (∀ g x a, ix (.xset g x a) g [a] fun t vs =>
    if 192 < arg vs 0 % 256 + arg vs 0 / 256 % 256 then .error (.trap cBounds vs 0 0 false)
    else .ok (t.setX x (BitVec.ofNat 24 (arg vs 0)))) ∧
  (∀ g x y, ix (.xmov g x y) g [] fun t _ => .ok (t.setX x (t.getX y))) ∧
  (∀ g d y, Computes (.xmovToV g d y) (Alu.spec { g := g, d := .v d, srcs := [] }) (resultOf { g := g, d := .v d, srcs := [] } fun e k _ =>
    .ok (((e.thread k).getX y).toNat, e.thread k))) ∧
  (∀ g x y b, ix (.xadd g x y b) g [b] fun t vs =>
    .ok (t.setX x (mkX (xOrg (t.getX y)) (xLen (t.getX y)) (clamp ((xIdx (t.getX y) : Int) + (BitVec.ofNat 32 (arg vs 0)).toInt) 0 255).toNat))) ∧
  (∀ g x y b, ix (.xaddOrg g x y b) g [b] fun t vs =>
    let o := (xOrg (t.getX y) : Int) + (BitVec.ofNat 32 (arg vs 0)).toInt
    if o < 0 ∨ 192 < o + xLen (t.getX y) then .error (.trap cBounds ((t.getX y).toNat :: vs) 0 0 false)
    else .ok (t.setX x (mkX o.toNat (xLen (t.getX y)) (xIdx (t.getX y)))))

/-- R115-R118: the words on the crew's affine registers. Base and stride wrap at 32 bits; a write is made once, with the executing lane's
values; AVAL gives lane L the value base + stride * L. -/
def Obligations.AffineRegisterResults : Prop :=
  let aff := fun (i : Instr) (g : Guard) (d r : Nat) (srcs : List Src) (f : Word → Word → List Nat → Word × Word) =>
    Computes i (Alu.spec { g := g, d := .a d, srcs := srcs.map fun x => (x, false) }) (affineOf (srcs.map fun x => (x, false)) f r)
  let val := fun (i : Instr) (g : Guard) (d : Code) (r : Nat) (f : Word → Word → Nat → Word) =>
    Computes i (Alu.spec { g := g, d := d, srcs := [] }) (resultOf { g := g, d := d, srcs := [] } fun e k _ =>
      let x := affSeen e (e.crew (e.thread k)) r k
      .ok ((f (lo32 x) (hi32 x) (e.lane k)).toNat, e.thread k))
  let u := fun (vs : List Nat) (n : Nat) => BitVec.ofNat 32 (arg vs n)
  (∀ g d a b, aff (.aset g d a b) g d 0 [a, b] fun _ _ vs => (u vs 0, u vs 1)) ∧
  (∀ g d r b, aff (.aadd g d r b) g d r [b] fun base stride vs => (base + u vs 0, stride)) ∧
  (∀ g d r b, aff (.aaddStride g d r b) g d r [b] fun base stride vs => (base, stride + u vs 0)) ∧
  (∀ g d r b, aff (.amul g d r b) g d r [b] fun base stride vs => (base * u vs 0, stride * u vs 0)) ∧
  (∀ g d r b, aff (.ashl g d r b) g d r [b] fun base stride vs => (base <<< (arg vs 0 % 32), stride <<< (arg vs 0 % 32))) ∧
  (∀ g d r, val (.aval g d r) g d r fun base stride l => base + stride * BitVec.ofNat 32 l) ∧
  (∀ g d r, val (.avalBase g d r) g d r fun base _ _ => base) ∧
  (∀ g d r, val (.avalStride g d r) g d r fun _ stride _ => stride)


/-! ### Majors 0x0C to 0x0F: floating point -/

/-- R132, R133: FABS, FNEG and FCPS work on bits, in every element: they take the bits of srcA but for the sign bit, which they clear, flip or
take from srcB; they raise no flag. -/
def Obligations.SignWordsChangeSignBitsAlone : Prop :=
  let signs := fun (ty : FTy) => match ty with | .f32 => (0x80000000 : Word) | _ => 0x80008000
  (∀ x ty, Floats (.fabs x ty) (alu2 x false) fun _ vs => (of1 32 (fun a => a &&& ~~~signs ty) vs, 0)) ∧
  (∀ x ty, Floats (.fneg x ty) (alu2 x false) fun _ vs => (of1 32 (fun a => a ^^^ signs ty) vs, 0)) ∧
  (∀ x ty, Floats (.fcps x ty) (alu3 x false) fun _ vs => (of2 32 (fun a b => (a &&& ~~~signs ty) ||| (b &&& signs ty)) vs, 0))

/-- R130-R134, R139, R140, R141: the words with one exact result. Each element's exact value is rounded once, in the thread's mode or the
word's own (FFMA), with the flags of that rounding; a division of a finite nonzero value by zero sets DZ.
The model's own choices, and no rule of the spec: log entry 31 (NV is raised for 0 times infinity or infinity minus infinity even beside a
NaN source). -/
def Obligations.FloatingArithmeticResults : Prop :=
  let once := fun (ty : FTy) (f : Ctl → FV → FV → FV → Exact) (c : Ctl) (vs : List Nat) => mapElems ty vs fun l =>
    let v := fun (n : Nat) => srcF (fmtOf ty) c.ftz (arg l n)
    finishX (fmtOf ty) c (l.map (fmtOf ty, ·)) (f c (v 0) (v 1) (v 2))
  (∀ x ty, Floats (.fadd x ty) (alu3 x false) (once ty fun c a b _ => addX c.rm a b)) ∧
  (∀ x ty, Floats (.fsub x ty) (alu3 x false) (once ty fun c a b _ => addX c.rm a b.neg)) ∧
  (∀ x ty, Floats (.fmul x ty) (alu3 x false) (once ty fun _ a b _ => mulX a b)) ∧
  (∀ x ty, Floats (.fsqrt x ty) (alu2 x false) (once ty fun _ a _ _ => sqrtX (fmtOf ty) a)) ∧
  (∀ x ty, Floats (.fdiv x ty) (alu3 x false) fun c vs => mapElems ty vs fun l =>
    let v := fun (n : Nat) => srcF (fmtOf ty) c.ftz (arg l n)
    let r := finishX (fmtOf ty) c (l.map (fmtOf ty, ·)) (divX (fmtOf ty) (v 0) (v 1))
    (r.1, match v 0, v 1 with | .fin _ m _, .fin _ 0 _ => if m ≠ 0 then r.2 ||| fDZ else r.2 | _, _ => r.2)) ∧
  (∀ x ty, Floats (.fscl x ty) (alu3 x false) fun c vs => mapElems ty vs fun l =>
    let n := clamp (BitVec.ofNat (fmtOf ty).width (arg l 1)).toInt (-512) 512
    finishX (fmtOf ty) c [(fmtOf ty, arg l 0)] (match srcF (fmtOf ty) c.ftz (arg l 0) with
      | .nan _ => .invalid
      | .inf g => .inf g
      | .fin g m e => .fin g m (e + n) false)) ∧
  (∀ x ty rnd np nc, Floats (.ffma x ty rnd np nc) (aluT x) fun c vs => mapElems ty vs fun l =>
    let c := { c with rm := rnd.getD c.rm }
    let v := fun (n : Nat) => srcF (fmtOf ty) c.ftz (arg l n)
    let nan := isNaN (fmtOf ty) (arg l 0) || isNaN (fmtOf ty) (arg l 1)
    if nan = false ∧ mulX (v 0) (v 1) = .invalid then (nanOut (fmtOf ty) c.prop (l.map (fmtOf ty, ·)), fNV)
    else finishX (fmtOf ty) c (l.map (fmtOf ty, ·)) (fmaX c.rm np nc (v 0) (v 1) (v 2)))

/-- R136: FMIN and FMAX give a number before a NaN and order -0 below +0; a signalling NaN alone sets NV. R138: FCLASS sets one bit. R137:
FCMP's conditions; a NaN makes all but UN false, and an ordered condition of any NaN, or any condition of a signalling one, sets NV.
The model's own choice, and no rule of the spec: log entry 94 (FCLASS of a signalling NaN raises no flag). -/
def Obligations.FloatingCompareResults : Prop :=
  let num := fun (ty : FTy) (up : Bool) (c : Ctl) (vs : List Nat) => mapElems ty vs fun l =>
    let F := fmtOf ty
    let a := arg l 0
    let b := arg l 1
    let fl := if isSignalling F a ∨ isSignalling F b then fNV else 0
    let below := ltFV true (srcF F c.ftz a) (srcF F c.ftz b)
    let above := ltFV true (srcF F c.ftz b) (srcF F c.ftz a)
    (if isNaN F a ∧ isNaN F b then nanOut F c.prop [(F, a), (F, b)]
     else if isNaN F a then flushed F c.ftz b
     else if isNaN F b then flushed F c.ftz a
     else flushed F c.ftz (if (if up then below else above) then b else a), fl)
  (∀ x ty, Floats (.fmin x ty) (alu3 x false) (num ty false)) ∧
  (∀ x ty, Floats (.fmax x ty) (alu3 x false) (num ty true)) ∧
  (∀ x ty, Floats (.fclass x ty) (alu2 x false) fun _ vs => mapElems ty vs fun l =>
    (match decodeF (fmtOf ty) (arg l 0) with
     | .nan sig => if sig then 2 ^ 8 else 2 ^ 9
     | .inf n => if n then 2 ^ 0 else 2 ^ 7
     | .fin n 0 _ => if n then 2 ^ 3 else 2 ^ 4
     | .fin n _ _ => if isDenormal (fmtOf ty) (arg l 0) then (if n then 2 ^ 2 else 2 ^ 5) else (if n then 2 ^ 1 else 2 ^ 6), 0)) ∧
  (∀ g p a b k ty, Computes (.fcmp g p a b k ty) (Alu.bare g [a, b]).spec (changeOf (Alu.bare g [a, b]).srcs fun e i vs =>
    let t := e.thread i
    let F := fmtOf ty
    let pairs := (elems ty (arg vs 0)).zip (elems ty (arg vs 1))
    let holds := fun (x y : Nat) =>
      let lt := fun (x y : Nat) => ltFV false (srcF F (ctlOf t.fpctl).ftz x) (srcF F (ctlOf t.fpctl).ftz y)
      let nan := isNaN F x || isNaN F y
      match k with
      | .eq => !nan && !lt x y && !lt y x
      | .lt => !nan && lt x y
      | .le => !nan && !lt y x
      | .un => nan
    let nv := fun (x y : Nat) => isSignalling F x || isSignalling F y || ((isNaN F x || isNaN F y) && decide (k = .lt ∨ k = .le))
    .ok ((t.flags (if pairs.any fun x => nv x.1 x.2 then fNV else 0)).setP p (pairs.all fun x => holds x.1 x.2))))

/-- R141, R142: the function words complete on every value; each element's value and flags are those of R141 and R142. Whenever the operands
of every executing lane can be read and its destination written, the word answers a next state that leaves all but those lanes' registers and
flags; a NaN gives a NaN, with NV where it signals; the zeros, the infinities and the negative values give the rows of R142; every other
element whose result is finite and not 0, but for the exact rows of FEX2 and FLG2, sets NX.
The model's own choices, and no rule of the spec: log entry 11 (The bounded functions are free inside their bounds). -/
def Obligations.FunctionWordResults : Prop :=
  let fn := fun (i : Instr) (x : R2) (ty : FTy) (f : Fn1) =>
    Floats i (alu2 x false) fun c vs => mapElems ty vs fun l => fnElem f (fmtOf ty) c (arg l 0)
  let row := fun (F : Fmt) (c : Ctl) (z : Nat) (special : FV → Option (Nat × Flags)) (exact : FV → Prop) (r : Nat × Flags) =>
    if isNaN F z then r = (nanOut F c.prop [(F, z)], if isSignalling F z then fNV else 0)
    else match special (srcF F c.ftz z) with
      | some y => r = y
      | none => exact (srcF F c.ftz z) ∨ expField F r.1 = F.ones ∨ r.1 % 2 ^ (F.width - 1) = 0 ∨ r.2 % 2 = 1
  let completes := fun (i : Instr) (x : R2) (ty : FTy) (special : Fmt → Ctl → FV → Option (Nat × Flags)) (exact : FV → Prop) =>
    ∀ s e, Issues s e (alu2 x false).spec →
      (∀ k ∈ liveOf e x.g false, ∃ v d, readSrcs e k (e.thread k) [(x.a, false)] = .ok ([v], false) ∧ destOf e (e.thread k) x.d false = .ok d ∧ d ≠ .odd) →
      ∃ t, exec i s = .next t ∧ Quiet e.c s t ∧ (∀ k, k ∉ participants e → Untouched s t e.c k) ∧
        ∀ k ∈ liveOf e x.g false, ∀ v d, readSrcs e k (e.thread k) [(x.a, false)] = .ok ([v], false) → destOf e (e.thread k) x.d false = .ok d →
          ∃ el : Nat → Nat × Flags,
            (let r := mapElems ty [v] fun l => el (arg l 0)
             Gets e (alu2 x false).spec t k (d.put ((e.thread k).flags r.2) false r.1)) ∧
            ∀ z ∈ elems ty v, row (fmtOf ty) (ctlOf (e.thread k).fpctl) z (special (fmtOf ty) (ctlOf (e.thread k).fpctl)) exact (el z)
  let nan := fun (F : Fmt) (c : Ctl) => some (nanOut F c.prop [], fNV)
  (∀ x ty, fn (.frcp x ty) x ty .rcp ∧ fn (.frsq x ty) x ty .rsq ∧ fn (.fex2 x ty) x ty .ex2 ∧ fn (.flg2 x ty) x ty .lg2 ∧
    fn (.fsin x ty) x ty .sin ∧ fn (.fcos x ty) x ty .cos ∧ fn (.ftanh x ty) x ty .tanh) ∧
  (∀ x ty, completes (.frcp x ty) x ty (fun F _ v => match v with
    | .inf n => some (F.zero n, 0)
    | .fin n 0 _ => some (F.inf n, fDZ)
    | _ => none) fun _ => False) ∧
  (∀ x ty, completes (.frsq x ty) x ty (fun F c v => match v with
    | .inf n => if n then nan F c else some (F.zero false, 0)
    | .fin n 0 _ => some (F.inf n, fDZ)
    | .fin true _ _ => nan F c
    | _ => none) fun _ => False) ∧
  (∀ x ty, completes (.fex2 x ty) x ty (fun F _ v => match v with
    | .inf n => some (if n then F.zero false else F.inf false, 0)
    | .fin _ 0 _ => some (F.bias * 2 ^ F.fb, 0)
    | _ => none) fun v => match v with | .fin _ m e => 0 ≤ e ∨ m % 2 ^ (-e).toNat = 0 | _ => False) ∧
  (∀ x ty, completes (.flg2 x ty) x ty (fun F c v => match v with
    | .inf n => if n then nan F c else some (F.inf false, 0)
    | .fin _ 0 _ => some (F.inf true, fDZ)
    | .fin true _ _ => nan F c
    | _ => none) fun v => match v with | .fin _ m _ => ∃ k, m = 2 ^ k | _ => False) ∧
  (∀ x ty, completes (.fsin x ty) x ty (fun F c v => match v with
    | .inf _ => nan F c
    | .fin n 0 _ => some (F.zero n, 0)
    | _ => none) fun _ => False) ∧
  (∀ x ty, completes (.fcos x ty) x ty (fun F c v => match v with
    | .inf _ => nan F c
    | .fin _ 0 _ => some (F.bias * 2 ^ F.fb, 0)
    | _ => none) fun _ => False) ∧
  ∀ x ty, completes (.ftanh x ty) x ty (fun F _ v => match v with
    | .inf n => some (F.zero n + F.bias * 2 ^ F.fb, 0)
    | .fin n 0 _ => some (F.zero n, 0)
    | _ => none) fun _ => False

/-- R143-R146: the conversions. FCVT rounds each value once into the destination type, two values to a 64-bit pair for an .f32 destination and
to one packed word otherwise; FCVTI saturates with NV, and converts a NaN to 0; ICVTF raises NX and OF alone; FRND raises no flag but NV.
The model's own choices, and no rule of the spec: log entry 25 (A conversion that writes a pair takes an even destination, as .b64 words
do). -/
def Obligations.ConversionResults : Prop :=
  let two := fun (dty : FTy) (a b : Nat × Flags) => (a.1 + (match dty with | .f32 => 2 ^ 32 | _ => 2 ^ 16) * b.1, a.2 ||| b.2)
  let srcs := fun (a : Src) (b : Option Src) => (a, false) :: (b.toList.map fun x => (x, false))
  (∀ g d a b dty sty, Floats (.fcvt g d a b dty sty) { g := g, d := d, w := decide (dty = .f32), srcs := srcs a b } fun c vs =>
    let f := convElem (fmtOf dty) (fmtOf sty) c
    match sty with
    | .f32 => two dty (f (arg vs 0)) (f (arg vs 1))
    | _ => two dty (f (arg vs 0 % 65536)) (f (arg vs 0 / 65536))) ∧
  (∀ x ty u trunc, Floats (.fcvti x ty u trunc) (alu2 x false) fun c vs => mapElems ty vs fun l =>
    let F := fmtOf ty
    let lo : Int := if u then 0 else -(2 ^ (F.width - 1) : Nat)
    let hi : Int := (2 ^ (if u then F.width else F.width - 1) : Nat) - 1
    let image := fun (i : Int) => (BitVec.ofInt F.width i).toNat
    match srcF F c.ftz (arg l 0) with
    | .nan _ => (0, fNV)
    | .inf g => (image (if g then lo else hi), fNV)
    | .fin g m e =>
      let r := rintMag (if trunc then .rtz else c.rm) g m e
      let i : Int := if g then -(r.1 : Int) else r.1
      if lo ≤ i ∧ i ≤ hi then (image i, if r.2 then 0 else fNX) else (image (clamp i lo hi), fNV)) ∧
  (∀ g d a b dty sty, Floats (.icvtf g d a b dty sty) { g := g, d := d, w := decide (dty = .f32 ∧ sty = .s16), srcs := srcs a b } fun c vs =>
    let f := fun (i : Int) => finishX (fmtOf dty) c [] (.fin (decide (i < 0)) i.natAbs 0 false)
    let int := fun (n : Nat) => (match sty with
      | .s32 => (BitVec.ofNat 32 (arg vs n)).toInt
      | .u32 => (arg vs n : Int)
      | .s16 => (BitVec.ofNat 16 (arg vs n)).toInt
      | .s8 => (BitVec.ofNat 8 (arg vs n)).toInt)
    match sty, dty with
    | .s16, _ => two dty (f (BitVec.ofNat 16 (arg vs 0)).toInt) (f (BitVec.ofNat 16 (arg vs 0 / 65536)).toInt)
    | _, .f32 => f (int 0)
    | _, _ => two dty (f (int 0)) (f (int 1))) ∧
  (∀ x ty dir, Floats (.frnd x ty dir) (alu2 x false) fun c vs => mapElems ty vs fun l => frndElem (fmtOf ty) c dir (arg l 0))

/-- R121, R130: a value of a format, read without FTZ, rounds to its own image in every mode, and raises no flag. -/
def Obligations.ValuesRoundToThemselves : Prop :=
  ∀ ty c x, c.ftz = false → x < 2 ^ (fmtOf ty).width → isNaN (fmtOf ty) x = false → convElem (fmtOf ty) (fmtOf ty) c x = (x, 0)

/-! ### Majors 0x14 to 0x16: moments -/

/-- R152, R162, R169: the words that move moments. MSET raises NEGVAR for a negative variance and writes -0 as +0; MCHK's predicate is
true where both planes are finite. -/
def Obligations.MomentMoveResults : Prop :=
  (∀ g m a b, Computes (.mset g m a b) (MWord.spec { g := g, d := .m m, srcs := [.s a, .s b] })
    (momentOf { g := g, d := .m m, srcs := [.s a, .s b] } fun t vs =>
      if 2 ^ 31 < arg vs 1 then .error (.trap cNegvar vs 0 0 false)
      else .ok (arg vs 0 + 2 ^ 32 * (arg vs 1 % 2 ^ 31), t.flags 0))) ∧
  (∀ g m a, Moves (.msetDet g m a) { g := g, d := .m m, srcs := [.s a] } fun vs => arg vs 0) ∧
  (∀ g d a, Moves (.msplit g d a) { g := g, d := .code d true, srcs := [.m a] } fun vs => arg vs 0) ∧
  (∀ g m a, Moves (.mmov g m a) { g := g, d := .m m, srcs := [.m a] } fun vs => arg vs 0) ∧
  (∀ g m, Moves (.mzero g m) { g := g, d := .m m, srcs := [] } fun _ => 0) ∧
  (∀ g p a, Computes (.mchk g p a) (MWord.spec { g := g, d := .p p, srcs := [.m a] })
    (momentOf { g := g, d := .p p, srcs := [.m a] } fun t vs =>
      if negVar (arg vs 0) then .error (.trap cNegvar vs 0 0 false)
      else
        let finite := fun (x : Nat) => decide (x / 2 ^ 23 % 256 ≠ 255)
        .ok (if finite (arg vs 0 % 2 ^ 32) ∧ finite (arg vs 0 / 2 ^ 32 % 2 ^ 32) then 1 else 0, t.flags 0)))

/-- R152, R153, R157, R158, R163: the planes of the arithmetic moment words; MRELU, MEXP and MSIGM write the planes of R164-R167 and R170.
The model's own choices, and no rule of the spec: log entry 11 (The bounded functions are free inside their bounds). -/
def Obligations.MomentArithmeticResults : Prop :=
  let two := fun (g : Guard) (m : Nat) (a b : MSrc) => ({ g := g, d := .m m, srcs := [.m a, .m b] } : MWord)
  let root := fun (c : Ctl) (vs : List Nat) => underRoot c.ftz (varOf (arg vs 0)) (varOf (arg vs 1))
  let sum := fun (sub : Bool) (o : Option Cov) (c : Ctl) (t : Thread) (vs : List Nat) =>
    let a := arg vs 0
    let b := arg vs 1
    let cross := match rhoOf t o with | none => [] | some r => [[Factor.const (twoFV sub), .const r, rv 0 a, rv 1 b]]
    (plane c (root c vs) [[mv 0 a], if sub then [.const (oneFV true), mv 1 b] else [mv 1 b]],
     plane c (root c vs) ([[vv 0 a], [vv 1 b]] ++ cross))
  let product := fun (o : Option Cov) (t : Thread) (a b : Nat) =>
    let r := rhoOf t o
    let mean := [mv 0 a, mv 1 b] :: (match r with | none => [] | some r => [[.const r, rv 0 a, rv 1 b]])
    let var := [[mv 0 a, mv 0 a, vv 1 b], [mv 1 b, mv 1 b, vv 0 a], [vv 0 a, vv 1 b, .const (onePlusSq r)]] ++
      (match r with | none => [] | some r => [[.const (twoFV false), .const r, mv 0 a, mv 1 b, rv 0 a, rv 1 b]])
    (mean, var)
  (∀ g m a b o, Planes (.madd g m a b o) (two g m a b) 2 (sum false o)) ∧
  (∀ g m a b o, Planes (.msub g m a b o) (two g m a b) 2 (sum true o)) ∧
  (∀ g m a b o, Planes (.mmul g m a b o) (two g m a b) 2 fun c t vs =>
    let x := product o t (arg vs 0) (arg vs 1)
    (plane c (root c vs) x.1, plane c (root c vs) x.2)) ∧
  (∀ g m a b d o, Planes (.mfma g m a b d o) { g := g, d := .m m, srcs := [.m a, .m { m := b }, .m { m := d }] } 3 fun c t vs =>
    let x := product o t (arg vs 0) (arg vs 1)
    (plane c (root c vs) (x.1 ++ [[mv 2 (arg vs 2)]]), plane c (root c vs) (x.2 ++ [[vv 2 (arg vs 2)]]))) ∧
  (∀ g m a b, Planes (.mscl g m a b) { g := g, d := .m m, srcs := [.m a, .s b] } 1 fun c _ vs =>
    let k : Factor := .val 2 (arg vs 1)
    (plane c (0, 0) [[mv 0 (arg vs 0), k]], plane c (0, 0) [[vv 0 (arg vs 0), k, k]])) ∧
  (∀ g m a, Planes (.mrelu g m a) { g := g, d := .m m, srcs := [.m a] } 1 fun c _ vs => mreluOut c (arg vs 0)) ∧
  (∀ g m a, Planes (.mexp g m a) { g := g, d := .m m, srcs := [.m a] } 1 fun c _ vs => mexpOut c (arg vs 0)) ∧
  (∀ g m a, Planes (.msigm g m a) { g := g, d := .m m, srcs := [.m a] } 1 fun c _ vs => msigmOut c (arg vs 0))

/-- R152, R168: MCOL gives the mean, the variance, its root, a bound of the mean by a constant number of deviations, or a sample by the
deviate of a v register. -/
def Obligations.MomentCollapseResults : Prop :=
  ∀ g d a mode,
    let x : MWord := { g := g, d := .code d false, srcs := .m a :: (match mode with | .sample n => [.s { code := .v n }] | _ => []) }
    Computes (.mcol g d a mode) x.spec (momentOf x fun t vs =>
      if negVar (arg vs 0) then .error (.trap cNegvar vs 0 0 false)
      else
        let c := ctlOf t.fpctl
        let at' := plane c (underRoot c.ftz (varOf (arg vs 0)) 0x3F800000)
        let r : Nat × Flags := match mode with
          | .mean => (arg vs 0 % 2 ^ 32, 0)
          | .var => (varOf (arg vs 0), 0)
          | .std => at' [[rv 0 (arg vs 0)]]
          | .upper k => at' [[mv 0 (arg vs 0)], [halfConst k false, rv 0 (arg vs 0)]]
          | .lower k => at' [[mv 0 (arg vs 0)], [halfConst k true, rv 0 (arg vs 0)]]
          | .sample _ => at' [[mv 0 (arg vs 0)], [.val 2 (arg vs 1), rv 0 (arg vs 0)]]
        .ok (r.1, t.flags r.2))

/-! ### Major 0x00: control -/

/-- R78, R79: LEAVE k and NEXT k send the threads with a true guard to the walker, which takes them out of the loop or of its body; RET sends
them there to return. They leave their batch, and nothing else of them changes. In trap context, RET needs a frame of the handler's
own (R321).
The model's own choices, and no rule of the spec: log entry 32 (A thread that leaves a splitting node still counts in its record until it is
deposited). -/
def Obligations.DepartingThreadsGoToTheWalker : Prop :=
  let departs := fun (i : Instr) (g : Guard) (s : State) (e : Env) (act : WalkAct) =>
    let live := liveOf e g false
    ∃ t, exec i s = .next t ∧ Ends e.c (minus (participants e) live) s t ∧
      ({ slots := live, act := act, sel := e.sel } : Walk) ∈ (coreOf t e.c).walks ∧
      ∀ k, ∀ b ∈ (selOf (coreOf t e.c) k).batches, ∀ j ∈ live, j ∉ b.slots
  ∀ g s e, Issues s e { g := g } → liveOf e g false ≠ [] →
    (∀ k n, climbOf e = .ok () → (∀ j ∈ liveOf e g false, (e.thread j).pos = e.b.pos) → loopTarget e { crew := 0, pos := e.b.pos } k false = some n →
      departs (.leave g k) g s e (.leave e.b.pos.fn n)) ∧
    (∀ k n, climbOf e = .ok () → (∀ j ∈ liveOf e g false, (e.thread j).pos = e.b.pos) → loopTarget e { crew := 0, pos := e.b.pos } k true = some n →
      departs (.next g k) g s e (.leave e.b.pos.fn n)) ∧
    ((∀ j ∈ liveOf e g false, ∀ x, (e.thread j).trap = some x → x.base < (e.thread j).depth) → departs (.ret g) g s e .ret)

/-- R79, R73: DONE ends the threads with a true guard: their slots hold no thread and stand in no batch, no entry, no walk and no mask; every
other thread, and all memory, stays. -/
def Obligations.DoneEndsThreads : Prop :=
  ∀ g s e, Issues s e { g := g } →
    let live := liveOf e g false
    ∃ t, exec (.done g) s = .next t ∧ t.mem = s.mem ∧
      (∀ i ∈ live, get? (coreOf t e.c).threads i = none ∧ (∀ k, ∀ b ∈ (selOf (coreOf t e.c) k).batches, i ∉ b.slots) ∧
        (∀ y ∈ (coreOf t e.c).entries.map (·.2) ++ (coreOf t e.c).cold, i ∉ y.slots) ∧ ∀ w ∈ (coreOf t e.c).walks, i ∉ w.slots) ∧
      (∀ i, i ∉ live → (get? (coreOf t e.c).threads i).map Thread.held = (get? (coreOf s e.c).threads i).map fun u =>
        if i ∈ participants e then (repStep u).held else u.held) ∧
      (∀ k, (get? (coreOf t e.c).crews k).map (·.masks) = (get? (coreOf s e.c).crews k).map fun x =>
        if live = [] then x.masks else x.masks.map fun m => (m.1, minus m.2 live))

/-- R80, R74: ENROL k and STRIKE k put the threads with a true guard into their crews' mask k, or take them out of it. R81, R319: a REP that may stand at its step leaves its counts in REPST of each thread that executes it: ACT, the mask of index
registers, the repetitions left, and repetition 0; nothing else changes. -/
def Obligations.MaskWordsAndRep : Prop :=
  (let sets := fun (i : Instr) (g : Guard) (k : Nat) (f : List Nat → Nat → List Nat) =>
     ∀ s e, Issues s e { g := g } → ∃ t, exec i s = .next t ∧
       (∀ i, (get? (coreOf t e.c).threads i).map Thread.held = (get? (coreOf s e.c).threads i).map fun u =>
         if i ∈ participants e then (repStep u).held else u.held) ∧
       (∀ c, (get? (coreOf t e.c).crews c).map Crew.held = (get? (coreOf s e.c).crews c).map fun x =>
         let own := (liveOf e g false).filter fun i => decide ((e.thread i).crew = c)
         { x.held with masks := own.foldl (fun ms i => put ms k (f (rget [] ms k) i)) x.masks }) ∧
       (∀ c, (get? (coreOf t e.c).wgs c).map WG.held = (get? (coreOf s e.c).wgs c).map WG.held) ∧
       (∀ d, d ≠ e.c → coreOf t d = coreOf s d) ∧ { t with cores := [], ctxs := [] } = { s with cores := [], ctxs := [] }
   ∀ g k, sets (.enrol g k) g k insertSlot ∧ sets (.strike g k) g k fun m i => minus m [i]) ∧
  (∀ g n xmask s e, Issues s e { g := g } → n < 128 → xmask < 256 → repOk e = true → (∀ i ∈ participants e, (e.thread i).trap = none) →
     ∃ t, exec (.rep g n xmask) s = .next t ∧ Quiet e.c s t ∧
       ∀ i ∈ participants e, (threadAt t e.c i).held =
         if guardHolds g (e.thread i) then
           { (repStep (e.thread i)).held with repst := 1#1 ++ 0#9 ++ BitVec.ofNat 8 xmask ++ BitVec.ofNat 7 n ++ 0#7 }
         else (repStep (e.thread i)).held)

/-! ### Major 0x2E: the system words -/

/-- R325-R328: NOP does nothing; TRAP raises TRAPI with its operand and its code; BRKP raises BREAK, but where breakpoints are ignored and no
debugger is attached it does nothing; HINT changes nothing, but for the record that a MARK writes. R49: a word that is no instruction raises ILLEGAL in every thread of the batch
that reaches it, whatever its guard; no thread changes.
The model's own choices, and no rule of the spec: log entry 24 (TRAP and HINT without a source have a zero field and the value 0). -/
def Obligations.TrapBreakHintAndIllegalResults : Prop :=
  (∀ w s e, envOf s = some e → ∃ t, exec (.illegalWord w) s = .next t ∧ Ends e.c [] s t ∧
    ∃ rest, (coreOf t e.c).stop.pending = (coreOf s e.c).stop.pending ++ groupByCode (now s) e.sel ((participants e).map fun i =>
      (i, { code := 0x01, word := w, crewb := e.crewB, sel := e.sel, tick := s.tick })) ++ rest) ∧
  (∀ g, Computes (.nop g) { g := g } fun e k => .ok { t := e.thread k }) ∧
  (∀ g n a, Computes (.trap g n a) (optSpec g a) fun e k =>
    match optVal e k (e.thread k) a with
    | .error b => .error b
    | .ok x => .error (.trap 0x11 [x] 0 n false)) ∧
  (∀ g n, Computes (.brkp g n) { g := g } fun e k =>
    let x := (ctxOf e.s (e.wg (e.thread k)).ctx).dbgctl
    if x.getLsbD 0 = false ∧ x.getLsbD 1 = true then .ok { t := e.thread k } else .error (.trap 0x10 [] 0 n false)) ∧
  (∀ g n a s e i x, Lone s e (optSpec g a) i → optVal e i (e.thread i) a = .ok x →
    let u := alone e (optSpec g a) i { t := e.thread i, out := x } s
    Leads (.hint g n a) s e (if n = 2 then traceMark u e.c (e.wg (e.thread i)).ctx x i e.b.pos else u))

/-- R329, R330: a RESUME word of a thread in trap context whose record can be read ends that context in its form. Where the 24 bytes of the
record that hold the five registers can be read, with no earlier access of the thread before that read, no engine on their line and the
context's budget there, the word answers a next state. RETRY and SKIP bring back those registers and the depth of the trap, clear REPST after a SKIP, join what the handler wrote to the
written set, and leave the thread in no batch. ABANDON ends the thread and strikes it from every mask (R73). KILL ends every thread of the
workgroup, marks it to retire, and reports a context fault.
The model's own choice, and no rule of the spec: log entry 17 (A lane-private slice is the 65,536 bytes at LPBACK + 65,536 * n of
the context, n the first free run of slices when the workgroup is placed): the record's bytes stand there. -/
def Obligations.ResumeWordsEndTrapContext : Prop :=
  let resumes := fun (i : Instr) (g : Guard) (form : ResumeForm) =>
    ∀ s e k r u, Lone s e { g := g } k → (e.thread k).trap.isSome = true → recordRegs e s k (e.thread k) = .ok (r, u) →
      (form = .retry ∨ form = .skip → (e.thread k).pend = []) →
      Leads i s e (resumeAll (alone e { g := g } k { t := e.thread k, out := r } u) e.c e.sel form [(k, r)])
  let ends := fun (i : Instr) (g : Guard) (after : State → Env → Nat → TrapCtx → Nat → Nat → State → Prop) =>
    ∀ s e k x base w pa sn, Lone s e { g := g } k → (e.thread k).trap = some x → (e.thread k).pend = [] →
      wgKey e.co k = some base → get? e.co.wgs base = some w → 104 ≤ w.kern.lpriv →
      translateVA s w.ctx (slice s w base k 80) false = .ok pa sn → acquirePending e.co k = false →
      mustWait s e.co w.ctx k (.off pa sn) 24 = false →
      ∃ t, exec i s = .next t ∧ after s e k x base (readPlace s (.off pa sn) 24) t
  let back := fun (skip : Bool) (s : State) (e : Env) (k : Nat) (x : TrapCtx) (_ r : Nat) (t : State) =>
    let u := threadAt t e.c k
    t.mem = s.mem ∧ u.trap = none ∧ u.depth = x.base ∧ u.repst = (if skip then 0 else repstImage (bits r 0 32)) ∧
      u.fpctl = BitVec.ofNat 32 (bits r 32 32 &&& 0xFFCF) ∧ u.momctl = BitVec.ofNat 32 (bits r 64 32 &&& 7) ∧
      u.momrho = BitVec.ofNat 32 (bits r 96 32) ∧ u.lwidth = BitVec.ofNat 32 (bits r 128 32 &&& 1) ∧
      u.v = (e.thread k).v ∧ u.m = (e.thread k).m ∧ u.x = (e.thread k).x ∧ u.p = (e.thread k).p ∧
      (∀ y, y ∈ u.written ↔ y ∈ x.written ∨ y ∈ (e.thread k).written) ∧
      ∀ n, ∀ b ∈ (selOf (coreOf t e.c) n).batches, k ∉ b.slots
  (∀ g, resumes (.resumeRetry g) g .retry ∧ resumes (.resumeSkip g) g .skip ∧ resumes (.resumeAbandon g) g .abandon ∧
    resumes (.resumeKill g) g .kill) ∧
  (∀ g, ends (.resumeRetry g) g (back false)) ∧ (∀ g, ends (.resumeSkip g) g (back true)) ∧
  (∀ g, ends (.resumeAbandon g) g fun s e k _ _ _ t =>
    t.mem = s.mem ∧ get? (coreOf t e.c).threads k = none ∧ (∀ i, i ≠ k → (get? (coreOf t e.c).threads i).isSome = (get? e.co.threads i).isSome) ∧
      ∀ c, ∀ y ∈ get? (coreOf t e.c).crews c, ∀ m ∈ y.masks, k ∉ m.2) ∧
  ∀ g, ends (.resumeKill g) g fun s e _ _ base _ t =>
    (∀ i, wgKey e.co i = some base → get? (coreOf t e.c).threads i = none) ∧
      (get? (coreOf t e.c).wgs base).map (·.marked) = some true ∧
      ∀ w y, get? e.co.wgs base = some w → get? s.ctxs w.ctx = some y → (ctxOf t w.ctx).fault = true

/-- R331, R332: SRD writes the value of its special register; SWR changes its register as the fields' access rules say: reserved and
read-only bits stay, and the flags that are cleared by a 1 are. R127, R154, R155, R331: what SRD reads of a thread's own special registers, and what SWR makes of them. -/
def Obligations.SpecialRegisterWordsAndValues : Prop :=
  ((∀ g d reg w s e i r x u, Lone s e { g := g, regs := codeRegs d w } i → destOf e (e.thread i) d w = .ok r → r ≠ .odd →
     specialVal e s i (e.thread i) reg = .ok (x, u) →
     Leads (.srd g d reg w) s e (alone e { g := g, regs := codeRegs d w } i { t := r.put (e.thread i) w x } u)) ∧
   (∀ g reg a w s e i v t u,
     let p : WordSpec := { g := g, regs := srcRegs a w, perms := [a.perm], crew := srcCrewy a, pops := srcPops a }
     Lone s e p i → readSrc e i (e.thread i) a w = .ok v → writeSpecial e g s i (e.thread i) reg (BitVec.ofNat 32 v.x) = .ok (t, u) →
     Leads (.swr g reg a w) s e (alone e p i { t := t } u))) ∧
  (∀ e g s i t (x : Word),
     let reads := fun (reg : Nat) (y : Word) => specialVal e s i t reg = .ok (y.toNat, s)
     let writes := fun (reg : Nat) (u : Thread) => writeSpecial e g s i t reg x = .ok (u, s)
     reads 0x00 t.fpctl ∧ reads 0x01 t.momctl ∧ reads 0x02 t.momrho ∧ (t.trap = none → reads 0x03 t.repst) ∧ reads 0x04 t.lwidth ∧
     reads 0x05 (e.crew t).zprog ∧ reads 0x06 (e.wg t).sbstall ∧
     reads 0x08 (if t.trap.isSome then 0 else 0xFFFFFFFF) ∧ specialVal e s i t 0x10 = .ok (s.tick.toNat, s) ∧
     specialVal e s i t 0x11 = .ok ((e.wg t).energy.toNat, s) ∧
     writes 0x00 { t with fpctl := (x &&& 0xF80F#32) ||| (t.fpctl &&& ~~~x &&& 0x7C0#32) } ∧
     writes 0x01 { t with momctl := (x &&& 3#32) ||| (t.momctl &&& ~~~x &&& 4#32) } ∧
     writes 0x02 { t with momrho := x } ∧
     (t.trap = none → writeSpecial e g s i t 0x03 x = .error (.trap 0x01 [] 0 0 true)) ∧
     writes 0x04 { t with lwidth := t.lwidth &&& ~~~x &&& 1#32 })

/-- R339: PMATCH sets a match point to a legal pair and enables it, and PMATCH.rm removes one, once for the batch. -/
def Obligations.MatchPointWords : Prop :=
  (∀ g k v s e i x y,
    let p : WordSpec := { g := g, regs := vRange v 2 }
    Lone s e p i → readPair e (e.thread i) v = .ok x → matchKey e.s (e.wg (e.thread i)).kern (e.wg (e.thread i)).ctx (e.thread i).pos.fn e.r.nv x = .ok (some y) →
    Leads (.pmatch g k v) s e (updCtx (alone e p i { t := e.thread i, out := y.toNat } s) (e.wg (e.thread i)).ctx fun q =>
      { q with matchp := put q.matchp k y, matchOff := minus q.matchOff [k] })) ∧
  (∀ g k s e i, Lone s e { g := g } i →
    Leads (.pmatchRm g k) s e (updCtx (alone e { g := g } i { t := e.thread i } s) (e.wg (e.thread i)).ctx fun q =>
      { q with matchp := del q.matchp k, matchOff := minus q.matchOff [k] }))

/-! ### Majors 0x1C, 0x1D, 0x24: loads, stores and atomics -/

/-- R199-R201, R206, R207, R209, R210, R248, R252: LD, ST, the atomics and the maintenance words in a lane whose base and data are there and whose
address is reached. A load or an atomic marks its registers as awaited; the access issues with the order and scope of the word, LINV and
LCLN as SC accesses at scope device to the whole line. PREF reads its base and does nothing that shows.
The model's own choices, and no rule of the spec: log entry 23 (MEMERR is raised at issue, and when the access is performed); log entry 38
(LINV and LCLN check no alignment). -/
def Obligations.MemoryWordsIssueTheirAccess : Prop :=
  let issues := fun (I : Instr) (g : Guard) (a : MAddr) (regs : List Reg) (x : State → Acc) (data : Env → Nat → Thread → L (List Nat × Bool))
      (dst : Env → Thread → L (List Reg × Bool)) (mk : Nat → Nat × Nat) (kind : PKind) =>
    ∀ s e i b ds odd rs oddD place,
      let p : WordSpec := { g := g, regs := baseRegs a.space a.base ++ regs }
      Lone s e p i → baseVal e i (e.thread i) a.space a.base = .ok b → data e i (e.thread i) = .ok (ds, odd) → dst e (e.thread i) = .ok (rs, oddD) →
      scopeOk a.space a.scope = true → placeOf e s i (e.thread i) (x s) (b :: ds) (odd || oddD) false 0 = .ok place →
      let o : LaneOut := { t := awaitRegs (e.thread i) rs,
                           acc := [{ slot := i, place := place, len := (x s).n, data := (mk (ds.headD 0)).1, cmp := (mk (ds.headD 0)).2, dst := rs,
                                     va := addrWord (addrOf b (x s).off), srcs := b :: ds }] }
      Leads I s e (issueAccesses g { kind := kind, order := a.order, scope := a.scope, read := (x s).read, write := (x s).write } e [(i, o)]
        (alone e p i o s))
  let nothing := fun (_ : Env) (_ : Nat) (_ : Thread) => (.ok ([], false) : L (List Nat × Bool))
  let none' := fun (_ : Env) (_ : Thread) => (.ok ([], false) : L (List Reg × Bool))
  let acc := fun (a : MAddr) (rd wr : Bool) =>
    ({ spc := a.space, off := a.off, n := sizeBytes a.size, align := sizeBytes a.size, read := rd, write := wr } : Acc)
  let atomic := fun (I : Instr) (g : Guard) (minor : Nat) (d : Code) (a : MAddr) (nr : Bool) (ty : FTy) =>
    issues I g a (atRegs (decide (minor = 9)) d a.size)
      (fun s => { acc a true true with atom := true, host := !(s.atomicEn && decide (minor = 0 ∨ minor = 8 ∨ minor = 9)) })
      (atomData (decide (minor = 9)) d a.size) (atomDst nr d a.size)
      (fun v => if minor = 9 then (v / 2 ^ (8 * sizeBytes a.size), v % 2 ^ (8 * sizeBytes a.size)) else (v, 0))
      (.atomic minor (decide (a.size = .b64)) nr ty)
  let maint := fun (I : Instr) (g : Guard) (base : Code) (off : Int) (inval : Bool) (lv : Level) =>
    ∀ s e i b pa sn,
      let p : WordSpec := { g := g, regs := baseRegs .g base }
      Lone s e p i → baseVal e i (e.thread i) .g base = .ok b →
      placeOf e s i (e.thread i) { spc := .g, off := off, n := 1, align := 1, read := true, write := false, watch := false, poison := false } [b] false
        false 0 = .ok (.off pa sn) →
      let o : LaneOut := { t := e.thread i, acc := [{ slot := i, place := .off (pa / 64 * 64) sn, len := 64, va := addrWord (addrOf b off), srcs := [b] }] }
      Leads I s e (issueAccesses g { kind := .maint inval lv, order := .sc, scope := 5, read := true, write := true, sampled := false } e [(i, o)]
        (alone e p i o s))
  (∀ g d a, issues (.ld g d a) g a (dataRegs d a.size) (fun _ => acc a true false) nothing (loadDst d a.size) (fun _ => (0, 0)) (.load a.size)) ∧
  (∀ g d a, issues (.st g d a) g a (dataRegs d a.size) (fun _ => acc a false true) (storeData d a.size) none' (fun x => (x, 0)) .store) ∧
  (∀ g d a nr, atomic (.atadd g d a nr) g 0 d a nr .f32) ∧ (∀ g d a nr, atomic (.atmin g d a nr) g 1 d a nr .f32) ∧
  (∀ g d a nr, atomic (.atmax g d a nr) g 2 d a nr .f32) ∧ (∀ g d a nr, atomic (.atminu g d a nr) g 3 d a nr .f32) ∧
  (∀ g d a nr, atomic (.atmaxu g d a nr) g 4 d a nr .f32) ∧ (∀ g d a nr, atomic (.atand g d a nr) g 5 d a nr .f32) ∧
  (∀ g d a nr, atomic (.ator g d a nr) g 6 d a nr .f32) ∧ (∀ g d a nr, atomic (.atxor g d a nr) g 7 d a nr .f32) ∧
  (∀ g d a nr, atomic (.atxch g d a nr) g 8 d a nr .f32) ∧ (∀ g d a nr, atomic (.atcas g d a nr) g 9 d a nr .f32) ∧
  (∀ g d a nr ty, atomic (.atfadd g d a nr ty) g 10 d a nr ty) ∧
  (∀ g base off ev lv, maint (.linv g base off ev lv) g base off true lv) ∧ (∀ g base off ev lv, maint (.lcln g base off ev lv) g base off false lv) ∧
  (∀ g base off ev spc lv, Computes (.pref g base off ev spc lv) { g := g, regs := baseRegs spc base } fun e k =>
    match baseVal e k (e.thread k) spc base with
    | .error b => .error b
    | .ok _ => .ok { t := e.thread k })

/-- R222, R244: what a word's accesses leave where its context neither traces nor samples. Each line that its lanes touch becomes one
access in flight, which holds exactly the lanes of that line in their order; distinct accesses have distinct lines, and stand in the order
of their first lanes. No byte of memory changes, and no register. -/
def Obligations.AccessesAreInFlightByLine : Prop :=
  ∀ g x e oks s,
    let lanes := oks.flatMap fun (o : Nat × LaneOut) => o.2.acc
    traceOn s e.w.ctx = false → (coreOf s e.c).samples = [] → (∀ a ∈ lanes, a.sample = none) →
    let t := issueAccesses g x e oks s
    let gs := groupLines lanes
    (coreOf t e.c).pend = (coreOf s e.c).pend ++ (gs.zipIdx s.seq).map (fun y =>
      ({ id := y.2, wg := e.base, kind := x.kind, lanes := y.1, order := x.order, scope := x.scope, read := x.read, write := x.write, word := e.word } : Pend)) ∧
    (∀ y ∈ gs, ∃ l, y ≠ [] ∧ y = lanes.filter fun a => decide (lineOf a.place = l)) ∧
    (∀ a ∈ lanes, ∃ y ∈ gs, a ∈ y) ∧
    gs.Pairwise (fun y z => ∀ a ∈ y, ∀ b ∈ z, lineOf a.place ≠ lineOf b.place) ∧
    (gs.filterMap List.head?).Sublist lanes ∧
    t.mem = s.mem ∧ t.dies = s.dies ∧ t.devLines = s.devLines ∧ (coreOf t e.c).threads = (coreOf s e.c).threads ∧
    (coreOf t e.c).crews = (coreOf s e.c).crews ∧ (∀ d, d ≠ e.c → coreOf t d = coreOf s d) ∧ t.ctxs = s.ctxs

/-- R238, R244, R245: an access in flight that nothing of R238 orders behind another, that follows no release performed early, whose home has
bytes of the context's share, whose lines no engine owns and whose bytes are not poisoned is performed: it leaves the accesses in flight, its
line is asked once, and its lanes act in their order. R207, R249, R250: what one lane of an access does when it is performed: a load gives
its registers the image of the bytes, a store writes the low bytes of its value, an atomic gives the old value and writes the new one.
The model's own choices, and no rule of the spec: log entry 28 (Which accesses are performed before others that R238 orders first); log entry
41 (Whether a compare fails is decided, for its order, by the memory as it stands); log entry 51 (The memory budget counts the bytes that
accesses and engines name). -/
def Obligations.AccessesArePerformed : Prop :=
  (∀ c id s p, (coreOf s c).pend.find? (fun q => decide (q.id = id)) = some p →
     (∀ q ∈ (coreOf s c).pend, q.id < id → samePeerLine q p = false ∧ (sharesSlot q p = true → orderedBefore q (p.asNow s) = false)) →
     heldByNote s c p = false →
     trafficHeld s (pendCtx (coreOf s c) p) (p.lanes.map (·.place)) = false → (∀ l ∈ p.lanes, engineOwns s l.place = false) →
     (∀ l ∈ p.lanes, placePoisoned s l.place l.len = false) → (p.lanes.length ≤ 1 ∨ ∀ minor b64 nr ty, p.kind ≠ .atomic minor b64 nr ty) →
     (∀ l ∈ p.lanes, l.sample = none) → (coreOf s c).samples = [] →
     let u := countTraffic (updCore s c fun co => { co with pend := co.pend.filter fun q => decide (q.id ≠ id) }) (pendCtx (coreOf s c) p)
       (p.lanes.map fun l => (l.place, l.len))
     let v := p.lanes.foldl (fun s l => performLane s c p.kind l) (touchAccess u p.kind p.lanes)
     let v := match p.kind with
       | .store => settlePoison v (p.lanes.map fun l => (l.place, l.len, false))
       | _ => v
     exec (.accessComplete c id) s = .next (noteAccess v c p p.lanes []) ∧ (s.notes = [] → noteAccess v c p p.lanes [] = v)) ∧
  (∀ s c l,
     let binds := fun (u : State) (x : Nat) => updCore u c fun co => updThread co l.slot fun t => bindRegs t l.dst x
     let u := s
     let x := readPlace u l.place l.len
     let writes := fun (u : State) (y : Nat) => writeBytes u l.place (toBytes l.len y)
     let at' := fun (minor : Nat) (b64 nr : Bool) (ty : FTy) (y : Nat) => performLane s c (.atomic minor b64 nr ty) l = binds (writes u y) x
     let d := l.data % 2 ^ (8 * l.len)
     (∀ z, performLane s c (.load z) l = binds u (match z with
       | .s8 => ((BitVec.ofNat 8 x).signExtend 32).toNat
       | .s16 => ((BitVec.ofNat 16 x).signExtend 32).toNat
       | _ => x)) ∧
     performLane s c .store l = writes s l.data ∧
     (∀ b64 nr ty,
       let n := if b64 then 64 else 32
       let X := BitVec.ofNat n x
       let D := BitVec.ofNat n d
       l.len = n / 8 →
       at' 0 b64 nr ty (X + D).toNat ∧ at' 1 b64 nr ty (if D.slt X then D else X).toNat ∧ at' 2 b64 nr ty (if X.slt D then D else X).toNat ∧
       at' 3 b64 nr ty (if D.ult X then D else X).toNat ∧ at' 4 b64 nr ty (if X.ult D then D else X).toNat ∧ at' 5 b64 nr ty (X &&& D).toNat ∧
       at' 6 b64 nr ty (X ||| D).toNat ∧ at' 7 b64 nr ty (X ^^^ D).toNat ∧ at' 8 b64 nr ty D.toNat ∧
       (x = l.cmp → at' 9 b64 nr ty D.toNat) ∧ (x ≠ l.cmp → performLane s c (.atomic 9 b64 nr ty) l = binds u x) ∧
       at' 10 b64 nr .f32 (fpAdd fp32 (x % 2 ^ 32) (d % 2 ^ 32)) ∧
       at' 10 b64 nr .bf16x2 (fpAdd bf16 (x % 65536) (d % 65536) + 65536 * fpAdd bf16 (x / 65536 % 65536) (d / 65536 % 65536))))

/-- R5, R207: the bytes that a store writes read back in their order, wherever they lie, and every other byte of the same kind of memory
keeps its value: a snooped address, a workgroup's scratchpad, a die scratchpad.
The model's own choices, and no rule of the spec: log entry 2 (Host and peer memory that nothing has written reads 0 (device memory reads 0
by R381 step 3); memory lists no zero byte). -/
def Obligations.StoresChangeTheirBytesAlone : Prop :=
  ∀ s bs,
    let val := fun (lo : Nat) (old : Nat → Byte) (a : Nat) => if lo ≤ a ∧ a < lo + bs.length then bs.getD (a - lo) 0 else old a
    (∀ pa a, offByte (writePlace s (.off pa true) bs) a true = val pa (fun a => offByte s a true) a) ∧
    (∀ c b o a, (get? (coreOf s c).wgs b).isSome →
      getByte (writePlace s (.scr c b o) bs) (.scr c b a) = val o (fun a => getByte s (.scr c b a)) a) ∧
    (∀ d o a, getByte (writePlace s (.die d o) bs) (.die d a) = val o (fun a => getByte s (.die d a)) a) ∧
    (∀ pa, (writePlace s (.off pa true) bs).cores = s.cores ∧ (writePlace s (.off pa true) bs).dies = s.dies) ∧
    (∀ c b o, (writePlace s (.scr c b o) bs).mem = s.mem ∧ (writePlace s (.scr c b o) bs).dies = s.dies) ∧
    (∀ d o, (writePlace s (.die d o) bs).mem = s.mem ∧ (writePlace s (.die d o) bs).cores = s.cores)

/-- R214-R219, R234: the words on mapped regions, in the lane that acts for the batch. SPMAP maps a slot whose region reads as zeros and
whose sectors are unfilled; SPUNMAP and SPWB need every dirty sector written back, and SPUNMAP unmaps; SPDROP drops what its slots hold.
The model's own choices, and no rule of the spec: log entry 43 (A trap of SPMAP's check of its memory has the VA as ADDR). -/
def Obligations.MappedRegionWords : Prop :=
  (∀ g slot va ctl k s e i a c,
    let p : WordSpec := { g := g, regs := vRange va 2 ++ srcRegs ctl false, perms := [ctl.perm], crew := srcCrewy ctl, pops := srcPops ctl }
    Lone s e p i → readPair e (e.thread i) va = .ok a → readSrc e i (e.thread i) ctl false = .ok c → a % 4096 = 0 → a < 2 ^ 57 →
    mapRefused (e.wg (e.thread i)) slot a c.x = false →
    lanesBusy e [i] = false → regionBusy s e.c (e.wgBase (e.thread i)) (c.x % 256 * 4096) (c.x / 256 % 256 * 4096) = false →
    Leads (.spmap g slot va ctl k) s e (updCore (alone e p i { t := e.thread i, out := a + 2 ^ 57 * c.x } s) e.c fun co =>
      updWG co (e.wgBase (e.thread i)) fun w =>
        let m : MapSlot := { va := a, off := c.x % 256 * 4096, len := c.x / 256 % 256 * 4096, kind := k }
        { zeroScratch w m.off m.len with maps := put w.maps slot m })) ∧
  (let settled := fun (e : Env) (i : Nat) (slot : Option Nat) =>
     let w := e.wg (e.thread i)
     lanesBusy e [i] = false ∧
     (∀ m ∈ w.maps, pickMap slot m.1 = true → regionBusy e.s e.c (e.wgBase (e.thread i)) m.2.off m.2.len = false) ∧
     dirtySectors w slot = []
   let acts := fun (I : Instr) (g : Guard) (slot : Option Nat) (f : WG → WG) =>
     ∀ s e i, Lone s e { g := g } i → settled e i slot →
       Leads I s e (updCore (alone e { g := g } i { t := e.thread i } s) e.c fun co => updWG co (e.wgBase (e.thread i)) f)
   (∀ g slot, acts (.spunmap g slot) g slot fun w => { w with maps := w.maps.filter fun m => !pickMap slot m.1 }) ∧
   (∀ g slot, acts (.spwb g slot) g slot id) ∧
   (∀ g slot s e i, Lone s e { g := g } i → lanesBusy e [i] = false →
     (∀ m ∈ (e.wg (e.thread i)).maps, pickMap slot m.1 = true → regionBusy s e.c (e.wgBase (e.thread i)) m.2.off m.2.len = false) →
     Leads (.spdrop g slot) s e (updCore (alone e { g := g } i { t := e.thread i } s) e.c fun co =>
       updWG co (e.wgBase (e.thread i)) (dropMaps slot))))

/-- R217: the map unit fills a sector that an access waits for with its 32 bytes of memory, and writes a dirty sector back, which stays
filled and is clean.
The model's own choice, and no rule of the spec: log entry 51 (The memory budget counts the bytes that accesses and engines name). -/
def Obligations.MapUnitMovesSectors : Prop :=
  (∀ c b k i s w m pa sn, (b, k, i) ∈ (coreOf s c).wants → get? (coreOf s c).wgs b = some w → get? w.maps k = some m → get? m.sectors i = none →
    32 * i < m.len → m.kind ≠ .wo → translateVA s w.ctx (m.va + 32 * i) false = .ok pa sn →
    sectorHeld s c b k i = false →
    let s' := countTraffic (touchPlace (updCore s c fun co => { co with wants := co.wants.erase (b, k, i) }) (.off pa sn)) w.ctx [(.off pa sn, 32)]
    exec (.mapFill c b k i) s = .next (copyPoison (updCore s' c fun co => updWG co b fun w =>
      { w with scratch := memWrite w.scratch (m.off + 32 * i) (toBytes 32 (readPlace s' (.off pa sn) 32)),
               maps := put w.maps k { m with sectors := put m.sectors i .clean } }) (.off pa sn) 32 (.scr c b (m.off + 32 * i)) 32)) ∧
  (∀ c b k i s w m mask pa sn, get? (coreOf s c).wgs b = some w → get? w.maps k = some m → get? m.sectors i = some (.dirty mask) →
    wbPage s w.ctx (m.va + 32 * i) = .ok pa sn → sectorHeld s c b k i = false →
    ∃ t, exec (.mapWriteback c b k i) s = .next t ∧
      (sn = true → ∀ n, n < 32 → memGet t.mem (pa + n) = if mask.getLsbD n then memGet w.scratch (m.off + 32 * i + n) else memGet s.mem (pa + n)) ∧
      (get? (coreOf t c).wgs b).map (fun w => (get? w.maps k).bind fun m => get? m.sectors i) = some (some .clean))

/-! ### Major 0x25: fences, barriers, counters, votes and shuffles -/

/-- R253-R255: a FENCE at a scope up to system completes when the thread's earlier accesses are performed, and an SC fence when nothing that
comes before it in the SC order is left; a release at device or system scope only when its workgroup's mapped regions are clean; an
acquire fence follows the reads in flight. It changes no register.
The model's own choice, and no rule of the spec: log entry 28 (Which accesses are performed before others that R238 orders first). -/
def Obligations.FenceCompletes : Prop :=
  ∀ g k scope s e i, Lone s e { g := g } i → scope ≤ 6 →
    (k ≠ .acq → lanesBusy e [i] = false ∧
      (k = .sc → heardBy s e.c i scope = false ∧ ∀ n ∈ s.notes, n.at' = .scFence → n.reaches s (agentOf s e.c i) scope = false) ∧ (5 ≤ scope → dirtySectors (e.wg (e.thread i)) none = [])) →
    let u := alone e { g := g } i { t := e.thread i } s
    Leads (.fence g k scope) s e (if k = .acq then addFence e.c e.base e.word scope [i] u else u)

/-- R256-R258: named barriers. BARINIT sets a count that all must arrive for; BARR arrives and gives the phase it arrived in; the arrival
that brings the pending count to 0 resets it and changes the phase; BARW passes when the phase is not the one it names; BARS arrives and,
unless its own arrival changed the phase, waits in a held entry of reason barrier, its registers as they were. -/
def Obligations.BarrierWords : Prop :=
  let arrived := fun (w : WG) (b : Nat) => if barPend w b = 1 then mkBar (barExp w b) (barExp w b) (1 - barPhase w b) else mkBar (barExp w b) (barPend w b - 1) (barPhase w b)
  (∀ g b n s e i x y,
    let p := barSpec g [b, n] .zero
    Lone s e p i → readSrc e i (e.thread i) b false = .ok x → readSrc e i (e.thread i) n false = .ok y →
    x.x < (e.wg (e.thread i)).kern.nbar → 1 ≤ y.x → y.x ≤ 8192 →
    Leads (.barinit g b n) s e (updCore (alone e p i { t := e.thread i, out := x.x * 2 ^ 14 + y.x } s) e.c fun co =>
      updWG co (e.wgBase (e.thread i)) fun w => { w with bars := rput 0 w.bars x.x (mkBar y.x y.x (barPhase w x.x)) })) ∧
  (∀ g d b s e i x r w,
    let p := barSpec g [b] d
    Lone s e p i → readSrc e i (e.thread i) b false = .ok x → destOf e (e.thread i) d false = .ok r → get? (coreOf s e.c).wgs (e.wgBase (e.thread i)) = some w →
    x.x < w.kern.nbar → barExp w x.x ≠ 0 → lanesBusy e [i] = false →
    ∃ t, exec (.barr g d b) s = .next t ∧
      Gets e p t i (r.put (e.thread i) false (barPhase w x.x)) ∧
      (get? (coreOf t e.c).wgs (e.wgBase (e.thread i))).map (·.bars) = some (rput 0 w.bars x.x (arrived w x.x)) ∧
      { t with cores := [], ctxs := [] } = { s with cores := [], ctxs := [] }) ∧
  (∀ g b ph s e i x y,
    let p := barSpec g [b, ph] .zero
    Lone s e p i → readSrc e i (e.thread i) b false = .ok x → readSrc e i (e.thread i) ph false = .ok y → x.x < (e.wg (e.thread i)).kern.nbar →
    barPhase (e.wg (e.thread i)) x.x ≠ y.x % 2 → Leads (.barw g b ph) s e (alone e p i { t := e.thread i } s)) ∧
  (∀ g b s e i x w,
    let p := barSpec g [b] .zero
    Lone s e p i → readSrc e i (e.thread i) b false = .ok x → get? (coreOf s e.c).wgs (e.wgBase (e.thread i)) = some w → e.wg (e.thread i) = w →
    x.x < w.kern.nbar → barExp w x.x ≠ 0 → barPend w x.x = 1 → lanesBusy e [i] = false →
    ∃ t, exec (.bars g b) s = .next t ∧ Gets e p t i (e.thread i) ∧
      (get? (coreOf t e.c).wgs (e.wgBase (e.thread i))).map (·.bars) = some (rput 0 w.bars x.x (arrived w x.x))) ∧
  (∀ g b s e i x w,
    let p := barSpec g [b] .zero
    Lone s e p i → readSrc e i (e.thread i) b false = .ok x → get? (coreOf s e.c).wgs (e.wgBase (e.thread i)) = some w → e.wg (e.thread i) = w →
    (keyOf e.co i).isSome = true →
    x.x < w.kern.nbar → barExp w x.x ≠ 0 → barPend w x.x ≠ 1 → lanesBusy e [i] = false →
    ∃ t, exec (.bars g b) s = .next t ∧ (threadAt t e.c i).held = (widened e p i (e.thread i)).held ∧ (threadAt t e.c i).wait = .bar x.x ∧
      (∃ y ∈ (coreOf t e.c).entries.map (·.2) ++ (coreOf t e.c).cold, i ∈ y.slots ∧ y.reason = some .barrier) ∧
      (∀ n, ∀ y ∈ (selOf (coreOf t e.c) n).batches, i ∉ y.slots) ∧
      (get? (coreOf t e.c).wgs (e.wgBase (e.thread i))).map (·.bars) = some (rput 0 w.bars x.x (arrived w x.x)) ∧ t.mem = s.mem)

/-- R259-R261: PHARR, PHWAIT and CWAIT in a lane whose address is reached. PHARR lowers the pending count, or resets it and changes the phase
bit, and gives the old phase; PHWAIT passes when the phase bit is not the one it names; CWAIT passes with the counter's value when its
condition holds.
The model's own choices, and no rule of the spec: log entry 28 (Which accesses are performed before others that R238 orders first); log entry
37 (JOIN, CWAIT, PHARR and PHWAIT are not watched); log entry 51 (The memory budget counts the bytes that accesses and engines name). -/
def Obligations.PhaseAndCounterWords : Prop :=
  (∀ g d a c spc s e i x y r place,
    let p := barSpec g [a, c] d
    let w := BitVec.ofNat 64 (readPlace s place 8)
    let count := BitVec.ofNat 16 y.x
    Lone s e p i → readSrc e i (e.thread i) a false = .ok x → readSrc e i (e.thread i) c false = .ok y → destOf e (e.thread i) d false = .ok r →
    placeOf e s i (e.thread i) { spc := phSpace spc, off := 0, n := 8, align := 8, read := true, write := true } [x.x, y.x] false false 0 = .ok place →
    lanesBusy e [i] = false → y.x ≠ 0 → y.x ≤ (w.extractLsb' 0 16).toNat →
    let ph := w.getLsbD 63
    let w' := if w.extractLsb' 0 16 = count then (w.extractLsb' 63 1 ^^^ 1#1) ++ w.extractLsb' 16 47 ++ w.extractLsb' 16 16
              else w.extractLsb' 16 48 ++ (w.extractLsb' 0 16 - count)
    let o : LaneOut := { t := r.put (e.thread i) false (encBool ph), out := encBool ph, acc := [{ slot := i, place := place, len := 8 }] }
    Leads (.pharr g d a c spc) s e (chargeLanes (alone e p i o (writePlace s place (toBytes 8 w'.toNat))) e.c o.acc)) ∧
  (∀ g a ph spc s e i x y place,
    let p := barSpec g [a, ph] .zero
    Lone s e p i → readSrc e i (e.thread i) a false = .ok x → readSrc e i (e.thread i) ph false = .ok y →
    placeOf e s i (e.thread i) { spc := phSpace spc, off := 0, n := 8, align := 8, read := true, write := false } [x.x, y.x] false false 0 = .ok place →
    readBlocked e i place 8 = false → bits (readPlace s place 8) 63 1 ≠ y.x % 2 →
    let o : LaneOut := { t := e.thread i, acc := [{ slot := i, place := place, len := 8 }] }
    Leads (.phwait g a ph spc) s e (chargeLanes (alone e p i o s) e.c o.acc)) ∧
  (∀ g d a n spc k s e i x y r place,
    let wide := decide (spc = .g)
    let p : WordSpec := { g := g, regs := codeRegs d false ++ srcRegs a wide ++ srcRegs n false, perms := [a.perm, n.perm],
                          crew := srcCrewy a || srcCrewy n, pops := srcPops a ++ srcPops n }
    Lone s e p i → readSrc e i (e.thread i) a wide = .ok x → readSrc e i (e.thread i) n false = .ok y → destOf e (e.thread i) d false = .ok r →
    placeOf e s i (e.thread i) { spc := ctrSpace spc, off := 0, n := 4, align := 4, read := true, write := false, watch := false } [x.x, y.x] false
      false 0 = .ok place →
    readBlocked e i place 4 = false → engineOwns s place = false → trafficHeld s (e.wg (e.thread i)).ctx [place] = false →
    let u := countTraffic (touchPlace s place) (e.wg (e.thread i)).ctx [(place, 4)]
    let v : Word := BitVec.ofNat 32 (readPlace u place 4)
    let t : Word := BitVec.ofNat 32 y.x
    (match k with | .geu => t.ule v | .eq => decide (v = t) | .ge => t.sle v) = true →
    let o : LaneOut := { t := r.put (e.thread i) false v.toNat, out := v.toNat, acc := [{ slot := i, place := place, len := 4 }] }
    Leads (.cwait g d a n spc k) s e (chargeLanes (alone e p i o u) e.c o.acc))

/-- R257, R260, R261, R284: a waiting thread goes on when what it waits for has come: the phase of its barrier or phase word has changed, its
counter meets the condition, whose value it takes along, or its queue register has an entry or room. A thread that goes on stands ready at
its position, with its registers; memory, batches and every other thread stay. A word whose push finds its queue register full has no
effect: its threads wait in held entries of reason queue, in no batch.
The model's own choices, and no rule of the spec: log entry 20 (A crew batch whose lanes wait comes together again before it goes on); log
entry 28 (Which accesses are performed before others that R238 orders first); log entry 51 (The memory budget counts the bytes that
accesses and engines name). -/
def Obligations.WaitersAreReleased : Prop :=
  (∀ c i s t, get? (coreOf s c).threads i = some t → t.wait = .ready → heldFor (coreOf s c) i = some .barrier →
    exec (.barrierRelease c i) s = .next (release s c i .passed)) ∧
  (∀ c i s t spc off ph place, get? (coreOf s c).threads i = some t → t.wait = .phase spc off ph →
    rereadAt s c i t (phSpace spc) off 8 = .ok place → placePoisoned s place 8 = false → notedAt s place 8 = false →
    bits (readPlace s place 8) 63 1 ≠ encBool ph →
    exec (.phaseWaitRelease c i) s = .next (chargeRead (release s c i .passed) c i place)) ∧
  (∀ c i s t spc a n k place, get? (coreOf s c).threads i = some t → t.wait = .count spc a n k →
    let ctx := ((wgOf (coreOf s c) t).map (·.ctx)).getD 0
    rereadAt s c i t (ctrSpace spc) a 4 = .ok place → placePoisoned s place 4 = false → engineOwns s place = false →
    trafficHeld s ctx [place] = false → notedAt s place 4 = false →
    let u := countTraffic (touchPlace s place) ctx [(place, 4)]
    let v : Word := BitVec.ofNat 32 (readPlace u place 4)
    condHolds k v n = true → exec (.counterWaitRelease c i) s = .next (chargeRead (release u c i (.counter v)) c i place)) ∧
  (∀ c i s t k w q push word vals, get? (coreOf s c).threads i = some t → t.wait = .queue q push word vals → crewOf (coreOf s c) t = some k →
    get? (coreOf s c).wgs k.wg = some w →
    (if push then (rget {} w.queues q).entries.length < ((w.kern.queues[q]?).map (·.depth)).getD 0 else (rget {} w.queues q).entries ≠ []) →
    (push = true ∨ orphaned (coreOf s c) k.wg w q = false) →
    exec (.queueRelease c i) s = .next (wake s c (((coreOf s c).threads.filter fun x =>
      decide (x.2.crew = t.crew ∧ x.2.pos = t.pos ∧ heldFor (coreOf s c) x.1 = some .queue)).map (·.1)))) ∧
  (let goes := fun (s u : State) (c : Nat) (slots : List Nat) (resume : Nat → Resume) =>
     { u with cores := [] } = { s with cores := [] } ∧ (∀ d, d ≠ c → coreOf u d = coreOf s d) ∧ (coreOf u c).sels = (coreOf s c).sels ∧
     (coreOf u c).wgs = (coreOf s c).wgs ∧ (coreOf u c).pend = (coreOf s c).pend ∧
     (∀ i, i ∉ slots → get? (coreOf u c).threads i = get? (coreOf s c).threads i) ∧
     ∀ i ∈ slots, ∀ t, get? (coreOf s c).threads i = some t → (keyOf (coreOf s c) i).isSome = true →
       get? (coreOf u c).threads i = some { t with wait := .none, resume := resume i } ∧
       (∃ y ∈ (coreOf u c).entries.map (·.2) ++ (coreOf u c).cold, i ∈ y.slots) ∧
       ∀ y ∈ (coreOf u c).entries.map (·.2) ++ (coreOf u c).cold, i ∈ y.slots → y.reason = none ∧ y.pos = t.pos
   (∀ s c slots, goes s (wake s c slots) c slots fun i => (threadAt s c i).resume) ∧
   ∀ s c i r, goes s (release s c i r) c [i] fun _ => r) ∧
  (∀ s e p lane post q, envOf s = some e → legal e p = true → (p.crew = true → e.crewB = true) →
    gateOf e p (liveOf e p.g p.again) = .hold q true → (runLanes lane e s (liveOf e p.g p.again)).1.any (fun x => isStall x || earlyTrap x) = false →
    (∀ i ∈ liveOf e p.g p.again, (get? e.co.threads i).isSome = true ∧ (keyOf e.co i).isSome = true) →
    ∃ t, issueWord s p lane post = .next t ∧ t.mem = s.mem ∧
      ∀ i ∈ liveOf e p.g p.again, (threadAt t e.c i).held = (e.thread i).held ∧ (threadAt t e.c i).wait = .queue q true e.word (gateSrcs e p i) ∧
        (∃ y ∈ (coreOf t e.c).entries.map (·.2) ++ (coreOf t e.c).cold, i ∈ y.slots ∧ y.reason = some .queue) ∧
        ∀ n, ∀ y ∈ (selOf (coreOf t e.c) n).batches, i ∉ y.slots)

/-- R262, R263: the votes, over the threads whose guard is true, and SHFX, which reads the register of the thread in the lane that srcB names; a
lane beyond the crew's width reads its own and sets WIDE.
The model's own choices, and no rule of the spec: log entry 40 (SHFX checks UNDECLARED against the executing thread, and its destination may
be an affine or queue register code); log entry 95 (In a batch of several crews the threads of one crew
lane share a bit of VOTE.ballot). -/
def Obligations.VoteAndShuffleResults : Prop :=
  let yes := fun (e : Env) (g : Guard) (q : Nat) (neg : Bool) => (liveOf e g false).filter fun i => (e.thread i).getP q != neg
  (∀ g p q neg, Computes (.voteAll g p q neg) { g := g } fun e k =>
    .ok { t := (e.thread k).setP p (decide (∀ i ∈ liveOf e g false, (e.thread i).getP q ≠ neg)) }) ∧
  (∀ g p q neg, Computes (.voteAny g p q neg) { g := g } fun e k =>
    .ok { t := (e.thread k).setP p (decide (∃ i ∈ liveOf e g false, (e.thread i).getP q ≠ neg)) }) ∧
  (∀ g d q neg, Computes (.voteBallot g d q neg) { g := g, regs := vRange d 4 } fun e k =>
    if (vRange d 4).any (e.thread k).pend.contains then .error .stall
    else
      let b := (yes e g q neg).foldl (fun x i => x ||| 2 ^ e.lane i) 0
      .ok { t := ((e.thread k).setPair d (b % 2 ^ 64)).setPair (d + 2) (b / 2 ^ 64) }) ∧
  (∀ g d q neg, Computes (.votePopc g d q neg) { g := g, regs := codeRegs d false } fun e k =>
    match destOf e (e.thread k) d false with
    | .error b => .error b
    | .ok r => .ok { t := r.put (e.thread k) false (yes e g q neg).length }) ∧
  (∀ g d a b w, Computes (.shfx g d a b w)
    { g := g, regs := codeRegs d w ++ (if w then vRange a 2 else [.v a]) ++ srcRegs b false, perms := [b.perm], crew := true, pops := srcPops b,
      push := match d with | .q n => some n | _ => none
      aff := match d with | .a n => some n | _ => none } fun e k =>
    match readSrc e k (e.thread k) b false with
    | .error x => .error x
    | .ok y =>
      let lane := y.x % 128
      let read := fun (u : Thread) => if w then readPair e u a else readV e u a
      let j := k - e.lane k + lane
      match (if e.width ≤ lane then read (e.thread k) else if j ∈ e.b.slots then read (e.thread j) else .ok 0) with
      | .error x => .error x
      | .ok x =>
        match destOf e (e.thread k) d w with
        | .error x => .error x
        | .ok .odd => .error (.trap cAlign [x, y.x] 0 0 false)
        | .ok r =>
          let t := r.put (e.thread k) w x
          .ok { t := if e.width ≤ lane then { t with lwidth := t.lwidth ||| 1 } else t, out := x % 2 ^ 32 })

/-! ### Major 0x2B: continuation queues and queue registers -/

/-- R286-R292: ENQ appends its record once the record's place can be written, and its predicate says whether the queue took it; JOIN lowers its counter and, at 1, appends the record
behind it; QCLOSE ends the thread's pushes to a queue register, QCLOSE.c closes a continuation queue, and QSTAT reads a state.
The model's own choices, and no rule of the spec: log entry 22 (A word's queue pops and pushes happen when any of its lanes completes); log
entry 30 (An engine word waits for the earlier accesses of its batch, ENQ and JOIN for their lane's); log entry 36 (JOIN with a count of 1 and a record
whose bits 63:32 are not zero raises BOUNDS and writes nothing); log entry 50 (QSTAT of an unbound queue register has ORPH 0); log entry 51
(The memory budget counts the bytes that accesses and engines name); log entry 96 (The records of a continuation queue form a ring in its
spill region). -/
def Obligations.QueueWords : Prop :=
  let room := fun (e : Env) (i q : Nat) => ∀ va, enqueueVA e.s (e.wg (e.thread i)).ctx q = some va →
    ∃ place, vaReach e.s (e.wg (e.thread i)).ctx va false true = .ok place ∧ mustWait e.s e.co (e.wg (e.thread i)).ctx i place 32 = false
  let sticky := fun (e : Env) (i : Nat) (s : State) => updCore s e.c fun co => updWG co (e.wgBase (e.thread i)) fun w => { w with sticky := true }
  (∀ g p r n s e i x q,
    let sp : WordSpec := { g := g, regs := vRange r 8 ++ srcRegs n false, perms := [n.perm], crew := srcCrewy n, pops := srcPops n }
    Lone s e sp i → readEight e (e.thread i) r = .ok x → readSrc e i (e.thread i) n false = .ok q → q.x < 64 → bits x 32 32 = 0 → lanesBusy e [i] = false →
    room e i q.x →
    let y := enqueue s (e.wg (e.thread i)).ctx q.x (BitVec.ofNat 256 x)
    Leads (.enq g p r n) s e (sticky e i (alone e sp i { t := (e.thread i).setP p y.1 } y.2))) ∧
  (∀ g p a s e i x place,
    let sp : WordSpec := { g := g, regs := vRange a 2 }
    Lone s e sp i → readPair e (e.thread i) a = .ok x →
    placeOf e s i (e.thread i) { spc := .g, off := 0, n := 64, align := 64, read := true, write := true, watch := false } [x] false false 0 = .ok place →
    lanesBusy e [i] = false → engineOwns s place = false → trafficHeld s (e.wg (e.thread i)).ctx [place] = false → notedAt s place 64 = false →
    let u := countTraffic (touchPlace s place) (e.wg (e.thread i)).ctx [(place, 4)]
    let v := readPlace s place 64
    let count := bits v 0 32
    let rec' := bits v 256 256
    count ≠ 0 → (count = 1 → bits rec' 32 32 = 0 ∧ room e i (bits v 32 6)) →
    let u := writePlace u place (toBytes 4 (count - 1))
    let y := if count = 1 then enqueue u (e.wg (e.thread i)).ctx (bits v 32 6) (BitVec.ofNat 256 rec') else (true, u)
    Leads (.join g p a) s e (sticky e i (alone e sp i { t := (e.thread i).setP p y.1 } y.2))) ∧
  (∀ g q, Computes (.qclose g q) { g := g } fun e k =>
    match (e.wg (e.thread k)).kern.queues[q]? with
    | none => .error (.trap 0x01 [] 0 0 true)
    | some b => if b.depth ≠ 0 ∧ b.prod = e.b.role then .ok { t := { e.thread k with closed := insertSlot (e.thread k).closed q } }
                else .error (.trap 0x01 [] 0 0 true)) ∧
  (∀ g n s e i q,
    let sp : WordSpec := { g := g, regs := srcRegs n false, perms := [n.perm], crew := srcCrewy n, pops := srcPops n }
    Lone s e sp i → readSrc e i (e.thread i) n false = .ok q → q.x < 64 →
    Leads (.qcloseC g n) s e (updCtx (sticky e i (alone e sp i { t := e.thread i, out := q.x } s)) (e.wg (e.thread i)).ctx fun x =>
      { x with conts := put x.conts q.x { rget {} x.conts q.x with closed := true } })) ∧
  (∀ g d n k, Computes (.qstat g d n k) (barSpec g [n] d) fun e i =>
    match readSrc e i (e.thread i) n false with
    | .error b => .error b
    | .ok q =>
      match destOf e (e.thread i) d false with
      | .error b => .error b
      | .ok r =>
        if (if k = .q then 16 else 64) ≤ q.x then .error (.trap cBounds [q.x] 0 0 false)
        else .ok { t := r.put (e.thread i) false (qstatOf e.s e.co (e.wgBase (e.thread i)) (e.wg (e.thread i)) q.x k) })

/-- R286, R290, R292: a continuation queue takes a record at its tail while it is open and has room; a full one counts the record it refuses, up to
2^32 - 1. The record's 32 bytes go to the tail's place in the spill region, which no record of the queue holds, and no other byte of
memory changes; a refused record writes nothing.
The model's own choice, and no rule of the spec: log entry 96 (The records of a continuation queue form a ring in its spill region). -/
def Obligations.EnqueueIsFirstInFirstOut : Prop :=
  ∀ s ctx q x k, get? s.ctxs ctx = some k →
    let c := rget {} k.conts q
    let y := enqueue s ctx q x
    let c' := rget {} (ctxOf y.2 ctx).conts q
    let va := contVA s ctx q (c.head + c.len)
    (c.closed = true → y = (false, s)) ∧
    (c.closed = false → c.len < contRoom s ctx → y.1 = true ∧ c' = { c with len := c.len + 1 } ∧
      (∀ j, j < c.len → contVA s ctx q (c.head + j) ≠ va) ∧
      ∀ pa, translateVA s ctx va true = .ok pa true → readPlace y.2 (.off pa true) 32 = x.toNat ∧
        ∀ a, (a < pa ∨ pa + 32 ≤ a) → offByte y.2 a true = offByte s a true) ∧
    (c.closed = false → contRoom s ctx ≤ c.len → y.1 = false ∧ y.2.mem = s.mem ∧
      c' = { c with full := BitVec.ofNat 32 (min (c.full.toNat + 1) (2 ^ 32 - 1)) }) ∧
    (∀ r, r ≠ q → rget {} (ctxOf y.2 ctx).conts r = rget {} k.conts r) ∧ y.2.cores = s.cores

/-! ### Major 0x28 and the engines -/

/-- R266, R267, R275-R277, R279: an engine word whose issuing lane's command passes its checks enters the command in its unit: XCOPY, XSTORE and
XCODE in the core's tensor copy unit, with its range in the scoreboard and the entries it owes its queue register, BULK on a package copy
engine that the scheduler chooses, or behind them all. No register changes, and no byte of memory; XCOPY and XSTORE have read their shape
record.
The model's own choices, and no rule of the spec: log entry 30 (An engine word waits for the earlier accesses of its batch, ENQ and JOIN for their lane's);
log entry 39 (The order of an engine word's checks: registers, the counter's alignment, the shape record's read, status 1, 5, 2, the queue
or the range); log entry 51 (The memory budget counts the bytes that accesses and engines name); log entry 98 (A BULK takes the lowest idle
package copy engine). -/
def Obligations.EngineWordsStartCommands : Prop :=
  let starts := fun (I : Instr) (p : WordSpec) (range : Bool) (read : Env → Nat → L (List Nat)) (shape : Env → State → Nat → List Place)
      (mk : Env → State → Nat → L Cmd) =>
    ∀ s e i vals x, Lone s e p i → read e i = .ok vals → unitFull e.co range = false → lanesBusy e e.b.slots = false → mk e s i = .ok x →
      Leads I s e (startCmd e.c x (countTraffic (alone e p i { t := e.thread i } s) (e.wg (e.thread i)).ctx ((shape e s i).map fun p => (p, 64))))
  let copy := fun (x : XWord) => ({ g := x.g, regs := xRegs x, crew := true, again := true } : WordSpec)
  let toQueue := fun (x : XWord) => match x.dest with | .q _ => true | .v _ => false
  let shape := fun (x : XWord) (e : Env) (s : State) (i : Nat) => match xVals e (e.thread i) x with
    | .error _ => []
    | .ok vals => match shapePlace e s i (e.thread i) x.objShape vals with | .ok p => [p] | .error _ => []
  (∀ x, starts (.xcopy x) (copy x) (!toQueue x) (fun e i => xVals e (e.thread i) x) (shape x) fun e s i => xCmd e s i (e.thread i) x false) ∧
  (∀ x, starts (.xstore x) (copy x) (!toQueue x) (fun e i => xVals e (e.thread i) x) (shape x) fun e s i => xCmd e s i (e.thread i) x true) ∧
  (∀ g shape ctr slot obj k, starts (.xcode g shape ctr slot obj k)
    { g := g, regs := (if obj then [.v shape] else vRange shape 2) ++ ctrRegs ctr k, crew := true, again := true } false
    (fun e i => codeVals e (e.thread i) shape ctr obj k) (fun _ _ _ => []) fun e _ i => codeCmd e i (e.thread i) shape ctr slot obj k) ∧
  (∀ g src dst ctr len k s e i b,
    let p : WordSpec := { g := g, regs := vRange src 2 ++ vRange dst 2 ++ ctrRegs ctr k ++ [.v len] }
    Lone s e p i → bulkCmd e i (e.thread i) src dst ctr len k = .ok b →
    (s.bulks.filter fun b => decide (b.ctx = (e.wg (e.thread i)).ctx) && b.failed.isNone).length < 256 → lanesBusy e e.b.slots = false →
    let u := updCore (alone e p i { t := e.thread i } s) e.c fun co => updWG co (e.wgBase (e.thread i)) fun w => { w with sticky := true }
    Leads (.bulk g src dst ctr len k) s e { u with seq := s.seq + 1, bulks := s.bulks ++ [{ b with id := s.seq, engine := freeEngine s }] })

/-- R228, R281, R285: what a command's start leaves: the command with a number of its own, at the end of its unit's queue, its bytes in the
range scoreboard, and the entries owed to its queue register. R278, R280, R281: a command that closes without a counter leaves its unit, and
its range the scoreboard; with one that can be reached, the counter goes up by 1 as well. -/
def Obligations.CommandsEnterAndLeaveTheirUnit : Prop :=
  (∀ c x s, let t := startCmd c x s
     (coreOf t c).copies = (coreOf s c).copies ++ [{ x with id := s.seq }] ∧ t.seq = s.seq + 1 ∧
     (coreOf t c).ranges = (coreOf s c).ranges ++ (match x.kind with
       | .load h _ dst pitch none => [{ cmd := s.seq, wg := x.wg, lo := dst, hi := dst + h.rows * pitch, dest := true }]
       | .store h _ src pitch => [{ cmd := s.seq, wg := x.wg, lo := src, hi := src + h.rows * pitch, dest := false }]
       | _ => []) ∧
     (∀ k, (get? (coreOf t c).wgs k).map (fun w => { w with queues := [] }) = (get? (coreOf s c).wgs k).map fun w => { w with queues := [] }) ∧
     (∀ h cs dst pitch q, x.kind = .load h cs dst pitch (some q) → (get? (coreOf s c).wgs x.wg).isSome →
       (get? (coreOf t c).wgs x.wg).map (fun w => (rget {} w.queues q).owed) =
         (get? (coreOf s c).wgs x.wg).map fun w => (rget {} w.queues q).owed + h.rows * pitch / 512) ∧
     (coreOf t c).threads = (coreOf s c).threads ∧ t.mem = s.mem) ∧
  (∀ c s x,
     let t := closeCmd s c x
     (x.ctr = none → (∀ y, y ∈ (coreOf t c).copies ↔ y ∈ (coreOf s c).copies ∧ y.id ≠ x.id) ∧
       (∀ r, r ∈ (coreOf t c).ranges ↔ r ∈ (coreOf s c).ranges ∧ r.cmd ≠ x.id) ∧ t.mem = s.mem) ∧
     (∀ k a pa, x.ctr = some (k, a) → ctrOf (updCmd (freeCmd s c x) c x.id fun _ => { x with moved := true }) c { x with moved := true } = .go (some (.off pa true)) →
       (∀ y, y ∈ (coreOf t c).copies ↔ y ∈ (coreOf s c).copies ∧ y.id ≠ x.id) ∧
       memRead t.mem pa 4 = (memRead s.mem pa 4 + 1) % 2 ^ 32))

/-- R271-R278, R280: the head command of a unit whose pages are there makes its writes, all or some of them in one event, and closes with the
last; one whose access fails ends with status 0x07 and stays for its late fault. A load to a queue register pushes entries of its image when
there is room. The image of a box holds, at its place, the fill element or the expanded element of the tensor, and no other byte of
scratchpad changes; a store writes each inside element, or group of four INT6P elements, packed, and no other byte of snooped memory.
The model's own choices, and no rule of the spec: log entry 29 (An engine command makes its writes in one or several events, in issue order
of its unit, and one that fails leaves what it wrote); log entry 44 (The bytes and sectors that an engine command is charged); log entry 51
(The memory budget counts the bytes that accesses and engines name); log entry 109 (An XCOPY to a queue register of a workgroup that leaves
its core does not wait for room). -/
def Obligations.CopyCommandsComplete : Prop :=
  (∀ s n, n ≠ 0 → 1 ≤ (portion s n).1 ∧ (portion s n).1 ≤ n) ∧
  (∀ c s x w, headCmd (coreOf s c) = some x → get? (coreOf s c).wgs x.wg = some w → x.moved = false →
    (∀ h cs dst pitch, x.kind = .load h cs dst pitch none →
      let left := h.cells.drop x.done
      let spans := cellSpans h cs left
      (spansEng s x.ctx false spans = .ok → spansHeld s x.ctx spans = false →
        let k := (portion s left.length).1
        let s' := (portion s left.length).2
        let y := { x with done := x.done + k, bads := x.bads ++ badCells s' x w h cs k }
        let u := countSpans (writeImage s' c x w h cs dst pitch k) x.ctx (cellSpans h cs (left.take k))
        exec (.copyComplete c) s = .next (if y.done < h.cells.length then updCmd u c x.id fun _ => y
          else closeCmd (chargeEngine (settleImage u c y h dst pitch) c y (h.rows * h.ext 0 * elemBytes h.fmt) (loadSpans h cs)) c y)) ∧
      (spansEng s x.ctx false spans = .fail → exec (.copyComplete c) s = .next (failCmd s c x 7))) ∧
    (∀ h cs dst pitch q, x.kind = .load h cs dst pitch (some q) → spansEng s x.ctx false (cellSpans h cs (h.cells.drop x.done)) = .ok →
      spansHeld s x.ctx (cellSpans h cs (h.cells.drop x.done)) = false →
      (rget {} w.queues q).entries.length < ((w.kern.queues[q]?).map (·.depth)).getD 0 ∨ drains w = true →
      let y := { x with pushed := x.pushed + 1 }
      let u := updCmd (updCore s c fun co => updWG co x.wg fun w =>
        addOwed (pushQueue w q (streamEntry s x w h cs pitch x.pushed)) q 1 true) c x.id fun _ => y
      exec (.copyComplete c) s = .next (if y.pushed < h.rows * pitch / 512 then u
        else closeCmd (chargeEngine (countSpans u x.ctx (loadSpans h cs)) c y (h.rows * h.ext 0 * elemBytes h.fmt) (loadSpans h cs)) c y)) ∧
    (∀ h cs src pitch, x.kind = .store h cs src pitch → sourceFill s c x w src (h.rows * pitch) = none →
      let all := storeSpans h cs src pitch
      let bytes := fun (l : List (Int × Nat × Nat × Int)) => l.map fun y => (y.1, y.2.1)
      let left := all.drop x.done
      (spansEng s x.ctx true (bytes left) = .ok → spansHeld s x.ctx (bytes left) = false →
        let k := (portion s left.length).1
        let s' := (portion s left.length).2
        let y := { x with done := x.done + k, bads := x.bads ++ badSpans s' c x h cs src pitch k }
        let u := countSpans (settleStore (writeStore s' c x h cs src pitch k) y h cs src pitch x.done k) x.ctx (bytes (left.take k))
        exec (.copyComplete c) s = .next (if y.done < all.length then updCmd u c x.id fun _ => y
          else closeCmd (chargeEngine u c y (all.foldl (fun k y => k + y.2.1) 0) []) c y)) ∧
      (spansEng s x.ctx true (bytes left) = .fail → exec (.copyComplete c) s = .next (failCmd s c x 7))) ∧
    (∀ a obj slot va, x.kind = .code a obj slot → codeVA s x a obj = some va → byteEng s x.ctx va false = .ok → spansHeld s x.ctx [(va, 32)] = false →
      let v := readVA s x.ctx va 32
      exec (.xcodeComplete c) s = .next (closeCmd (chargeEngine (countSpans (updCore s c fun co => updWG co x.wg fun w =>
        { w with badBooks := if poisonVA s x.ctx va 32 then insertSlot w.badBooks slot else w.badBooks.erase slot,
                 books := (List.range 16).foldl (fun m k => rput 0 m (16 * slot + k) (BitVec.ofNat 32 (bits v (16 * k) 16))) w.books })
        x.ctx [(va, 32)]) c x 0 [(va, 32)]) c x))) ∧
  (∀ s c x w h cs dst pitch k, (get? (coreOf s c).wgs x.wg).isSome = true → h.ext 0 * elemBytes h.fmt ≤ pitch →
    let n := elemBytes h.fmt
    let t := writeImage s c x w h cs dst pitch k
    let byte := fun (u : State) (a : Nat) => getByte u (.scr c x.wg a)
    t.mem = s.mem ∧ t.dies = s.dies ∧
    (∀ r b j, r < h.rows → b < h.ext 0 → j < n →
      byte t (dst + r * pitch + b * n + j) = if x.done ≤ r * h.ext 0 + b ∧ r * h.ext 0 + b < x.done + k
        then BitVec.ofNat 8 ((imageElem s x.ctx w h cs r b).1 / 2 ^ (8 * j)) else byte s (dst + r * pitch + b * n + j)) ∧
    (∀ a, (∀ r b j, r < h.rows → b < h.ext 0 → j < n → a ≠ dst + r * pitch + b * n + j) → byte t a = byte s a) ∧
    ∀ r o, o < pitch → streamByte s x w h cs pitch (r * pitch + o) =
      if o < h.ext 0 * n then BitVec.ofNat 8 ((imageElem s x.ctx w h cs r (o / n)).1 / 2 ^ (8 * (o % n))) else 0) ∧
  (∀ s ctx w (h : Shape) cs b0 b1 b2 b3 b4, b0 < h.ext 0 → b1 < h.ext 1 → b2 < h.ext 2 → b3 < h.ext 3 → b4 < h.ext 4 →
    let at' := fun (k b : Nat) => (cs[k]?).getD (0 : Int) + (b : Int)
    let cn := fun (k : Nat) => at' k (([b0, b1, b2, b3, b4][k]?).getD 0)
    let v := imageElem s ctx w h cs (b1 + h.ext 1 * (b2 + h.ext 2 * (b3 + h.ext 3 * b4))) b0
    let inside := ∀ k, k < cs.length → k < 5 → 0 ≤ cn k ∧ cn k < ((h.dims[k]?).getD 0 : Nat)
    let row : Int := h.base + cn 1 * (h.strides[1]?).getD 0 + cn 2 * (h.strides[2]?).getD 0 + cn 3 * (h.strides[3]?).getD 0 + cn 4 * (h.strides[4]?).getD 0
    let bit := elemBits h.fmt * (cn 0).toNat
    let x := bits (readVA s ctx (row + (bit / 8 : Nat)) ((bit % 8 + elemBits h.fmt + 7) / 8)) (bit % 8) (elemBits h.fmt)
    cs.length ≤ 5 →
    (¬ inside → v.1 = h.fill % 2 ^ (8 * elemBytes h.fmt)) ∧
    (inside → v.1 = match h.fmt with
      | 5 => (rget 0 w.books (16 * h.cb + x % 16)).toNat
      | 6 => ((BitVec.ofNat 6 x).signExtend 8).toNat
      | 7 => 2 ^ 16 * (x % 2 ^ 16) + 2 ^ 48 * (x / 2 ^ 16 % 2 ^ 16)
      | _ => x)) ∧
  (∀ s c x h cs src pitch k pa,
    let l := ((storeSpans h cs src pitch).drop x.done).take k
    let ws := l.flatMap fun (va, n, o, first) => (storeBytes s c x.wg h n o first).zipIdx.filterMap fun (y, j) =>
      match vaPlace s x.ctx (va + (j : Nat)) with | some (.off q _) => some (q, y) | _ => none
    (∀ y ∈ l, ∀ j, j < y.2.1 → ∀ q sn, vaPlace s x.ctx (y.1 + (j : Nat)) = some (.off q sn) → sn = true) →
    offByte (writeStore s c x h cs src pitch k) pa true = (((ws.filter fun y => decide (y.1 = pa)).getLast?).map (·.2)).getD (offByte s pa true)) ∧
  (∀ (h : Shape) cs src pitch y, y ∈ storeSpans h cs src pitch ↔ ∃ r b va bit, r < h.rows ∧ b < h.ext 0 ∧ h.elem cs r b = some (va, bit) ∧
    (h.fmt = 6 → b % 4 = 0) ∧
    y = (va, if h.fmt = 6 then 3 else elemBits h.fmt / 8, src + r * pitch + b * elemBytes h.fmt, ((h.coordsOf cs r b)[0]?).getD 0)) ∧
  ∀ s c wg (h : Shape) n o (first : Int),
    let byte := fun (k : Nat) => getByte s (.scr c wg (o + k))
    let six := fun (k : Nat) => if first + (k : Nat) < ((h.dims[0]?).getD 0 : Nat) then BitVec.ofInt 6 (clamp (byte k).toInt (-32) 31) else 0#6
    storeBytes s c wg h n o first = match h.fmt with
      | 6 => toBytes 3 (six 3 ++ six 2 ++ six 1 ++ six 0).toNat
      | 7 => toBytes 4 ((convElem bf16 fp32 rneCtl (readPlace s (.scr c wg o) 8 % 2 ^ 32)).1 +
          2 ^ 16 * (convElem bf16 fp32 rneCtl (readPlace s (.scr c wg o) 8 / 2 ^ 32 % 2 ^ 32)).1)
      | _ => (List.range n).map byte

/-- R279, R280: a BULK that no engine serves yet takes one, where one is idle; one whose lines may be read and written, and whose context has
copy time and bytes left, moves its lines, all or some of them in one event, and closes with the last. R280: a failed command raises ENGINE
in its issuing thread, as a late trap, and is gone.
The model's own choices, and no rule of the spec: log entry 29 (An engine command makes its writes in one or several events, in issue order
of its unit, and one that fails leaves what it wrote); log entry 51 (The memory budget counts the bytes that accesses and engines name); log
entry 52 (A late ENGINE trap of a thread in trap context is a double trap); log entry 98 (A BULK takes the lowest idle package copy
engine); log entry 104 (A late status that finds its thread held at a node). -/
def Obligations.BulkCompletesAndFailuresTrap : Prop :=
  (∀ id s x, s.bulks.find? (fun y => decide (y.id = id)) = some x → x.parked = false → x.failed = none → x.moved = false → spentCopy s x.ctx = false →
    (x.engine = none → exec (.bulkComplete id) s = .next (updBulk s x.id fun y => { y with engine := freeEngine s })) ∧
    (x.engine ≠ none → spansHeld s x.ctx (bulkSrc x ++ bulkDst x) = false → spansEng s x.ctx false (bulkSrc x) = .ok →
      spansEng s x.ctx true (bulkDst x) = .ok →
      let k := (portion s (x.len / 64 - x.done)).1
      let u := moveLines (portion s (x.len / 64 - x.done)).2 x k
      exec (.bulkComplete id) s = .next (if 64 * (x.done + k) < x.len then updBulk u x.id fun y => { y with done := x.done + k }
        else closeBulk (chargeBulk u x) x)) ∧
    (x.engine ≠ none → spansEng s x.ctx false (bulkSrc x) = .fail ∨ spansEng s x.ctx true (bulkDst x) = .fail → exec (.bulkComplete id) s =
      .next { s with bulks := s.bulks.map fun y => if y.id = x.id then { y with failed := some 7 } else y })) ∧
  (∀ s x k, (∀ a va, a ∈ (bulkSrc x).take k ++ (bulkDst x).take k → vaPlace s x.ctx a.1 = some va → ∃ pa, va = .off pa true) →
    let pairs := (List.zip ((bulkSrc x).take k) (bulkDst x)).filterMap fun (a, b) => match vaPlace s x.ctx a.1, vaPlace s x.ctx b.1 with
      | some (.off p _), some (.off q _) => some (p, q)
      | _, _ => none
    (∀ y ∈ pairs, ∀ z ∈ pairs, y.1 + 64 ≤ z.2 ∨ z.2 + 64 ≤ y.1) → pairs.Pairwise (fun y z => y.2 + 64 ≤ z.2 ∨ z.2 + 64 ≤ y.2) →
    (∀ y ∈ pairs, ∀ i, i < 64 → offByte (moveLines s x k) (y.2 + i) true = offByte s (y.1 + i) true) ∧
    ∀ a, (∀ y ∈ pairs, a < y.2 ∨ y.2 + 64 ≤ a) → offByte (moveLines s x k) a true = offByte s a true) ∧
  (∀ c id s x st d i, (coreOf s c).copies.find? (fun y => decide (y.id = id)) = some x → x.failed = some st →
    issuerOf s x.ctx x.launch x.wid (x.slot - x.wg) = .here d i →
    exec (.engineLateFault c id) s = .next (takeTrap (updCore s c fun co => { co with copies := co.copies.filter fun y => decide (y.id ≠ id) }) d x.sel
      [(i, { code := 0x0E, srcs := [st], word := x.word, late := true,
             atNode := match heldFor (coreOf s d) i with | some .gather | some .refill | some .binding => true | _ => false })]))

/-! ### Majors 0x18 and 0x19: the matrix unit -/

/-- R178, R180, R189: a matrix word enters the unit with its lanes' values, and holds its batch: no lane completes it at issue.
The model's own choices, and no rule of the spec: log entry 61 (A matrix word's memory effects happen at its read-out, in one or several
events, its last tile writes at its completion); log entry 106 (Two stopped words of one crew share ZPROG). -/
def Obligations.MatrixWordsEnterTheUnit : Prop :=
  let enters := fun (I : Instr) (p : WordSpec) (extra : Env → Nat → Thread → L Nat) (ok : Env → Prop) =>
    ∀ s e i vals x,
      let q : WordSpec := { p with crew := true, again := true, unit := true }
      Lone s e q i → matVals e (e.thread i) I = .ok vals → extra e i (e.thread i) = .ok x → ok e → matAlign I vals = none → lanesBusy e [i] = false →
      let u := startJob e { id := 0, wg := e.wgBase (e.thread i), crew := (e.thread i).crew, sel := e.sel, batch := e.b.id, word := e.word, instr := I,
                            lanes := [i], issuer := i, vals := vals, lvals := [x] } (alone e q i { t := e.thread i, out := x } s)
      ∃ t, exec I s = .next t ∧ Ends e.c (hereOf e (minus (participants e) [i]) u) u t
  let none' := fun (_ : Env) (_ : Nat) (_ : Thread) => (.ok 0 : L Nat)
  let any := fun (_ : Env) => True
  (∀ g t v a b f, enters (.mma g t v a b f) { g := g, regs := vRange a.n 3 ++ vRange b.n 3 } none' any) ∧
  (∀ g t a b f, enters (.mmad g t a b f) { g := g, regs := vRange a.n 3 ++ vRange b.n 3 } none' any) ∧
  (∀ g t a b, enters (.mmam g t a b) { g := g, regs := vRange a.n 3 ++ vRange b.n 3 } none' any) ∧
  (∀ g t v both, enters (.zclr g t v both) { g := g } none' any) ∧
  (∀ g t v a f, enters (.zld g t v a f) { g := g, regs := vRange a.n 3 } none' any) ∧
  (∀ g t v dest amax f clr, enters (.zst g t v dest amax f clr)
    { g := g, regs := (match dest with | .mem o => vRange o.n 3 | .queue _ => []) ++ (match amax with | some o => vRange o.n 2 | none => []) } none'
    fun e => match dest with | .queue q => drainBound e q = true | .mem _ => True) ∧
  (∀ g d t v col m, enters (.zrd g d t v col m) { g := g, regs := [if m then .m d else .v d] }
    (fun _ _ u => if u.pend.contains (if m then Reg.m d else Reg.v d) then .error .stall else .ok 0) any) ∧
  (∀ g t v col x, enters (.zwr g t v col (.inl x)) { g := g, regs := srcRegs x false, perms := [x.perm], pops := srcPops x }
    (fun e k u => (readSrc e k u x false).map (·.x)) any) ∧
  (∀ g t v col x, enters (.zwr g t v col (.inr x)) { g := g, regs := [.m x.m], perms := [x.perm] } (fun e k u => readMSrc e k u x) any)

/-- R189, R194-R196, R414: a word whose tile no earlier word holds reads out when the core runs, all of its rows in one event or some of
them, whose tile elements are then written; when all its rows have passed, its batch goes on, and the tile elements of the last rows are
written when the word completes, after a drain to a queue register has pushed its entries, each when there is room.
The model's own choices, and no rule of the spec: log entry 51 (The memory budget counts the bytes that accesses and engines name); log entry
61 (A matrix word's memory effects happen at its read-out, in one or several events, its last tile writes at its completion); log entry 62
(A drain to a queue register pushes one entry for each MATRIX_COMPLETE); log entry 107 (Which of several matrix words on different tiles
goes on is free). -/
def Obligations.MatrixWordsReadOutAndComplete : Prop :=
  (∀ c s j w k b bp amax ok, nextJob s c = some j → get? (coreOf s c).wgs j.wg = some w → get? (coreOf s c).crews j.crew = some k →
    stopped (coreOf s c) = false →
    let fn := match findBatch (coreOf s c) j.sel j.batch with | some b => b.pos.fn | none => 0
    let width := widthOf w.kern
    headRows s c w j fn = .ok (b, bp, amax) → laneRows s c w j fn width (startRow k j) j.lanes = (ok, none) →
    trafficHeld s w.ctx ((rowTraffic bp ok amax).map (·.1)) = false →
    let n := (rowsNow s j ok.length false).1
    let s' := (rowsNow s j ok.length false).2
    let now := ok.take n
    let lval := fun (i : Nat) => (((List.zip j.lanes j.lvals).find? fun x => decide (x.1 = i)).map (·.2)).getD 0
    let out := now.flatMap fun (i, ps) => rowOut (coreOf s c) j b (i % width) (if ps.isEmpty then 0 else rowBits s' ps) (lval i)
    let u := countTraffic (rowEffects s' c j width now) w.ctx (rowTraffic bp now (if n < ok.length then none else amax))
    let j' := j.after (coreOf s c) width b now
    let becomes := fun (y : Job) (co : Core) => co.jobs.map fun z => if z.id = j.id then y else z
    exec (.matrixReadout c) s = .next (match ok[n]? with
      | some (i, _) => updCore u c fun co => { co with tiles := tilePut co.tiles out, jobs := becomes { j' with row := i % width } co }
      | none => passJob (updCore (mergeMax u amax j'.top) c fun co =>
          let pushes := match j.instr with | .zst _ _ _ (.queue _) _ f _ => drainEntries (coreOf s c) j.instr f width j.lanes | _ => []
          { co with jobs := becomes { j' with read := true, out := out, pushes := pushes } co }) c j')) ∧
  (∀ c s j,
    let room := fun (y : Job) => match y.pushes, queueOf y.instr, get? (coreOf s c).wgs y.wg with
      | _ :: _, some q, some w => decide ((rget {} w.queues q).entries.length < ((w.kern.queues[q]?).map (·.depth)).getD 0)
      | _, _, _ => true
    anyOf s c ((coreOf s c).jobs.filter fun y => y.read && room y) = some j →
    (j.pushes = [] → exec (.matrixComplete c) s = .next (updCore s c fun co => { co with jobs := co.jobs.erase j, tiles := tilePut co.tiles j.out })) ∧
    (∀ x r q, j.pushes = x :: r → queueOf j.instr = some q → exec (.matrixComplete c) s = .next (updCore s c fun co =>
      updWG { co with jobs := co.jobs.map fun y => if y.id = j.id then { y with pushes := r } else y } j.wg fun w => addOwed (pushQueue w q x) q 1 true)))

/-- R179, R182, R184-R186: what a row of a matrix word gives its tile: ZCLR zeros; ZLD the row's elements, widened exactly; ZWR its lane's value;
MMA.s8 the wrapped sum of 64 exact products added to the element; the other products two groups of 16 exact terms, each group's sum
rounded once to FP32 and added in FP32. A ZST drain stores the images of its row, narrowed by RNE where the format says, in the places of
the row, or pushes them in column order; with .clr its elements become 0. -/
def Obligations.MatrixRowResults : Prop :=
  let field := fun (x lo n : Nat) => x / 2 ^ lo % 2 ^ n
  let fv := fun (y : FV) => match y with | .fin n m e => (if n then -1 else 1) * (m : Rat) * 2 ^ e | _ => 0
  let pv := fun (y : Machine.Prod) => match y with | .num n m e _ => (if n then -1 else 1) * (m : Rat) * 2 ^ e | _ => 0
  let nan := fun (y : FV) => match y with | .nan _ => true | _ => false
  let inf := fun (y : FV) => match y with | .inf _ => true | _ => false
  (∀ co j b row x lval c, c < 32 → row < 128 →
    let el := fun (v : Bool) => (get? (rowOut co j b row x lval) (tileKey (jobTile j.instr) v row c)).map BitVec.toNat
    let z := fun (v : Bool) => tileGet co (tileKey (jobTile j.instr) v row c)
    let B := fun (k : Nat) => b.getD k 0
    let sums := fun (v : Bool) (term : Nat → List Machine.Prod) =>
      el v = some (fpAdd fp32 (fpAdd fp32 (z v) (sumRound ((List.range 16).flatMap term))) (sumRound ((List.range 16).flatMap fun k => term (16 + k))))
    let half := fun (F : Fmt) (r k : Nat) => decodeF F (field r (16 * k) 16)
    let mean := fun (r k : Nat) => decodeF fp32 (field r (64 * k) 32)
    let var := fun (r k : Nat) => decodeF fp32 (if field r (64 * k + 32) 32 = 2 ^ 31 then 0 else field r (64 * k + 32) 32)
    let dense := fun (y : Nat → FV) => sums false (fun k => [prodFV [mean x k, y k]]) ∧ sums true (fun k => [prodFV [var x k, y k, y k]])
    (∀ g t, j.instr = .zclr g t false true → el false = some 0 ∧ el true = some 0) ∧
    (∀ g t v, j.instr = .zclr g t v false → el v = some 0) ∧
    (∀ g t v a, j.instr = .zld g t v a .f32 → el v = some (field x (32 * c) 32)) ∧
    (∀ g t v a, j.instr = .zld g t v a .bf16 → el v = some (field x (16 * c) 16 * 2 ^ 16)) ∧
    (∀ g t v a, j.instr = .zld g t v a .f16 →
      let h := field x (16 * c) 16
      let e := h / 2 ^ 10 % 32
      let f := h % 2 ^ 10
      let sign := h / 2 ^ 15 * 2 ^ 31
      (f = 0 ∧ e = 0 → el v = some sign) ∧ (e = 31 → el v = some (sign + 0x7F800000 + f * 2 ^ 13)) ∧
      (0 < e ∧ e < 31 → el v = some (sign + (e + 112) * 2 ^ 23 + f * 2 ^ 13)) ∧
      (e = 0 ∧ f ≠ 0 → ∃ E m, 103 ≤ E ∧ E ≤ 112 ∧ m < 2 ^ 23 ∧ el v = some (sign + E * 2 ^ 23 + m) ∧ f * 2 ^ (126 - E) = 2 ^ 23 + m)) ∧
    (∀ g t v a, j.instr = .zld g t v a .mf32 → el false = some (field x (64 * c) 32) ∧ el true = some (field x (64 * c + 32) 32)) ∧
    (∀ g t v src, j.instr = .zwr g t v c (.inl src) → el v = some (lval % 2 ^ 32)) ∧
    (∀ g t v src, j.instr = .zwr g t v c (.inr src) → el false = some (lval % 2 ^ 32) ∧ el true = some (lval / 2 ^ 32 % 2 ^ 32)) ∧
    (∀ g t v a o ub ua, j.instr = .mma g t v a o (.s8 ub ua) →
      let byte := fun (u : Bool) (r k : Nat) => if u then ((field r (8 * k) 8 : Nat) : Int) else (BitVec.ofNat 8 (r / 2 ^ (8 * k))).toInt
      el v = some (BitVec.ofInt 32 (((List.range 64).map fun k => byte ua x k * byte ub (B k) c).sum + (z v : Int))).toNat) ∧
    (∀ g t v a o, j.instr = .mma g t v a o .bf16 → sums v fun k => [prodFV [half bf16 x k, half bf16 (B k) c]]) ∧
    (∀ g t v a o, j.instr = .mma g t v a o .f16 → sums v fun k => [prodFV [half fp16 x k, half fp16 (B k) c]]) ∧
    (∀ g t a o, j.instr = .mmad g t a o .bf16 → dense fun k => half bf16 (B k) c) ∧
    (∀ g t a o, j.instr = .mmad g t a o .f16 → dense fun k => half fp16 (B k) c) ∧
    (∀ g t a o, j.instr = .mmad g t a o .f32 → dense fun k => decodeF fp32 (field (B k) (32 * c) 32)) ∧
    (∀ g t a o, j.instr = .mmam g t a o →
      sums false (fun k => [prodFV [mean x k, mean (B k) c]]) ∧
      sums true fun k => [prodFV [var x k, mean (B k) c, mean (B k) c], prodFV [mean x k, mean x k, var (B k) c], prodFV [var x k, var (B k) c]]) ∧
    (∀ g t v dest amax f, j.instr = .zst g t v dest amax f true → if f = .mf32 then el false = some 0 ∧ el true = some 0 else el v = some 0)) ∧
  (∀ l : List FV, ((∃ y ∈ l, nan y = true) → prodFV l = .nan) ∧
    ((∀ y ∈ l, nan y = false) → (∃ y ∈ l, inf y = true) → (∃ n e, FV.fin n 0 e ∈ l) → prodFV l = .invalid) ∧
    ((∀ y ∈ l, nan y = false ∧ inf y = false) → pv (prodFV l) = (l.map fv).prod)) ∧
  (∀ l : List Machine.Prod, (.nan ∈ l ∨ .invalid ∈ l ∨ (.inf true ∈ l ∧ .inf false ∈ l) → sumRound l = 0x7FC00000) ∧
    (∀ n, .nan ∉ l → .invalid ∉ l → .inf n ∈ l → .inf (!n) ∉ l → sumRound l = fp32.inf n) ∧
    (.nan ∉ l → .invalid ∉ l → .inf true ∉ l → .inf false ∉ l →
      ∃ (m e : Int), (m : Rat) * 2 ^ e = (l.map pv).sum ∧
        sumRound l = if m = 0 then (if l.all fun y => decide (y = .zero true) then 0x80000000 else 0) else (roundMag fp32 .rne false (decide (m < 0)) m.natAbs e false).1)) ∧
  (∀ co g t v dest amax f clr row c, c < 32 →
    let i := Instr.zst g t v dest amax f clr
    let z := fun (p : Bool) => tileGet co (tileKey t p row c)
    let x := drainRow co i f row
    match f with
    | .f32 => field x (32 * c) 32 = z v
    | .mf32 => field x (64 * c) 32 = z false ∧ field x (64 * c + 32) 32 = z true
    | .bf16 => field x (16 * c) 16 = (convElem bf16 fp32 rneCtl (z v)).1
    | .f16 => field x (16 * c) 16 = (convElem fp16 fp32 rneCtl (z v)).1) ∧
  (∀ s c j g t v o amax f clr width i ps, j.instr = .zst g t v (.mem o) amax f clr → 16 * ps.length = zBytes f →
    (∀ p ∈ ps, match p with | .off _ sn => sn = true | .scr d b _ => (get? (coreOf s d).wgs b).isSome = true | .die .. => True) →
    ps.Pairwise (fun p q => overlap p 16 q 16 = false) →
    rowBits (rowEffects s c j width [(i, ps)]) ps = drainRow (coreOf s c) j.instr f (i % width)) ∧
  ∀ co i f width lanes e r, e < zBytes f / 4 → r < 128 →
    ((drainEntries co i f width lanes)[e]?).bind (·[r]?) = some (if lanes.any fun l => decide (l % width = r) then BitVec.ofNat 32 (drainRow co i f r / 2 ^ (32 * e)) else 0)

/-! ### Traps, selection and the walker -/

/-- R316, R317: a raised trap stops its core: its threads leave every batch and entry and keep their registers, and they wait in one group for
each code, in ascending code. R319: trap context keeps the depth and the position, and REPST reads 0; its end restores them from the record.
R318, R322: a group is delivered by writing its record, once no walk of its selector is left to deposit (R353), after which it enters its handler's root. R333: a trap in trap context ends the
workgroup. R317, R319: issue resumes 8 ticks after the last handler batch, and one that runs for 16,384 ticks ends its workgroup, as
RESUME.KILL does (R329): the launch's status is at least ERROR.
The model's own choices, and no rule of the spec: log entry 57 (A workgroup that ends with no handler puts one record in the fault log: that
of its lowest trapping slot); log entry 59 (A handler group that has issued no word has no limit
yet, unless its record waited); log entry 65 (A
workgroup ended by RESUME.KILL gives its launch the status ERROR); log entry 76 (Source fields are zero in a trap of checks 1 to 5 of R50). -/
def Obligations.TrapsStopTheCoreAndRunHandlers : Prop :=
  (∀ s c sel items, items ≠ [] →
    let t := takeTrap s c sel items
    stopped (coreOf t c) = true ∧ (coreOf t c).threads = (coreOf s c).threads ∧ t.mem = s.mem ∧ t.ctxs = s.ctxs ∧
    (coreOf t c).stop.pending = (coreOf s c).stop.pending ++ groupByCode (now s) sel (items.map fun x => (x.1, { x.2 with sel := sel, tick := s.tick })) ∧
    (∀ d, d ≠ c → coreOf t d = coreOf s d) ∧
    ∀ x ∈ items, (∀ k, ∀ b ∈ (selOf (coreOf t c) k).batches, x.1 ∉ b.slots) ∧ ∀ y ∈ (coreOf t c).entries, x.1 ∉ y.2.slots) ∧
  (∀ n sel items, let gs := groupByCode n sel items
    gs.Pairwise (fun g h => g.code < h.code) ∧ (∀ x ∈ items, ∃ g ∈ gs, g.code = x.2.code) ∧
    ∀ g ∈ gs, g.tick = n ∧ g.sel = sel ∧ g.items = items.filter fun x => decide (x.2.code = g.code)) ∧
  (∀ t i, let u := enterTrap t i
    u.trap = some { base := t.depth, pos := t.pos, info := i, written := t.written } ∧ u.repst = 0 ∧ u.written = [] ∧
    { u with trap := t.trap, repst := t.repst, written := t.written, resume := t.resume, tries := t.tries, wait := t.wait } = t) ∧
  (∀ t x r, let u := leaveTrap t x r
    u.trap = none ∧ u.pos = x.pos ∧ u.depth = x.base ∧ u.v = t.v ∧ u.m = t.m ∧ u.p = t.p ∧ u.x = t.x ∧ u.momrho = BitVec.ofNat 32 (bits r 736 32)) ∧
  (∀ s c i x t k w h pa g, get? (coreOf s c).threads i = some t → crewOf (coreOf s c) t = some k → get? (coreOf s c).wgs k.wg = some w →
    w.kern.handler = some h → (ctxOf s w.ctx).dbgctl.getLsbD 0 = false → traceOn s w.ctx = false → t.trap = none → t.wait ≠ .record → t.tries = 0 →
    lostPage t = false → (∀ k, k < 8 → mustWait s (coreOf s c) w.ctx i (.off (pa + 64 * k) true) 64 = false) → stillWalks (coreOf s c) g.sel = false → pendingReads (coreOf s c) i = false → translateVA s w.ctx (slice s w k.wg i 0) true = .ok pa true →
    (coreOf s c).late = [] → (coreOf s c).stop.running = none → (coreOf s c).stop.pending = [g] → g.entered = false → g.items = [(i, x)] →
    ∃ u, exec (.trapDelivery c) s = .next u ∧ (coreOf u c).stop.pending = [] ∧ (coreOf u c).stop.running = some { g with entered := true } ∧ (coreOf u c).stop.since = none ∧
      threadAt u c i = enterTrap t x ∧ ({ slots := [i], act := .enter h 0, sel := g.sel } : Walk) ∈ (coreOf u c).walks ∧
      memRead u.mem pa 512 = ofBytes (newRecord s c i x)) ∧
  (∀ s c i x k, (coreOf s c).late = [] → doubleTrap (coreOf s c) = some (i, x) → wgKey (coreOf s c) i = some k →
    exec (.trapDelivery c) s = .next (restStop (killWG s c k [oldRecord s c i, newRecord s c i x]) c)) ∧
  (∀ s c g, (coreOf s c).late = [] → (coreOf s c).stop = { running := some g, since := (coreOf s c).stop.since, grace := (coreOf s c).stop.grace } → g.items = [] →
    exec (.trapDelivery c) s = .next (updCore s c fun co => { co with stop := { co.stop with running := none, resumeAt := some (now s + 8) } })) ∧
  (∀ s c g i x r k, (coreOf s c).stop.running = some g → g.items = (i, x) :: r → wgKey (coreOf s c) i = some k →
    (∀ n, (coreOf s c).stop.since = some n → n + 16384 ≤ now s → exec (.handlerTimeout c) s = .next (killWG s c k [oldRecord s c i])) ∧
    (∀ n, (coreOf s c).stop.since = some n → now s < n + 16384 → exec (.handlerTimeout c) s = .next s)) ∧
  (∀ s c n, (coreOf s c).stop.resumeAt = some n → n ≤ now s →
    exec (.issueResume c) s = .next (updCore s c fun co => { co with stop := { co.stop with resumeAt := none } })) ∧
  (∀ s c b w recs, get? (coreOf s c).wgs b = some w → (get? s.ctxs w.ctx).isSome →
    let t := killWG s c b recs
    slotsOf (coreOf t c) b = [] ∧ (get? (coreOf t c).wgs b).map (·.marked) = some true ∧ (ctxOf t w.ctx).fault = true ∧
    ∀ l ∈ (ctxOf t w.ctx).launches, l.arr = w.launch → 1 ≤ l.status)

/-- R86: the selectors choose in ascending number; an entry chosen is ready, not taken in this tick, and not held by a join; one aged 3,072
ticks or more is as old as any. R89: a batch that is formed takes its threads out of the entry, whose age restarts. R72, R88: a join hold ends
at 2,048 ticks, and after 4,096 ticks the cold list's head takes the entry of a held key. R74: a COOP whose enrolled threads all stand
there fires, as one body set. R70: a vacant thread takes the record at its queue's head, with its three pairs, or leaves when the queue is
closed and empty. R340: a match handler starts from h0-h5, and runs before the batch's word.
The model's own choices, and no rule of the spec: log entry 26 (A match handler runs word by word before the batch's word, each word's accesses
performed at once); log entry 56 (COOP_FIRE uses the masks as they stood at the start of the tick); log entry 96 (The records of a
continuation queue form a ring in its spill region); log entry 102 (Which part of a body whose threads have come apart is served first). -/
def Obligations.SelectorsServeTheirEntries : Prop :=
  (∀ c s, exec (.batchSelect c) s = .next (selectAll c [0, 1, 2, 3] s [])) ∧
  (∀ s c sel taken k e l, choose s c sel taken = some (k, e, l) →
    (k, e) ∈ (coreOf s c).entries ∧ e.reason = none ∧ k ∉ taken ∧ l = pickFrom (coreOf s c) sel e ∧ l ≠ [] ∧
    (e.age < 3072 → joinHeld (coreOf s c) e = false) ∧
    ∀ y ∈ (coreOf s c).entries, y.2.reason = none → y.1 ∉ taken → pickFrom (coreOf s c) sel y.2 ≠ [] →
      (spentIssue s (entryCtx (coreOf s c) y.2) (clusterOf c) && othersReady s (clusterOf c)) = false → 3072 ≤ y.2.age → y.2.age ≤ 8191 → y.2.age ≤ e.age) ∧
  (∀ s c sel k e i r launch role wg va x count live, keyOf (coreOf s c) i = some (launch, role, wg) →
    headerVA s wg.ctx e.pos.fn e.pos.node (roleOf wg role).nv = some va → fetchVA s wg.ctx va 8 = .ok x → headerOf x = some (count, live) → e.pos.step < count →
    (∀ j ∈ i :: r, (threadOf (coreOf s c) j).bad = []) → traceOn s wg.ctx = false →
    let t := formBatch s c sel k e (i :: r)
    (selOf (coreOf t c) sel).batches = (selOf (coreOf s c) sel).batches ++
      [{ id := s.seq, launch := e.launch, role := e.role, pos := e.pos, slots := i :: r, count := count, live := live }] ∧
    (selOf (coreOf t c) sel).last = some (e.launch, e.role) ∧ t.mem = s.mem ∧
    ((coreOf s c).cold = [] → get? (coreOf t c).entries k =
      (e.drop (i :: r)).map fun y => { y with age := 0, groups := y.groups.filter fun g => !g.isEmpty })) ∧
  (∀ s c k e, get? (coreOf s c).entries k = some e → 2048 ≤ e.age →
    joinHeld (coreOf s c) e = false ∧ exec (.joinHoldExpiry c k) s = .next (updCore s c fun co => { co with splits := co.splits.map fun (n, r) =>
      (n, if r.join = some (e.pos, e.launch, e.role) then { r with join := some ({}, 0, 0xFFFF) } else r) })) ∧
  (∀ s c h r k e, (coreOf s c).cold = h :: r → 4096 ≤ (coreOf s c).coldAge → 512 ≤ (coreOf s c).entries.length →
    (coreOf s c).entries.find? (fun y => y.2.reason.isSome) = some (k, e) →
    exec (.coldListSteal c) s = .next (updCore s c fun co =>
      { co with entries := put co.entries k { h with age := 0 }, cold := r ++ [e], coldAge := 0 })) ∧
  (∀ s c q k pos m first slots, keys (coreOf s c).crews = [q] → get? (coreOf s c).crews q = some k →
    (∃ w, get? (coreOf s c).wgs k.wg = some w ∧ w.single = false ∧ w.stopping = false ∧ w.swap = none) →
    (∀ x ∈ heldGathers s (coreOf s c) q, ∃ g, x.1 = .ok g) → gathersOf s (coreOf s c) q = [(pos, m, first, slots)] → canFire k.masksAt (pos, m, first, slots) = true →
    ∃ t y, exec (.coopFire c) s = .next t ∧ get? (coreOf t c).crews q = some y ∧
      ({ fn := pos.fn, node := pos.node, depths := levelsOf (coreOf s c) slots, slots := slots } : Body) ∈ y.bodies ∧
      ({ slots := slots, act := .enter pos.fn first, sel := rget 0 (coreOf s c).lastSel (slots.headD 0) } : Walk) ∈ (coreOf t c).walks ∧
      ∀ z ∈ (coreOf t c).entries, ∀ i ∈ slots, i ∉ z.2.slots) ∧
  (∀ s c i t l role w n, get? (coreOf s c).threads i = some t → keyOf (coreOf s c) i = some (l, role, w) → w.single = false → w.stopping = false →
    w.swap = none → i ∈ refillSlots (coreOf s c) → refillAt s (coreOf s c) i = some (w, .ok n) →
    (∀ j ∈ refillSlots (coreOf s c), vacantBefore s (coreOf s c) w.ctx (n.field 50 6) i j = false) →
    let q := rget {} (ctxOf s w.ctx).conts (n.field 50 6)
    let goes := fun (u : State) (act : WalkAct) => ({ slots := [i], act := act, sel := rget 0 (coreOf s c).lastSel i } : Walk) ∈ (coreOf u c).walks
    (q.len = 0 → q.closed = true → ∃ u, exec (.refillPop c i) s = .next u ∧ goes u (.leave t.pos.fn t.pos.node) ∧
      threadAt u c i = t.setP (n.field 47 3) false) ∧
    (q.len = 0 → q.closed = false → exec (.refillPop c i) s = .next s) ∧
    (∀ pa f, q.len ≠ 0 → translateVA s w.ctx (contVA s w.ctx (n.field 50 6) q.head) false = .ok pa true →
      mustWait s (coreOf s c) w.ctx i (.off pa true) 32 = false →
      let x := memRead s.mem pa 32
      fnOf s w.ctx (bits x 0 16) = some f → bits x 16 16 < f.nnodes →
      ∃ u, exec (.refillPop c i) s = .next u ∧ goes u (.call t.pos.fn t.pos.node (bits x 0 16) (bits x 16 16)) ∧ u.mem = s.mem ∧
        (let y := rget {} (ctxOf u w.ctx).conts (n.field 50 6)
         y.head = (q.head + 1) % contRoom s w.ctx ∧ y.len = q.len - 1 ∧ y.closed = q.closed) ∧ (threadAt u c i).p = (t.setP (n.field 47 3) true).p ∧
        (∀ j, j < 6 → (threadAt u c i).getV (n.field 39 8 + j) = BitVec.ofNat 32 (bits x (64 + 32 * j) 32)) ∧
        ∀ j, (j < n.field 39 8 ∨ n.field 39 8 + 6 ≤ j) → (threadAt u c i).getV j = t.getV j)) ∧
  (∀ s w i k, let h := shadowStart s w i k
    rget 0 h 0 = BitVec.ofNat 32 i ∧ rget 0 h 1 = BitVec.ofNat 32 k ∧ rget 0 h 2 = lo32 s.tick ∧ rget 0 h 3 = hi32 s.tick ∧
    rget 0 h 4 = BitVec.ofNat 32 (launchIdOf s w.ctx w.launch) ∧ rget 0 h 5 = BitVec.ofNat 32 w.id ∧ ∀ n, 6 ≤ n → rget 0 h n = 0) ∧
  (∀ s c sel b i r w x, matchBatch s c sel = some b → matchDue s (coreOf s c) b = i :: r → stopped (coreOf s c) = false →
    (∀ p ∈ (coreOf s c).pend, ∀ l ∈ p.lanes, l.slot ∉ i :: r) → wgOf (coreOf s c) (threadOf (coreOf s c) i) = some w →
    b.shadow.or (startPoints s c (i :: r) (matchesAt (ctxOf s w.ctx) b.pos)) = some x →
    exec (.matchHandler c sel) s = .next (match shadowStep s c sel (i :: r) x w.ctx with
      | none => s
      | some (y, u) => updCore u c fun co => mapBatch co sel b.id fun b => { b with shadow := y, matched := y.isNone }))

/-- R65, R67: one visit of the walker with one thread: what it does next at each kind of node, whether it enters the node or leaves it, calls a
function or returns.
The model's own choices, and no rule of the spec: log entry 32 (A thread that leaves a splitting node still counts in its record until it is
deposited). -/
def Obligations.TheWalkerFollowsTheTree : Prop :=
  (∀ s c w, nextWalk (coreOf s c) = some w →
    exec (.treeWalk c) s = .next (walkRun 131072 (updCore s c fun co => { co with walks := co.walks.erase w }) c [w])) ∧
  ∀ s c i t l role w f n, get? (coreOf s c).threads i = some t → keyOf (coreOf s c) i = some (l, role, w) →
    let at' := fun (k : Nat) => nodeAt s w.ctx f k (roleOf w role).nv
    let one := fun (act : WalkAct) => ({ slots := [i], act := act } : Walk)
    let visit := fun (act : WalkAct) => walkOne s c (one act)
    let raises := fun (u : State) (code : Nat) => ∃ g ∈ (coreOf u c).stop.pending, g.code = code ∧ ∃ x, (i, x) ∈ g.items ∧ x.node = true
    let waits := fun (u : State) (r : Option Reason) => (threadAt u c i).pos = { fn := f, node := n, step := 0 } ∧
      ∃ e, (e ∈ (coreOf u c).entries.map (·.2) ∨ e ∈ (coreOf u c).cold) ∧ i ∈ e.slots ∧ e.pos = { fn := f, node := n, step := 0 } ∧ e.reason = r
    (∀ rec, at' n = .ok (some rec) →
      let enters := fun (act : WalkAct) => (visit (.enter f n)).2 = [one act]
      let r := rec.field 40 8
      (rec.kind = 1 → enters (.enter f rec.first)) ∧
      (rec.kind = 2 → t.stepping = false → (visit (.enter f n)).2 = [] ∧ waits (visit (.enter f n)).1 none) ∧
      (rec.kind = 3 →
        ((t.getV r).toNat < rec.count - rec.field 55 1 → enters (.enter f (rec.first + (t.getV r).toNat))) ∧
        (rec.field 55 1 = 1 → rec.count - 1 ≤ (t.getV r).toNat → enters (.enter f (rec.first + (rec.count - 1)))) ∧
        (rec.field 55 1 = 0 → rec.count ≤ (t.getV r).toNat → (visit (.enter f n)).2 = [] ∧ raises (visit (.enter f n)).1 0x07)) ∧
      (rec.kind = 4 →
        (rec.field 54 2 = 0 → enters (if condOf t rec then .enter f rec.first else .leave f n)) ∧
        (rec.field 54 2 = 1 → enters (.enter f rec.first)) ∧
        (rec.field 54 2 = 2 → enters (if t.getV r ≠ 0 then .enter f rec.first else .leave f n))) ∧
      (∀ fn, rec.kind = 5 → fnOf s w.ctx f = some fn → enters (.call f n (fn.fbase + rec.field 40 16) 0)) ∧
      (∀ k, rec.kind = 7 → crewOf (coreOf s c) t = some k →
        (i ∉ rget [] k.masks (rec.field 54 2) → enters (.leave f n)) ∧
        (i ∈ rget [] k.masks (rec.field 54 2) → enters (.park f n .gather) ∧
          (t.stepping = false → (visit (.park f n .gather)).2 = [] ∧ waits (visit (.park f n .gather)).1 (some .gather)))) ∧
      (rec.kind = 8 → t.stepping = false → (visit (.enter f n)).2 = [] ∧ waits (visit (.enter f n)).1 (some .refill))) ∧
    (at' n = .ok none → (visit (.enter f n)).2 = [] ∧ raises (visit (.enter f n)).1 0x01) ∧
    (bodyAt (coreOf s c) i = none →
      (n = 0 → (visit (.leave f n)).2 = [one .ret]) ∧
      ∀ self P, n ≠ 0 → at' n = .ok (some self) → at' self.parent = .ok (some P) →
        let leaves := fun (act : WalkAct) => (visit (.leave f n)).2 = [one act]
        let p := self.parent
        let r := P.field 40 8
        (P.kind = 1 → leaves (if self.ordinal + 1 < P.count then .enter f (P.first + self.ordinal + 1) else .leave f p)) ∧
        (P.kind = 3 ∨ P.kind = 7 → leaves (.leave f p)) ∧
        (P.kind = 4 →
          (P.field 54 2 = 0 → leaves (if condOf t P then .enter f P.first else .leave f p)) ∧
          (P.field 54 2 = 1 → leaves (if condOf t P then .leave f p else .enter f P.first)) ∧
          (P.field 54 2 = 2 → leaves (if t.getV r - 1 ≠ 0 then .enter f P.first else .leave f p) ∧
            (threadAt (visit (.leave f n)).1 c i).getV r = t.getV r - 1))) ∧
    (∀ g m rec, at' n = .ok (some rec) → w.kern.depth ≤ t.depth → (visit (.call f n g m)).2 = [] ∧ raises (visit (.call f n g m)).1 0x09) ∧
    (∀ g m u va pa, t.depth < w.kern.depth → lostPage t = false → frameVA s (coreOf s c) i t.depth = some (u, va) →
      translateVA s u.ctx va true = .ok pa true → mustWait s (coreOf s c) u.ctx i (.off pa true) 8 = false → f < 2 ^ 16 → n < 2 ^ 16 →
      (visit (.call f n g m)).2 = [one (.enter g m)] ∧ (threadAt (visit (.call f n g m)).1 c i).depth = t.depth + 1 ∧
      memRead (visit (.call f n g m)).1.mem pa 8 = f + 65536 * n) ∧
    (∀ u va pa, t.trap = none → t.depth ≠ 0 → lostPage t = false → frameVA s (coreOf s c) i (t.depth - 1) = some (u, va) →
      translateVA s u.ctx va false = .ok pa true → mustWait s (coreOf s c) u.ctx i (.off pa true) 8 = false →
      (visit .ret).2 = [one (.leave (memRead s.mem pa 4 % 65536) (memRead s.mem pa 4 / 65536))] ∧
      (threadAt (visit .ret).1 c i).depth = t.depth - 1) ∧
    (t.trap = none → t.depth = 0 → (visit .ret).2 = [] ∧ get? (coreOf (visit .ret).1 c).threads i = none)

/-! ### Paging and binding -/

/-- R226: a page group closes 64 ticks after its first fault, and is issued whole when its function's allocation has room and no group of the
function was formed before it; the response resolves what waits on it: a lane replays after Success, and raises its refusal's code after
another answer, and Failure reports the context as faulted. R372: the answer to a binding request is in the entry before the parked thread
runs its CALLT again, which reads the table anew; a refusal raises ILLEGAL at the CALLT. R397: a translation that no access uses any more is gone.
The model's own choices, and no rule of the spec: log entry 6 (Which agent moves next is plain data: an agenda of moves, laid out anew each
tick; inputs are timed data); log entry 55 (The fourth Success is counted for the page an agent waits on last); log entry 78 (Response
Failure gives the launches of the waiting agents the status ERROR). -/
def Obligations.PageRequestsAndBindings : Prop :=
  (∀ s cl gid g, groupAt s cl gid = some g → leafHeld s cl = false → g.state = .opened → g.first + 64 ≤ now s →
    exec (.pageGroupClose cl gid) s = .next (updGroup s cl gid fun g => { g with state := .closed })) ∧
  (∀ s cl gid g, groupAt s cl gid = some g → leafHeld s cl = false → g.state = .closed → waitsBefore s g = false →
    let f := ctxField s g.ctx 358 6
    rget 0 s.pageUsed f + g.pages.length ≤ 1024 → rget 0 s.pageUsed f + g.pages.length ≤ rget 0 s.pageAlloc f →
    exec (.pageGroupIssue cl gid) s = .next (updGroup { s with pageUsed := rput 0 s.pageUsed f (rget 0 s.pageUsed f + g.pages.length) } cl gid
      fun g => { g with state := .issued })) ∧
  (∀ s cl gid g reply maps c i t vals k, groupAt s cl gid = some g → leafHeld s cl = false → g.state = .issued → g.waiters = [.lane c i] →
    (get? s.ctxs g.ctx).isSome → (ctxOf s g.ctx).unbinds = [] → get? (coreOf s c).threads i = some t → t.wait = .page → t.resume = .replay vals k →
    ∃ u, exec (.pageResponse cl gid reply maps) s = .next u ∧ groupAt u cl gid = none ∧ (threadAt u c i).wait = .none ∧
      (threadAt u c i).resume = (if reply = .success then .replay vals (k + 1) else .refused vals 0) ∧
      (∀ p ∈ maps, p ∈ (ctxOf u g.ctx).pages) ∧ (reply = .failure → (ctxOf u g.ctx).fault = true) ∧
      (reply ≠ .failure → (ctxOf u g.ctx).fault = (ctxOf s g.ctx).fault) ∧ u.mem = s.mem) ∧
  (∀ s x va c i t f pa, hasCtx s x = true → schedHeld s = false → (∃ b, (ctxOf s x).binds.find? (fun b => decide (b.va = va)) = some b ∧ b.answer = none) → keys s.cores = [c] →
    boundSlots (coreOf s c) x va = [i] → get? (coreOf s c).threads i = some t → translateVA s x va true = .ok pa true →
    bits (memRead s.mem pa 8) 16 1 = 1 → f < 65536 →
    ∃ u, exec (.bindingResponse x va (some f)) s = .next u ∧
      memRead u.mem pa 8 = memRead s.mem pa 8 / 2 ^ 17 * 2 ^ 17 + f ∧ (∀ b ∈ (ctxOf u x).binds, b.va ≠ va) ∧ (threadAt u c i).wait = .none ∧
      ({ slots := [i], act := .enter t.pos.fn t.pos.node, sel := rget 0 (coreOf s c).lastSel i } : Walk) ∈ (coreOf u c).walks) ∧
  (∀ s x va c i t l role w r, hasCtx s x = true → schedHeld s = false → (∃ b, (ctxOf s x).binds.find? (fun b => decide (b.va = va)) = some b ∧ b.answer = none) → keys s.cores = [c] →
    boundSlots (coreOf s c) x va = [i] → get? (coreOf s c).threads i = some t → keyOf (coreOf s c) i = some (l, role, w) →
    nodeAt s x t.pos.fn t.pos.node (roleOf w role).nv = .ok r →
    ∃ u g y, exec (.bindingResponse x va none) s = .next u ∧ u.mem = s.mem ∧ g ∈ (coreOf u c).stop.pending ∧ g.code = 0x01 ∧ (i, y) ∈ g.items ∧
      y.node = true) ∧
  (∀ s x va len maps, hasCtx s x = true →
    (rangeBusy s x va len = false → exec (.atsInvalidate x va len maps) s =
      .next (addPages (updCtx s x fun k => { k with pages := k.pages.filter fun p => !pageHits p va len }) x maps)) ∧
    (rangeBusy s x va len = true → exec (.atsInvalidate x va len maps) s =
      .next { s with inputs := s.inputs ++ [(now s + 1, .atsInvalidate x va len maps)] }))

/-! ### Workgroups -/

/-- R309: a pre-emption request, the scheduler's choice, and a STEP that is over (R338) stop a workgroup with its group; once all that it has issued
is done, it is dropped where it may be, else saved. R227: one whose fetch waits is saved with its group, and its page is requested. R309, R310:
an image keeps the workgroup's registers, predicates, special registers, scratchpad, queues, barriers, codebooks and maps; its bytes go to the
context's save region (R392), and no other byte of memory changes. It comes back whole, and where the host has edited the image (R337) with
the registers that the edit left.
The model's own choices, and no rule of the spec: log entry 60 (A workgroup that is swapped out raises its page request when it has been
saved); log entry 110 (Of several victims of one priority and start tick the first is pre-empted, and the lowest context is served first); log
entry 111 (A saved workgroup waits for waiting launches of higher priority alone); log entry 112 (A saved image is a span of bytes at the
end of those in the save region, and an edit of it reaches the registers and the scratchpad). -/
def Obligations.SavedWorkgroupsComeBack : Prop :=
  let regs := fun (t : Thread) => (t.v, t.m, t.p, t.x, t.fpctl, t.momctl, t.momrho, t.repst, t.lwidth)
  let kept := fun (w : WG) => (w.id, w.launch, w.kern, w.scratch, w.queues, w.bars, w.books, w.maps)
  let saved := fun (s u : State) (c b : Nat) (w : WG) (m : Image) =>
    let at' := fun (k : Nat) => vaPlace s w.ctx (imageVA s w.ctx m k)
    let len := Config.imageLen m.num
    get? (coreOf u c).wgs b = none ∧ get? (ctxOf u w.ctx).images s.seq = some m ∧ kept m.wg = kept w ∧
    (∀ i ∈ slotsOf (coreOf s c) b, (get? m.threads i).map regs = (get? (coreOf s c).threads i).map regs) ∧
    (∀ y ∈ (ctxOf s w.ctx).images, y.2.off + Config.imageLen y.2.num ≤ m.off) ∧
    (∀ a, (∀ k, k < len → at' k ≠ some (.off a true) ∧ ∀ p, at' k = some (.off p false) → p / 64 ≠ a / 64) → memGet u.mem a = memGet s.mem a) ∧
    ∀ k a, k < len → at' k = some (.off a true) →
      (∀ j, j < len → (j ≠ k → at' j ≠ some (.off a true)) ∧ ∀ p, at' j = some (.off p false) → p / 64 ≠ a / 64) → memGet u.mem a = Config.imageByte m.num k
  let undone := fun (s : State) (l : List (Nat × Nat)) => l.any fun y => !drained s y.1 y.2
  (∀ s x value c b w, hasCtx s x = true → schedHeld s = false →
    (residents s).find? (fun y => decide (y.2.2.ctx = x ∧ y.2.2.id = bits value.toNat 0 32 ∧ launchIdOf s x y.2.2.launch = bits value.toNat 32 16) &&
      !y.2.2.marked) = some (c, b, w) →
    exec (.preemptRequest x value) s = .next (stopWG s (groupOf s c b))) ∧
  (∀ s c b w, get? (coreOf s c).wgs b = some w → w.stopping = false →
    (schedHeld s = false ∧ preemptChoice s = some (c, b, w)) ∨ stepOver s c b w = true → exec (.preemption c b) s = .next (stopWG s (groupOf s c b))) ∧
  (∀ s c b w, get? (coreOf s c).wgs b = some w → w.members = [] → groupOf s c b = [(c, b)]) ∧
  (∀ s c b, stopWG s [(c, b)] = updCore s c fun co => updWG co b fun w => { w with preempt := true, stopping := true }) ∧
  (∀ s c b w, get? (coreOf s c).wgs b = some w → w.stopping = true → (schedHeld s = false ∨ w.halts ≠ [] ∨ w.single = true) →
    let all := groupOf s c b
    let halted := all.any fun y => match get? (coreOf s y.1).wgs y.2 with | some u => !u.halts.isEmpty || u.single | none => false
    (undone s all = true → exec (.preemption c b) s = .next (stopWG s all)) ∧
    (undone s all = false → exec (.preemption c b) s =
      .next (let u := all.foldl (fun s y => leaveOne s y.1 y.2 halted) s; if halted then sendMsix u w.ctx else u))) ∧
  (∀ s c b w halted, get? (coreOf s c).wgs b = some w → (get? s.ctxs w.ctx).isSome → halted = true ∨ discardable w = false →
    ∃ m, saved s (leaveOne s c b halted) c b w m ∧ m.swapped = false ∧ m.halted = halted) ∧
  (∀ s c b w l, get? (coreOf s c).wgs b = some w → discardable w = true → launchAt s w.ctx w.launch = some l →
    let u := leaveOne s c b false
    get? (coreOf u c).wgs b = none ∧ (launchAt u w.ctx w.launch).map (·.unplaced) = some (insertSlot l.unplaced w.id)) ∧
  (∀ s c b w va, get? (coreOf s c).wgs b = some w → w.swap = some va → leafHeld s (clusterOf c) = false →
    let all := groupOf s c b
    (undone s all = true → exec (.workgroupSwapOut c b) s =
      .next (all.foldl (fun s y => updCore s y.1 fun co => updWG co y.2 fun w => { w with stopping := true }) s)) ∧
    (undone s all = false → ∀ u id r, saveAll all true false s = (u, id :: r) → exec (.workgroupSwapOut c b) s =
      .next (pageFault u (clusterOf c) w.ctx va false (.image w.ctx (((id :: r)[all.idxOf (c, b)]?).getD id)))) ∧
    (undone s all = false → (get? s.ctxs w.ctx).isSome → w.members = [] → ∃ u m, exec (.workgroupSwapOut c b) s = .next u ∧ saved s u c b w m ∧
      m.swapped = true ∧ m.arrived = false ∧ ∃ g ∈ rget [] u.groups (clusterOf c), g.ctx = w.ctx ∧ .image w.ctx s.seq ∈ g.waiters ∧ (va / 4096, false) ∈ g.pages)) ∧
  (∀ s x n m cores c, get? (ctxOf s x).images n = some m → schedHeld s = false → restoreCores s x m = some cores → cores.head? = some c →
    restoreDue s x m c = true →
    (m.swapped = true → m.arrived = true → leafHeld s (clusterOf m.core) = false → (∀ l ∈ waitingLaunches s x, l.block = false) → exec (.swapRestore x n c) s = .next (restoreOn s x m cores)) ∧
    (m.swapped = false → m.halted = false → outranked s x m.wg.prio = false → (∀ y ∈ imagesWith s x m, y.2.halted = false ∧ y.2.swapped = false) →
      exec (.workgroupRestore x n c) s = .next (restoreOn s x m cores))) ∧
  (∀ s x n m c b, get? (ctxOf s x).images n = some m → imagesWith s x m = [(n, m)] → m.wg.members = [] → m.step = none → m.form = none →
    freeRun (coreOf s c) m.wg.kern = some b → (m.threads.map (·.1)).Nodup → (∀ y ∈ m.threads, m.base ≤ y.1) →
    let u := restoreOn s x m [c]
    let m' := imageNow s x m
    get? (ctxOf u x).images n = none ∧ (get? (coreOf u c).wgs b).map kept = some (kept m'.wg) ∧ u.mem = s.mem ∧
    ∀ y ∈ m'.threads, (get? (coreOf u c).threads (y.1 - m.base + b)).map regs = some (regs y.2)) ∧
  ∀ s x m, (intact s x m = true → imageNow s x m = m) ∧
    (intact s x m = false → (imageNow s x m).threads = m.threads.map fun y => (y.1, editedThread m y.1 y.2))

/-- R296, R297, R300, R303, R396: a push of 64 bytes at offset 0 is appended; a launch whose record breaks a rule ends INVALID, one that fits no
core REFUSED, and one that waits on nothing becomes eligible with all its workgroups. R305, R307: the next workgroup goes to its core with
fresh threads at their roles' entries, starts when STAGGER has passed, and R313 leaves nothing behind. R299: a completion counts by 1 and
keeps the greater status. R308, R401: a cancel covers what its kind and id name of what was pushed before it, and a record that ends at once has that code too (R303). R304, R311: a starved launch blocks, a period begins unspent.
The model's own choices, and no rule of the spec: log entry 17 (A lane-private slice is the 65,536 bytes at LPBACK + 65,536 * n of the
context, n the first free run of slices when the workgroup is placed); log entry 33 (A completion counter whose page is absent makes the
launch wait for the page); log entry 54 (CANCEL reads its kind and id, and ignores the other bits); log entry 81 (A crew's slots are taken
as the lowest free aligned run, scratchpad granules as the lowest free ones, the codebook slots by count). -/
def Obligations.LaunchesPlaceTheirWorkgroups : Prop :=
  (∀ s x off ws, hasCtx s x = true →
    let k := ctxOf s x
    (off = 0 → ws.length = 8 → queued k < 4096 → exec (.push x off ws) s =
      .next (let u := { s with seq := s.seq + 1 }
        updCtx u x fun k => { k with launches := k.launches ++ [launchOf u x s.seq ws], pushCnt := k.pushCnt + 1 })) ∧
    (off ≠ 0 ∨ ws.length ≠ 8 ∨ 4096 ≤ queued k → exec (.push x off ws) s =
      .next (updCtx s x fun k => { k with discarded := min (k.discarded + 1) 0xFFFF }))) ∧
  (∀ s x a r, let l := launchOf s x a r
    let f := fun (lo n : Nat) => recField r lo n
    l.state = .waiting ∧ l.unplaced = [] ∧ l.live = 0 ∧ l.record = r ∧
    (f 505 7 ≠ 0 ∨ f 441 7 ≠ 0 ∨ f 377 7 ≠ 0 ∨ f 121 7 ≠ 0 ∨ f 57 7 ≠ 0 ∨ f 128 16 = 0 ∨ f 144 16 = 0 ∨ f 160 8 = 0 ∨
      0xFFFFFFFF < f 128 16 * f 144 16 * f 160 8 ∨ 8 < f 168 4 ∨ 14 < f 172 4 ∨ (f 168 4 = 0 ∧ f 172 4 ≠ 0) ∨ (f 168 4 ≠ 0 ∧ f 172 4 = 0) ∨
      24 < f 168 4 * f 172 4 ∨ (f 168 4 ≠ 0 ∧ f 128 16 * f 144 16 * f 160 8 % (f 168 4 * f 172 4) ≠ 0) ∨ f 0 57 % 64 ≠ 0 ∨ f 448 57 % 8 ≠ 0 ∨
      f 320 57 % 8 ≠ 0 ∨ f 384 57 % 8 ≠ 0 ∨ namesKernel s x (f 0 57) = false → l.valid = false ∧ l.kern = none)) ∧
  (∀ s x a l, launchAt s x a = some l → schedHeld s = false → l.state = .waiting →
    (l.valid = false → exec (.launchEligible x a) s = .next (finishLaunch s x a 5)) ∧
    (∀ k, l.valid = true → l.kern = some k → neverFits k = true → exec (.launchEligible x a) s = .next (finishLaunch s x a 4)) ∧
    (∀ k, l.valid = true → l.kern = some k → neverFits k = false → recField l.record 320 57 = 0 → recField l.record 384 57 = 0 → phaseHeld (ctxOf s x) l = false →
      exec (.launchEligible x a) s = .next (updLaunch s x a fun l => { l with state := .eligible, unplaced := List.range (recCount l.record), since := now s }))) ∧
  (∀ s x st va pa, translateVA s x va true = .ok pa true → st < 256 →
    let u := bumpCounter s x st va
    memRead u.mem pa 4 = (memRead s.mem pa 4 + 1) % 2 ^ 32 ∧ memRead u.mem (pa + 4) 1 = max (memRead s.mem (pa + 4) 1) st ∧
    ∀ b, (b < pa ∨ pa + 4 < b) → memGet u.mem b = memGet s.mem b) ∧
  (∀ s x a l cores c, schedHeld s = false → nextLaunch s x = some (l, cores) → l.arr = a → cores.head? = some c →
    exec (.workgroupPlace x a c) s = .next (placeNext s x l cores)) ∧
  (∀ s x l c k id r b, launchAt s x l.arr = some l → l.kern = some k → recNA l = 0 → l.unplaced = id :: r → id ∉ r → freeRun (coreOf s c) k = some b →
    let u := placeNext s x l [c]
    (get? (coreOf u c).wgs b).map (fun w => (w.ctx, w.launch, w.id, w.kern, w.started)) = some (x, l.arr, id, k, false) ∧
    (launchAt u x l.arr).map (fun l => (l.unplaced, l.live)) = some (r, l.live + 1) ∧ u.mem = s.mem ∧
    ∀ i, i < slotsNeed k → get? (coreOf u c).threads (b + i) =
      some { crew := b + widthOf k * (i / widthOf k)
             pos := { fn := ((k.roles[crewRole k.roles (i / widthOf k)]?).map (·.entry)).getD 0, node := 0, step := 0 } }) ∧
  (∀ s c b w l, get? (coreOf s c).wgs b = some w → launchAt s w.ctx w.launch = some l → w.started = false → w.marked = false → w.members = [] →
    (∀ t, get? l.starts (dieOf c) = some t → t + recField l.record 178 14 ≤ now s) →
    ∃ u, exec (.workgroupStart c b) s = .next u ∧ (get? (coreOf u c).wgs b).map (fun w => (w.started, w.startTick)) = some (true, now s) ∧
      (launchAt u w.ctx w.launch).bind (fun l => get? l.starts (dieOf c)) = some (now s) ∧
      ∀ j k, get? (coreOf s c).crews j = some k → k.wg = b →
        let own := ((coreOf s c).threads.filter fun y => decide (y.2.crew = j)).map (·.1)
        own ≠ [] → ({ slots := own, act := .enter (roleOf w k.role).entry 0 } : Walk) ∈ (coreOf u c).walks) ∧
  (∀ s x a l, launchAt s x a = some l → schedHeld s = false → l.state = .eligible → nextIds s x l ≠ [] → l.since + 60000 ≤ now s → nextCores s x l = none →
    exec (.placementStarvation x a) s = .next (updLaunch s x a fun l => { l with block := true })) ∧
  (∀ s c b w, get? (coreOf s c).wgs b = some w → w.started = true → slotsOf (coreOf s c) b = [] → inFlight s c b w = false →
    (∀ y ∈ (coreOf s c).copies, y.wg ≠ b) → (∀ j ∈ (coreOf s c).jobs, j.wg ≠ b) → wbState s w none = .clean →
    ∃ u, exec (.workgroupRetire c b) s = .next u ∧ get? (coreOf u c).wgs b = none ∧ ∀ j k, get? (coreOf u c).crews j = some k → k.wg ≠ b) ∧
  (∀ s x value, hasCtx s x = true → schedHeld s = false → exec (.cancel x value) s =
    .next (updCtx (cancelAll s x fun l => covers value l && appended s x l) x fun k => { k with heldCancels := k.heldCancels.tail })) ∧
  (∀ s x l, ((ctxOf s x).heldCancels = [] → appended s x l = true) ∧
    ∀ n r, (ctxOf s x).heldCancels = n :: r → (appended s x l = true ↔ l.arr < n)) ∧
  (∀ s x value, hasCtx s x = true → schedHeld s = true → ∃ u, exec (.cancel x value) s = .next u ∧ u.fw.held = s.fw.held ++ [.cancel x value] ∧
    (ctxOf u x).heldCancels = (ctxOf s x).heldCancels ++ [s.seq] ∧ (ctxOf u x).launches = (ctxOf s x).launches) ∧
  (∀ s x a l, launchAt s x a = some l → l.state = .waiting → l.live = 0 → l.owed = [] → countersOf s x l.record = [] →
    (∀ y ∈ residents s, y.2.2.ctx = x → y.2.2.launch ≠ a) → (∀ y ∈ (ctxOf s x).images, y.2.wg.launch ≠ a) →
    (launchAt (cancelLaunch s x l) x a).map (fun l => (l.state, l.status)) = some (.complete, max (match atOnce l with | some code => max l.status code | none => l.status) 2)) ∧
  (∀ value l, covers value l = true ↔ recField l.record (match bits value.toNat 62 2 with | 0 => 192 | 1 => 208 | 2 => 224 | _ => 240) 16 = bits value.toNat 0 16) ∧
  (∀ s, schedHeld s = false → exec .budgetPeriod s = .next { s with ctxs := s.ctxs.map fun (k, x) =>
    (k, { x with budget := x.budgetNext, issueSpent := [], memSpent := [], copySpent := 0 }) })

/-! ### The host's registers -/

/-- R393, R286, R311, R335-R338, R404, R407, R388: a write to a register of a context's window changes that context as its register says, is kept in
order while the global scheduler is held, and is ignored where there is no such context. A due SYNC burst of a context without entries is
one record of 1,056 bytes; the LOST record of a core that dropped records comes when there is room again (R408).
The model's own choices, and no rule of the spec: log entry 67 (Which of the hold of a scheduler and that of a leaf controller a
service waits for); log entry 83 (A TRCCTL write whose RINGSZ is 11-15 keeps the old RINGSZ, and a TRCBASE or
ENRBASE without its alignment is ignored). -/
def Obligations.WindowWritesChangeTheirContext : Prop :=
  let writes := fun (I : Nat → Instr) (f : State → Nat → State) => ∀ s x,
    (hasCtx s x = false → exec (I x) s = .next s) ∧
    (hasCtx s x = true → schedHeld s = true → exec (I x) s = .next { s with fw := { s.fw with held := s.fw.held ++ [I x] } }) ∧
    (hasCtx s x = true → schedHeld s = false → exec (I x) s = .next (f s x))
  let sets := fun (I : Nat → Instr) (f : Context → Context) => writes I fun s x => updCtx s x f
  let reg := fun (off : Nat) (f : Word64 → Context → Context) => ∀ v, sets (.registerWrite · off v) (f v)
  let cont := fun (q : Nat) (f : Cont → Cont) (k : Context) => { k with conts := put k.conts q (f (rget {} k.conts q)) }
  (∀ v, sets (.budgetWrite · v) fun k => { k with budgetNext := v &&& 0x0000FFFFFFFF01FF }) ∧
  (∀ n v, n < 4 → sets (.watchWrite · n v) fun k => { k with watch := rput 0 k.watch n v }) ∧
  (∀ q, q < 64 → sets (.qctlReopen · q) (cont q fun c => { c with closed := false }) ∧ sets (.qctlClearFull · q) (cont q fun c => { c with full := 0 })) ∧
  (∀ n v, 4 ≤ n → writes (.watchWrite · n v) fun s _ => s) ∧
  (∀ q, 64 ≤ q → writes (.qctlReopen · q) (fun s _ => s) ∧ writes (.qctlClearFull · q) fun s _ => s) ∧
  reg 0x058 (fun v k => { k with dbgctl := lo32 v &&& 3 }) ∧
  reg 0x088 (fun v k => { k with dbgsel := v &&& 0x0000FFFFFFFFFFFF }) ∧
  reg 0x0A8 (fun v k => { k with fltail := v.toNat % 2 ^ 32 }) ∧
  reg 0x0B0 (fun v k => { k with fault := k.fault && !v.getLsbD 0, flovf := k.flovf && !v.getLsbD 1 }) ∧
  reg 0x0C8 (fun v k => if k.trcctl.getLsbD 0 = true ∨ v.toNat % 4096 ≠ 0 then k else { k with trcbase := v }) ∧
  (∀ v, writes (.registerWrite · 0x0D8 v) fun s x => roomBack (updCtx s x fun k => { k with trctail := v }) x) ∧
  (∀ s x, (∀ c, (traceCore s c x).drops = 0) → roomBack s x = s) ∧
  (∀ s c x, traceOn s x = true → keys s.cores = [c] → burstDue (traceCore s c x) = false → 0 < (traceCore s c x).drops → ringRoom s x 32 = true →
    let u := roomBack s x
    (ctxOf u x).trchead = (ctxOf s x).trchead + 32 ∧ (traceCore u c x).drops = 0 ∧ (traceCore u c x).burst = true) ∧
  reg 0x0E0 (fun v k => if v.toNat % 8 = 0 then { k with enrbase := v } else k) ∧
  (∀ s x v, hasCtx s x = true → schedHeld s = false →
    let k := ctxOf s x
    ∃ u, exec (.trcctlWrite x v) s = .next u ∧ (ctxOf u x).trcctl =
        (if k.trcctl.getLsbD 0 = true ∨ 10 < bits v.toNat 16 4 then (v &&& 0xF00007) ||| (k.trcctl &&& 0xF0000) else v &&& 0xFF0007) ∧
      (v.getLsbD 0 = true → (ctxOf u x).trctail = 0 ∧ ((∀ d, (traceCore s d x).drops = 0) → (ctxOf u x).trchead = 0 ∧ u.mem = s.mem ∧
        (k.trcctl.getLsbD 0 = false → ∀ d, (traceCore u d x).burst = true))) ∧
      (v.getLsbD 0 = false → (ctxOf u x).trchead = k.trchead ∧ (ctxOf u x).trctail = k.trctail ∧ u.mem = s.mem)) ∧
  (∀ s x v n m p, hasCtx s x = true → schedHeld s = false → haltedSel s x = some (n, m) → imagesWith s x m = [(n, m)] →
    let form : ResumeForm := match bits v.toNat 60 2 with | 0 => .retry | 1 => .skip | 2 => .abandon | _ => .kill
    (∃ u, exec (.debugContinue x v) s = .next u ∧ get? (ctxOf u x).images n = (get? (ctxOf s x).images n).map fun y =>
      { y with halted := false, form := some form, step := none }) ∧
    (p = { fn := bits v.toNat 24 16, node := bits v.toNat 8 16, step := bits v.toNat 0 8 } →
      (standsAt m p = true → ∃ u, exec (.debugStep x v) s = .next u ∧ get? (ctxOf u x).images n = (get? (ctxOf s x).images n).map fun y =>
        { y with halted := false, form := none, step := some p }) ∧
      (standsAt m p = false → exec (.debugStep x v) s = .next s))) ∧
  (∀ s c x, traceOn s x = true → c < Config.nCores → (traceCore s c x).burst = true ∨ 4096 ≤ (traceCore s c x).since → (traceCore s c x).drops = 0 →
    ringRoom s x 1056 = true →
    (∀ y ∈ (coreOf s c).entries, entryCtx (coreOf s c) y.2 ≠ x) →
    ∃ u, exec (.syncBurst c x) s = .next u ∧ (ctxOf u x).trchead = (ctxOf s x).trchead + 1056 ∧ (traceCore u c x).burst = false ∧
      (traceCore u c x).since = 0)

/-! ### Power, firmware and the mailbox -/

/-- R33, R381, R389: power-up authenticates every class, active slot first, and logs each result; with a passing image of each class and trained
memory the module runs, with zeros in all device memory; else it stays in recovery, and RSTAT names the failed class. No state survives
power-off but the fuses and the flash; REBOOT is a power-up from step 1. R403: at the tick that STOP named, the clocks stop.
The model's own choices, and no rule of the spec: log entry 1 (The reset state is step 1 of power-up: the Hallmark core starts, and nothing
else is there); log entry 8 (Fuses and flash are empty at reset: maker hash 0, minimum SVN 0, no image in any slot, slot A active, no
owner); log entry 14 (SHA3-256 and ML-DSA-44 are computed as
FIPS 202 and FIPS 204 define them; nonces, memory training and the body of a hand-over record are free values). -/
def Obligations.PowerSequence : Prop :=
  let passes := fun (s : State) (cls slot : Nat) => authenticate s.fw cls (imageAt s.fw cls slot) = 0
  let cold := fun (s u : State) => u.tick = 0 ∧ u.cores = [] ∧ u.ctxs = [] ∧ u.bulks = [] ∧ u.groups = [] ∧ u.dies = [] ∧ u.devLines = [] ∧
    (∀ a, a < 2 * 2 ^ 64 → memGet u.mem a = 0) ∧ (∀ a, 2 * 2 ^ 64 ≤ a → memGet u.mem a = memGet s.mem a) ∧ u.fw.log = [] ∧ u.fw.repl = none ∧
    u.routes = [] ∧ u.fw.flash = s.fw.flash ∧ u.fw.activeB = s.fw.activeB ∧ u.fw.owner = s.fw.owner ∧ u.fw.minSvn = s.fw.minSvn ∧
    u.fw.makerHash = s.fw.makerHash
  (∀ s, s.power = .hallmark → ∃ u, exec .powerUp s = .next u ∧
    (u.power = .running ∨ u.power = .recovery) ∧
    (u.power = .running ↔ Config.trains s.fw.boots = true ∧ ∀ cls ∈ [1, 2, 3], passes s cls 0 ∨ passes s cls 1) ∧
    (∀ cls ∈ [1, 2, 3], u.power = .running → ∃ k, get? u.fw.running cls = some k ∧ passes s cls k ∧
      (passes s cls (activeSlot s.fw cls) → k = activeSlot s.fw cls)) ∧
    (Config.trains s.fw.boots = true → ∀ a, a < 2 * 2 ^ 64 → memGet u.mem a = 0) ∧
    (∀ a, 2 * 2 ^ 64 ≤ a → memGet u.mem a = memGet s.mem a) ∧
    (s.fw.owner = none → Config.trains s.fw.boots = true → u.fw.rstat = 0x0102)) ∧
  (∀ s, ∃ u, exec .powerOff s = .next u ∧ u.power = .off ∧ cold s u) ∧
  (∀ s, s.power ≠ .off → busy s = false → ∃ u, exec .reboot s = .next u ∧ u.power = .hallmark ∧ cold s u) ∧
  (∀ s n, s.stopAt = some n → s.power = .running →
    (n ≤ now s → exec .clockStop s = .next { s with power := .stopped, stopAt := none }) ∧ (now s < n → exec .clockStop s = .next s))

/-- R386-R388, R390: a new global scheduler that resumes ends its hold, marks its slot active and takes the events kept in order; one that posts no
heartbeat by the deadline less 60,000 ticks is discarded, with a rollback entry, and the flash stays. Leaf controllers follow one cluster at
a time: once one has been switched, the hold of the next begins; a copy engine's begins while it has no command. A command goes over its link
on a permit, in sequence.
The model's own choices, and no rule of the spec: log entry 67 (Which of the hold of a scheduler and that of a leaf controller a service
waits for); log entry 69 (After a failed leaf replacement the switched clusters return one at a time,
each with a hold of its own); log entry 82 (The time a hand-over and a link command take is that of their input). -/
def Obligations.ReplacementHoldsAndLinks : Prop :=
  (∀ s r, s.fw.repl = some r → s.power = .running → r.cls = 1 → r.slot < 2 → r.gap = false → s.fw.log.length < 256 → ∃ u,
    exec (.handoverResume true) s = .next u ∧ u.fw.repl = none ∧ u.fw.held = [] ∧ u.agenda = s.fw.held.map Move.event ++ s.agenda ∧
      activeSlot u.fw 1 = r.slot ∧ get? u.fw.running 1 = some r.slot ∧ u.fw.flash = s.fw.flash ∧
      u.fw.log.length = s.fw.log.length + 1 ∧ u.mem = s.mem ∧ u.cores = s.cores) ∧
  (∀ s r, s.fw.repl = some r → exec (.handoverResume false) s = .next s) ∧
  (∀ s r, s.fw.repl = some r → s.power = .running → r.cls = 2 → r.back = false → r.unit < 27 → r.gap = false → ∃ u r',
    exec (.handoverResume true) s = .next u ∧ rget 0 u.fw.leaf r.unit = r.slot ∧ u.fw.repl = some r' ∧ r'.cls = 2 ∧ r'.unit = r.unit + 1 ∧
      r'.slot = r.slot ∧ r'.gap = true ∧ u.fw.activeB = s.fw.activeB) ∧
  (∀ s r, s.fw.repl = some r → s.power = .running → r.gap = true →
    (r.cls = 3 → engineBusy s r.unit = true → exec .heartbeatDeadline s = .next s) ∧
    ((r.cls = 3 → engineBusy s r.unit = false) → ∃ u r', exec .heartbeatDeadline s = .next u ∧ u.fw.repl = some r' ∧ r'.gap = false ∧
      r'.holdAt = now s ∧ r'.cls = r.cls ∧ r'.unit = r.unit ∧ r'.slot = r.slot ∧ r'.back = r.back ∧ u.cores = s.cores ∧ u.mem = s.mem)) ∧
  (∀ s r, s.fw.repl = some r → s.power = .running → r.cls = 1 → r.back = false → r.gap = false → s.fw.log.length < 256 →
    (r.holdAt + (s.fw.deadlineMs * 600000 - 60000) ≤ now s → ∃ u, exec .heartbeatDeadline s = .next u ∧ u.fw.repl = none ∧
      u.agenda = s.fw.held.map Move.event ++ s.agenda ∧ u.fw.activeB = s.fw.activeB ∧ u.fw.running = s.fw.running ∧
      u.fw.log.length = s.fw.log.length + 1 ∧ (∀ e ∈ u.fw.log.getLast?, e.extractLsb' 0 8 = 4)) ∧
    (now s < r.holdAt + (s.fw.deadlineMs * 600000 - 60000) → exec .heartbeatDeadline s = .next s)) ∧
  (∀ s l, s.power = .running → l.cluster < 28 → l.body.length = 8 →
    let k := 2 * l.cluster + (if l.toLeaf then 1 else 0)
    let x := rget {} s.links k
    l.seq = x.sent % 2 ^ 32 → x.permits ≠ 0 →
    exec (.linkCommand l) s = .next { s with links := put s.links k (
      if (if l.toLeaf then leafHeld s l.cluster else schedHalted s) then { x with permits := x.permits - 1, sent := x.sent + 1 }
      else { x with sent := x.sent + 1, taken := x.taken + 1 }) })

/-- R384, R382, R383, R386, R392, R403: the mailbox. A command while BUSY is discarded; one that recovery, or a stopped module, does not accept
gives STATE; with BUSY clear, a module that runs answers each command with its status, and with what it does; one with more than the 4,096 bytes of
MBARG gives BADARG.
The model's own choices, and no rule of the spec: log entry 68 (CREATE and DESTROY wait with BUSY set during a hold of the global
scheduler); log entry 71 (STAGE may write the slot under activation); log entry 72 (RELEASE without an owner, and ENROL with one, answer
STATE; RELEASE without a nonce answers AUTH); log entry 73 (Result code 5 (no owner) is given after the maker's signature has passed);
log entry 100 (The arguments of a mailbox command lie in MBARG from its first byte on, in the order that its effect
names them). -/
def Obligations.MailboxCommands : Prop :=
  let ok : Word64 := 0; let busy' : Word64 := 1; let auth : Word64 := 2; let badarg : Word64 := 3; let state' : Word64 := 4
  let answers := fun (i : Instr) (s : State) (st : Word64) (p : State → Prop) => ∃ u, exec i s = .next u ∧ u.fw.mbstat = st ∧ p u
  let quiet := fun (s u : State) => u.mem = s.mem ∧ u.cores = s.cores ∧ u.power = s.power
  let kept := fun (s u : State) => quiet s u ∧ u.ctxs = s.ctxs ∧ u.fw.flash = s.fw.flash ∧ u.fw.owner = s.fw.owner ∧ u.fw.log = s.fw.log
  (∀ s i, s.power = .recovery ∧ (i ∈ [.activate 1, .setdl 50, .svnbump 1, .stop 0, .scanout 0 0 0] ∨ (∃ r, i = .create r) ∨ ∃ x, i = .destroy x) ∨
      s.power = .stopped ∧ (i ∈ [.activate 1, .setdl 50, .svnbump 1, .stop 0, .nonce] ∨ (∃ r, i = .create r) ∨ (∃ x, i = .destroy x) ∨
        (∃ c o n l b, i = .stage c o n l b) ∨ (∃ b, i = .release b) ∨ ∃ b, i = .enrolOwner b) →
    busy s = false → s.fw.destroying = none → answers i s state' (kept s)) ∧
  (∀ s, s.power ≠ .off → busy s = true → ∀ ms, exec (.setdl ms) s = .next s) ∧
  ∀ s, s.power = .running → busy s = false →
    (schedHeld s = false → ∀ r, let x := recField r 320 6
      (createOk s r = true → answers (.create r) s ok fun u => get? u.ctxs x = some (newContext r) ∧ quiet s u) ∧
      (createOk s r = false → answers (.create r) s badarg (kept s))) ∧
    (schedHeld s = false → ∀ x, s.fw.destroying = none →
      (hasCtx s x = false → answers (.destroy x) s badarg (kept s)) ∧
      (hasCtx s x = true → (∀ y ∈ residents s, y.2.2.ctx ≠ x) → (∀ b ∈ s.bulks, b.ctx ≠ x) → (∀ l ∈ (ctxOf s x).launches, l.state = .complete) →
        answers (.destroy x) s ok fun u => hasCtx u x = false ∧ ∀ y, y ≠ x → get? u.ctxs y = get? s.ctxs y)) ∧
    (∀ cls off len last bs, (cls < 1 ∨ 3 < cls ∨ bs.length ≠ len ∨ 4096 < 16 + bs.length ∨ 64 + 2 ^ 23 + 2 * (1312 + 2420) < off + len) →
      answers (.stage cls off len last bs) s badarg (kept s)) ∧
    (∀ cls off last bs, 1 ≤ cls → cls ≤ 3 → 16 + bs.length ≤ 4096 → off + bs.length ≤ 64 + 2 ^ 23 + 2 * (1312 + 2420) →
      let n := 1 - activeSlot s.fw cls
      let img := putChunk (imageAt s.fw cls n) off bs
      answers (.stage cls off bs.length last bs) s (if last = true ∧ authenticate s.fw cls img ≠ 0 then auth else ok) fun u =>
        imageAt u.fw cls n = img ∧ u.fw.activeB = s.fw.activeB ∧ (last = false → u.fw.log = s.fw.log) ∧
        (last = true → s.fw.log.length < 256 → u.fw.log.length = s.fw.log.length + 1) ∧ quiet s u) ∧
    (∀ cls, let n := 1 - activeSlot s.fw cls
      answers (.activate cls) s (if cls < 1 ∨ 3 < cls then badarg else if s.fw.repl.isSome then busy'
        else if authenticate s.fw cls (imageAt s.fw cls n) ≠ 0 then auth else ok) fun u =>
          (u.fw.mbstat ≠ ok → u.fw.repl = s.fw.repl) ∧
          (u.fw.mbstat = ok → ∃ r, u.fw.repl = some r ∧ r.cls = cls ∧ r.slot = n ∧ r.unit = 0 ∧ r.gap = decide (cls = 3) ∧
            (cls ≠ 3 → r.holdAt = now s)) ∧ u.fw.flash = s.fw.flash) ∧
    (∀ ms, answers (.setdl ms) s (if 5 ≤ ms ∧ ms ≤ 500 then ok else badarg) fun u =>
      u.fw.deadlineMs = (if 5 ≤ ms ∧ ms ≤ 500 then ms else s.fw.deadlineMs) ∧ kept s u) ∧
    (∀ a n, n ≤ 64 → a + n ≤ s.fw.log.length → answers (.readlog a n) s ok fun u => kept s u ∧
      ∀ k e, k < n → s.fw.log[a + k]? = some e → memRead u.fw.mbarg (64 * k) 64 = e.toNat) ∧
    (∀ a n, 64 < n ∨ s.fw.log.length < a + n → answers (.readlog a n) s badarg (kept s)) ∧
    (∀ b, 4096 < b.length → answers (.release b) s badarg (kept s) ∧ answers (.enrolOwner b) s badarg (kept s)) ∧
    (∀ b, b.length ≤ 4096 → (s.fw.owner = none → answers (.release b) s state' (kept s)) ∧ (s.fw.owner.isSome = true → s.fw.nonce = none → answers (.release b) s auth (kept s)) ∧
      ∀ o n, s.fw.owner = some o → s.fw.nonce = some n → answers (.release b) s (if signed b n o then ok else auth) fun u =>
        u.fw.owner = (if signed b n o then none else some o) ∧ quiet s u) ∧
    (∀ key, key.length ≤ 4096 → (s.fw.owner.isSome = true → answers (.enrolOwner key) s state' (kept s)) ∧
      (s.fw.owner = none → key.length ≠ 1312 → answers (.enrolOwner key) s badarg (kept s)) ∧
      (s.fw.owner = none → key.length = 1312 → answers (.enrolOwner key) s ok fun u => u.fw.owner = some (Machine.sha3 key) ∧ quiet s u)) ∧
    (∀ cls, 1 ≤ cls → cls ≤ 3 → answers (.svnbump cls) s ok fun u =>
      rget 0 u.fw.minSvn cls = max (rget 0 s.fw.minSvn cls) (imgSvn (imageAt s.fw cls (activeSlot s.fw cls))) ∧
      (∀ y, y ≠ cls → rget 0 u.fw.minSvn y = rget 0 s.fw.minSvn y) ∧ quiet s u) ∧
    (∀ cls, cls < 1 ∨ 3 < cls → answers (.svnbump cls) s badarg (kept s)) ∧
    answers .nonce s ok (fun u => ∃ n, u.fw.nonce = some n ∧ memRead u.fw.mbarg 0 32 = n.toNat ∧ kept s u) ∧
    (∀ t : Word64, answers (.stop t) s (if t.toNat < now s + 64 then badarg else ok) fun u =>
      u.stopAt = (if t.toNat < now s + 64 then s.stopAt else some t.toNat) ∧ kept s u) ∧
    (∀ chain off n, answers (.scanout chain off n) s (if 4096 < n then badarg else ok) (kept s))

/-! ### The host, peers and code objects -/

/-- R14, R230, R231, R235, R252, R389, R397-R400, R369, R373: an access of the host or of a peer reads, writes or updates its bytes at their home; one to
an address that does not exist stops, which the spec leaves open; before the module runs, one to device memory completes as an Unsupported
Request, and so does the configuration of a virtual function. A function's writes to the page of a context that it does not own are
ignored (R391). A stopped module keeps what is in flight to a peer (R403). A failed link leaves every route; a route of 12 links is restored. A
correctable error is only counted, any other poisons its granule. The loader's object is there whole, or nothing of it; an unused one goes.
The model's own choices, and no rule of the spec: log entry 2 (Host and peer memory that nothing has written reads 0 (device memory reads 0
by R381 step 3); memory lists no zero byte); log entry 35 (The address of CHECK_CODE_ERROR names the array of an on-chip error); log entry
77 (The AtomicOp enable is one bit of the module); log entry 80 (An access of the host or of a peer to an address that no memory has stops
the machine with the fault noSuchMemory); log entry 113 (The host names its BARs by tiers of their own). -/
def Obligations.OutsideAccessesAndObjects : Prop :=
  let there := fun (s : State) (a n : Nat) => ∀ i, i < n → exists? s (a + i) = true
  let acts := fun (I : ExtOp → Instr) (s : State) (a : Nat) (data : State → List Byte) =>
    (∀ n, there s a n → ∃ u, exec (I (.read n)) s = .next u ∧ u.mem = s.mem ∧ u.cores = s.cores ∧ ofBytes (data u) = memRead s.mem a n) ∧
    (∀ bs, there s a bs.length → ∃ u, exec (I (.write bs)) s = .next u ∧ data u = [] ∧ u.cores = s.cores ∧ u.ctxs = s.ctxs ∧
      ∀ k, memGet u.mem k = if a ≤ k ∧ k < a + bs.length then bs.getD (k - a) 0 else memGet s.mem k) ∧
    (∀ (d : Word) c, there s a 4 → ∃ u, exec (I (.atomic 0 false .f32 d.toNat c)) s = .next u ∧ ofBytes (data u) = memRead s.mem a 4 ∧
      memRead u.mem a 4 = (memRead s.mem a 4 + d.toNat) % 2 ^ 32 ∧ ∀ k, k < a ∨ a + 4 ≤ k → memGet u.mem k = memGet s.mem k) ∧
    (∀ n, 0 < n → exists? s a = false → exec (I (.read n)) s = .fault .noSuchMemory)
  (∀ s a, s.power = .running → a < 3 * 2 ^ 64 → acts (.hostAccess a) s a (·.hostData)) ∧
  (∀ s a op, s.power = .recovery → a < 2 * 2 ^ 64 → ∃ u, exec (.hostAccess a op) s = .next u ∧ u.hostUr = true ∧ u.hostData = [] ∧ u.mem = s.mem) ∧
  (∀ s p a, s.power = .running → rget [] s.routes p ≠ [] → a < 2 * 2 ^ 64 → acts (.peerAccess p a) s a (·.peerData)) ∧
  (∀ s p ls, p < 64 → rget [] s.routes p = [] → (∃ k ∈ ls, k < 12) → ∃ u, exec (.routeRestore p ls) s = .next u ∧
    (∀ k, k ∈ rget [] u.routes p ↔ k ∈ ls ∧ k < 12) ∧ (∀ q, q ≠ p → rget [] u.routes q = rget [] s.routes q) ∧ u.mem = s.mem) ∧
  (∀ s k, s.power = .stopped → exec (.peerLinkFail k) s = .next s) ∧
  (∀ s k, s.power ≠ .stopped → (∀ y ∈ s.routes, y.2 ≠ [] → ∃ j ∈ y.2, j ≠ k) → exec (.peerLinkFail k) s =
    .next { s with routes := s.routes.map fun (p, l) => (p, l.filter fun j => decide (j ≠ k)), failedLinks := insertSlot s.failedLinks k }) ∧
  (∀ s k, s.power ≠ .stopped → ∃ u, exec (.peerLinkFail k) s = .next u ∧ ∀ p, k ∉ rget [] u.routes p) ∧
  (∀ s a, exec (.checkCodeError a true) s = .next { s with corrected := s.corrected + 1 }) ∧
  (∀ s a, a < 2 * 2 ^ 64 → exists? s a = true → exec (.checkCodeError a false) s = .next { s with poison := insertSlot s.poison (a / 64) }) ∧
  (∀ s f n, f ≤ 32 → f = 0 ∨ s.power = .running → exec (.pcieConfigWrite (.allocation f n)) s = .next { s with pageAlloc := rput 0 s.pageAlloc f n }) ∧
  (∀ s f n, f ≠ 0 → s.power = .recovery → ∃ u, exec (.pcieConfigWrite (.allocation f n)) s = .next u ∧ u.hostUr = true ∧ u.pageAlloc = s.pageAlloc) ∧
  (∀ s f o bs, s.power = .running → f ≤ s.vfs → f ≤ 32 → o < 2 ^ 64 → hasCtx s (o / 4096) = false ∨ ctxField s (o / 4096) 358 6 ≠ f →
    exec (.hostAccess ((128 + f) * 2 ^ 64 + o) (.write bs)) s = .next s) ∧
  (∀ s on, exec (.pcieConfigWrite (.atomicEnable on)) s = .next { s with atomicEn := on }) ∧
  (∀ s n, n ≤ 32 → exec (.pcieConfigWrite (.sriov n)) s = .next (if s.power = .running then { s with vfs := n } else s)) ∧
  (∀ s x base bs, hasCtx s x = true →
    (∀ st k, loadObject s x base bs = .error (st, k) → exec (.codeObjectLoad x base bs) s = .next { s with hostData := toBytes 4 st ++ toBytes 4 k }) ∧
    (∀ o img seg es, loadObject s x base bs = .ok (o, img, seg, es) → ∃ u, exec (.codeObjectLoad x base bs) s = .next u ∧
      (ctxOf u x).objs = (ctxOf s x).objs ++ [o] ∧ (∀ k e, es[k]? = some e → get? (ctxOf u x).dir (o.fbase + k) = some e) ∧
      (∀ k, (k < o.fbase ∨ o.fbase + es.length ≤ k) → get? (ctxOf u x).dir k = get? (ctxOf s x).dir k) ∧ u.hostData = toBytes 4 0 ++ toBytes 4 o.fbase)) ∧
  (∀ s x f o, (ctxOf s x).objs.find? (fun o => decide (o.fbase = f)) = some o →
    (inUse s x o = true → exec (.codeObjectUnload x f) s = .next { s with hostData := toBytes 4 1 ++ toBytes 4 0 }) ∧
    (inUse s x o = false → ∃ u, exec (.codeObjectUnload x f) s = .next u ∧ (∀ q ∈ (ctxOf u x).objs, q.fbase ≠ f) ∧
      ∀ k, f ≤ k → k < f + o.nfn → get? (ctxOf u x).dir k = none))

/-! ### The machine as a whole -/

/-- R381, R402, R33, R384: right after reset the Hallmark core starts, every other core is held, the tick is 0, memory reads as zeros, its
listing is canonical, and no context, command or request is there;
the first step begins tick 1, whose move is the power-up.
The model's own choices, and no rule of the spec: log entry 1 (The reset state is step 1 of power-up: the Hallmark core starts, and nothing
else is there); log entry 2 (Host and peer memory that nothing has written reads 0 (device memory reads 0 by R381 step 3); memory lists no
zero byte); log entry 3 (The corrected-error counter starts at 0); log entry 4 (No peer route is there at reset, and no link counts as
failed); log entry 5 (PCIe configuration is 0 at reset: no page-request allocation, no AtomicOps, no virtual function); log entry 8 (Fuses
and flash are empty at reset: maker hash 0, minimum SVN 0, no image in any slot, slot A active, no owner); log entry 9 (Mailbox registers
and RSTAT start at 0); log entry 10 (Sequence numbers of the command links start at 0). -/
def Obligations.ResetState : Prop :=
  let s := State.reset
  s.power = .hallmark ∧ s.tick = 0 ∧ s.cores = [] ∧ s.ctxs = [] ∧ s.bulks = [] ∧ s.groups = [] ∧ s.fw.running = [] ∧ s.fw.deadlineMs = 50 ∧
  s.fw.repl = none ∧ Memory.wf s.mem = true ∧ (∀ a n, memRead s.mem a n = 0) ∧
  step s = .next { s with tick := 1, agenda := [.event .powerUp] }

/-- R36, R48, R77, R80, R206, R325, R369: words written out from the encodings of the spec, and the instructions that they are. -/
def Obligations.WrittenWordsDecode : Prop :=
  decode 0xBB85000000000000 = .ok (.nop .always) ∧
  decode 0x0381000000000001 = .ok (.leave .always 1) ∧
  decode 0x0385000000000103 = .ok (.rep .always 4 4) ∧
  decode 0x73841808008B0140 = .ok (.st .always (.c (.v 6)) { base := .v 2, off := 8, order := .rel, scope := 6, evict := 0, space := .g, size := .b64 }) ∧
  decode 0x1F82040001000000 = .ok (.aih .always (.v 4) 16) ∧
  decode 0x1F82047FFF000000 = .ok (.aih .always (.v 4) 0x7FFF0) ∧
  decode 0x1F810404000007F0 = .ok (.ail .always (.v 4) { code := .v 4 } 0x7F0)

/-- R90, R51, R49: a step is the next move. The oldest batch that may issue fetches the word at its position; a word that decodes to an
instruction runs exactly that instruction, with the batch and the word as the issue in progress, and any other runs as an illegal word; a
word that cannot issue leaves the turn to the next batch; where one issues, those behind it that the range scoreboard held are counted where
it holds them still (R229). An event that the module's power allows runs as it is; without a move left, a
tick begins.
The model's own choices, and no rule of the spec: log entry 6 (Which agent moves next is plain data: an agenda of moves, laid out anew each
tick; inputs are timed data); log entry 19 (An event whose condition does not hold changes nothing). -/
def Obligations.StepRunsTheDecodedWord : Prop :=
  (∀ s c sel r b bs x va w, s.agenda = .word c sel :: r → s.power = .running → issuable s c sel = b :: bs →
    batchWordVA { s with agenda := r } (coreOf s c) b = some (x, va) → fetchVA s x va 8 = .ok w → matchLeft s c sel b.id = false →
    let s' := { s with agenda := r, cur := some { core := c, sel := sel, batch := b.id, word := BitVec.ofNat 64 w } }
    ∀ i, (decode (BitVec.ofNat 64 w) = .ok i ∨ (∃ e, decode (BitVec.ofNat 64 w) = .error e) ∧ i = .illegalWord (BitVec.ofNat 64 w)) →
      (∀ t, exec i s' = .next t → t.cur.isSome → step s = .next (noteBoards exec c sel bs { t with cur := none }) ∧
        ((∀ y ∈ bs, y.boarded = false) → step s = .next { t with cur := none })) ∧
      (∀ t, exec i s' = .next t → t.cur = none → step s = issueFrom exec c sel bs t)) ∧
  (∀ s i r, s.agenda = .event i :: r → awake s.power i = true → step s = exec i { s with agenda := r }) ∧
  (∀ s, s.agenda = [] → step s = .next (beginTick s)) ∧
  (∀ s, s.power ≠ .off → s.power ≠ .stopped → (beginTick s).tick = s.tick + 1)

/-- R34-R48: every well-formed word reads back from its encoding, with every operand. -/
def Obligations.EncodedWordsDecode : Prop := ∀ i, i.isWord = true → i.wf = true → decode (encode i) = .ok i

/-- R34-R49: a word that decodes is the encoding of a well-formed instruction: no bit of it is dropped, and no other word means the same. -/
def Obligations.DecodedWordsAreWellFormed : Prop := ∀ w i, decode w = .ok i → i.isWord = true ∧ i.wf = true ∧ encode i = w

/-- The model's own invariant (log entry 2): every step keeps the canonical form of memory: addresses rise strictly, and no byte listed is 0. -/
def Obligations.StepsKeepMemoryCanonical : Prop := ∀ s t, Memory.wf s.mem = true → step s = .next t → Memory.wf t.mem = true
end

