-- ==== Sys2Proof/Laws/Maps.lean ====
section
/-! SUPPORT. Reads after writes of the finite maps, and of lists of slots. -/
set_option Elab.async false
namespace Sys2Proof.Machine

variable {β : Type}

theorem get?_put_self (m : SMap β) (n : Nat) (y : β) : get? (put m n y) n = some y := by
  induction m with
  | nil => simp [put, get?]
  | cons h r ih =>
    obtain ⟨k, x⟩ := h
    simp only [put]
    split
    · simp [get?]
    · split
      · simp [get?]
      · next h1 h2 => simp [get?, Ne.symm h2, ih]

theorem get?_put_ne (m : SMap β) {n k : Nat} (y : β) (h : k ≠ n) : get? (put m n y) k = get? m k := by
  induction m with
  | nil => simp [put, get?, Ne.symm h]
  | cons hd r ih =>
    obtain ⟨j, x⟩ := hd
    simp only [put]
    split
    · simp [get?, Ne.symm h]
    · split
      · next h1 h2 => subst h2; simp [get?, Ne.symm h]
      · simp [get?, ih]

theorem get?_put (m : SMap β) (n k : Nat) (y : β) : get? (put m n y) k = if k = n then some y else get? m k := by
  by_cases h : k = n
  · subst h; simp [get?_put_self]
  · simp [h, get?_put_ne m y h]

theorem get?_modify (m : SMap β) (n k : Nat) (f : β → β) :
    get? (modify m n f) k = if k = n then (get? m n).map f else get? m k := by
  unfold modify
  cases h : get? m n with
  | none => by_cases hk : k = n <;> simp [hk, h]
  | some x => simp [get?_put]

theorem put_put (m : SMap β) (n : Nat) (x y : β) : put (put m n x) n y = put m n y := by
  induction m with
  | nil => simp [put]
  | cons h r ih =>
    obtain ⟨k, z⟩ := h
    simp only [put]
    split
    · simp [put]
    · split
      · simp [put]
      · next h1 h2 => simp [put, h1, h2, ih]

theorem modify_modify (m : SMap β) (n : Nat) (f g : β → β) : modify (modify m n f) n g = modify m n (g ∘ f) := by
  unfold modify
  cases h : get? m n with
  | none => simp [h]
  | some x => simp [get?_put_self, put_put]

theorem get?_del_ne (m : SMap β) {n k : Nat} (h : k ≠ n) : get? (del m n) k = get? m k := by
  induction m with
  | nil => rfl
  | cons hd r ih =>
    obtain ⟨j, x⟩ := hd
    simp only [del]
    split
    · next h1 => subst h1; simp [get?, Ne.symm h, ih]
    · simp [get?, ih]

theorem rget_rput_ne [DecidableEq β] (d : β) (m : SMap β) {n k : Nat} (x : β) (h : k ≠ n) : rget d (rput d m n x) k = rget d m k := by
  unfold rget rput
  split
  · rw [get?_del_ne m h]
  · rw [get?_put_ne m x h]

/-- Keys rise strictly. -/
def Rising : SMap β → Prop
  | [] => True
  | [_] => True
  | (a, _) :: (b, y) :: r => a < b ∧ Rising ((b, y) :: r)

theorem Rising.tail {p : Nat × β} {r : SMap β} (h : Rising (p :: r)) : Rising r := by
  obtain ⟨a, x⟩ := p
  cases r with
  | nil => trivial
  | cons q r => obtain ⟨b, y⟩ := q; exact h.2

/-- In a rising map every later key is greater. -/
theorem Rising.get?_none {a k : Nat} {x : β} {r : SMap β} (h : Rising ((a, x) :: r)) (hk : k ≤ a) : get? r k = none := by
  induction r generalizing a x with
  | nil => rfl
  | cons q r ih =>
    obtain ⟨b, y⟩ := q
    have hb : a < b := h.1
    simp only [get?]
    split
    · omega
    · exact ih h.2 (by omega)

theorem rising_cons_of {n : Nat} {y : β} {m : SMap β} (hm : Rising m) (h : ∀ k, k ≤ n → get? m k = none) : Rising ((n, y) :: m) := by
  cases m with
  | nil => trivial
  | cons q r =>
    obtain ⟨b, z⟩ := q
    refine ⟨?_, hm⟩
    by_cases hb : b ≤ n
    · have := h b hb; simp [get?] at this
    · omega

theorem Rising.put {m : SMap β} (h : Rising m) (n : Nat) (y : β) : Rising (put m n y) := by
  induction m with
  | nil => trivial
  | cons q r ih =>
    obtain ⟨a, x⟩ := q
    simp only [Machine.put]
    split
    · next h1 => exact ⟨h1, h⟩
    · split
      · next h1 h2 =>
        subst h2
        exact rising_cons_of h.tail fun k hk => h.get?_none hk
      · next h1 h2 =>
        refine rising_cons_of (ih h.tail) fun k hk => ?_
        rw [get?_put_ne _ _ (by omega)]
        exact h.get?_none hk

theorem get?_del_self (m : SMap β) (n : Nat) : get? (del m n) n = none := by
  induction m with
  | nil => rfl
  | cons q r ih =>
    obtain ⟨a, x⟩ := q
    simp only [del]
    split
    · exact ih
    · next h1 => simp [get?, h1, ih]

theorem Rising.del {m : SMap β} (h : Rising m) (n : Nat) : Rising (del m n) := by
  induction m with
  | nil => trivial
  | cons q r ih =>
    obtain ⟨a, x⟩ := q
    simp only [Machine.del]
    split
    · exact ih h.tail
    · refine rising_cons_of (ih h.tail) fun k hk => ?_
      by_cases hkn : k = n
      · subst hkn; exact get?_del_self r k
      · rw [get?_del_ne _ hkn]; exact h.get?_none hk

theorem Rising.rput [DecidableEq β] {m : SMap β} (h : Rising m) (d : β) (n : Nat) (x : β) : Rising (rput d m n x) := by
  unfold Machine.rput
  split
  · exact h.del n
  · exact h.put n x

/-- A register reads back what was written, and every other register as before. -/
theorem rget_rput [DecidableEq β] (d : β) (m : SMap β) (n k : Nat) (x : β) : rget d (rput d m n x) k = if k = n then x else rget d m k := by
  by_cases h : k = n
  · subst h
    unfold rget rput
    split
    · next hx => simp [get?_del_self, hx]
    · simp [get?_put_self]
  · rw [if_neg h, rget_rput_ne d m x h]

/-! ### Lists of slots -/

theorem mem_insertSlot (l : List Nat) (n k : Nat) : k ∈ insertSlot l n ↔ k = n ∨ k ∈ l := by
  induction l with
  | nil => simp [insertSlot]
  | cons a r ih =>
    simp only [insertSlot]
    split
    · simp
    · split
      · next h => subst h; simp
      · simp only [List.mem_cons, ih]
        constructor
        · rintro (h | h | h)
          · exact .inr (.inl h)
          · exact .inl h
          · exact .inr (.inr h)
        · rintro (h | h | h)
          · exact .inr (.inl h)
          · exact .inl h
          · exact .inr (.inr h)

theorem insertSlot_rising {l : List Nat} (h : l.Pairwise (· < ·)) (n : Nat) : (insertSlot l n).Pairwise (· < ·) := by
  induction l with
  | nil => simp [insertSlot]
  | cons a r ih =>
    obtain ⟨h1, h2⟩ := List.pairwise_cons.1 h
    simp only [insertSlot]
    split
    · next hn =>
      refine List.pairwise_cons.2 ⟨fun b hb => ?_, h⟩
      rcases List.mem_cons.1 hb with rfl | hb
      · exact hn
      · exact Nat.lt_trans hn (h1 b hb)
    · split
      · exact h
      · refine List.pairwise_cons.2 ⟨fun b hb => ?_, ih h2⟩
        rcases (mem_insertSlot r n b).1 hb with rfl | hb
        · omega
        · exact h1 b hb

theorem unionSlots_rising {a : List Nat} (h : a.Pairwise (· < ·)) (b : List Nat) : (unionSlots a b).Pairwise (· < ·) := by
  unfold unionSlots
  induction b generalizing a with
  | nil => exact h
  | cons n r ih => exact ih (insertSlot_rising h n)

theorem mem_unionSlots (a b : List Nat) (k : Nat) : k ∈ unionSlots a b ↔ k ∈ a ∨ k ∈ b := by
  unfold unionSlots
  induction b generalizing a with
  | nil => simp
  | cons n r ih =>
    rw [List.foldl_cons, ih, mem_insertSlot]
    simp only [List.mem_cons]
    constructor
    · rintro ((h | h) | h)
      · exact .inr (.inl h)
      · exact .inl h
      · exact .inr (.inr h)
    · rintro (h | h | h)
      · exact .inl (.inr h)
      · exact .inl (.inl h)
      · exact .inr h

theorem mem_minus (a b : List Nat) (k : Nat) : k ∈ minus a b ↔ k ∈ a ∧ k ∉ b := by
  simp [minus, List.mem_filter]

end Sys2Proof.Machine
end

