-- ==== Sys2Proof/Laws/State.lean ====
section
/-! SUPPORT. What each update of the state leaves as it was, and what the parts of the state read after it. -/
set_option Elab.async false
namespace Sys2Proof.Machine

@[simp] theorem setCore_power (s : State) (c : Nat) (co : Core) : (setCore s c co).power = s.power := rfl
@[simp] theorem setCore_tick (s : State) (c : Nat) (co : Core) : (setCore s c co).tick = s.tick := rfl
@[simp] theorem setCore_stopAt (s : State) (c : Nat) (co : Core) : (setCore s c co).stopAt = s.stopAt := rfl
@[simp] theorem setCore_mem (s : State) (c : Nat) (co : Core) : (setCore s c co).mem = s.mem := rfl
@[simp] theorem setCore_poison (s : State) (c : Nat) (co : Core) : (setCore s c co).poison = s.poison := rfl
@[simp] theorem setCore_corrected (s : State) (c : Nat) (co : Core) : (setCore s c co).corrected = s.corrected := rfl
@[simp] theorem setCore_devLines (s : State) (c : Nat) (co : Core) : (setCore s c co).devLines = s.devLines := rfl
@[simp] theorem setCore_dies (s : State) (c : Nat) (co : Core) : (setCore s c co).dies = s.dies := rfl
@[simp] theorem setCore_diePoison (s : State) (c : Nat) (co : Core) : (setCore s c co).diePoison = s.diePoison := rfl
@[simp] theorem setCore_dieAllocs (s : State) (c : Nat) (co : Core) : (setCore s c co).dieAllocs = s.dieAllocs := rfl
@[simp] theorem setCore_ctxs (s : State) (c : Nat) (co : Core) : (setCore s c co).ctxs = s.ctxs := rfl
@[simp] theorem setCore_groups (s : State) (c : Nat) (co : Core) : (setCore s c co).groups = s.groups := rfl
@[simp] theorem setCore_bulks (s : State) (c : Nat) (co : Core) : (setCore s c co).bulks = s.bulks := rfl
@[simp] theorem setCore_notes (s : State) (c : Nat) (co : Core) : (setCore s c co).notes = s.notes := rfl
@[simp] theorem setCore_fw (s : State) (c : Nat) (co : Core) : (setCore s c co).fw = s.fw := rfl
@[simp] theorem setCore_links (s : State) (c : Nat) (co : Core) : (setCore s c co).links = s.links := rfl
@[simp] theorem setCore_routes (s : State) (c : Nat) (co : Core) : (setCore s c co).routes = s.routes := rfl
@[simp] theorem setCore_failedLinks (s : State) (c : Nat) (co : Core) : (setCore s c co).failedLinks = s.failedLinks := rfl
@[simp] theorem setCore_pageAlloc (s : State) (c : Nat) (co : Core) : (setCore s c co).pageAlloc = s.pageAlloc := rfl
@[simp] theorem setCore_pageUsed (s : State) (c : Nat) (co : Core) : (setCore s c co).pageUsed = s.pageUsed := rfl
@[simp] theorem setCore_atomicEn (s : State) (c : Nat) (co : Core) : (setCore s c co).atomicEn = s.atomicEn := rfl
@[simp] theorem setCore_vfs (s : State) (c : Nat) (co : Core) : (setCore s c co).vfs = s.vfs := rfl
@[simp] theorem setCore_msix (s : State) (c : Nat) (co : Core) : (setCore s c co).msix = s.msix := rfl
@[simp] theorem setCore_hostData (s : State) (c : Nat) (co : Core) : (setCore s c co).hostData = s.hostData := rfl
@[simp] theorem setCore_hostUr (s : State) (c : Nat) (co : Core) : (setCore s c co).hostUr = s.hostUr := rfl
@[simp] theorem setCore_peerData (s : State) (c : Nat) (co : Core) : (setCore s c co).peerData = s.peerData := rfl
@[simp] theorem setCore_agenda (s : State) (c : Nat) (co : Core) : (setCore s c co).agenda = s.agenda := rfl
@[simp] theorem setCore_inputs (s : State) (c : Nat) (co : Core) : (setCore s c co).inputs = s.inputs := rfl
@[simp] theorem setCore_cur (s : State) (c : Nat) (co : Core) : (setCore s c co).cur = s.cur := rfl
@[simp] theorem setCore_seq (s : State) (c : Nat) (co : Core) : (setCore s c co).seq = s.seq := rfl
@[simp] theorem setCore_fresh (s : State) (c : Nat) (co : Core) : (setCore s c co).fresh = s.fresh := rfl

@[simp] theorem updCore_power (s : State) (c : Nat) (f : Core → Core) : (updCore s c f).power = s.power := rfl
@[simp] theorem updCore_tick (s : State) (c : Nat) (f : Core → Core) : (updCore s c f).tick = s.tick := rfl
@[simp] theorem updCore_stopAt (s : State) (c : Nat) (f : Core → Core) : (updCore s c f).stopAt = s.stopAt := rfl
@[simp] theorem updCore_mem (s : State) (c : Nat) (f : Core → Core) : (updCore s c f).mem = s.mem := rfl
@[simp] theorem updCore_poison (s : State) (c : Nat) (f : Core → Core) : (updCore s c f).poison = s.poison := rfl
@[simp] theorem updCore_corrected (s : State) (c : Nat) (f : Core → Core) : (updCore s c f).corrected = s.corrected := rfl
@[simp] theorem updCore_devLines (s : State) (c : Nat) (f : Core → Core) : (updCore s c f).devLines = s.devLines := rfl
@[simp] theorem updCore_dies (s : State) (c : Nat) (f : Core → Core) : (updCore s c f).dies = s.dies := rfl
@[simp] theorem updCore_diePoison (s : State) (c : Nat) (f : Core → Core) : (updCore s c f).diePoison = s.diePoison := rfl
@[simp] theorem updCore_dieAllocs (s : State) (c : Nat) (f : Core → Core) : (updCore s c f).dieAllocs = s.dieAllocs := rfl
@[simp] theorem updCore_ctxs (s : State) (c : Nat) (f : Core → Core) : (updCore s c f).ctxs = s.ctxs := rfl
@[simp] theorem updCore_groups (s : State) (c : Nat) (f : Core → Core) : (updCore s c f).groups = s.groups := rfl
@[simp] theorem updCore_bulks (s : State) (c : Nat) (f : Core → Core) : (updCore s c f).bulks = s.bulks := rfl
@[simp] theorem updCore_notes (s : State) (c : Nat) (f : Core → Core) : (updCore s c f).notes = s.notes := rfl
@[simp] theorem updCore_fw (s : State) (c : Nat) (f : Core → Core) : (updCore s c f).fw = s.fw := rfl
@[simp] theorem updCore_links (s : State) (c : Nat) (f : Core → Core) : (updCore s c f).links = s.links := rfl
@[simp] theorem updCore_routes (s : State) (c : Nat) (f : Core → Core) : (updCore s c f).routes = s.routes := rfl
@[simp] theorem updCore_failedLinks (s : State) (c : Nat) (f : Core → Core) : (updCore s c f).failedLinks = s.failedLinks := rfl
@[simp] theorem updCore_pageAlloc (s : State) (c : Nat) (f : Core → Core) : (updCore s c f).pageAlloc = s.pageAlloc := rfl
@[simp] theorem updCore_pageUsed (s : State) (c : Nat) (f : Core → Core) : (updCore s c f).pageUsed = s.pageUsed := rfl
@[simp] theorem updCore_atomicEn (s : State) (c : Nat) (f : Core → Core) : (updCore s c f).atomicEn = s.atomicEn := rfl
@[simp] theorem updCore_vfs (s : State) (c : Nat) (f : Core → Core) : (updCore s c f).vfs = s.vfs := rfl
@[simp] theorem updCore_msix (s : State) (c : Nat) (f : Core → Core) : (updCore s c f).msix = s.msix := rfl
@[simp] theorem updCore_hostData (s : State) (c : Nat) (f : Core → Core) : (updCore s c f).hostData = s.hostData := rfl
@[simp] theorem updCore_hostUr (s : State) (c : Nat) (f : Core → Core) : (updCore s c f).hostUr = s.hostUr := rfl
@[simp] theorem updCore_peerData (s : State) (c : Nat) (f : Core → Core) : (updCore s c f).peerData = s.peerData := rfl
@[simp] theorem updCore_agenda (s : State) (c : Nat) (f : Core → Core) : (updCore s c f).agenda = s.agenda := rfl
@[simp] theorem updCore_inputs (s : State) (c : Nat) (f : Core → Core) : (updCore s c f).inputs = s.inputs := rfl
@[simp] theorem updCore_cur (s : State) (c : Nat) (f : Core → Core) : (updCore s c f).cur = s.cur := rfl
@[simp] theorem updCore_seq (s : State) (c : Nat) (f : Core → Core) : (updCore s c f).seq = s.seq := rfl
@[simp] theorem updCore_fresh (s : State) (c : Nat) (f : Core → Core) : (updCore s c f).fresh = s.fresh := rfl

@[simp] theorem setCtx_power (s : State) (x : Nat) (k : Context) : (setCtx s x k).power = s.power := rfl
@[simp] theorem setCtx_tick (s : State) (x : Nat) (k : Context) : (setCtx s x k).tick = s.tick := rfl
@[simp] theorem setCtx_stopAt (s : State) (x : Nat) (k : Context) : (setCtx s x k).stopAt = s.stopAt := rfl
@[simp] theorem setCtx_mem (s : State) (x : Nat) (k : Context) : (setCtx s x k).mem = s.mem := rfl
@[simp] theorem setCtx_poison (s : State) (x : Nat) (k : Context) : (setCtx s x k).poison = s.poison := rfl
@[simp] theorem setCtx_corrected (s : State) (x : Nat) (k : Context) : (setCtx s x k).corrected = s.corrected := rfl
@[simp] theorem setCtx_devLines (s : State) (x : Nat) (k : Context) : (setCtx s x k).devLines = s.devLines := rfl
@[simp] theorem setCtx_dies (s : State) (x : Nat) (k : Context) : (setCtx s x k).dies = s.dies := rfl
@[simp] theorem setCtx_diePoison (s : State) (x : Nat) (k : Context) : (setCtx s x k).diePoison = s.diePoison := rfl
@[simp] theorem setCtx_dieAllocs (s : State) (x : Nat) (k : Context) : (setCtx s x k).dieAllocs = s.dieAllocs := rfl
@[simp] theorem setCtx_cores (s : State) (x : Nat) (k : Context) : (setCtx s x k).cores = s.cores := rfl
@[simp] theorem setCtx_groups (s : State) (x : Nat) (k : Context) : (setCtx s x k).groups = s.groups := rfl
@[simp] theorem setCtx_bulks (s : State) (x : Nat) (k : Context) : (setCtx s x k).bulks = s.bulks := rfl
@[simp] theorem setCtx_notes (s : State) (x : Nat) (k : Context) : (setCtx s x k).notes = s.notes := rfl
@[simp] theorem setCtx_fw (s : State) (x : Nat) (k : Context) : (setCtx s x k).fw = s.fw := rfl
@[simp] theorem setCtx_links (s : State) (x : Nat) (k : Context) : (setCtx s x k).links = s.links := rfl
@[simp] theorem setCtx_routes (s : State) (x : Nat) (k : Context) : (setCtx s x k).routes = s.routes := rfl
@[simp] theorem setCtx_failedLinks (s : State) (x : Nat) (k : Context) : (setCtx s x k).failedLinks = s.failedLinks := rfl
@[simp] theorem setCtx_pageAlloc (s : State) (x : Nat) (k : Context) : (setCtx s x k).pageAlloc = s.pageAlloc := rfl
@[simp] theorem setCtx_pageUsed (s : State) (x : Nat) (k : Context) : (setCtx s x k).pageUsed = s.pageUsed := rfl
@[simp] theorem setCtx_atomicEn (s : State) (x : Nat) (k : Context) : (setCtx s x k).atomicEn = s.atomicEn := rfl
@[simp] theorem setCtx_vfs (s : State) (x : Nat) (k : Context) : (setCtx s x k).vfs = s.vfs := rfl
@[simp] theorem setCtx_msix (s : State) (x : Nat) (k : Context) : (setCtx s x k).msix = s.msix := rfl
@[simp] theorem setCtx_hostData (s : State) (x : Nat) (k : Context) : (setCtx s x k).hostData = s.hostData := rfl
@[simp] theorem setCtx_hostUr (s : State) (x : Nat) (k : Context) : (setCtx s x k).hostUr = s.hostUr := rfl
@[simp] theorem setCtx_peerData (s : State) (x : Nat) (k : Context) : (setCtx s x k).peerData = s.peerData := rfl
@[simp] theorem setCtx_agenda (s : State) (x : Nat) (k : Context) : (setCtx s x k).agenda = s.agenda := rfl
@[simp] theorem setCtx_inputs (s : State) (x : Nat) (k : Context) : (setCtx s x k).inputs = s.inputs := rfl
@[simp] theorem setCtx_cur (s : State) (x : Nat) (k : Context) : (setCtx s x k).cur = s.cur := rfl
@[simp] theorem setCtx_seq (s : State) (x : Nat) (k : Context) : (setCtx s x k).seq = s.seq := rfl
@[simp] theorem setCtx_fresh (s : State) (x : Nat) (k : Context) : (setCtx s x k).fresh = s.fresh := rfl

@[simp] theorem updCtx_power (s : State) (x : Nat) (f : Context → Context) : (updCtx s x f).power = s.power := rfl
@[simp] theorem updCtx_tick (s : State) (x : Nat) (f : Context → Context) : (updCtx s x f).tick = s.tick := rfl
@[simp] theorem updCtx_stopAt (s : State) (x : Nat) (f : Context → Context) : (updCtx s x f).stopAt = s.stopAt := rfl
@[simp] theorem updCtx_mem (s : State) (x : Nat) (f : Context → Context) : (updCtx s x f).mem = s.mem := rfl
@[simp] theorem updCtx_poison (s : State) (x : Nat) (f : Context → Context) : (updCtx s x f).poison = s.poison := rfl
@[simp] theorem updCtx_corrected (s : State) (x : Nat) (f : Context → Context) : (updCtx s x f).corrected = s.corrected := rfl
@[simp] theorem updCtx_devLines (s : State) (x : Nat) (f : Context → Context) : (updCtx s x f).devLines = s.devLines := rfl
@[simp] theorem updCtx_dies (s : State) (x : Nat) (f : Context → Context) : (updCtx s x f).dies = s.dies := rfl
@[simp] theorem updCtx_diePoison (s : State) (x : Nat) (f : Context → Context) : (updCtx s x f).diePoison = s.diePoison := rfl
@[simp] theorem updCtx_dieAllocs (s : State) (x : Nat) (f : Context → Context) : (updCtx s x f).dieAllocs = s.dieAllocs := rfl
@[simp] theorem updCtx_cores (s : State) (x : Nat) (f : Context → Context) : (updCtx s x f).cores = s.cores := rfl
@[simp] theorem updCtx_groups (s : State) (x : Nat) (f : Context → Context) : (updCtx s x f).groups = s.groups := rfl
@[simp] theorem updCtx_bulks (s : State) (x : Nat) (f : Context → Context) : (updCtx s x f).bulks = s.bulks := rfl
@[simp] theorem updCtx_notes (s : State) (x : Nat) (f : Context → Context) : (updCtx s x f).notes = s.notes := rfl
@[simp] theorem updCtx_fw (s : State) (x : Nat) (f : Context → Context) : (updCtx s x f).fw = s.fw := rfl
@[simp] theorem updCtx_links (s : State) (x : Nat) (f : Context → Context) : (updCtx s x f).links = s.links := rfl
@[simp] theorem updCtx_routes (s : State) (x : Nat) (f : Context → Context) : (updCtx s x f).routes = s.routes := rfl
@[simp] theorem updCtx_failedLinks (s : State) (x : Nat) (f : Context → Context) : (updCtx s x f).failedLinks = s.failedLinks := rfl
@[simp] theorem updCtx_pageAlloc (s : State) (x : Nat) (f : Context → Context) : (updCtx s x f).pageAlloc = s.pageAlloc := rfl
@[simp] theorem updCtx_pageUsed (s : State) (x : Nat) (f : Context → Context) : (updCtx s x f).pageUsed = s.pageUsed := rfl
@[simp] theorem updCtx_atomicEn (s : State) (x : Nat) (f : Context → Context) : (updCtx s x f).atomicEn = s.atomicEn := rfl
@[simp] theorem updCtx_vfs (s : State) (x : Nat) (f : Context → Context) : (updCtx s x f).vfs = s.vfs := rfl
@[simp] theorem updCtx_msix (s : State) (x : Nat) (f : Context → Context) : (updCtx s x f).msix = s.msix := rfl
@[simp] theorem updCtx_hostData (s : State) (x : Nat) (f : Context → Context) : (updCtx s x f).hostData = s.hostData := rfl
@[simp] theorem updCtx_hostUr (s : State) (x : Nat) (f : Context → Context) : (updCtx s x f).hostUr = s.hostUr := rfl
@[simp] theorem updCtx_peerData (s : State) (x : Nat) (f : Context → Context) : (updCtx s x f).peerData = s.peerData := rfl
@[simp] theorem updCtx_agenda (s : State) (x : Nat) (f : Context → Context) : (updCtx s x f).agenda = s.agenda := rfl
@[simp] theorem updCtx_inputs (s : State) (x : Nat) (f : Context → Context) : (updCtx s x f).inputs = s.inputs := rfl
@[simp] theorem updCtx_cur (s : State) (x : Nat) (f : Context → Context) : (updCtx s x f).cur = s.cur := rfl
@[simp] theorem updCtx_seq (s : State) (x : Nat) (f : Context → Context) : (updCtx s x f).seq = s.seq := rfl
@[simp] theorem updCtx_fresh (s : State) (x : Nat) (f : Context → Context) : (updCtx s x f).fresh = s.fresh := rfl

@[simp] theorem takeSeq_power (s : State) : (takeSeq s).2.power = s.power := rfl
@[simp] theorem takeSeq_tick (s : State) : (takeSeq s).2.tick = s.tick := rfl
@[simp] theorem takeSeq_stopAt (s : State) : (takeSeq s).2.stopAt = s.stopAt := rfl
@[simp] theorem takeSeq_mem (s : State) : (takeSeq s).2.mem = s.mem := rfl
@[simp] theorem takeSeq_poison (s : State) : (takeSeq s).2.poison = s.poison := rfl
@[simp] theorem takeSeq_corrected (s : State) : (takeSeq s).2.corrected = s.corrected := rfl
@[simp] theorem takeSeq_devLines (s : State) : (takeSeq s).2.devLines = s.devLines := rfl
@[simp] theorem takeSeq_dies (s : State) : (takeSeq s).2.dies = s.dies := rfl
@[simp] theorem takeSeq_diePoison (s : State) : (takeSeq s).2.diePoison = s.diePoison := rfl
@[simp] theorem takeSeq_dieAllocs (s : State) : (takeSeq s).2.dieAllocs = s.dieAllocs := rfl
@[simp] theorem takeSeq_cores (s : State) : (takeSeq s).2.cores = s.cores := rfl
@[simp] theorem takeSeq_ctxs (s : State) : (takeSeq s).2.ctxs = s.ctxs := rfl
@[simp] theorem takeSeq_groups (s : State) : (takeSeq s).2.groups = s.groups := rfl
@[simp] theorem takeSeq_bulks (s : State) : (takeSeq s).2.bulks = s.bulks := rfl
@[simp] theorem takeSeq_notes (s : State) : (takeSeq s).2.notes = s.notes := rfl
@[simp] theorem takeSeq_fw (s : State) : (takeSeq s).2.fw = s.fw := rfl
@[simp] theorem takeSeq_links (s : State) : (takeSeq s).2.links = s.links := rfl
@[simp] theorem takeSeq_routes (s : State) : (takeSeq s).2.routes = s.routes := rfl
@[simp] theorem takeSeq_failedLinks (s : State) : (takeSeq s).2.failedLinks = s.failedLinks := rfl
@[simp] theorem takeSeq_pageAlloc (s : State) : (takeSeq s).2.pageAlloc = s.pageAlloc := rfl
@[simp] theorem takeSeq_pageUsed (s : State) : (takeSeq s).2.pageUsed = s.pageUsed := rfl
@[simp] theorem takeSeq_atomicEn (s : State) : (takeSeq s).2.atomicEn = s.atomicEn := rfl
@[simp] theorem takeSeq_vfs (s : State) : (takeSeq s).2.vfs = s.vfs := rfl
@[simp] theorem takeSeq_msix (s : State) : (takeSeq s).2.msix = s.msix := rfl
@[simp] theorem takeSeq_hostData (s : State) : (takeSeq s).2.hostData = s.hostData := rfl
@[simp] theorem takeSeq_hostUr (s : State) : (takeSeq s).2.hostUr = s.hostUr := rfl
@[simp] theorem takeSeq_peerData (s : State) : (takeSeq s).2.peerData = s.peerData := rfl
@[simp] theorem takeSeq_agenda (s : State) : (takeSeq s).2.agenda = s.agenda := rfl
@[simp] theorem takeSeq_inputs (s : State) : (takeSeq s).2.inputs = s.inputs := rfl
@[simp] theorem takeSeq_cur (s : State) : (takeSeq s).2.cur = s.cur := rfl
@[simp] theorem takeSeq_fresh (s : State) : (takeSeq s).2.fresh = s.fresh := rfl

@[simp] theorem takeFresh_power (s : State) : (takeFresh s).2.power = s.power := rfl
@[simp] theorem takeFresh_tick (s : State) : (takeFresh s).2.tick = s.tick := rfl
@[simp] theorem takeFresh_stopAt (s : State) : (takeFresh s).2.stopAt = s.stopAt := rfl
@[simp] theorem takeFresh_mem (s : State) : (takeFresh s).2.mem = s.mem := rfl
@[simp] theorem takeFresh_poison (s : State) : (takeFresh s).2.poison = s.poison := rfl
@[simp] theorem takeFresh_corrected (s : State) : (takeFresh s).2.corrected = s.corrected := rfl
@[simp] theorem takeFresh_devLines (s : State) : (takeFresh s).2.devLines = s.devLines := rfl
@[simp] theorem takeFresh_dies (s : State) : (takeFresh s).2.dies = s.dies := rfl
@[simp] theorem takeFresh_diePoison (s : State) : (takeFresh s).2.diePoison = s.diePoison := rfl
@[simp] theorem takeFresh_dieAllocs (s : State) : (takeFresh s).2.dieAllocs = s.dieAllocs := rfl
@[simp] theorem takeFresh_cores (s : State) : (takeFresh s).2.cores = s.cores := rfl
@[simp] theorem takeFresh_ctxs (s : State) : (takeFresh s).2.ctxs = s.ctxs := rfl
@[simp] theorem takeFresh_groups (s : State) : (takeFresh s).2.groups = s.groups := rfl
@[simp] theorem takeFresh_bulks (s : State) : (takeFresh s).2.bulks = s.bulks := rfl
@[simp] theorem takeFresh_notes (s : State) : (takeFresh s).2.notes = s.notes := rfl
@[simp] theorem takeFresh_fw (s : State) : (takeFresh s).2.fw = s.fw := rfl
@[simp] theorem takeFresh_links (s : State) : (takeFresh s).2.links = s.links := rfl
@[simp] theorem takeFresh_routes (s : State) : (takeFresh s).2.routes = s.routes := rfl
@[simp] theorem takeFresh_failedLinks (s : State) : (takeFresh s).2.failedLinks = s.failedLinks := rfl
@[simp] theorem takeFresh_pageAlloc (s : State) : (takeFresh s).2.pageAlloc = s.pageAlloc := rfl
@[simp] theorem takeFresh_pageUsed (s : State) : (takeFresh s).2.pageUsed = s.pageUsed := rfl
@[simp] theorem takeFresh_atomicEn (s : State) : (takeFresh s).2.atomicEn = s.atomicEn := rfl
@[simp] theorem takeFresh_vfs (s : State) : (takeFresh s).2.vfs = s.vfs := rfl
@[simp] theorem takeFresh_msix (s : State) : (takeFresh s).2.msix = s.msix := rfl
@[simp] theorem takeFresh_hostData (s : State) : (takeFresh s).2.hostData = s.hostData := rfl
@[simp] theorem takeFresh_hostUr (s : State) : (takeFresh s).2.hostUr = s.hostUr := rfl
@[simp] theorem takeFresh_peerData (s : State) : (takeFresh s).2.peerData = s.peerData := rfl
@[simp] theorem takeFresh_agenda (s : State) : (takeFresh s).2.agenda = s.agenda := rfl
@[simp] theorem takeFresh_inputs (s : State) : (takeFresh s).2.inputs = s.inputs := rfl
@[simp] theorem takeFresh_cur (s : State) : (takeFresh s).2.cur = s.cur := rfl
@[simp] theorem takeFresh_seq (s : State) : (takeFresh s).2.seq = s.seq := rfl

@[simp] theorem updThread_crews (co : Core) (i : Nat) (f : Thread → Thread) : (updThread co i f).crews = co.crews := rfl
@[simp] theorem updThread_wgs (co : Core) (i : Nat) (f : Thread → Thread) : (updThread co i f).wgs = co.wgs := rfl
@[simp] theorem updThread_entries (co : Core) (i : Nat) (f : Thread → Thread) : (updThread co i f).entries = co.entries := rfl
@[simp] theorem updThread_cold (co : Core) (i : Nat) (f : Thread → Thread) : (updThread co i f).cold = co.cold := rfl
@[simp] theorem updThread_coldAge (co : Core) (i : Nat) (f : Thread → Thread) : (updThread co i f).coldAge = co.coldAge := rfl
@[simp] theorem updThread_sels (co : Core) (i : Nat) (f : Thread → Thread) : (updThread co i f).sels = co.sels := rfl
@[simp] theorem updThread_splits (co : Core) (i : Nat) (f : Thread → Thread) : (updThread co i f).splits = co.splits := rfl
@[simp] theorem updThread_walks (co : Core) (i : Nat) (f : Thread → Thread) : (updThread co i f).walks = co.walks := rfl
@[simp] theorem updThread_stop (co : Core) (i : Nat) (f : Thread → Thread) : (updThread co i f).stop = co.stop := rfl
@[simp] theorem updThread_ranges (co : Core) (i : Nat) (f : Thread → Thread) : (updThread co i f).ranges = co.ranges := rfl
@[simp] theorem updThread_wants (co : Core) (i : Nat) (f : Thread → Thread) : (updThread co i f).wants = co.wants := rfl
@[simp] theorem updThread_copies (co : Core) (i : Nat) (f : Thread → Thread) : (updThread co i f).copies = co.copies := rfl
@[simp] theorem updThread_late (co : Core) (i : Nat) (f : Thread → Thread) : (updThread co i f).late = co.late := rfl
@[simp] theorem updThread_jobs (co : Core) (i : Nat) (f : Thread → Thread) : (updThread co i f).jobs = co.jobs := rfl
@[simp] theorem updThread_tiles (co : Core) (i : Nat) (f : Thread → Thread) : (updThread co i f).tiles = co.tiles := rfl
@[simp] theorem updThread_pend (co : Core) (i : Nat) (f : Thread → Thread) : (updThread co i f).pend = co.pend := rfl
@[simp] theorem updThread_pins (co : Core) (i : Nat) (f : Thread → Thread) : (updThread co i f).pins = co.pins := rfl
@[simp] theorem updThread_lastSel (co : Core) (i : Nat) (f : Thread → Thread) : (updThread co i f).lastSel = co.lastSel := rfl
@[simp] theorem updThread_trace (co : Core) (i : Nat) (f : Thread → Thread) : (updThread co i f).trace = co.trace := rfl
@[simp] theorem updThread_samples (co : Core) (i : Nat) (f : Thread → Thread) : (updThread co i f).samples = co.samples := rfl

@[simp] theorem updCrew_threads (co : Core) (k : Nat) (f : Crew → Crew) : (updCrew co k f).threads = co.threads := rfl
@[simp] theorem updCrew_wgs (co : Core) (k : Nat) (f : Crew → Crew) : (updCrew co k f).wgs = co.wgs := rfl
@[simp] theorem updCrew_entries (co : Core) (k : Nat) (f : Crew → Crew) : (updCrew co k f).entries = co.entries := rfl
@[simp] theorem updCrew_cold (co : Core) (k : Nat) (f : Crew → Crew) : (updCrew co k f).cold = co.cold := rfl
@[simp] theorem updCrew_coldAge (co : Core) (k : Nat) (f : Crew → Crew) : (updCrew co k f).coldAge = co.coldAge := rfl
@[simp] theorem updCrew_sels (co : Core) (k : Nat) (f : Crew → Crew) : (updCrew co k f).sels = co.sels := rfl
@[simp] theorem updCrew_splits (co : Core) (k : Nat) (f : Crew → Crew) : (updCrew co k f).splits = co.splits := rfl
@[simp] theorem updCrew_walks (co : Core) (k : Nat) (f : Crew → Crew) : (updCrew co k f).walks = co.walks := rfl
@[simp] theorem updCrew_stop (co : Core) (k : Nat) (f : Crew → Crew) : (updCrew co k f).stop = co.stop := rfl
@[simp] theorem updCrew_ranges (co : Core) (k : Nat) (f : Crew → Crew) : (updCrew co k f).ranges = co.ranges := rfl
@[simp] theorem updCrew_wants (co : Core) (k : Nat) (f : Crew → Crew) : (updCrew co k f).wants = co.wants := rfl
@[simp] theorem updCrew_copies (co : Core) (k : Nat) (f : Crew → Crew) : (updCrew co k f).copies = co.copies := rfl
@[simp] theorem updCrew_late (co : Core) (k : Nat) (f : Crew → Crew) : (updCrew co k f).late = co.late := rfl
@[simp] theorem updCrew_jobs (co : Core) (k : Nat) (f : Crew → Crew) : (updCrew co k f).jobs = co.jobs := rfl
@[simp] theorem updCrew_tiles (co : Core) (k : Nat) (f : Crew → Crew) : (updCrew co k f).tiles = co.tiles := rfl
@[simp] theorem updCrew_pend (co : Core) (k : Nat) (f : Crew → Crew) : (updCrew co k f).pend = co.pend := rfl
@[simp] theorem updCrew_pins (co : Core) (k : Nat) (f : Crew → Crew) : (updCrew co k f).pins = co.pins := rfl
@[simp] theorem updCrew_lastSel (co : Core) (k : Nat) (f : Crew → Crew) : (updCrew co k f).lastSel = co.lastSel := rfl
@[simp] theorem updCrew_trace (co : Core) (k : Nat) (f : Crew → Crew) : (updCrew co k f).trace = co.trace := rfl
@[simp] theorem updCrew_samples (co : Core) (k : Nat) (f : Crew → Crew) : (updCrew co k f).samples = co.samples := rfl

@[simp] theorem updWG_threads (co : Core) (k : Nat) (f : WG → WG) : (updWG co k f).threads = co.threads := rfl
@[simp] theorem updWG_crews (co : Core) (k : Nat) (f : WG → WG) : (updWG co k f).crews = co.crews := rfl
@[simp] theorem updWG_entries (co : Core) (k : Nat) (f : WG → WG) : (updWG co k f).entries = co.entries := rfl
@[simp] theorem updWG_cold (co : Core) (k : Nat) (f : WG → WG) : (updWG co k f).cold = co.cold := rfl
@[simp] theorem updWG_coldAge (co : Core) (k : Nat) (f : WG → WG) : (updWG co k f).coldAge = co.coldAge := rfl
@[simp] theorem updWG_sels (co : Core) (k : Nat) (f : WG → WG) : (updWG co k f).sels = co.sels := rfl
@[simp] theorem updWG_splits (co : Core) (k : Nat) (f : WG → WG) : (updWG co k f).splits = co.splits := rfl
@[simp] theorem updWG_walks (co : Core) (k : Nat) (f : WG → WG) : (updWG co k f).walks = co.walks := rfl
@[simp] theorem updWG_stop (co : Core) (k : Nat) (f : WG → WG) : (updWG co k f).stop = co.stop := rfl
@[simp] theorem updWG_ranges (co : Core) (k : Nat) (f : WG → WG) : (updWG co k f).ranges = co.ranges := rfl
@[simp] theorem updWG_wants (co : Core) (k : Nat) (f : WG → WG) : (updWG co k f).wants = co.wants := rfl
@[simp] theorem updWG_copies (co : Core) (k : Nat) (f : WG → WG) : (updWG co k f).copies = co.copies := rfl
@[simp] theorem updWG_late (co : Core) (k : Nat) (f : WG → WG) : (updWG co k f).late = co.late := rfl
@[simp] theorem updWG_jobs (co : Core) (k : Nat) (f : WG → WG) : (updWG co k f).jobs = co.jobs := rfl
@[simp] theorem updWG_tiles (co : Core) (k : Nat) (f : WG → WG) : (updWG co k f).tiles = co.tiles := rfl
@[simp] theorem updWG_pend (co : Core) (k : Nat) (f : WG → WG) : (updWG co k f).pend = co.pend := rfl
@[simp] theorem updWG_pins (co : Core) (k : Nat) (f : WG → WG) : (updWG co k f).pins = co.pins := rfl
@[simp] theorem updWG_lastSel (co : Core) (k : Nat) (f : WG → WG) : (updWG co k f).lastSel = co.lastSel := rfl
@[simp] theorem updWG_trace (co : Core) (k : Nat) (f : WG → WG) : (updWG co k f).trace = co.trace := rfl
@[simp] theorem updWG_samples (co : Core) (k : Nat) (f : WG → WG) : (updWG co k f).samples = co.samples := rfl

@[simp] theorem setSel_threads (co : Core) (n : Nat) (x : Selector) : (setSel co n x).threads = co.threads := rfl
@[simp] theorem setSel_crews (co : Core) (n : Nat) (x : Selector) : (setSel co n x).crews = co.crews := rfl
@[simp] theorem setSel_wgs (co : Core) (n : Nat) (x : Selector) : (setSel co n x).wgs = co.wgs := rfl
@[simp] theorem setSel_entries (co : Core) (n : Nat) (x : Selector) : (setSel co n x).entries = co.entries := rfl
@[simp] theorem setSel_cold (co : Core) (n : Nat) (x : Selector) : (setSel co n x).cold = co.cold := rfl
@[simp] theorem setSel_coldAge (co : Core) (n : Nat) (x : Selector) : (setSel co n x).coldAge = co.coldAge := rfl
@[simp] theorem setSel_splits (co : Core) (n : Nat) (x : Selector) : (setSel co n x).splits = co.splits := rfl
@[simp] theorem setSel_walks (co : Core) (n : Nat) (x : Selector) : (setSel co n x).walks = co.walks := rfl
@[simp] theorem setSel_stop (co : Core) (n : Nat) (x : Selector) : (setSel co n x).stop = co.stop := rfl
@[simp] theorem setSel_ranges (co : Core) (n : Nat) (x : Selector) : (setSel co n x).ranges = co.ranges := rfl
@[simp] theorem setSel_wants (co : Core) (n : Nat) (x : Selector) : (setSel co n x).wants = co.wants := rfl
@[simp] theorem setSel_copies (co : Core) (n : Nat) (x : Selector) : (setSel co n x).copies = co.copies := rfl
@[simp] theorem setSel_late (co : Core) (n : Nat) (x : Selector) : (setSel co n x).late = co.late := rfl
@[simp] theorem setSel_jobs (co : Core) (n : Nat) (x : Selector) : (setSel co n x).jobs = co.jobs := rfl
@[simp] theorem setSel_tiles (co : Core) (n : Nat) (x : Selector) : (setSel co n x).tiles = co.tiles := rfl
@[simp] theorem setSel_pend (co : Core) (n : Nat) (x : Selector) : (setSel co n x).pend = co.pend := rfl
@[simp] theorem setSel_pins (co : Core) (n : Nat) (x : Selector) : (setSel co n x).pins = co.pins := rfl
@[simp] theorem setSel_lastSel (co : Core) (n : Nat) (x : Selector) : (setSel co n x).lastSel = co.lastSel := rfl
@[simp] theorem setSel_trace (co : Core) (n : Nat) (x : Selector) : (setSel co n x).trace = co.trace := rfl
@[simp] theorem setSel_samples (co : Core) (n : Nat) (x : Selector) : (setSel co n x).samples = co.samples := rfl

theorem coreOf_setCore (s : State) (c d : Nat) (co : Core) : coreOf (setCore s c co) d = if d = c then co else coreOf s d := by
  unfold coreOf setCore
  simp only [get?_put]
  split <;> rfl
@[simp] theorem coreOf_setCore_self (s : State) (c : Nat) (co : Core) : coreOf (setCore s c co) c = co := by simp [coreOf_setCore]
theorem coreOf_updCore (s : State) (c d : Nat) (f : Core → Core) : coreOf (updCore s c f) d = if d = c then f (coreOf s c) else coreOf s d :=
  coreOf_setCore s c d _
@[simp] theorem coreOf_updCore_self (s : State) (c : Nat) (f : Core → Core) : coreOf (updCore s c f) c = f (coreOf s c) := by simp [coreOf_updCore]
@[simp] theorem coreOf_setCtx (s : State) (x c : Nat) (k : Context) : coreOf (setCtx s x k) c = coreOf s c := rfl
@[simp] theorem coreOf_updCtx (s : State) (x c : Nat) (f : Context → Context) : coreOf (updCtx s x f) c = coreOf s c := rfl
@[simp] theorem coreOf_takeSeq (s : State) (c : Nat) : coreOf (takeSeq s).2 c = coreOf s c := rfl
@[simp] theorem ctxOf_setCore (s : State) (x c : Nat) (co : Core) : ctxOf (setCore s c co) x = ctxOf s x := rfl
@[simp] theorem ctxOf_updCore (s : State) (x c : Nat) (f : Core → Core) : ctxOf (updCore s c f) x = ctxOf s x := rfl
@[simp] theorem ctxOf_takeSeq (s : State) (x : Nat) : ctxOf (takeSeq s).2 x = ctxOf s x := rfl
theorem ctxOf_setCtx (s : State) (x y : Nat) (k : Context) : ctxOf (setCtx s x k) y = if y = x then k else ctxOf s y := by
  unfold ctxOf setCtx
  simp only [get?_put]
  split <;> rfl
/-- An update of a context that is there, and of no other. -/
theorem ctxOf_updCtx (s : State) (x y : Nat) (f : Context → Context) :
    ctxOf (updCtx s x f) y = if y = x then (if (get? s.ctxs x).isSome then f (ctxOf s x) else ctxOf s x) else ctxOf s y := by
  unfold ctxOf updCtx
  simp only [get?_modify]
  split
  · next h => subst h; cases get? s.ctxs y <;> simp
  · rfl

end Sys2Proof.Machine
end

