-- ==== Sys2Proof/Laws/Issue.lean ====
section
/-! SUPPORT. What the shared operations of an issue do to the threads and to the core: the steps around the lanes keep what a thread holds. -/
set_option Elab.async false
namespace Sys2Proof.Machine

/-! ### Steps that keep what threads, crews and workgroups hold -/

/-- The core keeps what its threads, crews and workgroups hold, and everything in flight. -/
structure Keeps (co co' : Core) : Prop where
  threads : ∀ i, (get? co'.threads i).map Thread.held = (get? co.threads i).map Thread.held
  crews : ∀ k, (get? co'.crews k).map Crew.held = (get? co.crews k).map Crew.held
  wgs : ∀ k, (get? co'.wgs k).map WG.held = (get? co.wgs k).map WG.held
  pend : co'.pend = co.pend
  copies : co'.copies = co.copies
  ranges : co'.ranges = co.ranges
  jobs : co'.jobs = co.jobs
  tiles : co'.tiles = co.tiles

theorem Keeps.refl (co : Core) : Keeps co co := ⟨fun _ => rfl, fun _ => rfl, fun _ => rfl, rfl, rfl, rfl, rfl, rfl⟩
theorem Keeps.trans {a b c : Core} (h : Keeps a b) (g : Keeps b c) : Keeps a c :=
  ⟨fun i => (g.threads i).trans (h.threads i), fun i => (g.crews i).trans (h.crews i), fun i => (g.wgs i).trans (h.wgs i),
   g.pend.trans h.pend, g.copies.trans h.copies, g.ranges.trans h.ranges, g.jobs.trans h.jobs, g.tiles.trans h.tiles⟩
/-- A change of the parts that hold no thread, crew, workgroup or access. -/
theorem Keeps.of_eq {co co' : Core} (h1 : co'.threads = co.threads) (h2 : co'.crews = co.crews) (h3 : co'.wgs = co.wgs) (h4 : co'.pend = co.pend)
    (h5 : co'.copies = co.copies) (h6 : co'.ranges = co.ranges) (h7 : co'.jobs = co.jobs) (h8 : co'.tiles = co.tiles) : Keeps co co' :=
  ⟨fun _ => by rw [h1], fun _ => by rw [h2], fun _ => by rw [h3], h4, h5, h6, h7, h8⟩

theorem map_modify {β γ : Type} (m : SMap β) (n : Nat) (f : β → β) (g : β → γ) (h : ∀ x, g (f x) = g x) (k : Nat) :
    (get? (modify m n f) k).map g = (get? m k).map g := by
  rw [get?_modify]
  split
  · next hk => subst hk; cases get? m k <;> simp [h]
  · rfl

theorem updThread_keeps (co : Core) (i : Nat) (f : Thread → Thread) (h : ∀ t, (f t).held = t.held) : Keeps co (updThread co i f) :=
  ⟨fun k => map_modify _ _ _ _ h k, fun _ => rfl, fun _ => rfl, rfl, rfl, rfl, rfl, rfl⟩
theorem updThreads_keeps (co : Core) (l : List Nat) (f : Thread → Thread) (h : ∀ t, (f t).held = t.held) : Keeps co (updThreads co l f) := by
  induction l generalizing co with
  | nil => exact Keeps.refl co
  | cons i r ih => exact (updThread_keeps co i f h).trans (ih _)
theorem updCrew_keeps (co : Core) (i : Nat) (f : Crew → Crew) (h : ∀ t, (f t).held = t.held) : Keeps co (updCrew co i f) :=
  ⟨fun _ => rfl, fun k => map_modify _ _ _ _ h k, fun _ => rfl, rfl, rfl, rfl, rfl, rfl⟩
theorem updWG_keeps (co : Core) (i : Nat) (f : WG → WG) (h : ∀ t, (f t).held = t.held) : Keeps co (updWG co i f) :=
  ⟨fun _ => rfl, fun _ => rfl, fun k => map_modify _ _ _ _ h k, rfl, rfl, rfl, rfl, rfl⟩
theorem unbatch_keeps (co : Core) (l : List Nat) : Keeps co (unbatch co l) := .of_eq rfl rfl rfl rfl rfl rfl rfl rfl
theorem thaw_keeps (co : Core) : Keeps co (thaw co) := by
  unfold thaw
  split
  · exact .of_eq rfl rfl rfl rfl rfl rfl rfl rfl
  · exact .refl co
theorem thawAll_keeps (n : Nat) (co : Core) : Keeps co (thawAll n co) := by
  induction n generalizing co with
  | zero => exact .refl co
  | succ n ih => exact (thaw_keeps co).trans (ih _)
theorem unentry_keeps (co : Core) (l : List Nat) : Keeps co (unentry co l) :=
  Keeps.trans (b := { co with entries := co.entries.filterMap (fun (k, e) => (e.drop l).map (k, ·)), cold := co.cold.filterMap (Entry.drop l) })
    (.of_eq rfl rfl rfl rfl rfl rfl rfl rfl) (thawAll_keeps _ _)
theorem unwalk_keeps (co : Core) (l : List Nat) : Keeps co (unwalk co l) := .of_eq rfl rfl rfl rfl rfl rfl rfl rfl
theorem mapBatch_keeps (co : Core) (sel id : Nat) (f : Batch → Batch) : Keeps co (mapBatch co sel id f) := .of_eq rfl rfl rfl rfl rfl rfl rfl rfl
theorem dropBatch_keeps (co : Core) (sel id : Nat) : Keeps co (dropBatch co sel id) := .of_eq rfl rfl rfl rfl rfl rfl rfl rfl
theorem toWalker_keeps (co : Core) (sel : Nat) (l : List Nat) (a : WalkAct) : Keeps co (toWalker co sel l a) := by
  unfold toWalker; split
  · exact .refl co
  · exact .of_eq rfl rfl rfl rfl rfl rfl rfl rfl
theorem putEntry_keeps (co : Core) (e : Entry) (g : Bool) : Keeps co (putEntry co e g) := by
  unfold putEntry
  dsimp only
  repeat' split
  all_goals exact .of_eq rfl rfl rfl rfl rfl rfl rfl rfl
theorem holdBody_keeps (co : Core) (l : List Nat) : Keeps co (holdBody co l) := by
  unfold holdBody
  repeat' split
  all_goals first | exact .refl co | exact updCrew_keeps _ _ _ (by intro; rfl)

/-! ### The same of the state -/

/-- One core changes, and keeps what it holds; contexts keep all but their issue counts; nothing else changes. -/
structure KeepsAt (c : Nat) (s t : State) : Prop where
  core : Keeps (coreOf s c) (coreOf t c)
  others : ∀ d, d ≠ c → coreOf t d = coreOf s d
  ctxs : ∀ x, { ctxOf t x with issueSpent := [] } = { ctxOf s x with issueSpent := [] }
  rest : { t with cores := [], ctxs := [] } = { s with cores := [], ctxs := [] }

theorem KeepsAt.refl (c : Nat) (s : State) : KeepsAt c s s := ⟨.refl _, fun _ _ => rfl, fun _ => rfl, rfl⟩
theorem KeepsAt.trans {c : Nat} {a b d : State} (h : KeepsAt c a b) (g : KeepsAt c b d) : KeepsAt c a d :=
  ⟨h.core.trans g.core, fun k hk => (g.others k hk).trans (h.others k hk), fun x => (g.ctxs x).trans (h.ctxs x), g.rest.trans h.rest⟩
theorem updCore_keepsAt (s : State) (c : Nat) (f : Core → Core) (h : Keeps (coreOf s c) (f (coreOf s c))) : KeepsAt c s (updCore s c f) :=
  ⟨by simpa using h, fun d hd => by simp [coreOf_updCore, hd], fun _ => rfl, rfl⟩

theorem deposit_keepsAt (s : State) (c : Nat) (l : List Nat) (pos : Pos) (r : Option Reason) (ord : Nat) (g : Bool) :
    KeepsAt c s (deposit s c l pos r ord g) := by
  unfold deposit
  split
  · exact .refl c s
  · refine updCore_keepsAt s c _ ?_
    dsimp only
    split
    · exact .refl _
    · exact (updThreads_keeps _ _ _ (by intro; rfl)).trans (putEntry_keeps _ _ g)

theorem takeTrap_keepsAt (s : State) (c sel : Nat) (l : List (Nat × TrapInfo)) : KeepsAt c s (takeTrap s c sel l) := by
  unfold takeTrap
  split
  · exact .refl c s
  · refine updCore_keepsAt s c _ ?_
    have h := (unbatch_keeps (coreOf s c) (l.map (·.1))).trans ((unentry_keeps _ (l.map (·.1))).trans (unwalk_keeps _ (l.map (·.1))))
    dsimp only
    generalize unwalk (unentry (unbatch (coreOf s c) (l.map (·.1))) (l.map (·.1))) (l.map (·.1)) = co at h ⊢
    exact h.trans (.of_eq rfl rfl rfl rfl rfl rfl rfl rfl)

theorem dissolve_keepsAt (s : State) (c sel id : Nat) : KeepsAt c s (dissolve s c sel id) := by
  unfold dissolve
  split
  · exact .refl c s
  · refine KeepsAt.trans (updCore_keepsAt s c _ ?_) (deposit_keepsAt ..)
    exact ((holdBody_keeps _ _).trans (updThreads_keeps _ _ _ (by intro; rfl))).trans (dropBatch_keeps ..)

theorem advance_keeps (co : Core) (sel id : Nat) : Keeps co (advance co sel id) := by
  unfold advance
  split
  · exact .refl co
  · split
    · split
      · exact (mapBatch_keeps ..).trans (updThreads_keeps _ _ _ (by intro; rfl))
      · exact (dropBatch_keeps ..).trans (toWalker_keeps ..)
    · exact .refl co

theorem updCtx_keepsAt (s : State) (c x : Nat) (f : Context → Context) (h : ∀ k, { f k with issueSpent := [] } = { k with issueSpent := [] }) :
    KeepsAt c s (updCtx s x f) := by
  refine ⟨.refl _, fun _ _ => rfl, fun y => ?_, rfl⟩
  rw [ctxOf_updCtx]
  split
  · next hy => subst hy; split <;> simp [h]
  · rfl

theorem Keeps.leave {a b : Core} (h : Keeps a b) (sel : Nat) (l : List Nat) (w : WalkAct) :
    Keeps a (if l.isEmpty then b else toWalker (unbatch b l) sel l w) := by
  split
  · exact h
  · exact h.trans ((unbatch_keeps _ _).trans (toWalker_keeps _ _ _ _))

theorem stepTraps_keepsAt (s : State) (c sel id : Nat) (l : List Nat) : KeepsAt c s (stepTraps s c sel id l) := by
  unfold stepTraps
  dsimp only
  split
  · exact .refl c s
  · split
    · exact .refl c s
    · refine KeepsAt.trans (updCore_keepsAt s c _ ?_) (takeTrap_keepsAt _ c _ _)
      exact Keeps.leave (updThreads_keeps _ _ _ (by intro; rfl)) _ _ _

theorem foldl_keeps {α : Type} (l : List α) (f : Core → α → Core) (h : ∀ co a, Keeps co (f co a)) (co : Core) : Keeps co (l.foldl f co) := by
  induction l generalizing co with
  | nil => exact .refl co
  | cons a r ih => exact (h co a).trans (ih _)
/-- A fold of updates of workgroups alone leaves the selectors and what stops the core. -/
theorem foldl_updWG_side (g : WG → WG) (l : List Nat) (co : Core) :
    (l.foldl (fun co base => updWG co base g) co).sels = co.sels ∧ (l.foldl (fun co base => updWG co base g) co).stop = co.stop := by
  induction l generalizing co with
  | nil => exact ⟨rfl, rfl⟩
  | cons a r ih => exact ih _

theorem countIssue_keepsAt (s : State) (c ctx : Nat) (bases : List Nat) (page : Nat) : KeepsAt c s (countIssue s c ctx bases page) := by
  unfold countIssue
  refine KeepsAt.trans (updCore_keepsAt s c _ (foldl_keeps _ _ (fun _ _ => updWG_keeps _ _ _ ?_) _)) (updCtx_keepsAt _ c _ _ ?_) <;> intro _ <;> rfl
theorem countIssue_side (s : State) (c ctx : Nat) (bases : List Nat) (page : Nat) :
    (coreOf (countIssue s c ctx bases page) c).sels = (coreOf s c).sels ∧ (coreOf (countIssue s c ctx bases page) c).stop = (coreOf s c).stop := by
  simp only [countIssue, coreOf_updCtx, coreOf_updCore_self]
  exact foldl_updWG_side ..

theorem noteIssue_keepsAt (s : State) (e : Env) (b : Bool) : KeepsAt e.c s (noteIssue s e b) :=
  updCore_keepsAt s e.c _ (.of_eq rfl rfl rfl rfl rfl rfl rfl rfl)
/-- What counts the issue: it keeps everything held, the selectors and the pending traps. -/
def counted (s : State) (e : Env) (b : Bool) : State :=
  noteIssue (countIssue s e.c e.w.ctx (basesOf e) (((wordVA e.s e.w.ctx e.b.pos e.r.nv).getD 0) / 4096)) e b
theorem counted_keepsAt (s : State) (e : Env) (b : Bool) : KeepsAt e.c s (counted s e b) :=
  (countIssue_keepsAt ..).trans (noteIssue_keepsAt ..)
theorem counted_find (s : State) (e : Env) (b : Bool) : findBatch (coreOf (counted s e b) e.c) e.sel e.b.id = findBatch (coreOf s e.c) e.sel e.b.id := by
  simp only [counted, noteIssue, findBatch, selOf, coreOf_updCore_self, (countIssue_side ..).1]
theorem counted_pending (s : State) (e : Env) (b : Bool) : (coreOf (counted s e b) e.c).stop.pending = (coreOf s e.c).stop.pending := by
  simp only [counted, noteIssue, coreOf_updCore_self, (countIssue_side ..).2]

theorem chargeWord_keepsAt (s : State) (c : Nat) (w : Word64) (l : List Nat) : KeepsAt c s (chargeWord s c w l) := by
  unfold chargeWord
  split
  · exact .refl c s
  · refine updCore_keepsAt s c _ (foldl_keeps _ _ (fun co j => ?_) _)
    split
    · exact updWG_keeps _ _ _ (by intro; rfl)
    · exact .refl co

/-! ### The end of an issue -/

/-- The x registers after a repetition, as a function of the x registers and the step set (R81). -/
def stepX (xm : Nat) (x : SMap (BitVec 24)) (l : List Nat) : SMap (BitVec 24) :=
  l.foldl (fun x j =>
    if (xm / 2 ^ j) % 2 = 1 then rput 0 x j (mkX (xOrg (rget 0 x j)) (xLen (rget 0 x j)) (min (xIdx (rget 0 x j) + 1) 255)) else x) x

theorem foldl_setX (xm : Nat) (l : List Nat) (t : Thread) :
    l.foldl (fun t j => if (xm / 2 ^ j) % 2 = 1 then
      t.setX j (mkX (xOrg (t.getX j)) (xLen (t.getX j)) (min (xIdx (t.getX j) + 1) 255)) else t) t = { t with x := stepX xm t.x l } := by
  induction l generalizing t with
  | nil => rfl
  | cons j r ih =>
    simp only [List.foldl_cons, ih, stepX]
    split <;> rfl

/-- A repetition changes the x registers and REPST alone. -/
theorem repStep_eq (t : Thread) : repStep t =
    if repAct t then
      let xm := bits t.repst.toNat 14 8
      let rem := bits t.repst.toNat 7 7 - 1
      { t with
        x := stepX xm t.x (List.range 8)
        repst := if rem = 0 then 0 else BitVec.ofNat 32 (2 ^ 31 + xm * 2 ^ 14 + rem * 2 ^ 7 + (repCur t + 1)) }
    else t := by
  unfold repStep
  split
  · simp only [foldl_setX]; rfl
  · rfl

theorem held_repStep (t : Thread) : (repStep t).held = repStep t.held := by
  rw [repStep_eq, repStep_eq]
  have h : repAct t.held = repAct t := rfl
  rw [h]
  cases repAct t <;> rfl
theorem repStep_held {t u : Thread} (h : t.held = u.held) : (repStep t).held = (repStep u).held := by rw [held_repStep, held_repStep, h]

theorem finishWord_held (t : Thread) : (Thread.finishWord t).held = (repStep t).held := repStep_held rfl

theorem get?_updThreads (co : Core) (l : List Nat) (f : Thread → Thread) (hl : l.Nodup) (i : Nat) :
    get? (updThreads co l f).threads i = (get? co.threads i).map fun t => if i ∈ l then f t else t := by
  induction l generalizing co with
  | nil => simp only [updThreads, List.foldl_nil, List.not_mem_nil, if_false]; cases get? co.threads i <;> rfl
  | cons j r ih =>
    have hj := List.nodup_cons.1 hl
    have := ih (updThread co j f) hj.2
    unfold updThreads at this ⊢
    rw [List.foldl_cons, this]
    simp only [updThread, get?_modify, List.mem_cons]
    by_cases hij : i = j
    · subst hij; simp [hj.1]; cases get? co.threads i <;> rfl
    · simp [hij]

theorem nodup_unionSlots (b : List Nat) : (unionSlots [] b).Nodup :=
  (unionSlots_rising .nil b).imp fun h => Nat.ne_of_lt h

theorem markDone_keeps (co : Core) (sel id : Nat) (l : List Nat) : Keeps co (markDone co sel id l) := mapBatch_keeps ..

theorem Ends.trans {c : Nat} {l : List Nat} {a b d : State} (h : Ends c l a b) (g : KeepsAt c b d) : Ends c l a d :=
  ⟨fun i => (g.core.threads i).trans (h.threads i), fun i => (g.core.crews i).trans (h.crews i), fun i => (g.core.wgs i).trans (h.wgs i),
   g.core.pend.trans h.pend, g.core.copies.trans h.copies, g.core.ranges.trans h.ranges, g.core.jobs.trans h.jobs, g.core.tiles.trans h.tiles,
   fun k hk => (g.others k hk).trans (h.others k hk), fun x => (g.ctxs x).trans (h.ctxs x), g.rest.trans h.rest⟩

theorem findBatch_updWG (co : Core) (k : Nat) (f : WG → WG) (sel id : Nat) : findBatch (updWG co k f) sel id = findBatch co sel id := rfl

/-- The marks of an issue that is no REP. -/
def marked (e : Env) (p : WordSpec) (done : List Nat) (regather : Bool) (co : Core) : Core :=
  let here := match findBatch co e.sel e.b.id with
    | some b => if p.again && regather then [] else unionSlots [] (done.filter b.slots.contains)
    | none => []
  markDone (updThreads co here Thread.finishWord) e.sel e.b.id here

theorem updThreads_rest (co : Core) (l : List Nat) (f : Thread → Thread) : updThreads co l f = { co with threads := (updThreads co l f).threads } := by
  unfold updThreads
  induction l generalizing co with
  | nil => rfl
  | cons i r ih => rw [List.foldl_cons, ih]; rfl

/-- The end of an issue without a waiting lane, after its marks: all is kept. -/
theorem settle_tail {s : State} {e : Env} {p : WordSpec} {done : List Nat} {traps : List (Nat × TrapInfo)} (hp : p.rep = 0) :
    KeepsAt e.c (updCore (counted s e (!traps.isEmpty)) e.c
      (marked e p done (e.crewB && (!traps.isEmpty && ((done.any (fun i => repAct (e.thread i)) || traps.any fun (i, _) => repAct (e.thread i)) || p.again)))))
      (settle s e p done traps []) := by
  unfold settle
  dsimp only [holdLanes]
  simp only [hp, ↓reduceIte, List.isEmpty_nil, Bool.not_true, Bool.false_or]
  refine KeepsAt.trans ?_ (stepTraps_keepsAt ..)
  rw [← counted]
  generalize (e.crewB && (!traps.isEmpty && ((done.any (fun i => repAct (e.thread i)) || traps.any fun (i, _) => repAct (e.thread i)) || p.again))) = g
  have hold := fun x : State => updCore_keepsAt x e.c (fun co => holdBody co e.b.slots) (holdBody_keeps ..)
  have take := fun x : State => takeTrap_keepsAt x e.c e.sel traps
  have mark := fun x : State => updCore_keepsAt x e.c (fun co => mapBatch co e.sel e.b.id fun b => { b with done := b.slots }) (mapBatch_keeps ..)
  have diss := fun x : State => dissolve_keepsAt x e.c e.sel e.b.id
  have adv := fun x : State => updCore_keepsAt x e.c (fun co => advance co e.sel e.b.id) (advance_keeps ..)
  split
  · split
    · exact (((hold _).trans (take _)).trans (mark _)).trans (diss _)
    · exact ((hold _).trans (take _)).trans (diss _)
  · exact (take _).trans (adv _)

/-- THE END OF AN ISSUE in which no lane waits and that is no REP: the lanes that completed the word end a repetition, unless a crew-precise
word trapped; every thread keeps what it holds; trapping lanes, the batch, entries and walks change besides. -/
theorem settle_ends {s : State} {e : Env} {p : WordSpec} {done : List Nat} {traps : List (Nat × TrapInfo)} {b : Batch} (hp : p.rep = 0)
    (ha : p.again = false ∨ traps = []) (hb : findBatch (coreOf s e.c) e.sel e.b.id = some b) :
    Ends e.c (done.filter b.slots.contains) s (settle s e p done traps []) := by
  refine Ends.trans ?_ (settle_tail hp)
  generalize hg : (e.crewB && (!traps.isEmpty && ((done.any (fun i => repAct (e.thread i)) || traps.any fun (i, _) => repAct (e.thread i)) || p.again))) = g
  have hag : (p.again && g) = false := by
    rcases ha with h | rfl
    · rw [h]; rfl
    · rw [← hg]; simp
  have h1 := counted_keepsAt s e (!traps.isEmpty)
  have hb1 := (counted_find s e (!traps.isEmpty)).trans hb
  generalize counted s e (!traps.isEmpty) = s1 at h1 hb1 ⊢
  have hm : marked e p done g (coreOf s1 e.c) = markDone (updThreads (coreOf s1 e.c) (unionSlots [] (done.filter b.slots.contains)) Thread.finishWord)
      e.sel e.b.id (unionSlots [] (done.filter b.slots.contains)) := by
    simp only [marked, hb1, hag, Bool.false_eq_true, if_false]
  have hk := markDone_keeps (updThreads (coreOf s1 e.c) (unionSlots [] (done.filter b.slots.contains)) Thread.finishWord) e.sel e.b.id
    (unionSlots [] (done.filter b.slots.contains))
  have hr := updThreads_rest (coreOf s1 e.c) (unionSlots [] (done.filter b.slots.contains)) Thread.finishWord
  refine ⟨fun i => ?_, fun k => ?_, fun k => ?_, ?_, ?_, ?_, ?_, ?_, fun d hd => ?_, fun x => ?_, ?_⟩
  · simp only [coreOf_updCore_self, hm]
    rw [hk.threads, get?_updThreads _ _ _ (nodup_unionSlots _)]
    have := h1.core.threads i
    revert this
    cases get? (coreOf s1 e.c).threads i <;> cases get? (coreOf s e.c).threads i <;> intro this <;> simp at this ⊢
    simp only [mem_unionSlots, List.not_mem_nil, false_or, List.mem_filter, List.contains_iff_mem]
    split
    · rw [finishWord_held]; exact repStep_held this
    · exact this
  · simp only [coreOf_updCore_self, hm]; rw [hk.crews, hr]; exact h1.core.crews k
  · simp only [coreOf_updCore_self, hm]; rw [hk.wgs, hr]; exact h1.core.wgs k
  · simp only [coreOf_updCore_self, hm]; rw [hk.pend, hr]; exact h1.core.pend
  · simp only [coreOf_updCore_self, hm]; rw [hk.copies, hr]; exact h1.core.copies
  · simp only [coreOf_updCore_self, hm]; rw [hk.ranges, hr]; exact h1.core.ranges
  · simp only [coreOf_updCore_self, hm]; rw [hk.jobs, hr]; exact h1.core.jobs
  · simp only [coreOf_updCore_self, hm]; rw [hk.tiles, hr]; exact h1.core.tiles
  · rw [coreOf_updCore, if_neg hd]; exact h1.others d hd
  · exact h1.ctxs x
  · exact h1.rest

/-- The same where the batch is gone: no thread of it ends a repetition. -/
theorem settle_ends_none {s : State} {e : Env} {p : WordSpec} {done : List Nat} {traps : List (Nat × TrapInfo)} (hp : p.rep = 0)
    (hb : findBatch (coreOf s e.c) e.sel e.b.id = none) : KeepsAt e.c s (settle s e p done traps []) := by
  refine KeepsAt.trans ?_ (settle_tail hp)
  refine (counted_keepsAt s e (!traps.isEmpty)).trans (updCore_keepsAt _ e.c _ ?_)
  simp only [marked, counted_find, hb]
  exact markDone_keeps (updThreads _ [] Thread.finishWord) e.sel e.b.id []

theorem KeepsAt.ends {c : Nat} {a b : State} (h : KeepsAt c a b) : Ends c [] a b :=
  ⟨fun i => by
    have := h.core.threads i
    simpa using this, h.core.crews, h.core.wgs, h.core.pend, h.core.copies, h.core.ranges, h.core.jobs, h.core.tiles, h.others, h.ctxs, h.rest⟩

/-- The end of an issue, wherever its batch is. -/
theorem settle_here (s : State) (e : Env) (p : WordSpec) (done : List Nat) (traps : List (Nat × TrapInfo)) (hp : p.rep = 0)
    (ha : p.again = false ∨ traps = []) : Ends e.c (hereOf e done s) s (settle s e p done traps []) := by
  unfold hereOf
  cases hb : findBatch (coreOf s e.c) e.sel e.b.id with
  | some b => exact settle_ends hp ha hb
  | none => exact (settle_ends_none hp hb).ends

/-- Only which slots there are counts. -/
theorem Ends.congr {c : Nat} {l k : List Nat} {a b : State} (h : Ends c l a b) (hl : ∀ i, i ∈ l ↔ i ∈ k) : Ends c k a b :=
  ⟨fun i => by rw [h.threads i]; simp only [hl], h.crews, h.wgs, h.pend, h.copies, h.ranges, h.jobs, h.tiles, h.others, h.ctxs, h.rest⟩
/-- A change before the end that keeps everything. -/
theorem KeepsAt.endsTrans {c : Nat} {l : List Nat} {a b d : State} (h : KeepsAt c a b) (g : Ends c l b d) : Ends c l a d :=
  ⟨fun i => by
    have h1 := h.core.threads i
    rw [g.threads i]
    revert h1
    cases get? (coreOf b c).threads i <;> cases get? (coreOf a c).threads i <;> intro h1 <;> simp at h1 ⊢
    split
    · exact repStep_held h1
    · exact h1,
   fun i => (g.crews i).trans (h.core.crews i), fun i => (g.wgs i).trans (h.core.wgs i), g.pend.trans h.core.pend, g.copies.trans h.core.copies,
   g.ranges.trans h.core.ranges, g.jobs.trans h.core.jobs, g.tiles.trans h.core.tiles,
   fun k hk => (g.others k hk).trans (h.others k hk), fun x => (g.ctxs x).trans (h.ctxs x), g.rest.trans h.rest⟩

/-! ### Traps become pending (R316) -/

theorem chargeWord_side (s : State) (c : Nat) (w : Word64) (l : List Nat) :
    (coreOf (chargeWord s c w l) c).sels = (coreOf s c).sels ∧ (coreOf (chargeWord s c w l) c).stop = (coreOf s c).stop := by
  unfold chargeWord
  split
  · exact ⟨rfl, rfl⟩
  · simp only [coreOf_updCore_self]
    generalize coreOf s c = co
    generalize (if (energyOf _).2 = true then List.take 1 l else l) = who
    induction who generalizing co with
    | nil => exact ⟨rfl, rfl⟩
    | cons j r ih =>
      simp only [List.foldl_cons]
      refine ⟨(ih _).1.trans ?_, (ih _).2.trans ?_⟩ <;> split <;> rfl

theorem deposit_stop (s : State) (c : Nat) (l : List Nat) (pos : Pos) (r : Option Reason) (ord : Nat) (g : Bool) :
    (coreOf (deposit s c l pos r ord g) c).stop = (coreOf s c).stop := by
  unfold deposit
  split
  · rfl
  · simp only [coreOf_updCore_self]
    split
    · rfl
    · unfold putEntry
      dsimp only
      have h : ∀ (co : Core) (l : List Nat) (f : Thread → Thread), (updThreads co l f).stop = co.stop := by
        intro co l f
        unfold updThreads
        induction l generalizing co with
        | nil => rfl
        | cons i r ih => exact ih (updThread co i f)
      repeat' split
      all_goals exact h ..

theorem updThreads_stop (co : Core) (l : List Nat) (f : Thread → Thread) : (updThreads co l f).stop = co.stop := by
  unfold updThreads
  induction l generalizing co with
  | nil => rfl
  | cons i r ih => exact ih (updThread co i f)

theorem holdBody_stop (co : Core) (l : List Nat) : (holdBody co l).stop = co.stop := by
  unfold holdBody; repeat' split
  all_goals rfl
theorem toWalker_stop (co : Core) (sel : Nat) (l : List Nat) (a : WalkAct) : (toWalker co sel l a).stop = co.stop := by
  unfold toWalker; split <;> rfl
theorem advance_stop (co : Core) (sel id : Nat) : (advance co sel id).stop = co.stop := by
  unfold advance
  split
  · rfl
  · split
    · split
      · exact updThreads_stop ..
      · exact toWalker_stop ..
    · rfl
theorem dissolve_stop (s : State) (c sel id : Nat) : (coreOf (dissolve s c sel id) c).stop = (coreOf s c).stop := by
  unfold dissolve
  split
  · rfl
  · rw [deposit_stop, coreOf_updCore_self]
    exact (updThreads_stop ..).trans (holdBody_stop ..)

theorem thawAll_stop (n : Nat) (co : Core) : (thawAll n co).stop = co.stop := by
  induction n generalizing co with
  | zero => rfl
  | succ n ih =>
    refine (ih _).trans ?_
    unfold thaw
    split <;> rfl
theorem unentry_stop (co : Core) (l : List Nat) : (unentry co l).stop = co.stop := thawAll_stop ..
theorem unbatch_stop (co : Core) (l : List Nat) : (unbatch co l).stop = co.stop := rfl
theorem unwalk_stop (co : Core) (l : List Nat) : (unwalk co l).stop = co.stop := rfl
theorem groupByCode_nil (n sel : Nat) : groupByCode n sel [] = [] := rfl
theorem takeTrap_pending (s : State) (c sel : Nat) (l : List (Nat × TrapInfo)) :
    (coreOf (takeTrap s c sel l) c).stop.pending = (coreOf s c).stop.pending ++
      groupByCode (now s) sel (l.map fun (i, x) => (i, { x with sel := sel, tick := s.tick })) := by
  unfold takeTrap
  split
  · next h => rw [List.isEmpty_iff.1 h]; simp [groupByCode_nil]
  · simp only [coreOf_updCore_self]
    rw [unwalk_stop, unentry_stop, unbatch_stop]

theorem leave_stop (a : Core) (sel : Nat) (l : List Nat) (w : WalkAct) :
    (if l.isEmpty then a else toWalker (unbatch a l) sel l w).stop = a.stop := by
  split
  · rfl
  · exact toWalker_stop ..

theorem stepTraps_pending (s : State) (c sel id : Nat) (l : List Nat) :
    ∃ rest, (coreOf (stepTraps s c sel id l) c).stop.pending = (coreOf s c).stop.pending ++ rest := by
  unfold stepTraps
  dsimp only
  split
  · exact ⟨[], by simp⟩
  · split
    · exact ⟨[], by simp⟩
    · rw [takeTrap_pending]
      refine ⟨_, congrArg (· ++ _) ?_⟩
      rw [coreOf_updCore_self]
      exact congrArg (·.pending) ((leave_stop ..).trans (updThreads_stop ..))

theorem mapBatch_stop (co : Core) (sel id : Nat) (f : Batch → Batch) : (mapBatch co sel id f).stop = co.stop := rfl
theorem markAll_stop (co : Core) (sel id : Nat) (l k : List Nat) (f : Thread → Thread) : (markDone (updThreads co l f) sel id k).stop = co.stop :=
  updThreads_stop ..

theorem marked_stop (e : Env) (p : WordSpec) (done : List Nat) (g : Bool) (co : Core) : (marked e p done g co).stop = co.stop := markAll_stop ..

/-- The traps of an issue in which no lane waits are pending. -/
theorem settle_pending (s : State) (e : Env) (p : WordSpec) (done : List Nat) (traps : List (Nat × TrapInfo)) (hp : p.rep = 0) :
    ∃ rest, (coreOf (settle s e p done traps []) e.c).stop.pending = (coreOf s e.c).stop.pending ++
      groupByCode (now s) e.sel (traps.map fun (i, x) => (i, { x with sel := e.sel, tick := s.tick })) ++ rest := by
  unfold settle
  dsimp only [holdLanes]
  simp only [hp, ↓reduceIte, List.isEmpty_nil, Bool.not_true, Bool.false_or]
  rw [← counted]
  generalize (e.crewB && (!traps.isEmpty && ((done.any (fun i => repAct (e.thread i)) || traps.any fun (i, _) => repAct (e.thread i)) || p.again))) = g
  obtain ⟨s2, h2⟩ : ∃ s2, s2 = updCore (counted s e (!traps.isEmpty)) e.c (marked e p done g) := ⟨_, rfl⟩
  have hs2 : (coreOf s2 e.c).stop.pending = (coreOf s e.c).stop.pending := by
    rw [h2, coreOf_updCore_self, marked_stop]; exact counted_pending ..
  have ht2 : s2.tick = s.tick := by rw [h2]; rfl
  have fin : ∀ z b : State, (coreOf b e.c).stop = (coreOf (takeTrap z e.c e.sel traps) e.c).stop → (coreOf z e.c).stop.pending = (coreOf s e.c).stop.pending →
      z.tick = s.tick → ∃ rest, (coreOf (stepTraps b e.c e.sel e.b.id done) e.c).stop.pending = (coreOf s e.c).stop.pending ++
        groupByCode (now s) e.sel (traps.map fun (i, x) => (i, { x with sel := e.sel, tick := s.tick })) ++ rest := by
    intro z b hb hz ht
    obtain ⟨rest, hr⟩ := stepTraps_pending b e.c e.sel e.b.id done
    exact ⟨rest, by rw [hr, hb, takeTrap_pending, hz, now, ht]; rfl⟩
  have hold : ∀ x : State, (coreOf (updCore x e.c fun co => holdBody co e.b.slots) e.c).stop = (coreOf x e.c).stop := fun x => by
    rw [coreOf_updCore_self, holdBody_stop]
  split
  · split
    · exact fin _ _ ((dissolve_stop ..).trans (by rw [coreOf_updCore_self]; exact mapBatch_stop ..)) ((congrArg Stop.pending (hold _)).trans (by rw [← hs2, h2]; rfl)) (by rfl)
    · exact fin _ _ (dissolve_stop ..) ((congrArg Stop.pending (hold _)).trans (by rw [← hs2, h2]; rfl)) (by rfl)
  · exact fin _ _ (by rw [coreOf_updCore_self, advance_stop]) (by rw [← hs2, h2]; rfl) (by rfl)

/-! ### The issue of a word that touches its threads alone -/

theorem runLanes_pure (f : Env → Nat → Thread → L LaneOut) (e : Env) (s : State) (l : List Nat) :
    runLanes (pureLane f) e s l = (l.map fun i => (i, f e i (e.thread i)), s) := by
  induction l with
  | nil => rfl
  | cons i r ih =>
    simp only [runLanes, pureLane, List.map_cons]
    cases h : f e i (e.thread i) <;> simp [bind, Except.bind, pure, Except.pure, ih]

/-- The threads after the lanes of `l` that completed are stored. -/
theorem get?_putLanes (res : Nat → L LaneOut) (l : List Nat) (co : Core) (i : Nat) :
    get? ((l.map fun i => (i, res i)).filterMap okLane |>.foldl (fun (co : Core) (i, o) => { co with threads := put co.threads i o.t }) co).threads i =
      if i ∈ l then (match res i with | .ok o => some o.t | .error _ => get? co.threads i) else get? co.threads i := by
  induction l generalizing co with
  | nil => rfl
  | cons j r ih =>
    cases hj : res j with
    | error b =>
      simp only [List.map_cons, List.filterMap_cons, okLane, hj, ih, List.mem_cons]
      by_cases hij : i = j
      · subst hij; simp [hj]
      · simp [hij]
    | ok o =>
      simp only [List.map_cons, List.filterMap_cons, okLane, hj, List.foldl_cons, ih, List.mem_cons, get?_put]
      by_cases hij : i = j
      · subst hij; simp [hj]
      · simp [hij]

/-- WIDE of the lanes whose permutation came back (R39). -/
theorem get?_widenLanes (e : Env) (p : WordSpec) (l : List Nat) (co : Core) (i : Nat) :
    get? (widenLanes e p l co).threads i = (get? co.threads i).map fun t => if i ∈ l then widened e p i t else t := by
  unfold widenLanes
  induction l generalizing co with
  | nil => simp only [List.foldl_nil, List.not_mem_nil, if_false]; cases get? co.threads i <;> rfl
  | cons j r ih =>
    simp only [List.foldl_cons, ih, List.mem_cons]
    by_cases hij : i = j
    · subst hij
      by_cases hw : p.perms.any (wideHit e i) = true
      · simp only [hw, if_true, updThread, get?_modify, true_or]
        cases get? co.threads i with
        | none => rfl
        | some t =>
          simp only [Option.map_some, widened, hw, if_true]
          split
          · simp [BitVec.or_assoc]
          · rfl
      · simp [hw, widened]
    · have hm : (i = j ∨ i ∈ r) ↔ i ∈ r := ⟨fun h => h.resolve_left hij, .inr⟩
      simp only [hm]
      by_cases hw : p.perms.any (wideHit e j) = true
      · simp only [hw, if_true, updThread, get?_modify, hij, if_false]
      · simp only [hw]; rfl

/-- A fold of steps that change the threads alone changes the threads alone. -/
theorem foldl_threads {α : Type} (f : Core → α → Core) (h : ∀ co a, f co a = { co with threads := (f co a).threads }) (l : List α) (co : Core) :
    l.foldl f co = { co with threads := (l.foldl f co).threads } := by
  induction l generalizing co with
  | nil => rfl
  | cons a r ih => rw [List.foldl_cons, ih, h co a]

theorem widenLanes_rest (e : Env) (p : WordSpec) (l : List Nat) (co : Core) :
    widenLanes e p l co = { co with threads := (widenLanes e p l co).threads } := by
  refine foldl_threads _ (fun co j => ?_) l co
  by_cases hw : p.perms.any (wideHit e j) = true
  · simp only [hw, if_true]; rfl
  · simp only [hw]; rfl

/-- The core once the lanes of a word are stored: their threads, WIDE, the queue registers and the affine register. -/
structure Stored (e : Env) (p : WordSpec) (res : Nat → L LaneOut) (live : List Nat) (co co' : Core) : Prop where
  threads : ∀ i, get? co'.threads i =
    if i ∈ live then (match res i with | .ok o => some (widened e p i o.t) | .error _ => get? co.threads i) else get? co.threads i
  crews : ∀ k, get? co'.crews k = (get? co.crews k).map fun x =>
    match p.aff, live.head? with
    | some n, some i =>
      match res i with
      | .ok o => if k = (e.thread i).crew ∧ live.all (fun j => !earlyTrap (j, res j)) then
          { x with aff := rput 0 x.aff n (pair (BitVec.ofNat 32 o.out) (BitVec.ofNat 32 (o.out / 2 ^ 32))), affOld := hideAff e x n } else x
      | .error _ => x
    | _, _ => x
  wgs : ∀ k, get? co'.wgs k = (get? co.wgs k).map fun w =>
    if k = e.base ∧ outsOf res live ≠ [] then { w with queues := queuesAfter e p (outsOf res live) w } else w
  pend : co'.pend = co.pend
  copies : co'.copies = co.copies
  ranges : co'.ranges = co.ranges
  jobs : co'.jobs = co.jobs
  tiles : co'.tiles = co.tiles
  sels : co'.sels = co.sels
  stop : co'.stop = co.stop

theorem popQueues_eq (w : WG) (qs : List Nat) : popQueues w qs = { w with queues := (popQueues w qs).queues } := by
  unfold popQueues
  generalize List.foldl insertSlot [] qs = l
  induction l generalizing w with
  | nil => rfl
  | cons q r ih => rw [List.foldl_cons, ih]

theorem oks_outs (res : Nat → L LaneOut) (live : List Nat) :
    ((live.map fun i => (i, res i)).filterMap okLane).map (fun (i, o) => (i, o.out)) = outsOf res live := by
  induction live with
  | nil => rfl
  | cons i r ih =>
    unfold outsOf at ih ⊢
    cases h : res i <;> simp only [List.map_cons, List.filterMap_cons, okLane, h, ← ih]

theorem oks_slots (res : Nat → L LaneOut) (live : List Nat) (i : Nat) :
    i ∈ ((live.map fun i => (i, res i)).filterMap okLane).map (·.1) ↔ i ∈ live ∧ ∃ o, res i = .ok o := by
  induction live with
  | nil => simp
  | cons j r ih =>
    cases h : res j with
    | error b =>
      simp only [List.map_cons, List.filterMap_cons, okLane, h, ih, List.mem_cons]
      constructor
      · rintro ⟨h1, h2⟩; exact ⟨.inr h1, h2⟩
      · rintro ⟨rfl | h1, o, h2⟩
        · rw [h] at h2; cases h2
        · exact ⟨h1, o, h2⟩
    | ok o =>
      simp only [List.map_cons, List.filterMap_cons, okLane, h, ih, List.mem_cons]
      constructor
      · rintro (rfl | ⟨h1, h2⟩)
        · exact ⟨.inl rfl, o, h⟩
        · exact ⟨.inr h1, h2⟩
      · rintro ⟨rfl | h1, o', h2⟩
        · exact .inl rfl
        · exact .inr ⟨h1, o', h2⟩

/-- The contexts and all that is no core are as they were. -/
structure ModuleOf (s t : State) : Prop where
  ctxs : t.ctxs = s.ctxs
  rest : { t with cores := [], ctxs := [] } = { s with cores := [], ctxs := [] }
theorem ModuleOf.upd (s : State) (c : Nat) (f : Core → Core) : ModuleOf s (updCore s c f) := ⟨rfl, rfl⟩
theorem ModuleOf.trans {a b c : State} (h : ModuleOf a b) (g : ModuleOf b c) : ModuleOf a c := ⟨g.ctxs.trans h.ctxs, g.rest.trans h.rest⟩

/-- What the lanes of a word leave. -/
theorem storeLanes_stored (s : State) (e : Env) (p : WordSpec) (res : Nat → L LaneOut) (live : List Nat) (oks : List (Nat × LaneOut))
    (early : Bool) (hu : p.unit = false) (hoks : oks = (live.map fun i => (i, res i)).filterMap okLane) (hearly : early = (live.map fun i => (i, res i)).any earlyTrap) :
    Stored e p res live (coreOf s e.c) (coreOf (storeLanes e p live oks [] early s) e.c) ∧
      (∀ d, d ≠ e.c → coreOf (storeLanes e p live oks [] early s) d = coreOf s d) ∧ ModuleOf s (storeLanes e p live oks [] early s) := by
  let s1 := updCore s e.c fun co => oks.foldl (fun co (i, o) => { co with threads := put co.threads i o.t }) co
  let s2 := updCore s1 e.c fun co => widenLanes e p (oks.map (·.1) ++ []) co
  let s3 := if oks.isEmpty then s2 else updCore s2 e.c fun co => updWG co e.base fun w => popQueues w (popsOf e p)
  let s4 := match p.push with
    | some q => if oks.isEmpty then s3 else updCore s3 e.c fun co => updWG co e.base fun w => pushQueue w q (entryOf e.width (oks.map fun (i, (o : LaneOut)) => (i, o.out)))
    | none => s3
  let s5 := match p.aff, live.head?, oks.head? with
    | some n, some i, some (j, o) =>
      if early || decide (i ≠ j) then s4
      else updCore s4 e.c fun co => updCrew co (e.thread i).crew fun k => { k with aff := rput 0 k.aff n (pair (BitVec.ofNat 32 o.out) (BitVec.ofNat 32 (o.out / 2 ^ 32))), affOld := hideAff e k n }
    | _, _, _ => s4
  have hstore : storeLanes e p live oks [] early s = s5 := by
    simp only [storeLanes, hu, Bool.false_and, Bool.false_eq_true, if_false, List.isEmpty_nil, Bool.and_true]; rfl
  rw [hstore]
  have hos : ∀ i, i ∈ oks.map (·.1) ↔ i ∈ live ∧ ∃ o, res i = .ok o := hoks ▸ oks_slots res live
  have hou : (oks.map fun x => (x.1, x.2.out)) = outsOf res live := hoks ▸ oks_outs res live
  have he : oks.isEmpty = true ↔ outsOf res live = [] := by
    rw [← hou, List.isEmpty_iff]; exact (List.map_eq_nil_iff).symm
  -- the threads
  generalize hco0 : coreOf s e.c = co0
  obtain ⟨co1, hco1⟩ : ∃ co1, co1 = oks.foldl (fun (co : Core) (i, o) => { co with threads := put co.threads i o.t }) co0 := ⟨_, rfl⟩
  obtain ⟨co2, hco2⟩ : ∃ co2, co2 = widenLanes e p (oks.map (·.1) ++ []) co1 := ⟨_, rfl⟩
  have c2 : coreOf s2 e.c = co2 := by simp only [s2, s1, coreOf_updCore_self, hco0, hco1, hco2]
  have r1 : co1 = { co0 with threads := co1.threads } := by
    subst hco1; exact foldl_threads (fun (co : Core) (a : Nat × LaneOut) => { co with threads := put co.threads a.1 a.2.t }) (fun _ _ => rfl) _ _
  have r2 : co2 = { co0 with threads := co2.threads } := by
    have := widenLanes_rest e p (oks.map (·.1) ++ []) co1
    rw [← hco2, r1] at this
    exact this
  have t2 : ∀ i, get? co2.threads i =
      if i ∈ live then (match res i with | .ok o => some (widened e p i o.t) | .error _ => get? co0.threads i) else get? co0.threads i := by
    intro i
    have t1 : get? co1.threads i =
        if i ∈ live then (match res i with | .ok o => some o.t | .error _ => get? co0.threads i) else get? co0.threads i := by
      rw [hco1, hoks]; exact get?_putLanes res live co0 i
    rw [hco2, get?_widenLanes, t1, List.append_nil]
    have hm := hos i
    by_cases hi : i ∈ live
    · cases hr : res i with
      | ok o => rw [if_pos hi, if_pos hi, Option.map_some, if_pos (hm.2 ⟨hi, o, hr⟩)]
      | error b =>
        have hn : i ∉ oks.map (·.1) := fun h => by obtain ⟨_, o, h⟩ := hm.1 h; rw [hr] at h; cases h
        rw [if_pos hi]; dsimp only; cases get? co0.threads i <;> simp only [Option.map_none, Option.map_some, if_neg hn]
    · have hn : i ∉ oks.map (·.1) := fun h => hi (hm.1 h).1
      rw [if_neg hi, if_neg hi]; cases get? co0.threads i <;> simp only [Option.map_none, Option.map_some, if_neg hn]
  have o2 : ∀ d, d ≠ e.c → coreOf s2 d = coreOf s d := fun d hd => by simp [s2, s1, coreOf_updCore, hd]
  -- the queue registers
  have c4 : coreOf s4 e.c = if oks.isEmpty then co2 else updWG co2 e.base fun w => { w with queues := queuesAfter e p (outsOf res live) w } := by
    have c3 : coreOf s3 e.c = if oks.isEmpty then co2 else updWG co2 e.base fun w => popQueues w (popsOf e p) := by
      simp only [s3]; split
      · exact c2
      · rw [coreOf_updCore_self, c2]
    simp only [s4]
    split
    · next q hq =>
      split
      · next h => rw [c3, if_pos h]
      · next h =>
        rw [coreOf_updCore_self, c3, if_neg h]
        simp only [updWG, modify_modify, hou]
        refine congrArg (fun f => { co2 with wgs := modify co2.wgs e.base f }) (funext fun w => ?_)
        simp only [Function.comp, queuesAfter, hq]
        rw [popQueues_eq]; rfl
    · next hq =>
      rw [c3]
      split
      · rfl
      · refine congrArg (updWG co2 e.base) (funext fun w => ?_)
        simp only [queuesAfter, hq]
        exact popQueues_eq w (popsOf e p)
  have o4 : ∀ d, d ≠ e.c → coreOf s4 d = coreOf s d := by
    intro d hd
    have o3 : coreOf s3 d = coreOf s d := by
      simp only [s3]; split
      · exact o2 d hd
      · rw [coreOf_updCore, if_neg hd]; exact o2 d hd
    simp only [s4]; split
    · split
      · exact o3
      · rw [coreOf_updCore, if_neg hd]; exact o3
    · exact o3
  have x4 : ModuleOf s s4 := by
    have x3 : ModuleOf s s3 := by
      simp only [s3]; split
      · exact ((ModuleOf.upd s _ _).trans (.upd _ _ _))
      · exact ((ModuleOf.upd s _ _).trans (.upd _ _ _)).trans (.upd _ _ _)
    simp only [s4]; split
    · split
      · exact x3
      · exact x3.trans (.upd _ _ _)
    · exact x3
  have w4 : ∀ k, get? (coreOf s4 e.c).wgs k = (get? co0.wgs k).map fun w =>
      if k = e.base ∧ outsOf res live ≠ [] then { w with queues := queuesAfter e p (outsOf res live) w } else w := by
    intro k
    have hw : co2.wgs = co0.wgs := by rw [r2]
    rw [c4]
    split
    · next h => rw [hw]; simp only [he.1 h, ne_eq, not_true_eq_false, and_false, if_false]; cases get? co0.wgs k <;> rfl
    · next h =>
      have hn : outsOf res live ≠ [] := fun hx => h (he.2 hx)
      simp only [updWG, get?_modify, hw, hn, ne_eq, not_false_eq_true, and_true]
      by_cases hk : k = e.base
      · subst hk; simp
      · simp only [hk, if_false]; cases get? co0.wgs k <;> rfl
  have r4 : coreOf s4 e.c = { co0 with threads := co2.threads, wgs := (coreOf s4 e.c).wgs } := by
    have hw : ∀ b : Bool, (if b then co2 else updWG co2 e.base fun w => { w with queues := queuesAfter e p (outsOf res live) w }) =
        { co0 with threads := co2.threads, wgs := (if b then co2 else updWG co2 e.base fun w => { w with queues := queuesAfter e p (outsOf res live) w }).wgs } := by
      intro b
      generalize (fun w : WG => { w with queues := queuesAfter e p (outsOf res live) w }) = f
      clear c4 w4 t2 c2 o2 hco2 o4 x4
      rw [r2]; cases b <;> rfl
    rw [c4]; exact hw _
  -- the affine register
  have hear : early = false ↔ live.all (fun j => !earlyTrap (j, res j)) = true := by
    rw [hearly]; simp [List.any_map]
  have keep : (∀ (x : Crew) (k : Nat), (match p.aff, live.head? with
      | some n, some i =>
        match res i with
        | .ok o => if k = (e.thread i).crew ∧ live.all (fun j => !earlyTrap (j, res j)) then
            { x with aff := rput 0 x.aff n (pair (BitVec.ofNat 32 o.out) (BitVec.ofNat 32 (o.out / 2 ^ 32))), affOld := hideAff e x n } else x
        | .error _ => x
      | _, _ => x) = x) → Stored e p res live co0 (coreOf s4 e.c) := by
    intro hg
    refine ⟨fun i => ?_, fun k => ?_, w4, ?_, ?_, ?_, ?_, ?_, ?_, ?_⟩
    · rw [← t2 i, r4]
    · rw [r4]; simp only [hg]; cases get? co0.crews k <;> rfl
    all_goals rw [r4]
  cases hp : p.aff with
  | none =>
    have h5 : s5 = s4 := by simp only [s5, hp]
    rw [h5]; exact ⟨keep (by simp [hp]), o4, x4⟩
  | some n =>
    cases hl : live with
    | nil =>
      have h5 : s5 = s4 := by simp only [s5, hp, hl]; rfl
      rw [h5, ← hl]; exact ⟨keep (by simp [hl]), o4, x4⟩
    | cons i r =>
      cases hr : res i with
      | error b =>
        have h5 : s5 = s4 := by
          simp only [s5, hp, hl, List.head?_cons]
          cases hh : oks.head? with
          | none => rfl
          | some a =>
            obtain ⟨j, o⟩ := a
            have hij : i ≠ j := by
              rintro rfl
              obtain ⟨_, o', h⟩ := (hos i).1 (List.mem_map.2 ⟨_, List.mem_of_mem_head? hh, rfl⟩)
              rw [hr] at h; cases h
            simp [hij]
        rw [h5, ← hl]; exact ⟨keep (by simp [hl, hp, hr]), o4, x4⟩
      | ok o =>
        have hh : oks.head? = some (i, o) := by rw [hoks, hl]; simp [okLane, hr]
        by_cases he : early = true
        · have h5 : s5 = s4 := by simp only [s5, hp, hl, List.head?_cons, hh, he, Bool.true_or, if_true]
          have hn : ¬ live.all (fun j => !earlyTrap (j, res j)) = true := fun h => by rw [hear.2 h] at he; cases he
          rw [h5, ← hl]; exact ⟨keep (by intro x k; rw [hp, hl]; simp only [List.head?_cons, hr]; rw [← hl]; exact if_neg fun h => hn h.2), o4, x4⟩
        · have he' : early = false := by simpa using he
          have hn := hear.1 he'
          have h5 : s5 = updCore s4 e.c fun co => updCrew co (e.thread i).crew fun k =>
              { k with aff := rput 0 k.aff n (pair (BitVec.ofNat 32 o.out) (BitVec.ofNat 32 (o.out / 2 ^ 32))), affOld := hideAff e k n } := by
            simp only [s5, hp, hl, List.head?_cons, hh, he', ne_eq, not_true_eq_false, decide_false, Bool.or_false, Bool.false_eq_true, if_false]
          rw [h5, ← hl, coreOf_updCore_self]
          refine ⟨⟨fun i => ?_, fun k => ?_, w4, ?_, ?_, ?_, ?_, ?_, ?_, ?_⟩, fun d hd => by rw [coreOf_updCore, if_neg hd]; exact o4 d hd, x4.trans (.upd _ _ _)⟩
          · rw [← t2 i]; show get? (coreOf s4 e.c).threads i = _; rw [r4]
          · have hc : (coreOf s4 e.c).crews = co0.crews := by rw [r4]
            simp only [updCrew, get?_modify, hc, hp, hn, and_true]
            rw [hl]; simp only [List.head?_cons, hr]
            by_cases hk : k = (e.thread i).crew
            · subst hk; simp
            · simp only [hk, if_false]; cases get? co0.crews k <;> rfl
          all_goals (simp only [updCrew]; rw [r4])

theorem envOf_state {s : State} {e : Env} (h : envOf s = some e) : e.s = s ∧ e.co = coreOf s e.c ∧ findBatch (coreOf s e.c) e.sel e.b.id = some e.b := by
  unfold envOf at h
  cases hu : s.cur with
  | none => rw [hu] at h; cases h
  | some u =>
    rw [hu] at h
    dsimp only at h
    cases hf : (selOf (coreOf s u.core) u.sel).batches.find? fun b => decide (b.id = u.batch) with
    | none => rw [hf] at h; cases h
    | some b =>
      rw [hf] at h
      dsimp only at h
      repeat' split at h
      all_goals cases h
      have hb := List.find?_some hf
      simp only [decide_eq_true_eq] at hb
      refine ⟨rfl, rfl, ?_⟩
      simp only [findBatch, hb]
      exact hf

theorem mem_participants {e : Env} {i : Nat} (h : i ∈ participants e) : i ∈ e.b.slots := by
  simp only [participants, List.mem_filter, mem_minus] at h; exact h.1.1
theorem mem_liveOf {e : Env} {g : Guard} {a : Bool} {i : Nat} (h : i ∈ liveOf e g a) : i ∈ participants e := by
  simp only [liveOf, List.mem_filter, mem_minus] at h; exact h.1.1

theorem trapsOf_eq (e : Env) (res : Nat → L LaneOut) (live : List Nat) :
    (live.map fun i => (i, res i)).filterMap (trapLane e) = trapsOf e res live := by
  simp only [trapsOf, List.filterMap_map]; rfl

/-- What a word leaves before the end of its issue, when every lane that executes it completes. -/
def effectOf (e : Env) (p : WordSpec) (post : Env → List (Nat × LaneOut) → State → State) (oks : List (Nat × LaneOut)) (s : State) : State :=
  let x := post e oks (chargeWord (storeLanes e p (oks.map (·.1)) oks [] false s) e.c e.word (oks.map (·.1)))
  match p.once, oks.head? with
  | some f, some (j, o) => f e j o x
  | _, _ => x

theorem partition_all {A P K : Prop} (hp : P → A ∧ ¬K) (hl : K → A) : ((P ∨ (A ∧ ¬P) ∧ ¬K) ∨ K) ↔ A :=
  ⟨fun h => h.elim (fun h => h.elim (fun x => (hp x).1) fun x => x.1.1) hl, fun a => by
    by_cases k : K
    · exact .inr k
    · by_cases x : P
      · exact .inl (.inl x)
      · exact .inl (.inr ⟨⟨a, x⟩, k⟩)⟩
theorem partition_rest {A P K : Prop} (hp : P → A ∧ ¬K) : (P ∨ (A ∧ ¬P) ∧ ¬K) ↔ A ∧ ¬K :=
  ⟨fun h => h.elim hp fun x => ⟨x.1.1, x.2⟩, fun a => by
    by_cases x : P
    · exact .inl x
    · exact .inr ⟨⟨a.1, x⟩, a.2⟩⟩

/-- THE ISSUE OF A WORD WHOSE LANES ALL COMPLETE: its effect, then the end of the issue. -/
theorem issueWord_leads {s s' : State} {e : Env} {p : WordSpec} {lane : Lane} {post : Env → List (Nat × LaneOut) → State → State}
    {oks : List (Nat × LaneOut)} (h : Issues s e p) (hr : p.rep = 0)
    (hs : oks.map (·.1) = liveOf e p.g p.again) (hl : runLanes lane e s (oks.map (·.1)) = (oks.map fun x => (x.1, .ok x.2), s')) :
    ∃ t, issueWord s p lane post = .next t ∧
      Ends e.c (hereOf e (if p.unit then minus (participants e) (oks.map (·.1)) else participants e) (effectOf e p post oks s'))
        (effectOf e p post oks s') t := by
  have hbody : (p.crew && !e.crewB) = false := by
    cases hc : p.crew with
    | false => rfl
    | true => simp [h.body hc]
  have hg := h.gate
  rw [← hs] at hg
  have hnil : ∀ {β : Type} (f : Nat × Except Bar LaneOut → Option β), (∀ i o, f (i, .ok o) = none) →
      (oks.map fun x => (x.1, (.ok x.2 : L LaneOut))).filterMap f = [] := by
    intro β f hf
    rw [List.filterMap_eq_nil_iff]
    intro x hx
    obtain ⟨y, hy, rfl⟩ := List.mem_map.1 hx
    exact hf _ _
  have hany : ∀ (f : Nat × Except Bar LaneOut → Bool), (∀ i o, f (i, .ok o) = false) →
      (oks.map fun x => (x.1, (.ok x.2 : L LaneOut))).any f = false := by
    intro f hf
    rw [List.any_eq_false]
    intro x hx
    obtain ⟨y, hy, rfl⟩ := List.mem_map.1 hx
    simp [hf]
  have hok : (oks.map fun x => (x.1, (.ok x.2 : L LaneOut))).filterMap okLane = oks := by
    clear hs hl hg hnil hany
    induction oks with
    | nil => rfl
    | cons a r ih => simp only [List.map_cons, List.filterMap_cons, okLane, ih]
  obtain ⟨done, ht, hd⟩ : ∃ done, issueWord s p lane post = .next (settle (effectOf e p post oks s') e p done [] []) ∧
      ∀ i, i ∈ done ↔ i ∈ (if p.unit then minus (participants e) (oks.map (·.1)) else participants e) := by
    refine ⟨unionSlots (unionSlots (passedOf e p.again) (minus (minus (participants e) (passedOf e p.again)) (oks.map (·.1))))
      (if p.unit then [] else oks.map (·.1)), ?_, ?_⟩
    · unfold issueWord
      simp only [h.env, h.legal, hbody, ← hs, hg, hl, Bool.not_true, Bool.false_eq_true, if_false]
      rw [hany isStall (fun _ _ => rfl), hany earlyTrap (fun _ _ => rfl), hnil holdLane (fun _ _ => rfl), hnil (trapLane e) (fun _ _ => rfl), hok]
      simp only [List.filter_nil, List.isEmpty_nil, Bool.not_true, Bool.false_and, Bool.or_false, Bool.false_eq_true, if_false, List.map_nil, List.append_nil]
      refine congrArg (fun z => Host.Outcome.next (settle z _ _ _ _ _)) ?_
      unfold effectOf
      cases p.once with
      | none => rfl
      | some f => cases oks with
        | nil => rfl
        | cons a r => simp
    · intro i
      have hp : ∀ i, i ∈ passedOf e p.again → i ∈ participants e ∧ i ∉ oks.map (·.1) := by
        intro i hi
        refine ⟨by simp only [passedOf, List.mem_filter] at hi; exact hi.1, fun hl => ?_⟩
        rw [hs] at hl
        simp only [liveOf, List.mem_filter, mem_minus] at hl
        exact hl.1.2 hi
      have hl : ∀ i, i ∈ oks.map (·.1) → i ∈ participants e := by
        intro i hi; rw [hs] at hi; exact mem_liveOf hi
      have hp := hp i
      have hl := hl i
      cases p.unit <;> simp only [mem_unionSlots, mem_minus, Bool.false_eq_true, if_false, if_true, List.not_mem_nil, or_false]
      · exact partition_all hp hl
      · exact partition_rest hp
  refine ⟨_, ht, ?_⟩
  refine (settle_here (effectOf e p post oks s') e p done [] hr (.inr rfl)).congr fun i => ?_
  unfold hereOf
  cases findBatch (coreOf (effectOf e p post oks s') e.c) e.sel e.b.id with
  | none => rfl
  | some b => simp only [List.mem_filter, hd]

/-- The same for a word that one lane executes. -/
theorem issueWord_lone {s s' : State} {e : Env} {p : WordSpec} {lane : Lane} {post : Env → List (Nat × LaneOut) → State → State} {i : Nat}
    {o : LaneOut} (h : Lone s e p i) (hr : p.rep = 0) (hu : p.unit = false) (hl : lane e s i (e.thread i) = .ok (o, s')) :
    ∃ t, issueWord s p lane post = .next t ∧
      Ends e.c (hereOf e (participants e) (effectOf e p post [(i, o)] s')) (effectOf e p post [(i, o)] s') t := by
  have := issueWord_leads (post := post) (lane := lane) (oks := [(i, o)]) (s' := s') h.issues hr h.only.symm
    (by simp only [List.map_cons, List.map_nil, runLanes, hl])
  simpa only [hu, Bool.false_eq_true, if_false] using this

/-- WHAT THE ISSUE OF A WORD DOES THAT TOUCHES ITS THREADS ALONE, when no lane waits. -/
theorem issueWord_pure {s : State} {e : Env} {p : WordSpec} {f : Env → Nat → Thread → L LaneOut} (h : Issues s e p)
    (hr : p.rep = 0) (hu : p.unit = false) (ho : p.once = none) (hag : p.again = false)
    (ha : ∀ i ∈ liveOf e p.g p.again, Answers (f e i (e.thread i))) :
    ∃ t, issueWord s p (pureLane f) noPost = .next t ∧ Runs s e p (fun i => f e i (e.thread i)) t := by
  obtain ⟨res, hres⟩ : ∃ res, res = fun i => f e i (e.thread i) := ⟨_, rfl⟩
  obtain ⟨live, hlive⟩ : ∃ live, live = liveOf e p.g p.again := ⟨_, rfl⟩
  have hlanes : runLanes (pureLane f) e s live = (live.map fun i => (i, res i), s) := by rw [runLanes_pure, hres]
  have ha' : ∀ i ∈ live, Answers (res i) := by rw [hres, hlive]; exact ha
  have hstall : (live.map fun i => (i, res i)).any isStall = false := by
    rw [List.any_eq_false]
    intro x hx
    obtain ⟨i, hi, rfl⟩ := List.mem_map.1 hx
    have := ha' i hi
    cases hb : res i with
    | ok o => simp [isStall]
    | error b => obtain ⟨c, l, a, g, y, rfl⟩ := this b hb; simp [isStall]
  have hhold : (live.map fun i => (i, res i)).filterMap holdLane = [] := by
    rw [List.filterMap_eq_nil_iff]
    intro x hx
    obtain ⟨i, hi, rfl⟩ := List.mem_map.1 hx
    have := ha' i hi
    cases hb : res i with
    | ok o => rfl
    | error b => obtain ⟨c, l, a, g, y, rfl⟩ := this b hb; rfl
  obtain ⟨he1, he2, hb⟩ := envOf_state h.env
  obtain ⟨oks, hoks⟩ : ∃ oks, oks = (live.map fun i => (i, res i)).filterMap okLane := ⟨_, rfl⟩
  obtain ⟨early, hearly⟩ : ∃ early, early = (live.map fun i => (i, res i)).any earlyTrap := ⟨_, rfl⟩
  have hst := storeLanes_stored s e p res live oks early hu hoks hearly
  have hbody : (p.crew && !e.crewB) = false := by
    cases hc : p.crew with
    | false => rfl
    | true => simp [h.body hc]
  have hnext : ∃ S5 W t done, issueWord s p (pureLane f) noPost = .next t ∧ Stored e p res live (coreOf s e.c) (coreOf S5 e.c) ∧
      (∀ d, d ≠ e.c → coreOf S5 d = coreOf s d) ∧ ModuleOf s S5 ∧ KeepsAt e.c S5 W ∧ (coreOf W e.c).sels = (coreOf S5 e.c).sels ∧
      (coreOf W e.c).stop = (coreOf S5 e.c).stop ∧ t = settle W e p done (trapsOf e res live) [] ∧
      ∀ i, i ∈ done ↔ (i ∈ participants e ∧ i ∉ live) ∨ (i ∈ live ∧ ∃ o, res i = .ok o) := by
    refine ⟨_, _, _, unionSlots (unionSlots (passedOf e p.again) (minus (minus (participants e) (passedOf e p.again)) live)) (oks.map (·.1)),
      ?_, hst.1, hst.2.1, hst.2.2, chargeWord_keepsAt _ _ e.word ((oks.map (·.1)) ++ []), (chargeWord_side ..).1, (chargeWord_side ..).2, rfl, ?_⟩
    · have hg : gateOf e p live = .go := hlive ▸ h.gate
      unfold issueWord
      simp only [h.env, h.legal, hbody, ← hlive, hg, hlanes, hstall, hhold, Bool.not_true, Bool.false_eq_true, if_false, hu, ho, noPost,
        List.filter_nil, List.isEmpty_nil, Bool.false_and, Bool.or_false, trapsOf_eq, List.map_nil, ← hoks, ← hearly]
    · intro i
      simp only [mem_unionSlots, mem_minus, hoks, oks_slots]
      constructor
      · rintro ((hp | ⟨⟨h1, h2⟩, h3⟩) | ⟨h1, h2⟩)
        · refine .inl ⟨by simp only [passedOf, List.mem_filter] at hp; exact hp.1, fun hl => ?_⟩
          rw [hlive] at hl
          simp only [liveOf, List.mem_filter, mem_minus] at hl
          exact hl.1.2 hp
        · exact .inl ⟨h1, h3⟩
        · exact .inr ⟨h1, h2⟩
      · rintro (⟨h1, h2⟩ | h1)
        · by_cases hp : i ∈ passedOf e p.again
          · exact .inl (.inl hp)
          · exact .inl (.inr ⟨⟨h1, hp⟩, h2⟩)
        · exact .inr h1
  obtain ⟨S5, W, t, done, ht, hS, hS2, hS3, hW, hW2, hW3, rfl, hd⟩ := hnext
  have hbW : findBatch (coreOf W e.c) e.sel e.b.id = some e.b := by
    rw [← hb]; simp only [findBatch, selOf, hW2, hS.sels]
  have E := settle_ends (s := W) (e := e) (p := p) (done := done) (traps := trapsOf e res live) hr (.inl hag) hbW
  obtain ⟨rest, P⟩ := settle_pending W e p done (trapsOf e res live) hr
  generalize settle W e p done (trapsOf e res live) [] = t at ht E P
  refine ⟨t, ht, ?_⟩
  rw [← hres]
  -- the threads
  have hth : ∀ i, (get? (coreOf t e.c).threads i).map Thread.held = (get? (coreOf S5 e.c).threads i).map fun u =>
      if i ∈ done then (repStep u).held else u.held := by
    intro i
    rw [E.threads i]
    have hk := hW.core.threads i
    have hm : i ∈ done.filter e.b.slots.contains ↔ i ∈ done := by
      simp only [List.mem_filter, List.contains_iff_mem, and_iff_left_iff_imp]
      intro hi
      rcases (hd i).1 hi with ⟨h1, _⟩ | ⟨h1, _⟩
      · exact mem_participants h1
      · exact mem_participants (mem_liveOf (hlive ▸ h1))
    simp only [hm]
    revert hk
    cases get? (coreOf W e.c).threads i <;> cases get? (coreOf S5 e.c).threads i <;> intro hk <;> simp at hk ⊢
    split
    · exact repStep_held hk
    · exact hk
  have hthere : ∀ i ∈ live, ∃ u, get? (coreOf s e.c).threads i = some u := by
    intro i hi
    have := h.there i (mem_participants (mem_liveOf (hlive ▸ hi)))
    rw [he2] at this
    exact Option.isSome_iff_exists.1 this
  have hat : ∀ i u, (get? (coreOf t e.c).threads i).map Thread.held = some (Thread.held u) → (threadAt t e.c i).held = u.held := by
    intro i u hi
    unfold threadAt threadOf
    cases hx : get? (coreOf t e.c).threads i with
    | none => rw [hx] at hi; cases hi
    | some x => rw [hx] at hi; simpa using hi
  have hsame : ∀ i, get? (coreOf S5 e.c).threads i = get? (coreOf s e.c).threads i → i ∉ done → Untouched s t e.c i := by
    intro i h1 h2
    have := hth i
    rw [h1] at this
    simp only [h2, if_false] at this
    unfold Untouched threadAt threadOf
    revert this
    cases get? (coreOf t e.c).threads i <;> cases get? (coreOf s e.c).threads i <;> intro this <;> simp at this ⊢
    exact this
  have hthr : ∀ i, e.thread i = threadOf (coreOf s e.c) i := fun i => by rw [Env.thread, he2]; rfl
  refine ⟨⟨⟨fun i => ?_, fun k => ?_, fun k => ?_, ?_, ?_, ?_, ?_, ?_⟩, fun d hd' => ?_, fun x => ?_, ?_⟩, fun i hi o ho' => ?_, fun i hi b hb' => ?_,
    fun i hi hn => ?_, fun i hi => ?_, fun k => ?_, fun k => ?_, ?_⟩
  · have h1 := congrArg Option.isSome (hth i)
    rw [Option.isSome_map, Option.isSome_map, hS.threads i] at h1
    rw [h1]
    split
    · next hi =>
      obtain ⟨u, hu'⟩ := hthere i hi
      cases res i <;> simp [hu']
    · rfl
  · have h1 := congrArg (Option.map fun x : Crew => { x with aff := [] }) ((E.crews k).trans (hW.core.crews k))
    rw [Option.map_map, Option.map_map, hS.crews k, Option.map_map] at h1
    refine h1.trans ?_
    cases get? (coreOf s e.c).crews k with
    | none => rfl
    | some x =>
      simp only [Option.map_some, Function.comp, Option.some.injEq]
      repeat' split
      all_goals rfl
  · have h1 := congrArg (Option.map fun x : WG => { x with queues := [] }) ((E.wgs k).trans (hW.core.wgs k))
    rw [Option.map_map, Option.map_map, hS.wgs k, Option.map_map] at h1
    refine h1.trans ?_
    cases get? (coreOf s e.c).wgs k with
    | none => rfl
    | some x =>
      simp only [Option.map_some, Function.comp, Option.some.injEq]
      split <;> rfl
  · rw [E.pend, hW.core.pend, hS.pend]
  · rw [E.copies, hW.core.copies, hS.copies]
  · rw [E.ranges, hW.core.ranges, hS.ranges]
  · rw [E.jobs, hW.core.jobs, hS.jobs]
  · rw [E.tiles, hW.core.tiles, hS.tiles]
  · rw [E.others d hd', hW.others d hd', hS2 d hd']
  · rw [E.ctxs x, hW.ctxs x]
    have : ctxOf S5 x = ctxOf s x := by unfold ctxOf; rw [hS3.ctxs]
    rw [this]
  · rw [E.rest, hW.rest, hS3.rest]
  · -- a lane that completed
    obtain ⟨u, hu'⟩ := hthere i (hlive ▸ hi)
    have h1 := hth i
    rw [hS.threads i, if_pos (hlive ▸ hi), ho', Option.map_some, if_pos ((hd i).2 (.inr ⟨hlive ▸ hi, o, ho'⟩))] at h1
    exact hat i _ h1
  · have hi' : i ∈ live := hlive ▸ hi
    refine hsame i ?_ fun hdn => ?_
    · rw [hS.threads i, if_pos hi', hb']
    · rcases (hd i).1 hdn with ⟨_, h2⟩ | ⟨_, o, h2⟩
      · exact h2 hi'
      · rw [hb'] at h2; cases h2
  · have hn' : i ∉ live := hlive ▸ hn
    have h1 := hth i
    rw [hS.threads i, if_neg hn'] at h1
    have hu' := h.there i (mem_participants hi)
    rw [he2] at hu'
    obtain ⟨u, hu'⟩ := Option.isSome_iff_exists.1 hu'
    rw [hu', Option.map_some, if_pos ((hd i).2 (.inl ⟨hi, hn'⟩))] at h1
    rw [hthr i, threadOf, hu']
    exact hat i _ h1
  · have hn' : i ∉ live := fun hl => hi (mem_liveOf (hlive ▸ hl))
    refine hsame i ?_ fun hdn => ?_
    · rw [hS.threads i, if_neg hn']
    · rcases (hd i).1 hdn with ⟨h1, _⟩ | ⟨h1, _⟩
      · exact hi h1
      · exact hn' h1
  · rw [← hlive]
    have h1 := congrArg (Option.map (·.aff)) ((E.crews k).trans (hW.core.crews k))
    rw [Option.map_map, Option.map_map, hS.crews k, Option.map_map] at h1
    refine h1.trans ?_
    cases get? (coreOf s e.c).crews k with
    | none => rfl
    | some x =>
      simp only [Option.map_some, Function.comp, Option.some.injEq]
      cases p.aff with
      | none => rfl
      | some n =>
        cases live.head? with
        | none => rfl
        | some i =>
          dsimp only
          cases res i with
          | error b => rfl
          | ok o => dsimp only; split <;> rfl
  · rw [← hlive]
    have h1 := congrArg (Option.map (·.queues)) ((E.wgs k).trans (hW.core.wgs k))
    rw [Option.map_map, Option.map_map, hS.wgs k, Option.map_map] at h1
    refine h1.trans ?_
    cases get? (coreOf s e.c).wgs k with
    | none => rfl
    | some x =>
      simp only [Option.map_some, Function.comp, Option.some.injEq, WG.held]
      split <;> rfl
  · refine ⟨rest, ?_⟩
    rw [← hlive, P, hW3, hS.stop]
    have ht1 : W.tick = s.tick := by
      have h1 := congrArg State.tick hW.rest
      have h2 := congrArg State.tick hS3.rest
      exact h1.trans h2
    rw [now, ht1]; rfl

end Sys2Proof.Machine
end

