-- ==== Sys2Proof/Laws/Memory.lean ====
section
/-! SUPPORT. Memory: reads after writes, and every memory operation keeps the canonical form. -/
set_option Elab.async false
namespace Sys2Proof.Machine

theorem Memory.wf_cons {a : Nat} {b : Byte} {m : Memory} : Memory.wf ((a, b) :: m) = true ↔ b ≠ 0 ∧ Rising ((a, b) :: m) ∧ Memory.wf m = true := by
  cases m with
  | nil => simp [Memory.wf, Rising]
  | cons q r =>
    obtain ⟨a', b'⟩ := q
    simp only [Memory.wf, Rising, Bool.and_eq_true, decide_eq_true_eq]
    constructor
    · rintro ⟨⟨h1, h2⟩, h3⟩
      refine ⟨h1, ⟨h2, ?_⟩, h3⟩
      clear h1 h2
      induction r generalizing a' b' with
      | nil => trivial
      | cons p r ih =>
        obtain ⟨c, z⟩ := p
        simp only [Memory.wf, Bool.and_eq_true, decide_eq_true_eq] at h3
        exact ⟨h3.1.2, ih c z h3.2⟩
    · rintro ⟨h1, ⟨h2, -⟩, h3⟩
      exact ⟨⟨h1, h2⟩, h3⟩

theorem Memory.wf_iff (m : Memory) : m.wf = true ↔ Rising m ∧ ∀ p ∈ m, p.2 ≠ 0 := by
  induction m with
  | nil => simp [Memory.wf, Rising]
  | cons q r ih =>
    obtain ⟨a, b⟩ := q
    rw [Memory.wf_cons, ih]
    constructor
    · rintro ⟨h1, h2, -, h4⟩
      refine ⟨h2, fun p hp => ?_⟩
      cases hp with
      | head => exact h1
      | tail _ hp => exact h4 p hp
    · rintro ⟨h1, h2⟩
      exact ⟨h2 _ (List.mem_cons_self ..), h1, h1.tail, fun p hp => h2 p (List.mem_cons_of_mem _ hp)⟩

theorem mem_put {β : Type} {m : SMap β} {n : Nat} {y : β} {p : Nat × β} (h : p ∈ put m n y) : p = (n, y) ∨ p ∈ m := by
  induction m with
  | nil => simpa [put] using h
  | cons q r ih =>
    obtain ⟨a, x⟩ := q
    simp only [put] at h
    split at h
    · simpa using h
    · split at h
      · simp only [List.mem_cons] at h ⊢; exact h.imp_right .inr
      · simp only [List.mem_cons] at h ⊢
        rcases h with h | h
        · exact .inr (.inl h)
        · exact (ih h).imp_right .inr

theorem mem_del {β : Type} {m : SMap β} {n : Nat} {p : Nat × β} (h : p ∈ del m n) : p ∈ m := by
  induction m with
  | nil => exact h
  | cons q r ih =>
    obtain ⟨a, x⟩ := q
    simp only [del] at h
    split at h
    · exact .tail _ (ih h)
    · simp only [List.mem_cons] at h ⊢; exact h.imp_right ih

/-- A write of one byte keeps the canonical form. -/
theorem memPut_wf {m : Memory} (h : m.wf = true) (a : Nat) (b : Byte) : (memPut m a b).wf = true := by
  rw [Memory.wf_iff] at h ⊢
  refine ⟨h.1.rput 0 a b, fun p hp => ?_⟩
  unfold memPut rput at hp
  split at hp
  · exact h.2 p (mem_del hp)
  · next hb => rcases mem_put hp with rfl | hp
               · exact hb
               · exact h.2 p hp

/-- A write of bytes keeps the canonical form. -/
theorem memWrite_wf {m : Memory} (h : m.wf = true) (a : Nat) (bs : List Byte) : (memWrite m a bs).wf = true := by
  induction bs generalizing m a with
  | nil => exact h
  | cons b r ih => exact ih (memPut_wf h a b) (a + 1)

theorem memGet_memPut_ne (m : Memory) {a k : Nat} (b : Byte) (h : k ≠ a) : memGet (memPut m a b) k = memGet m k := rget_rput_ne 0 m b h

theorem memGet_memPut_self (m : Memory) (a : Nat) (b : Byte) : memGet (memPut m a b) a = b := by
  unfold memGet memPut
  rw [rget_rput]; simp

/-- A write leaves every byte outside its span. -/
theorem memGet_memWrite_out (m : Memory) (a : Nat) (bs : List Byte) {k : Nat} (h : k < a ∨ a + bs.length ≤ k) :
    memGet (memWrite m a bs) k = memGet m k := by
  induction bs generalizing m a with
  | nil => rfl
  | cons b r ih =>
    simp only [List.length_cons] at h
    simp only [memWrite]
    rw [ih _ _ (by omega), memGet_memPut_ne _ _ (by omega)]

/-- A byte of the span reads as written. -/
theorem memGet_memWrite_in (m : Memory) (a : Nat) (bs : List Byte) (i : Nat) (hi : i < bs.length) :
    memGet (memWrite m a bs) (a + i) = bs[i] := by
  induction bs generalizing m a i with
  | nil => simp at hi
  | cons b r ih =>
    simp only [memWrite]
    cases i with
    | zero => rw [memGet_memWrite_out _ _ _ (by omega)]; exact memGet_memPut_self m a b
    | succ i =>
      have := ih (memPut m a b) (a + 1) i (by simpa using hi)
      rw [show a + (i + 1) = a + 1 + i by omega, this]; simp

/-- A filter keeps the canonical form. -/
theorem filter_wf {m : Memory} (h : m.wf = true) (p : Host.Cell → Bool) : Memory.wf (m.filter p) = true := by
  rw [Memory.wf_iff] at h ⊢
  refine ⟨?_, fun q hq => h.2 q (List.mem_filter.1 hq).1⟩
  obtain ⟨h, -⟩ := h
  induction m with
  | nil => trivial
  | cons q r ih =>
    obtain ⟨a, x⟩ := q
    simp only [List.filter_cons]
    have hn : ∀ k, k ≤ a → get? (r.filter p) k = none := by
      intro k hk
      have := h.get?_none hk
      clear ih h
      induction r with
      | nil => rfl
      | cons s r ih2 =>
        obtain ⟨b, y⟩ := s
        simp only [get?] at this
        split at this
        · cases this
        · next hb =>
          simp only [List.filter_cons]
          split
          · simp [get?, hb, ih2 this]
          · exact ih2 this
    split
    · exact rising_cons_of (ih h.tail) hn
    · exact ih h.tail

theorem reset_mem_wf : State.reset.mem.wf = true := rfl

end Sys2Proof.Machine
end

