-- ==== Sys2Proof/Laws/Words.lean ====
section
/-! SUPPORT. Words of one result per lane: their issue, and the range of their source values. -/
set_option Elab.async false
namespace Sys2Proof.Machine

/-- A word of pure lanes does what its lanes come to. -/
theorem computes_of_pure {i : Instr} {p : WordSpec} {f : Env → Nat → Thread → L LaneOut} {res : Env → Nat → L LaneOut}
    (hx : ∀ s, exec i s = issueWord s p (pureLane f) noPost) (hr : p.rep = 0) (hu : p.unit = false) (ho : p.once = none)
    (hag : p.again = false) (hf : ∀ e k, f e k (e.thread k) = res e k) : Computes i p res := by
  intro s e h ha
  obtain ⟨t, ht, hR⟩ := issueWord_pure (f := f) h hr hu ho hag fun k hk => by rw [hf]; exact ha k hk
  refine ⟨t, (hx s).trans ht, ?_⟩
  have hfe : (fun k => f e k (e.thread k)) = res e := funext (hf e)
  rwa [hfe] at hR

/-- The lane of an arithmetic word. -/
theorem aluLane_resultOf (a : Alu) (f : Env → Thread → List Nat → L (Nat × Thread)) (e : Env) (k : Nat) :
    (do
      let (vs, odd) ← readSrcs e k (e.thread k) a.srcs
      let d ← destOf e (e.thread k) a.d a.w
      if odd || decide (d = .odd) then trapL cAlign vs
      else do
        let (x, t') ← f e (e.thread k) vs
        return { t := d.put t' a.w x, out := x % 2 ^ 32 } : L LaneOut) = resultOf a (fun e k vs => f e (e.thread k) vs) e k := by
  unfold resultOf
  cases readSrcs e k (e.thread k) a.srcs with
  | error b => rfl
  | ok r =>
    obtain ⟨vs, odd⟩ := r
    dsimp only [bind, Except.bind]
    cases destOf e (e.thread k) a.d a.w with
    | error b => rfl
    | ok d =>
      dsimp only
      by_cases h : odd = true ∨ d = .odd
      · rw [if_pos (by simpa using h), if_pos h]; rfl
      · rw [if_neg (by simpa using h), if_neg h]
        cases f e (e.thread k) vs <;> rfl

/-- An arithmetic word. -/
theorem runAlu_computes {i : Instr} {a : Alu} {f : Env → Thread → List Nat → L (Nat × Thread)} (hx : ∀ s, exec i s = runAlu s a f) :
    Computes i a.spec (resultOf a fun e k vs => f e (e.thread k) vs) :=
  computes_of_pure hx rfl rfl rfl rfl fun e k => aluLane_resultOf a f e k

/-- A change of `f` that gives the same on every list of values. -/
theorem computes_congr {i : Instr} {p : WordSpec} {r r' : Env → Nat → L LaneOut} (h : Computes i p r) (e : r = r') : Computes i p r' := e ▸ h

/-! ### Source values -/

theorem useReg_ok {e : Env} {t : Thread} {r : Reg} {u : Unit} (h : useReg e t r = .ok u) : declared e t r = true ∧ r ∉ t.pend := by
  unfold useReg at h
  split at h
  · next hd =>
    refine ⟨hd, fun hp => ?_⟩
    rw [if_pos (by simpa using hp)] at h; cases h
  · cases h

theorem readV_lt {e : Env} {t : Thread} {n x : Nat} (h : readV e t n = .ok x) : x < 2 ^ 32 := by
  unfold readV at h
  cases hu : useReg e t (.v n) with
  | error b => rw [hu] at h; cases h
  | ok u => rw [hu] at h; cases h; exact (t.getV n).isLt

theorem readPair_lt {e : Env} {t : Thread} {n x : Nat} (h : readPair e t n = .ok x) : x < 2 ^ 64 := by
  unfold readPair at h
  cases hl : readV e t n with
  | error b => rw [hl] at h; cases h
  | ok lo =>
    cases hh : readV e t (n + 1) with
    | error b => rw [hl, hh] at h; cases h
    | ok hi =>
      rw [hl, hh] at h; cases h
      have h1 := readV_lt hl
      have h2 := readV_lt hh
      show lo + 2 ^ 32 * hi < 2 ^ 64
      omega

theorem entry_lt (w : WG) (q lane : Nat) : queueWord w q lane < 2 ^ 32 := BitVec.isLt _

/-- Every source value is in the range of its width (R100, R101). -/
theorem readSrc_lt {e : Env} {i : Nat} {t : Thread} {x : Src} {w : Bool} {v : Val} (h : readSrc e i t x w = .ok v) :
    v.x < 2 ^ (if w then 64 else 32) := by
  have big : ∀ {n : Nat}, n < 2 ^ 32 → n < 2 ^ (if w then 64 else 32) := fun {n} hn => by cases w <;> simp <;> omega
  unfold readSrc at h
  split at h
  · split at h
    · cases h; exact big (by decide)
    · dsimp only at h
      next n _ _ j _ =>
      generalize (if j = i then t else e.thread j) = u at h
      cases w with
      | true =>
        simp only [if_true] at h
        cases hr : readPair e u n with
        | error b => rw [hr] at h; cases h
        | ok y => rw [hr] at h; cases h; exact readPair_lt hr
      | false =>
        simp only [Bool.false_eq_true, if_false] at h
        cases hr : readV e u n with
        | error b => rw [hr] at h; cases h
        | ok y => rw [hr] at h; cases h; exact readV_lt hr
  · split at h
    · cases h; exact big (by decide)
    · cases h; exact big (Nat.mod_lt _ (by decide))
  · cases h; exact big (entry_lt ..)
  · next n hn =>
    cases hi : idxReg e t n x.off w with
    | error b => rw [hi] at h; cases h
    | ok r =>
      rw [hi] at h
      dsimp only [bind, Except.bind] at h
      cases w with
      | true =>
        simp only [if_true] at h
        split at h
        · cases hr : useReg e t (.v r) with
          | error b => rw [hr] at h; cases h
          | ok u => rw [hr] at h; cases h; decide
        · cases hr : readPair e t r with
          | error b => rw [hr] at h; cases h
          | ok y => rw [hr] at h; cases h; exact readPair_lt hr
      | false =>
        simp only [Bool.false_eq_true, if_false] at h
        cases hr : readV e t r with
        | error b => rw [hr] at h; cases h
        | ok y => rw [hr] at h; cases h; exact readV_lt hr
  · cases h; exact big (by decide)
  · cases h
    refine big ?_
    show i % (widthOf e.w.kern) < 2 ^ 32
    unfold widthOf
    split <;> omega
  all_goals (cases h; exact big (Nat.mod_lt _ (by decide)))

theorem readSrcs_lt {e : Env} {i : Nat} {t : Thread} {l : List (Src × Bool)} {vs : List Nat} {odd : Bool} (h : readSrcs e i t l = .ok (vs, odd)) :
    vs.length = l.length ∧ ∀ n (hn : n < l.length), arg vs n < 2 ^ (if (l[n]).2 then 64 else 32) := by
  induction l generalizing vs odd with
  | nil => cases h; exact ⟨rfl, fun n hn => absurd hn (Nat.not_lt_zero n)⟩
  | cons a r ih =>
    obtain ⟨x, w⟩ := a
    unfold readSrcs at h
    cases hv : readSrc e i t x w with
    | error b => rw [hv] at h; cases h
    | ok v =>
      cases hs : readSrcs e i t r with
      | error b => rw [hv, hs] at h; cases h
      | ok q =>
        obtain ⟨us, o⟩ := q
        rw [hv, hs] at h
        cases h
        obtain ⟨h1, h2⟩ := ih hs
        refine ⟨by simp [h1], fun n hn => ?_⟩
        cases n with
        | zero => exact readSrc_lt hv
        | succ n => exact h2 n (by simpa using hn)

/-- Lanes that agree on the values their sources can take. -/
theorem resultOf_congr {a : Alu} {f f' : Env → Nat → List Nat → L (Nat × Thread)}
    (h : ∀ e k vs odd, readSrcs e k (e.thread k) a.srcs = .ok (vs, odd) → f e k vs = f' e k vs) : resultOf a f = resultOf a f' := by
  funext e k
  unfold resultOf
  cases hr : readSrcs e k (e.thread k) a.srcs with
  | error b => rfl
  | ok r =>
    obtain ⟨vs, odd⟩ := r
    dsimp only
    rw [h e k vs odd hr]

/-- A word whose result depends on its source values alone. -/
theorem gives_of {i : Instr} {a : Alu} {f val : List Nat → Nat} (hx : ∀ s, exec i s = runPure s a f)
    (hv : ∀ vs : List Nat, vs.length = a.srcs.length → (∀ n (hn : n < a.srcs.length), arg vs n < 2 ^ (if (a.srcs[n]).2 then 64 else 32)) →
      f vs = val vs) : Gives i a val := by
  refine computes_congr (runAlu_computes hx) (resultOf_congr fun e k vs odd h => ?_)
  obtain ⟨h1, h2⟩ := readSrcs_lt h
  rw [hv vs h1 h2]

/-- A word without a destination register. -/
theorem changeOf_computes {i : Instr} {g : Guard} {srcs : List Src} {f : Env → Thread → List Nat → L Thread}
    (hx : ∀ s, exec i s = issueWord s (Alu.bare g srcs).spec (pureLane fun e k t => do
      let (vs, _) ← readSrcs e k t (Alu.bare g srcs).srcs
      let t' ← f e t vs
      return { t := t' }) noPost) :
    Computes i (Alu.bare g srcs).spec (changeOf (Alu.bare g srcs).srcs fun e k vs => f e (e.thread k) vs) := by
  refine computes_of_pure hx rfl rfl rfl rfl fun e k => ?_
  unfold changeOf
  cases readSrcs e k (e.thread k) (Alu.bare g srcs).srcs with
  | error b => rfl
  | ok r =>
    obtain ⟨vs, odd⟩ := r
    dsimp only [bind, Except.bind]
    cases f e (e.thread k) vs <;> rfl

/-! ### Words that one lane executes -/

/-- A word that one lane executes leaves its effect, when the lane completes it. -/
theorem leads_of {I : Instr} {s s' u : State} {e : Env} {p : WordSpec} {lane : Lane} {post : Env → List (Nat × LaneOut) → State → State} {i : Nat}
    {o : LaneOut} (hx : exec I s = issueWord s p lane post) (h : Lone s e p i) (hr : p.rep = 0) (hu : p.unit = false)
    (hl : lane e s i (e.thread i) = .ok (o, s')) (he : u = effectOf e p post [(i, o)] s') : Leads I s e u := by
  subst he
  obtain ⟨t, h1, h2⟩ := issueWord_lone (post := post) h hr hu hl
  exact ⟨t, hx.trans h1, h2⟩
/-- What a word does once takes no part in its checks. -/
theorem Lone.once {s : State} {e : Env} {p : WordSpec} {i : Nat} (h : Lone s e p i) (f : Option (Env → Nat → LaneOut → State → State)) :
    Lone s e { p with once := f } i :=
  ⟨⟨h.issues.env, h.issues.there, h.issues.legal, h.issues.body, h.issues.gate⟩, h.only, h.first⟩

/-! ### Floating-point and moment words -/

/-- A floating-point word. -/
theorem floats_of {i : Instr} {a : Alu} {f val : Ctl → List Nat → Nat × Flags} (hx : ∀ s, exec i s = runFp s a f)
    (hv : ∀ c, ∀ vs : List Nat, vs.length = a.srcs.length → (∀ n (hn : n < a.srcs.length), arg vs n < 2 ^ (if (a.srcs[n]).2 then 64 else 32)) →
      f c vs = val c vs) : Floats i a val := by
  refine computes_congr (runAlu_computes hx) (resultOf_congr fun e k vs odd h => ?_)
  obtain ⟨h1, h2⟩ := readSrcs_lt h
  simp only [hv _ vs h1 h2]

/-- The lane of a moment word. -/
theorem momentLane_of (x : MWord) (f : Thread → List Nat → L (Nat × Thread)) (e : Env) (k : Nat) :
    (do
      let vs ← readMFields e k (e.thread k) x.srcs
      match x.d with
      | .m n =>
        if (e.thread k).pend.contains (.m n) then .error .stall
        else do
          let (y, t') ← f (e.thread k) vs
          return { t := t'.setM n (BitVec.ofNat 64 y) }
      | .code d w => do
        let ds ← destOf e (e.thread k) d w
        if ds = .odd then trapL cAlign vs
        else do
          let (y, t') ← f (e.thread k) vs
          return { t := ds.put t' w y, out := y % 2 ^ 32 }
      | .p n => do
        let (y, t') ← f (e.thread k) vs
        return { t := t'.setP n (decide (y = 1)) } : L LaneOut) = momentOf x f e k := by
  unfold momentOf
  cases readMFields e k (e.thread k) x.srcs with
  | error b => rfl
  | ok vs =>
    show (match x.d with | .m n => _ | .code d w => _ | .p n => _) = _
    cases x.d with
    | m n =>
      show (if _ then _ else _) = (if _ then _ else _)
      split
      · rfl
      · cases f (e.thread k) vs <;> rfl
    | code d w =>
      show (destOf e (e.thread k) d w >>= _) = _
      dsimp only
      cases destOf e (e.thread k) d w with
      | error b => rfl
      | ok ds =>
        show (if ds = .odd then _ else _) = _
        cases ds
        · simp only [reduceCtorEq, if_false]; cases f (e.thread k) vs <;> rfl
        · rfl
        · simp only [reduceCtorEq, if_false]; cases f (e.thread k) vs <;> rfl
    | p n =>
      show (f (e.thread k) vs >>= _) = _
      dsimp only
      cases f (e.thread k) vs <;> rfl

/-- A moment word. -/
theorem runM_computes {i : Instr} {x : MWord} {f : Thread → List Nat → L (Nat × Thread)} (hx : ∀ s, exec i s = runM s x f) :
    Computes i x.spec (momentOf x f) :=
  computes_of_pure hx rfl rfl rfl rfl fun e k => momentLane_of x f e k

/-- A moment word of two planes. -/
theorem planes_of {i : Instr} {x : MWord} {ms : Nat} {f : Ctl → Thread → List Nat → (Nat × Flags) × (Nat × Flags)}
    (hx : ∀ s, exec i s = runPlanes s x ms f) : Planes i x ms f := runM_computes hx

end Sys2Proof.Machine
end

