-- ==== Sys2Proof/Tests/Slice0.lean ====
section
/-! SUPPORT. Tests: terms that are no words, words written out from the encodings of the spec, states that meet the hypotheses of each
statement, and single steps whose results the spec gives. -/
set_option Elab.async false
namespace Sys2Proof.Tests
open Sys2Proof Sys2Proof.Machine

/-! ### Terms that WellFormed refuses, one for each check -/

def r3 (d a b : Nat) : R3 := { g := .always, d := .v d, a := { code := .v a }, b := { code := .v b } }
def r2 (d a : Nat) : R2 := { g := .always, d := .v d, a := { code := .v a } }
def t3 (d a b c : Nat) : T3 := { g := .always, d := .v d, a := { code := .v a }, b := .v b, c := .v c }
def vs (n : Nat) : Src := { code := .v n }
def ms (n : Nat) : MSrc := { m := n }
def addr (base : Nat) (size : Size) : MAddr := { base := .v base, off := 0, order := .free, scope := 0, evict := 0, space := .g, size := size }
def xw : XWord := { g := .always, shape := 2, coord := 10, ctr := some 6, dest := .v 8, objShape := false, cspace := .g, pad := 1, ncoord := 2 }

theorem test_wf_guard_and_codes :
    (Instr.nop (.on 7 true)).wf = false ∧ (Instr.imul (r3 192 0 0)).wf = false ∧ (Instr.imul { r3 0 0 0 with d := .a 32 }).wf = false ∧
    (Instr.imul { r3 0 0 0 with d := .q 16 }).wf = false ∧ (Instr.imul { r3 0 0 0 with d := .idx 8 }).wf = false ∧
    (Instr.imul { r3 0 0 0 with d := .lane }).wf = false ∧ (Instr.imul { r3 0 0 0 with a := vs 192 }).wf = false ∧
    (Instr.imul { r3 0 0 0 with b := { code := .a 32 } }).wf = false := by decide
theorem test_wf_lane_permutations :
    (Instr.imul { r3 0 0 0 with a := { code := .v 1, perm := .rot 0 } }).wf = false ∧
    (Instr.imul { r3 0 0 0 with a := { code := .v 1, perm := .rot 128 } }).wf = false ∧
    (Instr.imul { r3 0 0 0 with a := { code := .v 1, perm := .bc 128 } }).wf = false ∧
    (Instr.imul { r3 0 0 0 with a := { code := .v 1, perm := .bfly 0 } }).wf = false ∧
    (Instr.imul { r3 0 0 0 with a := { code := .v 1, perm := .mir 8 } }).wf = false ∧
    (Instr.imul { r3 0 0 0 with a := { code := .q 1, perm := .rot 1 } }).wf = false ∧
    (Instr.imul { r3 0 0 0 with a := { code := .zero, off := 1 } }).wf = false ∧
    (Instr.imul { r3 0 0 0 with a := { code := .idx 1, off := 128 } }).wf = false := by decide
theorem test_wf_pairs :
    (Instr.iadd (r3 3 4 6) true).wf = false ∧ (Instr.iadd (r3 4 5 6) true).wf = false ∧ (Instr.iadd (r3 4 4 7) true).wf = false ∧
    (Instr.iadd { r3 4 4 6 with d := .a 1 } true).wf = false ∧ (Instr.iadd { r3 4 4 6 with a := { code := .q 1 } } true).wf = false ∧
    (Instr.shl (r3 4 5 6) true).wf = false ∧ (Instr.fcvt .always (.v 5) (vs 0) none .f32 .bf16x2).wf = false ∧
    (Instr.msplit .always (.v 1) (ms 0)).wf = false ∧ (Instr.join .always 0 3).wf = false ∧ (Instr.bulk .always 1 2 none 3 .g).wf = false := by decide
theorem test_wf_ranges :
    (Instr.leave .always 0).wf = false ∧ (Instr.next .always 9).wf = false ∧ (Instr.rep .always 0 0).wf = false ∧
    (Instr.rep .always 65 0).wf = false ∧ (Instr.rep .always 1 256).wf = false ∧ (Instr.enrol .always 4).wf = false ∧
    (Instr.movi .always (.v 0) 2097152).wf = false ∧ (Instr.ail .always (.v 0) (vs 0) 2048).wf = false ∧
    (Instr.aih .always (.v 0) (-524289)).wf = false ∧ (Instr.icmp .always 7 (vs 0) (vs 0) .eq).wf = false ∧
    (Instr.isel (r3 0 0 0) 7 false).wf = false ∧ (Instr.pand .always 0 7 0 false false).wf = false ∧ (Instr.pnot .always 0 7).wf = false ∧
    (Instr.xset .always 8 (vs 0)).wf = false ∧ (Instr.aset .always 32 (vs 0) (vs 0)).wf = false ∧
    (Instr.aval .always (.a 1) 0).wf = false := by decide
theorem test_wf_float_moment_matrix :
    (Instr.fcvt .always (.v 0) (vs 0) none .f32 .f32).wf = false ∧ (Instr.fcvt .always (.v 0) (vs 0) none .bf16x2 .f32).wf = false ∧
    (Instr.icvtf .always (.v 0) (vs 0) (some (vs 1)) .f32 .s32).wf = false ∧ (Instr.mset .always 64 (vs 0) (vs 0)).wf = false ∧
    (Instr.mmov .always 0 (ms 64)).wf = false ∧ (Instr.mchk .always 7 (ms 0)).wf = false ∧
    (Instr.mcol .always (.v 0) (ms 0) (.upper 0x7C00)).wf = false ∧ (Instr.mcol .always (.a 0) (ms 0) .mean).wf = false ∧
    (Instr.mma .always 8 false ⟨0, .g⟩ ⟨0, .g⟩ .bf16).wf = false ∧ (Instr.mma .always 0 false ⟨190, .g⟩ ⟨0, .g⟩ .bf16).wf = false ∧
    (Instr.zclr .always 0 true true).wf = false ∧ (Instr.zld .always 0 true ⟨0, .g⟩ .mf32).wf = false ∧
    (Instr.zst .always 0 false (.queue 16) none .f32 false).wf = false ∧ (Instr.zrd .always 64 0 false 0 true).wf = false ∧
    (Instr.zrd .always 0 0 false 32 false).wf = false ∧ (Instr.zwr .always 0 true 0 (.inr (ms 0))).wf = false := by decide
theorem test_wf_memory_words :
    (Instr.ld .always (.c (.v 0)) (addr 3 .b32)).wf = false ∧ (Instr.ld .always (.c (.a 0)) (addr 2 .b32)).wf = false ∧
    (Instr.ld .always (.c (.v 0)) (addr 2 .m64)).wf = false ∧ (Instr.ld .always (.m 64) (addr 2 .m64)).wf = false ∧
    (Instr.st .always (.c (.q 0)) (addr 2 .b32)).wf = false ∧ (Instr.st .always (.c (.v 1)) (addr 2 .b64)).wf = false ∧
    (Instr.ld .always (.c (.v 0)) { addr 2 .b32 with off := 8192 }).wf = false ∧ (Instr.ld .always (.c (.v 0)) { addr 2 .b32 with scope := 8 }).wf = false ∧
    (Instr.ld .always (.c (.v 0)) { addr 2 .b32 with evict := 8 }).wf = false ∧ (Instr.ld .always (.c (.v 0)) { addr 2 .b32 with base := .lane }).wf = false ∧
    (Instr.pref .always (.v 2) (-8193) 0 .g .near).wf = false ∧ (Instr.linv .always (.v 3) 0 0 .mid).wf = false ∧
    (Instr.spmap .always 8 2 (vs 0) .rw).wf = false ∧ (Instr.spunmap .always (some 8)).wf = false ∧
    (Instr.atadd .always (.v 0) (addr 2 .u8) false).wf = false ∧ (Instr.atcas .always (.v 1) (addr 2 .b32) false).wf = false ∧
    (Instr.atcas .always (.v 2) (addr 2 .b64) false).wf = false ∧ (Instr.atcas .always .zero (addr 2 .b32) false).wf = false ∧
    (Instr.atfadd .always (.v 0) (addr 2 .b64) false .f32).wf = false := by decide
theorem test_wf_sync_engines_queues_system :
    (Instr.fence .always .sc 8).wf = false ∧ (Instr.barr .always (.a 0) (vs 0)).wf = false ∧
    (Instr.cwait .always (.v 0) (vs 1) (vs 0) .g .eq).wf = false ∧ (Instr.voteAll .always 7 0 false).wf = false ∧
    (Instr.voteBallot .always 6 0 false).wf = false ∧ (Instr.voteBallot .always 192 0 false).wf = false ∧
    (Instr.shfx .always (.v 0) 192 (vs 0) false).wf = false ∧ (Instr.xcopy { xw with shape := 3 }).wf = false ∧
    (Instr.xcopy { xw with coord := 191 }).wf = false ∧ (Instr.xcopy { xw with ctr := some 7 }).wf = false ∧
    (Instr.xcopy { xw with dest := .q 11 }).wf = false ∧ (Instr.xstore { xw with dest := .q 12 }).wf = false ∧
    (Instr.xcopy { xw with pad := 32 }).wf = false ∧ (Instr.xcopy { xw with ncoord := 0 }).wf = false ∧
    (Instr.xcode .always 2 none 8 false .g).wf = false ∧ (Instr.enq .always 0 4 (vs 0)).wf = false ∧ (Instr.qclose .always 16).wf = false ∧
    (Instr.trap .always 256 none).wf = false ∧ (Instr.trap .always 0 (some { code := .v 1, perm := .rot 1 })).wf = false ∧
    (Instr.trap .always 0 (some (vs 0))).wf = false ∧ (Instr.srd .always (.v 0) 0x10 false).wf = false ∧
    (Instr.swr .always 0x08 (vs 0) false).wf = false ∧ (Instr.pmatch .always 64 2).wf = false ∧ (Instr.pmatchRm .always 64).wf = false := by decide

/-! ### Words written out from the layouts of R36 -/

/-- Bits [63:54]: the major, and the guard `always` (0b1110, R35). -/
def top (major : Nat) : Nat := major * 2 ^ 58 + 0b1110 * 2 ^ 54
/-- [53:48] minor, [47:40] dst, [39:22] srcA, [21:4] srcB, [3:0] mod. -/
def fmtR (major minor dst a b mod : Nat) : Word64 := BitVec.ofNat 64 (top major + minor * 2 ^ 48 + dst * 2 ^ 40 + a * 2 ^ 22 + b * 2 ^ 4 + mod)
/-- [53:50] minor, [49:42] dst, [41:24] srcA, [23:16] srcB, [15:8] srcC, [7:6] rnd, [5] rov, [4:2] mod, [1:0] type. -/
def fmtT (major minor dst a b c rnd rov mod ty : Nat) : Word64 :=
  BitVec.ofNat 64 (top major + minor * 2 ^ 50 + dst * 2 ^ 42 + a * 2 ^ 24 + b * 2 ^ 16 + c * 2 ^ 8 + rnd * 2 ^ 6 + rov * 2 ^ 5 + mod * 2 ^ 2 + ty)
/-- [53:48] minor, [47:40] dst, [39:22] srcA, [21:0] imm22. -/
def fmtI (major minor dst a imm : Nat) : Word64 := BitVec.ofNat 64 (top major + minor * 2 ^ 48 + dst * 2 ^ 40 + a * 2 ^ 22 + imm)
/-- [53:48] minor, [47:40] dst, [39:20] imm20, [19:0] zero. -/
def fmtU (major minor dst imm : Nat) : Word64 := BitVec.ofNat 64 (top major + minor * 2 ^ 48 + dst * 2 ^ 40 + imm * 2 ^ 20)
/-- [53:50] minor, [49:42] data, [41:34] base, [33:20] off14, [19:18] order, [17:15] scope, [14:12] evict, [11:9] space, [8:6] size,
[5] aff, [4:0] mod. -/
def fmtM (major minor data base off order scope evict space size aff mod : Nat) : Word64 :=
  BitVec.ofNat 64 (top major + minor * 2 ^ 50 + data * 2 ^ 42 + base * 2 ^ 34 + off * 2 ^ 20 + order * 2 ^ 18 + scope * 2 ^ 15 + evict * 2 ^ 12 +
    space * 2 ^ 9 + size * 2 ^ 6 + aff * 2 ^ 5 + mod)
/-- Major 0x2A (R266): [53:50] minor, [49:42] shape, [41:34] coord, [33:26] ctr, [25:18] sdst, [17] sspace, [16:15] cspace, [14:10] pad,
[9:7] ncoord, [6] qdst. -/
def fmtX (minor shape coord ctr sdst sspace cspace pad ncoord qdst : Nat) : Word64 :=
  BitVec.ofNat 64 (top 0x2A + minor * 2 ^ 50 + shape * 2 ^ 42 + coord * 2 ^ 34 + ctr * 2 ^ 26 + sdst * 2 ^ 18 + sspace * 2 ^ 17 + cspace * 2 ^ 15 +
    pad * 2 ^ 10 + ncoord * 2 ^ 7 + qdst * 2 ^ 6)
/-- An 18-bit source field (R38): [17:10] code, [9:7] pattern, [6:0] parameter. -/
def sf (code pattern param : Nat) : Nat := code * 2 ^ 10 + pattern * 2 ^ 7 + param
/-- The same for an identity source. -/
def si (code : Nat) : Nat := sf code 0 0

/-- R77's own words. -/
theorem test_decode_control :
    decode 0x0101000000000001 = .ok (.leave (.on 2 false) 1) ∧ decode 0x0382000000000002 = .ok (.next .always 2) ∧
    decode 0x0383000000000000 = .ok (.ret .always) ∧ decode 0x0384000000000000 = .ok (.done .always) ∧
    decode 0x0385000000000103 = .ok (.rep .always 4 4) ∧ decode 0x0386000000000001 = .ok (.enrol .always 1) ∧
    decode 0x0387000000000000 = .ok (.strike .always 0) ∧ decode (fmtI 0x00 0x01 0 0 8) = .ok (.leave .always 8) ∧
    decode 0x0146000000000003 = .ok (.enrol (.on 2 true) 3) := by
  and_intros <;> rfl
/-- R104, R38. -/
theorem test_decode_integer :
    decode 0x1380040400018001 = .ok (.iadd (r3 4 4 6) true) ∧ decode (fmtR 0x04 0x01 2 (si 3) (si 5) 0) = .ok (.isub (r3 2 3 5) false) ∧
    decode (fmtR 0x04 0x02 2 (si 3) (si 5) 0) = .ok (.imul (r3 2 3 5)) ∧ decode (fmtR 0x04 0x03 2 (si 3) (si 5) 0) = .ok (.imulh (r3 2 3 5)) ∧
    decode (fmtR 0x04 0x04 2 (si 3) (si 5) 0) = .ok (.imulhu (r3 2 3 5)) ∧ decode (fmtR 0x04 0x05 2 (si 3) (si 5) 0) = .ok (.idiv (r3 2 3 5)) ∧
    decode (fmtR 0x04 0x06 2 (si 3) (si 5) 0) = .ok (.idivu (r3 2 3 5)) ∧ decode (fmtR 0x04 0x07 2 (si 3) (si 5) 0) = .ok (.irem (r3 2 3 5)) ∧
    decode (fmtR 0x04 0x08 2 (si 3) (si 5) 0) = .ok (.iremu (r3 2 3 5)) ∧ decode (fmtR 0x04 0x09 2 (si 3) 0 0) = .ok (.ineg (r2 2 3)) ∧
    decode (fmtR 0x04 0x0A 2 (si 3) 0 0) = .ok (.iabs (r2 2 3)) ∧ decode (fmtR 0x04 0x0B 2 (si 3) (si 5) 0) = .ok (.imin (r3 2 3 5)) ∧
    decode (fmtR 0x04 0x0C 2 (si 3) (si 5) 0) = .ok (.imax (r3 2 3 5)) ∧ decode (fmtR 0x04 0x0D 2 (si 3) (si 5) 0) = .ok (.iminu (r3 2 3 5)) ∧
    decode (fmtR 0x04 0x0E 2 (si 3) (si 5) 0) = .ok (.imaxu (r3 2 3 5)) ∧ decode (fmtR 0x04 0x0F 2 (si 3) 0 4) = .ok (.isat (r2 2 3) .nonneg) ∧
    decode (fmtR 0x04 0x10 2 (si 3) (si 5) 1) = .ok (.irsh (r3 2 3 5) true) ∧
    decode (fmtR 0x04 0x02 0xC1 (sf 0xE3 0 0) (sf 0xF2 0 9) 0) =
      .ok (.imul { g := .always, d := .a 1, a := { code := .q 3 }, b := { code := .idx 2, off := 9 } }) ∧
    decode (fmtR 0x04 0x02 0xF7 (sf 0xF9 0 0) (sf 0xF8 0 0) 0) = .ok (.imul { g := .always, d := .idx 7, a := { code := .lane }, b := { code := .zero } }) ∧
    decode (fmtR 0x04 0x02 0xE5 (sf 7 1 3) (sf 0xC9 3 127) 0) =
      .ok (.imul { g := .always, d := .q 5, a := { code := .v 7, perm := .rot 3 }, b := { code := .a 9, perm := .bfly 127 } }) := by
  and_intros <;> rfl
/-- R106, R107, R109. -/
theorem test_decode_logic_and_constants :
    decode (fmtR 0x05 0x00 2 (si 4) (si 6) 1) = .ok (.land (r3 2 4 6) true) ∧ decode (fmtR 0x05 0x01 2 (si 4) (si 6) 0) = .ok (.lor (r3 2 4 6) false) ∧
    decode (fmtR 0x05 0x02 2 (si 4) (si 6) 0) = .ok (.lxor (r3 2 4 6) false) ∧ decode (fmtR 0x05 0x03 2 (si 4) (si 6) 0) = .ok (.landn (r3 2 4 6) false) ∧
    decode (fmtR 0x05 0x04 2 (si 4) 0 1) = .ok (.lnot (r2 2 4) true) ∧ decode (fmtR 0x05 0x05 2 (si 4) (si 7) 1) = .ok (.shl (r3 2 4 7) true) ∧
    decode (fmtR 0x05 0x06 2 (si 4) (si 6) 0) = .ok (.shr (r3 2 4 6) false) ∧ decode (fmtR 0x05 0x07 2 (si 4) (si 6) 0) = .ok (.sar (r3 2 4 6) false) ∧
    decode (fmtR 0x05 0x08 2 (si 4) (si 6) 0) = .ok (.rol (r3 2 4 6)) ∧ decode (fmtR 0x05 0x09 2 (si 4) (si 6) 0) = .ok (.bfx (r3 2 4 6)) ∧
    decode (fmtR 0x05 0x0A 2 (si 4) (si 6) 0) = .ok (.bfxu (r3 2 4 6)) ∧ decode (fmtR 0x05 0x0B 2 (si 4) 0 0) = .ok (.popc (r2 2 4)) ∧
    decode (fmtR 0x05 0x0C 2 (si 4) 0 0) = .ok (.clz (r2 2 4)) ∧ decode (fmtR 0x05 0x0D 2 (si 4) 0 0) = .ok (.brev (r2 2 4)) ∧
    decode (fmtR 0x05 0x0E 2 (sf 4 4 7) 0 0) = .ok (.mov { r2 2 4 with a := { code := .v 4, perm := .mir 7 } } false) ∧
    decode (fmtT 0x06 0x0 2 (si 3) 5 6 0 0 0 0) = .ok (.imad (t3 2 3 5 6)) ∧ decode (fmtT 0x06 0x1 2 (si 3) 5 6 0 0 0 0) = .ok (.bfi (t3 2 3 5 6)) ∧
    decode 0x1F800200003FFFFB = .ok (.movi .always (.v 2) (-5)) ∧
    decode 0x1B881C0C000C0D00 = .ok (.iqnt (t3 7 3 12 13) .s8) ∧ decode (fmtT 0x06 0x2 2 (si 3) 5 6 0 0 1 2) = .ok (.iqnt (t3 2 3 5 6) .u16) ∧
    decode 0x1F810A0A003FFFF0 = .ok (.ail .always (.v 10) (vs 10) (-16)) ∧ decode 0x1F820A1234500000 = .ok (.aih .always (.v 10) 0x12345) ∧
    decode (fmtU 0x07 0x02 10 0xFFFFF) = .ok (.aih .always (.v 10) (-1)) ∧
    decode 0x178E09F201000000 = .ok (.mov { r2 9 0 with a := { code := .idx 2, off := 4 } } false) := by
  and_intros <;> rfl
/-- R110-R113, R117. -/
theorem test_decode_predicates_index_affine :
    decode 0x2380020100014002 = .ok (.icmp .always 2 (vs 1) (vs 5) .lt) ∧ decode (fmtR 0x08 0x00 2 (si 1) (si 5) 9) = .ok (.icmp .always 2 (vs 1) (vs 5) .geu) ∧
    decode (fmtR 0x08 0x01 4 (si 1) (si 5) 0b1110) = .ok (.isel (r3 4 1 5) 6 true) ∧ decode (fmtR 0x08 0x02 6 (si 0xFC) 0 0) = .ok (.pset .always 6 { code := .wgid }) ∧
    decode 0x238301020000C002 = .ok (.pand .always 1 2 3 false true) ∧ decode (fmtR 0x08 0x04 1 (si 2) (si 3) 1) = .ok (.por .always 1 2 3 true false) ∧
    decode (fmtR 0x08 0x05 1 (si 2) (si 3) 0) = .ok (.pxor .always 1 2 3 false false) ∧ decode (fmtR 0x08 0x06 1 (si 2) 0 0) = .ok (.pnot .always 1 2) ∧
    decode (fmtR 0x09 0x00 3 (si 9) 0 0) = .ok (.xset .always 3 (vs 9)) ∧ decode (fmtR 0x09 0x01 3 (si 4) 0 0) = .ok (.xmov .always 3 4) ∧
    decode (fmtR 0x09 0x01 9 (si 4) 0 1) = .ok (.xmovToV .always 9 4) ∧ decode (fmtR 0x09 0x02 3 (si 4) (si 9) 0) = .ok (.xadd .always 3 4 (vs 9)) ∧
    decode (fmtR 0x09 0x02 3 (si 4) (si 9) 1) = .ok (.xaddOrg .always 3 4 (vs 9)) ∧
    decode 0x2B80C10800024000 = .ok (.aset .always 1 (vs 8) (vs 9)) ∧ decode (fmtR 0x0A 0x01 0xC1 (si 0xC2) (si 9) 0) = .ok (.aadd .always 1 2 (vs 9)) ∧
    decode (fmtR 0x0A 0x01 0xC1 (si 0xC2) (si 9) 1) = .ok (.aaddStride .always 1 2 (vs 9)) ∧
    decode (fmtR 0x0A 0x02 0xDF (si 0xC2) (si 9) 0) = .ok (.amul .always 31 2 (vs 9)) ∧ decode (fmtR 0x0A 0x03 0xC1 (si 0xC2) (si 9) 0) = .ok (.ashl .always 1 2 (vs 9)) ∧
    decode (fmtR 0x0A 0x04 7 (si 0xC2) 0 0) = .ok (.aval .always (.v 7) 2) ∧ decode (fmtR 0x0A 0x04 7 (si 0xC2) 0 1) = .ok (.avalBase .always (.v 7) 2) ∧
    decode (fmtR 0x0A 0x04 7 (si 0xC2) 0 2) = .ok (.avalStride .always (.v 7) 2) := by
  and_intros <;> rfl
/-- R135, R137, R140-R146. -/
theorem test_decode_floating_point :
    decode 0x33800A0B00030002 = .ok (.fadd (r3 10 11 12) .bf16x2) ∧ decode (fmtR 0x0C 0x01 2 (si 3) (si 5) 1) = .ok (.fsub (r3 2 3 5) .f16x2) ∧
    decode (fmtR 0x0C 0x02 2 (si 3) (si 5) 0) = .ok (.fmul (r3 2 3 5) .f32) ∧ decode (fmtR 0x0C 0x03 2 (si 3) (si 5) 0) = .ok (.fmin (r3 2 3 5) .f32) ∧
    decode (fmtR 0x0C 0x04 2 (si 3) (si 5) 0) = .ok (.fmax (r3 2 3 5) .f32) ∧ decode (fmtR 0x0C 0x05 2 (si 3) 0 1) = .ok (.fabs (r2 2 3) .f16x2) ∧
    decode (fmtR 0x0C 0x06 2 (si 3) 0 0) = .ok (.fneg (r2 2 3) .f32) ∧ decode (fmtR 0x0C 0x07 2 (si 3) (si 5) 0) = .ok (.fcps (r3 2 3 5) .f32) ∧
    decode (fmtR 0x0C 0x08 2 (si 3) (si 5) 0) = .ok (.fscl (r3 2 3 5) .f32) ∧ decode 0x3389020100014004 = .ok (.fcmp .always 2 (vs 1) (vs 5) .lt .f32) ∧
    decode (fmtR 0x0C 0x09 2 (si 1) (si 5) 0b1101) = .ok (.fcmp .always 2 (vs 1) (vs 5) .un .f16x2) ∧
    decode (fmtR 0x0C 0x0A 2 (si 3) 0 2) = .ok (.fclass (r2 2 3) .bf16x2) ∧ decode 0x378020100005060A = .ok (.ffma (t3 8 4 5 6) .bf16x2 none false true) ∧
    decode 0x3780201000050660 = .ok (.ffma (t3 8 4 5 6) .f32 (some .rtz) false false) ∧
    decode (fmtR 0x0E 0x00 2 (si 3) 0 0) = .ok (.frcp (r2 2 3) .f32) ∧ decode (fmtR 0x0E 0x01 2 (si 3) 0 1) = .ok (.frsq (r2 2 3) .f16x2) ∧
    decode (fmtR 0x0E 0x02 2 (si 3) 0 2) = .ok (.fsqrt (r2 2 3) .bf16x2) ∧ decode (fmtR 0x0E 0x03 2 (si 3) (si 5) 0) = .ok (.fdiv (r3 2 3 5) .f32) ∧
    decode (fmtR 0x0E 0x04 2 (si 3) 0 0) = .ok (.fex2 (r2 2 3) .f32) ∧ decode (fmtR 0x0E 0x05 2 (si 3) 0 0) = .ok (.flg2 (r2 2 3) .f32) ∧
    decode (fmtR 0x0E 0x06 2 (si 3) 0 0) = .ok (.fsin (r2 2 3) .f32) ∧ decode (fmtR 0x0E 0x07 2 (si 3) 0 0) = .ok (.fcos (r2 2 3) .f32) ∧
    decode (fmtR 0x0E 0x08 2 (si 3) 0 0) = .ok (.ftanh (r2 2 3) .f32) ∧
    decode 0x3F80060100008001 = .ok (.fcvt .always (.v 6) (vs 1) (some (vs 2)) .f16x2 .f32) ∧
    decode 0x3F80040200000008 = .ok (.fcvt .always (.v 4) (vs 2) none .f32 .bf16x2) ∧
    decode (fmtR 0x0F 0x01 2 (si 3) 0 0b1101) = .ok (.fcvti (r2 2 3) .f16x2 true true) ∧
    decode (fmtR 0x0F 0x02 2 (si 3) (si 5) 0b1110) = .ok (.icvtf .always (.v 2) (vs 3) (some (vs 5)) .bf16x2 .s8) ∧
    decode (fmtR 0x0F 0x02 2 (si 3) 0 0b0100) = .ok (.icvtf .always (.v 2) (vs 3) none .f32 .u32) ∧
    decode (fmtR 0x0F 0x03 2 (si 3) 0 0b1110) = .ok (.frnd (r2 2 3) .bf16x2 .rdn) := by
  and_intros <;> rfl
/-- R159-R161; the override modes are those of R157. -/
theorem test_decode_moments :
    decode (fmtR 0x14 0x00 3 (si 9) (si 10) 0) = .ok (.mset .always 3 (vs 9) (vs 10)) ∧ decode (fmtR 0x14 0x00 3 (si 9) 0 1) = .ok (.msetDet .always 3 (vs 9)) ∧
    decode (fmtR 0x14 0x01 8 (si 63) 0 0) = .ok (.msplit .always (.v 8) (ms 63)) ∧ decode (fmtR 0x14 0x02 3 (si 4) 0 0) = .ok (.mmov .always 3 (ms 4)) ∧
    decode (fmtR 0x14 0x03 3 0 0 0) = .ok (.mzero .always 3) ∧ decode 0x5384030100008000 = .ok (.madd .always 3 (ms 1) (ms 2) none) ∧
    decode (fmtR 0x14 0x05 3 (si 1) (si 2) 0b1010) = .ok (.msub .always 3 (ms 1) (ms 2) (some .ant)) ∧
    decode 0x5386050100008819 = .ok (.mmul .always 5 (ms 1) { m := 2, perm := .rot 1 } (some .cor)) ∧
    decode (fmtR 0x14 0x07 3 (si 1) (si 0xF8) 0) = .ok (.mscl .always 3 (ms 1) { code := .zero }) ∧
    decode (fmtR 0x14 0x08 3 (si 1) 0 0) = .ok (.mrelu .always 3 (ms 1)) ∧ decode (fmtR 0x14 0x09 3 (si 1) 0 0) = .ok (.mexp .always 3 (ms 1)) ∧
    decode (fmtR 0x14 0x0A 3 (si 1) 0 0) = .ok (.msigm .always 3 (ms 1)) ∧ decode (fmtR 0x14 0x0B 6 (si 1) 0 0) = .ok (.mchk .always 6 (ms 1)) ∧
    decode 0x5780100400020300 = .ok (.mfma .always 4 (ms 1) 2 3 none) ∧
    decode (fmtT 0x15 0x0 4 (si 1) 2 3 0 0 0b111 0) = .ok (.mfma .always 4 (ms 1) 2 3 (some .expl)) ∧
    decode 0x5B80090300084000 = .ok (.mcol .always (.v 9) (ms 3) (.upper 0x4000)) ∧
    decode (fmtI 0x16 0x00 9 (si 3) (3 * 2 ^ 19 + 0xBF)) = .ok (.mcol .always (.v 9) (ms 3) (.sample 191)) ∧
    decode (fmtI 0x16 0x00 9 (si 3) (4 * 2 ^ 19)) = .ok (.mcol .always (.v 9) (ms 3) .std) := by
  and_intros <;> rfl
/-- R181's own words, and the planes and formats that they leave out. -/
theorem test_decode_matrix :
    decode 0x6380200220018800 = .ok (.mma .always 1 false ⟨2, .sp⟩ ⟨6, .sp⟩ .bf16) ∧
    decode (fmtR 0x18 0x00 0x30 (sf 2 0 0) (sf 6 2 0) 0b0110) = .ok (.mma .always 1 true ⟨2, .g⟩ ⟨6, .nw⟩ (.s8 true false)) ∧
    decode 0x6381400200018800 = .ok (.mmad .always 2 ⟨2, .g⟩ ⟨6, .sp⟩ .bf16) ∧ decode 0x6382600A20038800 = .ok (.mmam .always 3 ⟨10, .sp⟩ ⟨14, .sp⟩) ∧
    decode 0x6780200000000000 = .ok (.zclr .always 1 false false) ∧ decode (fmtR 0x19 0x00 0xE0 0 0 1) = .ok (.zclr .always 7 false true) ∧
    decode 0x6781801400000003 = .ok (.zld .always 4 false ⟨20, .g⟩ .mf32) ∧
    decode 0x6782200A20038805 = .ok (.zst .always 1 false (.mem ⟨10, .sp⟩) (some ⟨14, .sp⟩) .bf16 false) ∧
    decode 0x678220EC00000000 = .ok (.zst .always 1 false (.queue 12) none .f32 false) ∧
    decode (fmtR 0x19 0x02 0x30 (sf 10 3 0) 0 0b1000) = .ok (.zst .always 1 true (.mem ⟨10, .ds⟩) none .f32 true) ∧
    decode 0x6783092008000000 = .ok (.zrd .always 9 1 false 1 false) ∧
    decode (fmtR 0x19 0x03 5 (3 * 2 ^ 15 + 7 * 2 ^ 5) 0 1) = .ok (.zrd .always 5 3 false 7 true) ∧
    decode 0x678400502801C000 = .ok (.zwr .always 2 true 5 (.inl (vs 7))) ∧
    decode (fmtR 0x19 0x04 0 (2 * 2 ^ 15 + 31 * 2 ^ 5) (si 7) 1) = .ok (.zwr .always 2 false 31 (.inr (ms 7))) := by
  and_intros <;> rfl
/-- R206, R209, R210, R215, R247. -/
theorem test_decode_memory :
    decode 0x7380140804068100 =
      .ok (.ld .always (.c (.v 5)) { base := .v 2, off := 64, order := .acq, scope := 5, evict := 0, space := .g, size := .b32 }) ∧
    decode (fmtM 0x1C 0x0 9 0xC4 0x3FF8 3 0 7 1 6 1 0) =
      .ok (.ld .always (.m 9) { base := .a 4, off := -8, order := .free, scope := 0, evict := 7, space := .sp, size := .m64 }) ∧
    decode (fmtM 0x1C 0x1 6 2 8 2 6 0 0 5 0 0) =
      .ok (.st .always (.c (.v 6)) { base := .v 2, off := 8, order := .rel, scope := 6, evict := 0, space := .g, size := .b64 }) ∧
    decode (fmtM 0x1C 0x2 0 0xF8 0x2000 0 0 6 5 4 0 2) = .ok (.pref .always .zero (-8192) 6 .obj .far) ∧
    decode (fmtM 0x1D 0x0 0 2 0 0 0 0 0 4 0 0) = .ok (.linv .always (.v 2) 0 0 .near) ∧ decode 0x7784000800000101 = .ok (.lcln .always (.v 2) 0 0 .mid) ∧
    decode 0x7B80020400018000 = .ok (.spmap .always 2 4 (vs 6) .rw) ∧ decode (fmtR 0x1E 0x01 7 0 0 0) = .ok (.spunmap .always (some 7)) ∧
    decode 0x7B82FF0000000000 = .ok (.spwb .always none) ∧ decode (fmtR 0x1E 0x03 0 0 0 0) = .ok (.spdrop .always (some 0)) ∧
    decode (fmtM 0x24 0x0 4 2 0 3 0 0 0 4 0 0) = .ok (.atadd .always (.v 4) (addr 2 .b32) false) ∧
    decode (fmtM 0x24 0x1 4 2 0 3 0 0 0 5 0 1) = .ok (.atmin .always (.v 4) (addr 2 .b64) true) ∧
    decode (fmtM 0x24 0x2 4 2 0 3 0 0 0 4 0 0) = .ok (.atmax .always (.v 4) (addr 2 .b32) false) ∧
    decode (fmtM 0x24 0x3 4 2 0 3 0 0 0 4 0 0) = .ok (.atminu .always (.v 4) (addr 2 .b32) false) ∧
    decode (fmtM 0x24 0x4 4 2 0 3 0 0 0 4 0 0) = .ok (.atmaxu .always (.v 4) (addr 2 .b32) false) ∧
    decode (fmtM 0x24 0x5 4 2 0 3 0 0 0 4 0 0) = .ok (.atand .always (.v 4) (addr 2 .b32) false) ∧
    decode (fmtM 0x24 0x6 4 2 0 3 0 0 0 4 0 0) = .ok (.ator .always (.v 4) (addr 2 .b32) false) ∧
    decode (fmtM 0x24 0x7 4 2 0 3 0 0 0 4 0 0) = .ok (.atxor .always (.v 4) (addr 2 .b32) false) ∧
    decode (fmtM 0x24 0x8 4 2 0 3 0 0 0 4 0 0) = .ok (.atxch .always (.v 4) (addr 2 .b32) false) ∧
    decode (fmtM 0x24 0x9 4 2 0 3 0 0 0 5 0 0) = .ok (.atcas .always (.v 4) (addr 2 .b64) false) ∧
    decode (fmtM 0x24 0xA 4 2 0 3 0 0 0 4 0 5) = .ok (.atfadd .always (.v 4) (addr 2 .b32) true .bf16x2) := by
  and_intros <;> rfl
/-- R253, R257, R260-R263. -/
theorem test_decode_synchronisation :
    decode 0x9780050000000000 = .ok (.fence .always .sc 5) ∧ decode 0x97800A0000000000 = .ok (.fence .always .acq 2) ∧
    decode 0x9780150000000000 = .ok (.fence .always .rel 5) ∧ decode 0x9781000100008000 = .ok (.barinit .always (vs 1) (vs 2)) ∧
    decode 0x9782050100000000 = .ok (.barr .always (.v 5) (vs 1)) ∧ decode 0x9783000100014000 = .ok (.barw .always (vs 1) (vs 5)) ∧
    decode 0x9784000100000000 = .ok (.bars .always (vs 1)) ∧ decode 0x978505020000C000 = .ok (.pharr .always (.v 5) (vs 2) (vs 3) .sp) ∧
    decode (fmtR 0x25 0x06 0 (si 2) (si 6) 2) = .ok (.phwait .always (vs 2) (vs 6) .ds) ∧ decode 0x9787090400018000 = .ok (.cwait .always (.v 9) (vs 4) (vs 6) .g .geu) ∧
    decode (fmtR 0x25 0x07 9 (si 5) (si 6) 0b1001) = .ok (.cwait .always (.v 9) (vs 5) (vs 6) .sp .ge) ∧
    decode (fmtR 0x25 0x08 2 (si 1) 0 0b100) = .ok (.voteAll .always 2 1 true) ∧ decode 0x9788020100000001 = .ok (.voteAny .always 2 1 false) ∧
    decode 0x9788080100000002 = .ok (.voteBallot .always 8 1 false) ∧ decode (fmtR 0x25 0x08 9 (si 1) 0 3) = .ok (.votePopc .always (.v 9) 1 false) ∧
    decode 0x9789040100008000 = .ok (.shfx .always (.v 4) 1 (vs 2) false) := by
  and_intros <;> rfl
/-- R266, R289. -/
theorem test_decode_engines_and_queues :
    decode (fmtX 0x0 2 10 6 8 0 0 1 2 0) = .ok (.xcopy xw) ∧
    decode (fmtX 0x0 3 10 0xF8 0xEC 1 1 31 5 1) =
      .ok (.xcopy { g := .always, shape := 3, coord := 10, ctr := none, dest := .q 12, objShape := true, cspace := .sp, pad := 31, ncoord := 5 }) ∧
    decode (fmtX 0x1 2 10 6 8 0 2 1 2 0) = .ok (.xstore { xw with cspace := .ds }) ∧
    decode (fmtX 0x2 2 0 6 0 0 0 7 0 0) = .ok (.xcode .always 2 (some 6) 7 false .g) ∧
    decode (fmtX 0x3 2 4 6 8 0 1 0 0 0) = .ok (.bulk .always 2 4 (some 6) 8 .sp) ∧
    decode 0xAF8001280000C000 = .ok (.enq .always 1 40 (vs 3)) ∧ decode 0xAF81020C00000000 = .ok (.join .always 2 12) ∧
    decode 0xAF82E30000000000 = .ok (.qclose .always 3) ∧ decode (fmtR 0x2B 0x02 0 (si 5) 0 1) = .ok (.qcloseC .always (vs 5)) ∧
    decode 0xAF83070500000001 = .ok (.qstat .always (.v 7) (vs 5) .c) := by
  and_intros <;> rfl
/-- R325's own words; a word that is none is refused by name (R49). -/
theorem test_decode_system :
    decode 0xBB80050300000000 = .ok (.trap .always 5 (some (vs 3))) ∧ decode 0xBB81000000000000 = .ok (.brkp .always 0) ∧
    decode (fmtR 0x2E 0x02 0 0 0 0) = .ok (.resumeRetry .always) ∧ decode 0xBB82000000000001 = .ok (.resumeSkip .always) ∧
    decode (fmtR 0x2E 0x02 0 0 0 2) = .ok (.resumeAbandon .always) ∧ decode (fmtR 0x2E 0x02 0 0 0 3) = .ok (.resumeKill .always) ∧
    decode 0xBB83090000004000 = .ok (.srd .always (.v 9) 0x01 false) ∧ decode 0xBB830A0000040001 = .ok (.srd .always (.v 10) 0x10 true) ∧
    decode 0xBB84000200004000 = .ok (.swr .always 0x01 (vs 2) false) ∧ decode 0xBB85000000000000 = .ok (.nop .always) ∧
    decode 0xBB86020300000000 = .ok (.hint .always 2 (some (vs 3))) ∧ decode 0xBB87030400000000 = .ok (.pmatch .always 3 4) ∧
    decode (fmtR 0x2E 0x07 63 0 0 1) = .ok (.pmatchRm .always 63) := by
  and_intros <;> rfl
/-- Reserved encodings are no instructions: a major, a minor, the guard 0b1111, a type, a source that is not read (R35, R37, R48). -/
theorem test_reserved_words_are_refused :
    (decode 0x0780000000000000).isOk = false ∧ (decode (fmtR 0x2E 0x08 0 0 0 0)).isOk = false ∧ (decode 0xBBC5000000000000).isOk = false ∧
    (decode (fmtR 0x0C 0x00 2 (si 3) (si 5) 3)).isOk = false ∧ (decode (fmtR 0x04 0x09 2 (si 3) (si 5) 0)).isOk = false ∧
    (decode (fmtR 0x04 0x02 0xF9 (si 3) (si 5) 0)).isOk = false ∧ (decode (fmtR 0x04 0x02 2 (si 0xFD) (si 5) 0)).isOk = false := by
  decide

/-! ### A machine on which one word is about to issue -/

/-- The machine that `withFetchWord` places, with the word's issue in progress: thread 0 alone in a COOP body of its crew, at step 0. -/
def base : State := { State.reset.withFetchWord 64 0 with agenda := [], cur := some { core := 0, sel := 0, batch := 0, word := 0 } }
/-- With that thread as `t`. -/
def withThread (t : Thread) (s : State := base) : State := updCore s 0 fun co => { co with threads := [(0, t)] }
/-- With that workgroup as `f` makes it. -/
def withWG (f : WG → WG) (s : State := base) : State := updCore s 0 fun co => updWG co 0 f
/-- With bytes at a physical address of the page that every context address below 4,096 maps to. -/
def withBytes (a : Nat) (bs : List Byte) (s : State := base) : State := { s with mem := memWrite s.mem a bs }
/-- A thread with the v registers given. -/
def regs (v : SMap Word) : Thread := { crew := 0, v := v }
/-- What the issue sees. -/
def envAt (s : State) : Env := (envOf s).getD
  { s := s, c := 0, co := {}, sel := 0, b := { id := 0, launch := 0, role := 0, pos := {}, slots := [], count := 0, live := [] }, word := 0, base := 0,
    w := demoWG, r := roleOf demoWG 0, crewB := false }

def issuesB (s : State) (p : WordSpec) : Bool :=
  match envOf s with
  | none => false
  | some e => e.b.slots.all (fun i => (get? e.co.threads i).isSome) && legal e p && (!p.crew || e.crewB) && decide (gateOf e p (liveOf e p.g p.again) = .go)
theorem issues_of {s : State} {p : WordSpec} (h : issuesB s p = true) : Issues s (envAt s) p := by
  unfold issuesB at h
  split at h
  · cases h
  · rename_i e he
    have hv : envAt s = e := by simp [envAt, he]
    simp only [Bool.and_eq_true, List.all_eq_true, decide_eq_true_eq, Bool.or_eq_true, Bool.not_eq_true'] at h
    refine hv ▸ ⟨he, h.1.1.1, h.1.1.2, fun hc => ?_, h.2⟩
    rcases h.1.2 with hb | hb
    · rw [hc] at hb; cases hb
    · exact hb
def loneB (s : State) (p : WordSpec) (i : Nat) : Bool :=
  issuesB s p && decide (liveOf (envAt s) p.g p.again = [i]) && decide (((envAt s).thread i).resume = .none)
theorem lone_of {s : State} {p : WordSpec} {i : Nat} (h : loneB s p i = true) : Lone s (envAt s) p i := by
  simp only [loneB, Bool.and_eq_true, decide_eq_true_eq] at h
  exact ⟨issues_of h.1.1, h.1.2, h.2⟩
def answersB (r : L LaneOut) : Bool := match r with | .ok _ | .error (.trap ..) => true | _ => false
theorem answers_of {r : L LaneOut} (h : answersB r = true) : Answers r := by
  intro b hb
  subst hb
  cases b <;> first | exact ⟨_, _, _, _, _, rfl⟩ | cases h
/-- The hypotheses of a `Computes`, with a lane that executes the word and answers. -/
def Met (p : WordSpec) (res : Env → Nat → L LaneOut) : Prop :=
  ∃ s e, Issues s e p ∧ liveOf e p.g p.again ≠ [] ∧ ∀ k ∈ liveOf e p.g p.again, Answers (res e k)
def metB (s : State) (p : WordSpec) (res : Env → Nat → L LaneOut) : Bool :=
  issuesB s p && !(liveOf (envAt s) p.g p.again).isEmpty && (liveOf (envAt s) p.g p.again).all fun k => answersB (res (envAt s) k)
theorem met_of (s : State) {p : WordSpec} {res : Env → Nat → L LaneOut} (h : metB s p res = true) : Met p res := by
  simp only [metB, Bool.and_eq_true, List.all_eq_true, Bool.not_eq_true'] at h
  exact ⟨s, envAt s, issues_of h.1.1, by simpa using h.1.2, fun k hk => answers_of (h.2 k hk)⟩
/-- A value that a read gives. -/
def gives {ε α : Type} [DecidableEq α] (x : Except ε α) (y : α) : Bool := match x with | .ok z => decide (z = y) | .error _ => false
theorem gives_of {ε α : Type} [DecidableEq α] {x : Except ε α} {y : α} (h : gives x y = true) : x = .ok y := by
  cases x <;> simp_all [gives]
def fetches {α : Type} [DecidableEq α] (x : Fetch α) (y : α) : Bool := match x with | .ok z => decide (z = y) | _ => false
theorem fetch_of {α : Type} [DecidableEq α] {x : Fetch α} {y : α} (h : fetches x y = true) : x = .ok y := by
  cases x <;> simp_all [fetches]
theorem ok_of {ε α : Type} {x : Except ε α} (h : x.isOk = true) : ∃ y, x = .ok y := by
  cases x with
  | ok y => exact ⟨y, rfl⟩
  | error b => cases h

/-! ### States that meet the hypotheses of the statements: words on registers -/

/-- The hypotheses of `Gives`, for any value. -/
def GivesMet (a : Alu) : Prop := ∀ val : List Nat → Nat, Met a.spec (resultOf a fun e k vs => .ok (val vs, e.thread k))
/-- The hypotheses of `Floats`, for any value and flags. -/
def FloatsMet (a : Alu) : Prop := ∀ f : Ctl → List Nat → Nat × Flags, Met a.spec (resultOf a fun e k vs =>
  .ok ((f (ctlOf (e.thread k).fpctl) vs).1, (e.thread k).flags (f (ctlOf (e.thread k).fpctl) vs).2))

/-- At the ends of the register file, with a pair, an indexed register, a lane permutation, and a queue register that is popped and one that
is pushed. -/
theorem witness_IntegerArithmeticResults :
    GivesMet (alu3 (r3 191 0 190) false) ∧ GivesMet (alu3 (r3 190 0 2) true) ∧ GivesMet (alu2 (r2 0 1) false) ∧
    GivesMet (alu3 { r3 0 1 2 with a := { code := .v 1, perm := .rot 127 } } false) ∧
    GivesMet (alu3 { g := .on 6 true, d := .a 31, a := { code := .lane }, b := { code := .zero } } false) ∧
    (∀ val : List Nat → Nat, let a := alu3 { g := .always, d := .q 1, a := { code := .q 0 }, b := { code := .idx 7, off := 1 } } false
      Met a.spec (resultOf a fun e k vs => .ok (val vs, e.thread k))) := by
  refine ⟨fun _ => met_of base rfl, fun _ => met_of base rfl, fun _ => met_of base rfl, fun _ => met_of base rfl, fun _ => met_of base rfl,
    fun _ => met_of (withWG (fun w => { w with queues := [(0, { entries := [[]] })] }) (withThread { crew := 0, x := [(7, mkX 0 2 0)] })) rfl⟩
/-- A divisor of 1, and one of 0. -/
theorem witness_IntegerDivideResults :
    let p := (alu3 (r3 0 1 2) false)
    let res := resultOf p fun e k vs => if arg vs 1 = 0 then .error (.trap cDivzero vs 0 0 false) else .ok (of2 32 BitVec.sdiv vs, e.thread k)
    (∃ s e, Issues s e p.spec ∧ (∀ k ∈ liveOf e p.g false, Answers (res e k)) ∧ (e.thread 0).getV 2 = 1) ∧
    (∃ s e, Issues s e p.spec ∧ (∀ k ∈ liveOf e p.g false, Answers (res e k)) ∧ (e.thread 0).getV 2 = 0) := by
  refine ⟨⟨withThread (regs [(2, 1)]), envAt _, issues_of rfl, fun k hk => ?_, rfl⟩, ⟨base, envAt _, issues_of rfl, fun k hk => ?_, rfl⟩⟩ <;>
    exact answers_of (by rw [show k = 0 from List.mem_singleton.mp hk]; rfl)
theorem witness_LogicShiftAndFieldResults :
    GivesMet (alu3 (r3 0 1 2) false) ∧ GivesMet (alu3 (r3 0 2 190) true) ∧ GivesMet (alu2 (r2 0 1) false) ∧ GivesMet (alu2 (r2 190 2) true) ∧
    GivesMet { g := .always, d := .v 0, w := true, srcs := [(vs 2, true), (vs 191, false)] } := by
  refine ⟨?_, ?_, ?_, ?_, ?_⟩ <;> exact fun _ => met_of base rfl
theorem witness_ThreeSourceAndConstantResults :
    GivesMet (aluT (t3 0 1 2 3)) ∧ GivesMet { g := .always, d := .v 0, srcs := [] } ∧ GivesMet { g := .always, d := .v 191, srcs := [(vs 191, false)] } := by
  refine ⟨?_, ?_, ?_⟩ <;> exact fun _ => met_of base rfl
theorem witness_CompareAndPredicateResults :
    (∀ f : Thread → List Nat → Bool, ∀ srcs ∈ [[vs 0, vs 191], [vs 1], []], Met (Alu.bare .always srcs).spec
      (changeOf (Alu.bare .always srcs).srcs fun e k vs => .ok ((e.thread k).setP 6 (f (e.thread k) vs)))) ∧
    (∀ neg, Met (alu3 (r3 0 1 2) false).spec (resultOf (alu3 (r3 0 1 2) false) fun e k vs =>
      .ok (if (e.thread k).getP 6 ≠ neg then arg vs 0 else arg vs 1, e.thread k))) := by
  refine ⟨fun f srcs h => ?_, fun neg => met_of base (by cases neg <;> rfl)⟩
  simp only [List.mem_cons, List.not_mem_nil, or_false] at h
  rcases h with rfl | rfl | rfl <;> exact met_of base rfl
/-- A record that ends at register 191, and one that would reach register 192; an origin below 0. -/
theorem witness_IndexRegisterResults :
    let ix := fun (srcs : List Src) (f : Thread → List Nat → L Thread) (v : SMap Word) => ∃ s e, Issues s e (Alu.bare .always srcs).spec ∧
      (∀ k ∈ liveOf e .always false, Answers (changeOf (Alu.bare .always srcs).srcs (fun e k vs => f (e.thread k) vs) e k)) ∧ (e.thread 0).v = v
    let xset := fun (t : Thread) (vs : List Nat) => (if 192 < arg vs 0 % 256 + arg vs 0 / 256 % 256 then .error (.trap cBounds vs 0 0 false)
      else .ok (t.setX 7 (BitVec.ofNat 24 (arg vs 0))) : L Thread)
    let org := fun (t : Thread) (vs : List Nat) =>
      let o := (xOrg (t.getX 0) : Int) + (BitVec.ofNat 32 (arg vs 0)).toInt
      (if o < 0 ∨ 192 < o + xLen (t.getX 0) then .error (.trap cBounds ((t.getX 0).toNat :: vs) 0 0 false)
       else .ok (t.setX 7 (mkX o.toNat (xLen (t.getX 0)) (xIdx (t.getX 0)))) : L Thread)
    ix [vs 1] xset [(1, 0x01BF)] ∧ ix [vs 1] xset [(1, 0x01C0)] ∧ ix [vs 1] org [(1, 192)] ∧ ix [vs 1] org [(1, 193)] ∧ ix [vs 1] org [(1, 0xFFFFFFFF)] ∧
    ix [] (fun t _ => .ok (t.setX 7 (t.getX 0))) [] ∧
    Met (Alu.spec { g := .always, d := .v 191, srcs := [] }) (resultOf { g := .always, d := .v 191, srcs := [] } fun e k _ =>
      .ok (((e.thread k).getX 7).toNat, e.thread k)) := by
  refine ⟨⟨withThread (regs [(1, 0x01BF)]), envAt _, issues_of rfl, fun k hk => ?_, rfl⟩, ⟨withThread (regs [(1, 0x01C0)]), envAt _, issues_of rfl, fun k hk => ?_, rfl⟩,
    ⟨withThread (regs [(1, 192)]), envAt _, issues_of rfl, fun k hk => ?_, rfl⟩, ⟨withThread (regs [(1, 193)]), envAt _, issues_of rfl, fun k hk => ?_, rfl⟩,
    ⟨withThread (regs [(1, 0xFFFFFFFF)]), envAt _, issues_of rfl, fun k hk => ?_, rfl⟩, ⟨base, envAt _, issues_of rfl, fun k hk => ?_, rfl⟩, met_of base rfl⟩ <;>
    exact answers_of (by rw [show k = 0 from List.mem_singleton.mp hk]; rfl)
theorem witness_AffineRegisterResults :
    (∀ f : Word → Word → List Nat → Word × Word, ∀ srcs ∈ [[vs 0, vs 191], [vs 1]],
      Met (Alu.spec { g := .always, d := .a 31, srcs := srcs.map fun x => (x, false) }) (affineOf (srcs.map fun x => (x, false)) f 31)) ∧
    (∀ f : Word → Word → Nat → Word, Met (Alu.spec { g := .always, d := .v 191, srcs := [] })
      (resultOf { g := .always, d := .v 191, srcs := [] } fun e k _ =>
        .ok ((f (lo32 (rget 0 (e.crew (e.thread k)).aff 31)) (hi32 (rget 0 (e.crew (e.thread k)).aff 31)) (e.lane k)).toNat, e.thread k))) := by
  refine ⟨fun f srcs h => ?_, fun f => met_of base rfl⟩
  simp only [List.mem_cons, List.not_mem_nil, or_false] at h
  rcases h with rfl | rfl <;> exact met_of base rfl
theorem witness_SignWordsChangeSignBitsAlone : FloatsMet (alu2 (r2 191 0) false) ∧ FloatsMet (alu3 (r3 0 1 191) false) :=
  ⟨fun _ => met_of base rfl, fun _ => met_of base rfl⟩
theorem witness_FloatingArithmeticResults :
    FloatsMet (alu3 (r3 0 1 191) false) ∧ FloatsMet (alu2 (r2 191 0) false) ∧ FloatsMet (aluT (t3 0 1 2 191)) :=
  ⟨fun _ => met_of base rfl, fun _ => met_of base rfl, fun _ => met_of base rfl⟩
theorem witness_FloatingCompareResults :
    FloatsMet (alu3 (r3 0 1 191) false) ∧ FloatsMet (alu2 (r2 191 0) false) ∧
    ∀ f : Thread → List Nat → Thread, Met (Alu.bare .always [vs 0, vs 191]).spec
      (changeOf (Alu.bare .always [vs 0, vs 191]).srcs fun e i vs => .ok (f (e.thread i) vs)) :=
  ⟨fun _ => met_of base rfl, fun _ => met_of base rfl, fun _ => met_of base rfl⟩
/-- A zero, an infinity, a quiet and a signalling NaN, a negative number, and 2^-126. -/
theorem witness_FunctionWordResults :
    FloatsMet (alu2 (r2 191 0) false) ∧
    ∀ z ∈ [(0#32), 0x7F800000, 0x7FC00000, 0x7F800001, 0xBF800000, 0x00800000], ∃ s e, Issues s e (alu2 (r2 191 0) false).spec ∧
      ∀ k ∈ liveOf e .always false, ∃ d, readSrcs e k (e.thread k) [(vs 0, false)] = .ok ([z.toNat], false) ∧
        destOf e (e.thread k) (.v 191) false = .ok d ∧ d ≠ .odd := by
  refine ⟨fun _ => met_of base rfl, fun z h => ⟨withThread (regs (if z = 0 then [] else [(0, z)])),
    envAt (withThread (regs (if z = 0 then [] else [(0, z)]))), ?_, fun k hk => ?_⟩⟩
  all_goals simp only [List.mem_cons, List.not_mem_nil, or_false] at h
  · rcases h with rfl | rfl | rfl | rfl | rfl | rfl <;> exact issues_of rfl
  · rcases h with rfl | rfl | rfl | rfl | rfl | rfl <;> rw [show k = 0 from List.mem_singleton.mp hk] <;>
      exact ⟨.v 191, gives_of (by decide +kernel), gives_of rfl, by decide⟩
theorem witness_ConversionResults :
    let srcs := fun (a : Src) (b : Option Src) => (a, false) :: (b.toList.map fun x => (x, false))
    FloatsMet { g := .always, d := .v 190, w := true, srcs := srcs (vs 0) none } ∧ FloatsMet { g := .always, d := .v 0, srcs := srcs (vs 0) (some (vs 191)) } ∧
    FloatsMet (alu2 (r2 191 0) false) := ⟨fun _ => met_of base rfl, fun _ => met_of base rfl, fun _ => met_of base rfl⟩
/-- The greatest finite image and an infinity of each type. -/
theorem witness_ValuesRoundToThemselves :
    ∀ x ∈ [(FTy.f32, 0x7F7FFFFF), (.f32, 0xFF800000), (.f16x2, 0x7BFF), (.f16x2, 0xFC00), (.bf16x2, 0xFF7F), (.bf16x2, 1)],
      (ctlOf 0).ftz = false ∧ x.2 < 2 ^ (fmtOf x.1).width ∧ isNaN (fmtOf x.1) x.2 = false := by decide

/-- A thread whose m registers hold a positive and a negative variance. -/
def moments : Thread := { crew := 0, m := [(0, 0x3F8000003F800000), (1, 0xBF80000000000000)] }
theorem witness_MomentMoveResults :
    let m := fun (x : MWord) (f : Thread → List Nat → L (Nat × Thread)) (t : Thread) => ∃ s e, Issues s e x.spec ∧
      (∀ k ∈ liveOf e x.g false, Answers (momentOf x f e k)) ∧ e.thread 0 = t
    let set := fun (t : Thread) (vs : List Nat) => (if 2 ^ 31 < arg vs 1 then .error (.trap cNegvar vs 0 0 false)
      else .ok (arg vs 0 + 2 ^ 32 * (arg vs 1 % 2 ^ 31), t.flags 0) : L (Nat × Thread))
    m { g := .always, d := .m 63, srcs := [.s (vs 0), .s (vs 1)] } set (regs [(1, 0x80000000)]) ∧
    m { g := .always, d := .m 63, srcs := [.s (vs 0), .s (vs 1)] } set (regs [(1, 0x80000001)]) ∧
    (∀ x ∈ [({ g := .always, d := .m 63, srcs := [.s (vs 0)] } : MWord), { g := .always, d := .code (.v 190) true, srcs := [.m (ms 63)] },
        { g := .always, d := .m 0, srcs := [.m (ms 0)] }, { g := .always, d := .m 0, srcs := [] }],
      m x (fun t vs => .ok (arg vs 0, t.flags 0)) moments) ∧
    (∀ a ∈ [0, 1], m { g := .always, d := .p 6, srcs := [.m (ms a)] } (fun t vs =>
      if negVar (arg vs 0) then .error (.trap cNegvar vs 0 0 false)
      else
        let finite := fun (x : Nat) => decide (x / 2 ^ 23 % 256 ≠ 255)
        .ok (if finite (arg vs 0 % 2 ^ 32) ∧ finite (arg vs 0 / 2 ^ 32 % 2 ^ 32) then 1 else 0, t.flags 0)) moments) := by
  refine ⟨⟨withThread (regs [(1, 0x80000000)]), envAt _, issues_of rfl, fun k hk => ?_, rfl⟩,
    ⟨withThread (regs [(1, 0x80000001)]), envAt _, issues_of rfl, fun k hk => ?_, rfl⟩, fun x hx => ?_, fun a ha => ?_⟩
  · exact answers_of (by rw [show k = 0 from List.mem_singleton.mp hk]; rfl)
  · exact answers_of (by rw [show k = 0 from List.mem_singleton.mp hk]; rfl)
  · simp only [List.mem_cons, List.not_mem_nil, or_false] at hx
    rcases hx with rfl | rfl | rfl | rfl <;>
      exact ⟨withThread moments, envAt _, issues_of rfl, fun k hk => answers_of (by rw [show k = 0 from List.mem_singleton.mp hk]; rfl), rfl⟩
  · simp only [List.mem_cons, List.not_mem_nil, or_false] at ha
    rcases ha with rfl | rfl <;>
      exact ⟨withThread moments, envAt _, issues_of rfl, fun k hk => answers_of (by rw [show k = 0 from List.mem_singleton.mp hk]; rfl), rfl⟩
/-- The hypotheses of `Planes`: a variance of 1, and one of -1. -/
def PlanesMet (x : MWord) (ms : Nat) : Prop :=
  ∀ f : Ctl → Thread → List Nat → (Nat × Flags) × (Nat × Flags), Met x.spec (momentOf x fun t vs =>
    if (vs.take ms).any negVar then .error (.trap cNegvar vs 0 0 false)
    else .ok (writeMom t (f (ctlOf t.fpctl) t vs).1 (f (ctlOf t.fpctl) t vs).2))
theorem witness_MomentArithmeticResults :
    (∀ a ∈ [0, 1], PlanesMet { g := .always, d := .m 63, srcs := [.m (ms a), .m (ms 0)] } 2 ∧
      PlanesMet { g := .always, d := .m 63, srcs := [.m (ms a), .m (ms 0), .m (ms 63)] } 3 ∧
      PlanesMet { g := .always, d := .m 63, srcs := [.m (ms a), .s (vs 191)] } 1 ∧ PlanesMet { g := .always, d := .m 63, srcs := [.m (ms a)] } 1) := by
  intro a ha
  simp only [List.mem_cons, List.not_mem_nil, or_false] at ha
  rcases ha with rfl | rfl <;> exact ⟨fun _ => met_of (withThread moments) rfl, fun _ => met_of (withThread moments) rfl,
    fun _ => met_of (withThread moments) rfl, fun _ => met_of (withThread moments) rfl⟩
theorem witness_MomentCollapseResults :
    ∀ a ∈ [0, 1], ∀ srcs ∈ [[MField.m (ms a)], [.m (ms a), .s (vs 191)]], ∀ r : Ctl → List Nat → Nat × Flags,
      let x : MWord := { g := .always, d := .code (.v 191) false, srcs := srcs }
      Met x.spec (momentOf x fun t vs =>
        if negVar (arg vs 0) then .error (.trap cNegvar vs 0 0 false) else .ok ((r (ctlOf t.fpctl) vs).1, t.flags (r (ctlOf t.fpctl) vs).2)) := by
  intro a ha srcs hs r
  simp only [List.mem_cons, List.not_mem_nil, or_false] at ha
  rcases ha with rfl | rfl <;> simp only [List.mem_cons, List.not_mem_nil, or_false] at hs <;> rcases hs with rfl | rfl <;>
    exact met_of (withThread moments) rfl

/-! ### Control and system words -/

/-- A function whose root is a DO loop (R60) around the block that the thread stands in. -/
def inLoop : State :=
  let s := withBytes 0 (toBytes 16 (4 * 2 ^ 124 + 1 * 2 ^ 64 + 1 * 2 ^ 56)) (withBytes 16 (toBytes 16 (2 * 2 ^ 124 + 1 * 2 ^ 111)))
  let p : Pos := { fn := 0, node := 1, step := 0 }
  updCore { s with ctxs := [(0, { demoCtx with dir := [(0, BitVec.ofNat 256 (0x100 * 2 ^ 64 + 2 * 2 ^ 192))] })] } 0 fun co =>
    mapBatch { co with threads := [(0, { crew := 0, pos := p })] } 0 0 fun b => { b with pos := p }
/-- A thread in trap context. -/
def inTrap : Thread := { crew := 0, trap := some { base := 0, pos := {}, info := { code := 1 } } }
theorem witness_DepartingThreadsGoToTheWalker :
    ∃ s e, Issues s e { g := .always } ∧ liveOf e .always false ≠ [] ∧ climbOf e = .ok () ∧ (∀ j ∈ liveOf e .always false, (e.thread j).pos = e.b.pos) ∧
      loopTarget e { crew := 0, pos := e.b.pos } 1 false = some 0 ∧ loopTarget e { crew := 0, pos := e.b.pos } 1 true = some 1 ∧
      ∀ j ∈ liveOf e .always false, ∀ x, (e.thread j).trap = some x → x.base < (e.thread j).depth := by
  refine ⟨inLoop, envAt _, issues_of rfl, by decide +kernel, fetch_of (by decide +kernel), by decide +kernel, by decide +kernel, by decide +kernel, fun j hj x hx => ?_⟩
  rw [show j = 0 from List.mem_singleton.mp hj] at hx
  cases hx
/-- RET in a function that the handler called. -/
theorem witness_DepartingThreadsGoToTheWalker_handler :
    ∃ s e, Issues s e { g := .always } ∧ (liveOf e .always false = [0]) ∧ ((e.thread 0).trap.any fun x => x.base < (e.thread 0).depth) = true :=
  ⟨withThread { inTrap with depth := 1 }, envAt _, issues_of rfl, rfl, rfl⟩
theorem witness_DoneEndsThreads : ∃ s e, Issues s e { g := .on 0 true } ∧ liveOf e (.on 0 true) false = [0] := ⟨base, envAt _, issues_of rfl, rfl⟩
/-- A REP of 64 and of 1 repetition before a NOP. -/
theorem witness_MaskWordsAndRep :
    ∃ s e, Issues s e { g := .always } ∧ (1 ≤ 64 ∧ 64 < 128 ∧ 255 < 256) ∧ repOk e = true ∧ (∀ i ∈ participants e, (e.thread i).trap = none) :=
  ⟨withBytes 0x110 (toBytes 8 0xBB85000000000000), envAt _, issues_of rfl, by decide, by decide +kernel, by decide +kernel⟩
theorem witness_TrapBreakHintAndIllegalResults :
    (∃ s e, envOf s = some e) ∧ Met { g := .always } (fun e k => .ok { t := e.thread k }) ∧
    (∀ a ∈ [none, some (vs 3)], Met (optSpec .always a) fun e k => match optVal e k (e.thread k) a with
      | .error b => .error b
      | .ok x => .error (.trap 0x11 [x] 0 255 false)) ∧
    (∀ x ∈ [(0#32), 1#32, 2#32, 3#32], ∃ s e, Issues s e { g := .always } ∧ (ctxOf e.s (e.wg (e.thread 0)).ctx).dbgctl = x) ∧
    (∃ s e, Lone s e (optSpec .always (some (vs 3))) 0 ∧ optVal e 0 (e.thread 0) (some (vs 3)) = .ok 7) := by
  refine ⟨⟨base, envAt base, rfl⟩, met_of base rfl, fun a ha => ?_, fun x hx => ⟨updCtx base 0 fun k => { k with dbgctl := x }, envAt _, issues_of ?_, ?_⟩,
    withThread (regs [(3, 7)]), envAt _, lone_of rfl, gives_of rfl⟩
  · simp only [List.mem_cons, List.not_mem_nil, or_false] at ha
    rcases ha with rfl | rfl <;> exact met_of base rfl
  all_goals
    simp only [List.mem_cons, List.not_mem_nil, or_false] at hx
    rcases hx with rfl | rfl | rfl | rfl <;> rfl
theorem witness_ResumeWordsEndTrapContext :
    (∃ s e, Lone s e { g := .always } 0 ∧ (e.thread 0).trap.isSome = true ∧ (∃ r, recordRegs e s 0 (e.thread 0) = .ok r) ∧ (e.thread 0).pend = []) ∧
    ∃ s e x w pa, Lone s e { g := .always } 0 ∧ (e.thread 0).trap = some x ∧ (e.thread 0).pend = [] ∧ wgKey e.co 0 = some 0 ∧
      get? e.co.wgs 0 = some w ∧ 104 ≤ w.kern.lpriv ∧ translateVA s w.ctx (slice s w 0 0 80) false = .ok pa true ∧ acquirePending e.co 0 = false ∧
      mustWait s e.co w.ctx 0 (.off pa true) 24 = false :=
  ⟨⟨withThread inTrap, envAt _, lone_of rfl, rfl, ok_of (by decide +kernel), rfl⟩,
   withThread inTrap, envAt _, _, demoWG, slice base demoWG 0 0 80, lone_of rfl, rfl, rfl, by decide +kernel, rfl, by decide, by decide +kernel, by decide +kernel, by decide +kernel⟩
theorem witness_SpecialRegisterWordsAndValues :
    (∃ s e, Lone s e { g := .always, regs := codeRegs (.v 190) true } 0 ∧ destOf e (e.thread 0) (.v 190) true = .ok (.v 190) ∧ Dest.v 190 ≠ .odd ∧
      ∃ x, specialVal e s 0 (e.thread 0) 0x10 = .ok x) ∧
    (∃ s e t, Lone s e { g := .always, regs := [.v 2], perms := [.ident] } 0 ∧ readSrc e 0 (e.thread 0) (vs 2) false = .ok { x := 0xFFFFFFFF } ∧
      writeSpecial e .always s 0 (e.thread 0) 0x00 (BitVec.ofNat 32 0xFFFFFFFF) = .ok (t, s) ∧ t.fpctl = 0xF80F) ∧
    (∃ s e, (e.thread 0).trap = none ∧ envOf s = some e) :=
  ⟨⟨base, envAt _, lone_of rfl, gives_of rfl, by decide, ok_of rfl⟩,
   ⟨withThread (regs [(2, 0xFFFFFFFF)]), envAt _, { crew := 0, v := [(2, 0xFFFFFFFF)], fpctl := 0xF80F }, lone_of rfl, gives_of rfl, rfl, rfl⟩,
   ⟨base, envAt base, rfl, rfl⟩⟩
/-- A second function of the code object whose root block is one NOP: a match handler (R340). -/
def withHandler (s : State := base) : State :=
  let s := withBytes 0x20 (toBytes 16 (2 * 2 ^ 124)) (withBytes 0x200 (toBytes 8 (2 ^ 56)) (withBytes 0x208 (toBytes 8 0xBB85000000000000) s))
  updCtx s 0 fun k => { k with dir := put k.dir 1 (BitVec.ofNat 256 (0x20 + 0x200 * 2 ^ 64 + 2 ^ 192)) }
/-- The last step of the block is a key. -/
theorem witness_MatchPointWords :
    (∃ s e y, Lone s e { g := .always, regs := vRange 4 2 } 0 ∧ readPair e (e.thread 0) 4 = .ok (2 ^ 32 * (254 + 256)) ∧
      matchKey e.s (e.wg (e.thread 0)).kern (e.wg (e.thread 0)).ctx (e.thread 0).pos.fn e.r.nv (2 ^ 32 * (254 + 256)) = .ok (some y)) ∧
    ∃ s e, Lone s e { g := .always } 0 :=
  ⟨⟨withHandler (withThread (regs [(5, 254 + 256)])), envAt _, BitVec.ofNat 64 (2 ^ 32 * 254 + 2 ^ 40), lone_of (by decide +kernel), gives_of (by decide +kernel),
    fetch_of (by decide +kernel)⟩,
   base, envAt _, lone_of rfl⟩

/-! ### Memory words and accesses -/

/-- The last 8 bytes of the page, the last of the scratchpad, a byte before the base, and an atomic of each width. -/
theorem witness_MemoryWordsIssueTheirAccess :
    let acc := fun (a : MAddr) (rd wr : Bool) =>
      ({ spc := a.space, off := a.off, n := sizeBytes a.size, align := sizeBytes a.size, read := rd, write := wr } : Acc)
    (∃ s e, Lone s e { g := .always, regs := baseRegs .g (.v 2) ++ dataRegs (.c (.v 6)) .b64 } 0 ∧ baseVal e 0 (e.thread 0) .g (.v 2) = .ok 0xFF8 ∧
      loadDst (.c (.v 6)) .b64 e (e.thread 0) = .ok ([.v 6, .v 7], false) ∧ scopeOk .g 6 = true ∧
      placeOf e s 0 (e.thread 0) (acc (addr 2 .b64) true false) [0xFF8] false false 0 = .ok (.off 0xFF8 true)) ∧
    (∃ s e, Lone s e { g := .always, regs := baseRegs .sp (.v 8) ++ dataRegs (.c .lane) .u8 } 0 ∧ baseVal e 0 (e.thread 0) .sp (.v 8) = .ok 16384 ∧
      storeData (.c .lane) .u8 e 0 (e.thread 0) = .ok ([0], false) ∧ scopeOk .sp 3 = true ∧
      placeOf e s 0 (e.thread 0) (acc { addr 8 .u8 with off := -1, space := .sp } false true) [16384, 0] false false 0 = .ok (.scr 0 0 16383)) ∧
    (∃ s e, Lone s e { g := .always, regs := baseRegs .g (.v 2) ++ atRegs true (.v 4) .b64 } 0 ∧ baseVal e 0 (e.thread 0) .g (.v 2) = .ok 0xFF8 ∧
      atomData true (.v 4) .b64 e 0 (e.thread 0) = .ok ([5 + 2 ^ 64 * 6], false) ∧ atomDst false (.v 4) .b64 e (e.thread 0) = .ok ([.v 4, .v 5], false) ∧
      placeOf e s 0 (e.thread 0) { acc (addr 2 .b64) true true with atom := true, host := false } [0xFF8, 5 + 2 ^ 64 * 6] false false 0 = .ok (.off 0xFF8 true)) ∧
    (∃ s e, Lone s e { g := .always, regs := baseRegs .g (.v 2) ++ atRegs false (.v 4) .b32 } 0 ∧
      atomData false (.v 4) .b32 e 0 (e.thread 0) = .ok ([5], false) ∧ atomDst true (.v 4) .b32 e (e.thread 0) = .ok ([], false) ∧
      placeOf e s 0 (e.thread 0) { acc (addr 2 .b32) true true with atom := true, host := true } [0xFF8, 5] false false 0 = .ok (.off 0xFF8 true)) ∧
    (∃ s e, Lone s e { g := .always, regs := baseRegs .g (.v 2) } 0 ∧ baseVal e 0 (e.thread 0) .g (.v 2) = .ok 0xFF8 ∧
      placeOf e s 0 (e.thread 0) { spc := .g, off := 7, n := 1, align := 1, read := true, write := false, watch := false, poison := false } [0xFF8] false
        false 0 = .ok (.off 0xFFF true)) ∧
    Met { g := .always, regs := baseRegs .obj .zero } (fun e k => match baseVal e k (e.thread k) .obj .zero with
      | .error b => .error b
      | .ok _ => .ok { t := e.thread k }) := by
  let t := regs [(2, 0xFF8), (4, 5), (6, 6), (8, 16384)]
  refine ⟨⟨withThread t, envAt _, lone_of (by decide +kernel), gives_of (by decide +kernel), gives_of (by decide +kernel), rfl, gives_of (by decide +kernel)⟩,
    ⟨withThread t, envAt _, lone_of (by decide +kernel), gives_of (by decide +kernel), gives_of (by decide +kernel), rfl, gives_of (by decide +kernel)⟩,
    ⟨withThread t, envAt _, lone_of (by decide +kernel), gives_of (by decide +kernel), gives_of (by decide +kernel), gives_of (by decide +kernel), gives_of (by decide +kernel)⟩,
    ⟨withThread t, envAt _, lone_of (by decide +kernel), gives_of (by decide +kernel), gives_of (by decide +kernel), gives_of (by decide +kernel)⟩,
    ⟨withThread t, envAt _, lone_of (by decide +kernel), gives_of (by decide +kernel), gives_of (by decide +kernel)⟩, met_of base rfl⟩
theorem witness_AccessesAreInFlightByLine :
    ∃ (s : State) (e : Env) (oks : List (Nat × LaneOut)), traceOn s e.w.ctx = false ∧ (coreOf s e.c).samples = [] ∧
      (∀ a ∈ oks.flatMap fun o => o.2.acc, a.sample = none) ∧ oks ≠ [] :=
  ⟨base, envAt base, [(0, { t := { crew := 0 }, acc := [{ slot := 0, place := .off 0xFFF true, len := 1 }] })], rfl, rfl, by decide, by simp⟩
/-- An access in flight of one lane. -/
def oneAccess (k : PKind) (place : Place) (len data cmp : Nat) (dst : List Reg) : Pend :=
  { id := 3, wg := 0, kind := k, lanes := [{ slot := 0, place := place, len := len, data := data, cmp := cmp, dst := dst }], order := .sc, scope := 5,
    read := true, write := true }
theorem witness_AccessesArePerformed :
    (∃ s p, (coreOf s 0).pend.find? (fun q => decide (q.id = 3)) = some p ∧
      (∀ q ∈ (coreOf s 0).pend, q.id < 3 → samePeerLine q p = false ∧ (sharesSlot q p = true → orderedBefore q (p.asNow s) = false)) ∧ heldByNote s 0 p = false ∧
      trafficHeld s (pendCtx (coreOf s 0) p) (p.lanes.map (·.place)) = false ∧ (∀ l ∈ p.lanes, engineOwns s l.place = false) ∧
      (∀ l ∈ p.lanes, placePoisoned s l.place l.len = false) ∧ p.lanes.length ≤ 1 ∧ (∀ l ∈ p.lanes, l.sample = none) ∧ (coreOf s 0).samples = [] ∧ s.notes = []) ∧
    (∀ b64 ∈ [false, true], ∃ (s : State) (l : PLane), l.len = (if b64 then 64 else 32) / 8 ∧ readPlace s l.place l.len = l.cmp) ∧
    ∃ (s : State) (l : PLane), l.len = 32 / 8 ∧ readPlace s l.place l.len ≠ l.cmp := by
  refine ⟨⟨updCore base 0 fun co => { co with pend := [oneAccess .store (.off 0xFF8 true) 8 1 0 []] }, oneAccess .store (.off 0xFF8 true) 8 1 0 [],
      by decide +kernel, by decide +kernel, by decide +kernel, by decide +kernel, by decide +kernel, by decide +kernel, by decide, by decide, rfl, rfl⟩, fun b hb => ?_,
    base, { slot := 0, place := .scr 0 0 16380, len := 4, cmp := 1 }, rfl, by decide +kernel⟩
  simp only [List.mem_cons, List.not_mem_nil, or_false] at hb
  rcases hb with rfl | rfl
  · exact ⟨base, { slot := 0, place := .off 0xFFC true, len := 4 }, rfl, by decide +kernel⟩
  · exact ⟨base, { slot := 0, place := .scr 0 0 16376, len := 8 }, rfl, by decide +kernel⟩
theorem witness_StoresChangeTheirBytesAlone : ∃ s : State, (get? (coreOf s 0).wgs 0).isSome = true := ⟨base, rfl⟩
/-- A slot mapped at scratchpad bytes 4,096 to 8,191, with one sector as given. -/
def mapped (x : SMap Sector) (s : State := base) : State :=
  withWG (fun w => { w with maps := [(7, { va := 0, off := 4096, len := 4096, kind := .rw, sectors := x })] }) s
/-- The region that ends with the scratchpad's last granule; a slot whose sectors are clean. -/
theorem witness_MappedRegionWords :
    (∃ s e, Lone s e { g := .always, regs := vRange 2 2 ++ srcRegs (vs 4) false, perms := [.ident] } 0 ∧ readPair e (e.thread 0) 2 = .ok 0x1000 ∧
      readSrc e 0 (e.thread 0) (vs 4) false = .ok { x := 0x0103 } ∧ 0x1000 % 4096 = 0 ∧ 0x1000 < 2 ^ 57 ∧
      mapRefused (e.wg (e.thread 0)) 7 0x1000 0x0103 = false ∧ lanesBusy e [0] = false ∧
      regionBusy s e.c (e.wgBase (e.thread 0)) (0x0103 % 256 * 4096) (0x0103 / 256 % 256 * 4096) = false) ∧
    (∀ slot ∈ [none, some 7], ∃ s e, Lone s e { g := .always } 0 ∧ lanesBusy e [0] = false ∧
      (∀ m ∈ (e.wg (e.thread 0)).maps, pickMap slot m.1 = true → regionBusy s e.c (e.wgBase (e.thread 0)) m.2.off m.2.len = false) ∧
      dirtySectors (e.wg (e.thread 0)) slot = [] ∧ (e.wg (e.thread 0)).maps ≠ []) := by
  refine ⟨⟨withThread (regs [(2, 0x1000), (4, 0x0103)]), envAt _, lone_of (by decide +kernel), gives_of (by decide +kernel), gives_of (by decide +kernel), rfl, by decide, by decide +kernel,
    by decide +kernel, by decide +kernel⟩, fun slot h => ?_⟩
  simp only [List.mem_cons, List.not_mem_nil, or_false] at h
  rcases h with rfl | rfl <;> exact ⟨mapped [(127, .clean)], envAt _, lone_of (by decide +kernel), by decide +kernel, by decide +kernel,
    by decide +kernel, by decide +kernel⟩
/-- The last sector of a region of 4 KiB. -/
theorem witness_MapUnitMovesSectors :
    (∃ s w m, (0, 7, 127) ∈ (coreOf s 0).wants ∧ get? (coreOf s 0).wgs 0 = some w ∧ get? w.maps 7 = some m ∧ get? m.sectors 127 = none ∧
      32 * 127 < m.len ∧ m.kind ≠ .wo ∧ translateVA s w.ctx (m.va + 32 * 127) false = .ok 0xFE0 true ∧ sectorHeld s 0 0 7 127 = false) ∧
    (∃ s w m mask, get? (coreOf s 0).wgs 0 = some w ∧ get? w.maps 7 = some m ∧ get? m.sectors 127 = some (.dirty mask) ∧
      wbPage s w.ctx (m.va + 32 * 127) = .ok 0xFE0 true ∧ (0, 7, 127) ∉ (coreOf s 0).wants ∧ sectorHeld s 0 0 7 127 = false) :=
  ⟨⟨updCore (mapped []) 0 fun co => { co with wants := [(0, 7, 127)] }, _, _, by decide +kernel, rfl, rfl, rfl, by decide, by decide, by decide +kernel,
     by decide +kernel⟩,
   ⟨mapped [(127, .dirty 0x80000001)], _, _, _, rfl, rfl, rfl, by decide +kernel, by decide +kernel, by decide +kernel⟩⟩

/-! ### Synchronisation -/

theorem witness_FenceCompletes :
    ∃ s e, Lone s e { g := .always } 0 ∧ 6 ≤ 6 ∧ lanesBusy e [0] = false ∧ heardBy s e.c 0 6 = false ∧
      (∀ n ∈ s.notes, n.at' = .scFence → n.reaches s (agentOf s e.c 0) 6 = false) ∧ dirtySectors (e.wg (e.thread 0)) none = [] ∧ (e.wg (e.thread 0)).maps ≠ [] :=
  ⟨mapped [(0, .clean)], envAt _, lone_of (by decide +kernel), by decide, by decide +kernel, by decide +kernel, by decide +kernel, by decide +kernel, by decide +kernel⟩
/-- Barrier 15 of a kernel of 16, with the counts given. -/
def withBar (ex pend phase : Nat) (v : SMap Word) : State := withWG (fun w => { w with bars := [(15, mkBar ex pend phase)] }) (withThread (regs v))
theorem witness_BarrierWords :
    (∀ n ∈ [1, 8192], ∃ s e, Lone s e (barSpec .always [vs 1, vs 2] .zero) 0 ∧ readSrc e 0 (e.thread 0) (vs 1) false = .ok { x := 15 } ∧
      readSrc e 0 (e.thread 0) (vs 2) false = .ok { x := n } ∧ 15 < (e.wg (e.thread 0)).kern.nbar ∧ 1 ≤ n ∧ n ≤ 8192) ∧
    (∀ pend ∈ [1, 2], ∃ s e w, Lone s e (barSpec .always [vs 1] (.v 0)) 0 ∧ readSrc e 0 (e.thread 0) (vs 1) false = .ok { x := 15 } ∧
      destOf e (e.thread 0) (.v 0) false = .ok (.v 0) ∧ get? (coreOf s e.c).wgs (e.wgBase (e.thread 0)) = some w ∧ 15 < w.kern.nbar ∧ barExp w 15 ≠ 0 ∧
      barPend w 15 = pend ∧ lanesBusy e [0] = false) ∧
    (∀ ph ∈ [0, 1], ∃ s e, Lone s e (barSpec .always [vs 1, vs 2] .zero) 0 ∧ readSrc e 0 (e.thread 0) (vs 1) false = .ok { x := 15 } ∧
      readSrc e 0 (e.thread 0) (vs 2) false = .ok { x := 1 - ph } ∧ barPhase (e.wg (e.thread 0)) 15 ≠ (1 - ph) % 2) ∧
    (∀ pend ∈ [1, 2, 8192], ∃ s e w, Lone s e (barSpec .always [vs 1] .zero) 0 ∧ readSrc e 0 (e.thread 0) (vs 1) false = .ok { x := 15 } ∧
      get? (coreOf s e.c).wgs (e.wgBase (e.thread 0)) = some w ∧ e.wg (e.thread 0) = w ∧ (keyOf e.co 0).isSome = true ∧ 15 < w.kern.nbar ∧
      barExp w 15 ≠ 0 ∧ barPend w 15 = pend ∧ lanesBusy e [0] = false) := by
  refine ⟨fun n h => ?_, fun n h => ?_, fun n h => ?_, fun n h => ?_⟩ <;>
    simp only [List.mem_cons, List.not_mem_nil, or_false] at h
  rotate_left 3
  · rcases h with rfl | rfl | rfl
    · exact ⟨withBar 8192 1 1 [(1, 15)], envAt _, _, lone_of (by decide +kernel), gives_of (by decide +kernel), rfl, rfl, rfl, by decide, by decide, rfl, rfl⟩
    · exact ⟨withBar 8192 2 1 [(1, 15)], envAt _, _, lone_of (by decide +kernel), gives_of (by decide +kernel), rfl, rfl, rfl, by decide, by decide, rfl, rfl⟩
    · exact ⟨withBar 8192 8192 1 [(1, 15)], envAt _, _, lone_of (by decide +kernel), gives_of (by decide +kernel), rfl, rfl, rfl, by decide, by decide, rfl, rfl⟩
  all_goals rcases h with rfl | rfl
  · exact ⟨withBar 0 0 0 [(1, 15), (2, 1)], envAt _, lone_of (by decide +kernel), gives_of (by decide +kernel), gives_of (by decide +kernel), by decide +kernel, by decide, by decide⟩
  · exact ⟨withBar 0 0 0 [(1, 15), (2, 8192)], envAt _, lone_of (by decide +kernel), gives_of (by decide +kernel), gives_of (by decide +kernel), by decide +kernel, by decide, by decide⟩
  · exact ⟨withBar 8192 1 0 [(1, 15)], envAt _, _, lone_of (by decide +kernel), gives_of (by decide +kernel), gives_of (by decide +kernel), rfl, by decide, by decide, rfl, rfl⟩
  · exact ⟨withBar 8192 2 1 [(1, 15)], envAt _, _, lone_of (by decide +kernel), gives_of (by decide +kernel), gives_of (by decide +kernel), rfl, by decide, by decide, rfl, rfl⟩
  · exact ⟨withBar 1 1 0 [(1, 15), (2, 1)], envAt _, lone_of (by decide +kernel), gives_of (by decide +kernel), gives_of (by decide +kernel), by decide +kernel⟩
  · exact ⟨withBar 1 1 1 [(1, 15)], envAt _, lone_of (by decide +kernel), gives_of (by decide +kernel), gives_of (by decide +kernel), by decide +kernel⟩
/-- A phase word of 3 arrivals, of which 2 are left, at the last 8 bytes of the scratchpad; a counter of 7 at the last 4 bytes of the page. -/
def withWords (v : SMap Word) : State :=
  withBytes 0xFFC (toBytes 4 7) (withWG (fun w => { w with scratch := memWrite [] 16376 (toBytes 8 (2 ^ 63 + 3 * 2 ^ 16 + 2)) }) (withThread (regs v)))
theorem witness_PhaseAndCounterWords :
    (∀ c ∈ [1, 2], ∃ s e, Lone s e (barSpec .always [vs 2, vs 3] (.v 0)) 0 ∧ readSrc e 0 (e.thread 0) (vs 2) false = .ok { x := 16376 } ∧
      readSrc e 0 (e.thread 0) (vs 3) false = .ok { x := c } ∧ destOf e (e.thread 0) (.v 0) false = .ok (.v 0) ∧
      placeOf e s 0 (e.thread 0) { spc := .sp, off := 0, n := 8, align := 8, read := true, write := true } [16376, c] false false 0 = .ok (.scr 0 0 16376) ∧
      lanesBusy e [0] = false ∧ c ≠ 0 ∧ c ≤ ((BitVec.ofNat 64 (readPlace s (.scr 0 0 16376) 8)).extractLsb' 0 16).toNat) ∧
    (∃ s e, Lone s e (barSpec .always [vs 2, vs 3] .zero) 0 ∧ readSrc e 0 (e.thread 0) (vs 2) false = .ok { x := 16376 } ∧
      readSrc e 0 (e.thread 0) (vs 3) false = .ok { x := 2 } ∧
      placeOf e s 0 (e.thread 0) { spc := .sp, off := 0, n := 8, align := 8, read := true, write := false } [16376, 2] false false 0 = .ok (.scr 0 0 16376) ∧
      readBlocked e 0 (.scr 0 0 16376) 8 = false ∧ bits (readPlace s (.scr 0 0 16376) 8) 63 1 ≠ 2 % 2) ∧
    (∀ k ∈ [CCond.geu, .eq, .ge], ∃ s e, Lone s e { g := .always, regs := [.v 0, .v 4, .v 5, .v 6], perms := [.ident, .ident] } 0 ∧
      readSrc e 0 (e.thread 0) (vs 4) true = .ok { x := 0xFFC } ∧ readSrc e 0 (e.thread 0) (vs 6) false = .ok { x := 7 } ∧
      destOf e (e.thread 0) (.v 0) false = .ok (.v 0) ∧
      placeOf e s 0 (e.thread 0) { spc := .g, off := 0, n := 4, align := 4, read := true, write := false, watch := false } [0xFFC, 7] false false 0 =
        .ok (.off 0xFFC true) ∧ readBlocked e 0 (.off 0xFFC true) 4 = false ∧ engineOwns s (.off 0xFFC true) = false ∧
      trafficHeld s (e.wg (e.thread 0)).ctx [.off 0xFFC true] = false ∧
      (let v : Word := BitVec.ofNat 32 (readPlace (countTraffic (touchPlace s (.off 0xFFC true)) (e.wg (e.thread 0)).ctx [(.off 0xFFC true, 4)]) (.off 0xFFC true) 4)
       match k with | .geu => (7#32).ule v | .eq => decide (v = 7#32) | .ge => (7#32).sle v) = true) := by
  refine ⟨fun c h => ?_, ⟨withWords [(2, 16376), (3, 2)], envAt _, lone_of (by decide +kernel), gives_of (by decide +kernel), gives_of (by decide +kernel), gives_of (by decide +kernel), by decide +kernel,
    by decide +kernel⟩, fun k h => ?_⟩ <;> simp only [List.mem_cons, List.not_mem_nil, or_false] at h
  · rcases h with rfl | rfl
    · exact ⟨withWords [(2, 16376), (3, 1)], envAt _, lone_of (by decide +kernel), gives_of (by decide +kernel), gives_of (by decide +kernel), gives_of (by decide +kernel), gives_of (by decide +kernel), by decide +kernel,
        by decide, by decide +kernel⟩
    · exact ⟨withWords [(2, 16376), (3, 2)], envAt _, lone_of (by decide +kernel), gives_of (by decide +kernel), gives_of (by decide +kernel), gives_of (by decide +kernel), gives_of (by decide +kernel), by decide +kernel,
        by decide, by decide +kernel⟩
  · rcases h with rfl | rfl | rfl <;>
      exact ⟨withWords [(4, 0xFFC), (6, 7)], envAt _, lone_of (by decide +kernel), gives_of (by decide +kernel), gives_of (by decide +kernel), gives_of (by decide +kernel), gives_of (by decide +kernel), by decide +kernel,
        by decide +kernel, by decide +kernel, by decide +kernel⟩
/-- Thread 0 held at its step with a wait and a reason. -/
def held (w : Wait) (r : Reason) (s : State := base) : State :=
  updCore s 0 fun co => { co with threads := [(0, { crew := 0, wait := w })], entries := [(0, { launch := 0, role := 0, pos := {}, reason := some r, slots := [0] })] }
theorem witness_WaitersAreReleased :
    (∃ s t, get? (coreOf s 0).threads 0 = some t ∧ t.wait = .ready ∧ heldFor (coreOf s 0) 0 = some .barrier) ∧
    (∃ s t, get? (coreOf s 0).threads 0 = some t ∧ t.wait = .phase .sp 16376 false ∧ rereadAt s 0 0 t .sp 16376 8 = .ok (.scr 0 0 16376) ∧
      placePoisoned s (.scr 0 0 16376) 8 = false ∧ notedAt s (.scr 0 0 16376) 8 = false ∧
      bits (readPlace s (.scr 0 0 16376) 8) 63 1 ≠ encBool false) ∧
    (∃ s t, get? (coreOf s 0).threads 0 = some t ∧ t.wait = .count .g 0xFFC 7 .eq ∧ rereadAt s 0 0 t .g 0xFFC 4 = .ok (.off 0xFFC true) ∧
      placePoisoned s (.off 0xFFC true) 4 = false ∧ engineOwns s (.off 0xFFC true) = false ∧
      trafficHeld s (((wgOf (coreOf s 0) t).map (·.ctx)).getD 0) [.off 0xFFC true] = false ∧ notedAt s (.off 0xFFC true) 4 = false ∧
      condHolds .eq (BitVec.ofNat 32 (readPlace (countTraffic (touchPlace s (.off 0xFFC true)) (((wgOf (coreOf s 0) t).map (·.ctx)).getD 0)
        [(.off 0xFFC true, 4)]) (.off 0xFFC true) 4)) 7 = true) ∧
    (∃ s t k w, get? (coreOf s 0).threads 0 = some t ∧ t.wait = .queue 15 false 0 [] ∧ crewOf (coreOf s 0) t = some k ∧ get? (coreOf s 0).wgs k.wg = some w ∧
      (rget {} w.queues 15).entries ≠ [] ∧ orphaned (coreOf s 0) k.wg w 15 = false) ∧
    (∃ s t k w, get? (coreOf s 0).threads 0 = some t ∧ t.wait = .queue 15 true 0 [] ∧ crewOf (coreOf s 0) t = some k ∧ get? (coreOf s 0).wgs k.wg = some w ∧
      (rget {} w.queues 15).entries.length < ((w.kern.queues[15]?).map (·.depth)).getD 0) := by
  refine ⟨⟨held .ready .barrier, _, rfl, rfl, by decide +kernel⟩, ⟨held (.phase .sp 16376 false) .barrier (withWords []), _, rfl, rfl, by decide +kernel,
      by decide +kernel, by decide +kernel, by decide +kernel⟩,
    ⟨held (.count .g 0xFFC 7 .eq) .counter (withWords []), _, rfl, rfl, by decide +kernel, by decide +kernel, by decide +kernel, by decide +kernel,
      by decide +kernel, by decide +kernel⟩,
    ⟨held (.queue 15 false 0 []) .queue (withWG fun w => { w with queues := [(15, { entries := [[]] })] }), _, _, _, rfl, rfl, rfl, rfl, by decide +kernel,
      by decide +kernel⟩,
    ⟨held (.queue 15 true 0 []) .queue, _, _, _, rfl, rfl, rfl, rfl, by decide +kernel⟩⟩
/-- A thread that goes on has a key; a word that pushes to the full queue register 15. -/
theorem witness_WaitersAreReleased_effects :
    (∃ s t, get? (coreOf s 0).threads 0 = some t ∧ (keyOf (coreOf s 0) 0).isSome = true) ∧
    ∃ s e, envOf s = some e ∧ legal e (alu2 { r2 0 1 with d := .q 15 } false).spec = true ∧ (alu2 { r2 0 1 with d := .q 15 } false).spec.crew = true ∧
      e.crewB = true ∧ liveOf e .always false = [0] ∧ gateOf e (alu2 { r2 0 1 with d := .q 15 } false).spec [0] = .hold 15 true ∧
      (runLanes (fun _ s _ t => .ok ({ t := t }, s)) e s [0]).1.any (fun x => isStall x || earlyTrap x) = false ∧
      (get? e.co.threads 0).isSome = true ∧ (keyOf e.co 0).isSome = true :=
  ⟨⟨held .ready .barrier, _, rfl, by decide +kernel⟩,
   ⟨withWG fun w => { w with queues := [(15, { entries := [[]] })] }, envAt (withWG fun w => { w with queues := [(15, { entries := [[]] })] }), rfl, by decide +kernel, rfl, by decide +kernel, by decide +kernel, by decide +kernel,
     by decide +kernel, by decide +kernel, by decide +kernel⟩⟩
/-- A vote, and a shuffle within the crew and beyond it. -/
theorem witness_VoteAndShuffleResults :
    (∀ f : Env → Thread → Thread, Met { g := .always } (fun e k => .ok { t := f e (e.thread k) })) ∧
    (∀ f : Env → Thread → Thread, Met { g := .always, regs := vRange 188 4 } fun e k =>
      if (vRange 188 4).any (e.thread k).pend.contains then .error .stall else .ok { t := f e (e.thread k) }) ∧
    (∀ f : Env → Nat, Met { g := .always, regs := codeRegs (.v 191) false } fun e k => match destOf e (e.thread k) (.v 191) false with
      | .error b => .error b
      | .ok r => .ok { t := r.put (e.thread k) false (f e) }) ∧
    (∀ lane ∈ [(0#32), 127#32], ∃ s e, Issues s e { g := .always, regs := [.v 4, .v 1, .v 2], perms := [.ident], crew := true } ∧
      readSrc e 0 (e.thread 0) (vs 2) false = .ok { x := lane.toNat } ∧ readV e (e.thread 0) 1 = .ok 9 ∧ destOf e (e.thread 0) (.v 4) false = .ok (.v 4)) ∧
    (∃ s e, Issues s e { g := .always, regs := [.v 4, .v 1, .v 2], perms := [.ident], crew := true } ∧ e.width = 64 ∧
      readSrc e 0 (e.thread 0) (vs 2) false = .ok { x := 64 }) := by
  refine ⟨fun _ => met_of base rfl, fun _ => met_of base rfl, fun _ => met_of base rfl, fun lane h => ?_,
    ⟨withWG (fun w => { w with kern := { w.kern with legacy := true } }) (withThread (regs [(2, 64)])), envAt _, issues_of (by decide +kernel), rfl, gives_of (by decide +kernel)⟩⟩
  simp only [List.mem_cons, List.not_mem_nil, or_false] at h
  rcases h with rfl | rfl
  · exact ⟨withThread (regs [(1, 9)]), envAt _, issues_of (by decide +kernel), gives_of (by decide +kernel), gives_of (by decide +kernel), gives_of (by decide +kernel)⟩
  · exact ⟨withThread (regs [(1, 9), (2, 127)]), envAt _, issues_of (by decide +kernel), gives_of (by decide +kernel), gives_of (by decide +kernel), gives_of (by decide +kernel)⟩

/-! ### Queues -/

/-- The queues' spill region, 64 KiB each from address 0 on; the parts of queues 3 and 63 are mapped. -/
def spilled (s : State := base) : State :=
  updCtx s 0 fun k => { k with pages := k.pages ++ [0x30000, 0x3F0000].map fun a =>
    { va := a, log2 := 16, pa := a, rd := true, wr := true, fatal := false, snooped := true } }
/-- Continuation queue 63 as given. -/
def ring (c : Cont) : State := updCtx spilled 0 fun k => { k with conts := [(63, c)] }
/-- A record block of 64 bytes at 0xFC0 whose counter is `n`. -/
def withBlock (n : Nat) : State := withBytes 0xFC0 (toBytes 4 n) (withThread (regs [(2, 0xFC0)]))
theorem witness_QueueWords :
    let room := fun (e : Env) (q : Nat) => ∀ va, enqueueVA e.s (e.wg (e.thread 0)).ctx q = some va →
      ∃ place, vaReach e.s (e.wg (e.thread 0)).ctx va false true = .ok place ∧ mustWait e.s e.co (e.wg (e.thread 0)).ctx 0 place 32 = false
    (∃ s e, Lone s e { g := .always, regs := vRange 184 8 ++ [.v 3], perms := [.ident] } 0 ∧ readEight e (e.thread 0) 184 = .ok 5 ∧
      readSrc e 0 (e.thread 0) (vs 3) false = .ok { x := 63 } ∧ 63 < 64 ∧ bits 5 32 32 = 0 ∧ lanesBusy e [0] = false ∧ room e 63 ∧
      (enqueueVA e.s (e.wg (e.thread 0)).ctx 63).isSome = true) ∧
    (∀ n ∈ [1, 2], ∃ s e, Lone s e { g := .always, regs := vRange 2 2 } 0 ∧ readPair e (e.thread 0) 2 = .ok 0xFC0 ∧
      placeOf e s 0 (e.thread 0) { spc := .g, off := 0, n := 64, align := 64, read := true, write := true, watch := false } [0xFC0] false false 0 =
        .ok (.off 0xFC0 true) ∧ lanesBusy e [0] = false ∧ engineOwns s (.off 0xFC0 true) = false ∧
      trafficHeld s (e.wg (e.thread 0)).ctx [.off 0xFC0 true] = false ∧ notedAt s (.off 0xFC0 true) 64 = false ∧
      room e (bits (readPlace s (.off 0xFC0 true) 64) 32 6) ∧ bits (readPlace s (.off 0xFC0 true) 64) 0 32 = n ∧ bits (bits (readPlace s (.off 0xFC0 true) 64) 256 256) 32 32 = 0) ∧
    (∀ q ∈ [0, 15, 16], Met { g := .always } fun e k => match (e.wg (e.thread k)).kern.queues[q]? with
      | none => .error (.trap 0x01 [] 0 0 true)
      | some b => if b.depth ≠ 0 ∧ b.prod = e.b.role then .ok { t := { e.thread k with closed := insertSlot (e.thread k).closed q } }
                  else .error (.trap 0x01 [] 0 0 true)) ∧
    (∃ s e, Lone s e { g := .always, regs := srcRegs (vs 3) false, perms := [.ident] } 0 ∧ readSrc e 0 (e.thread 0) (vs 3) false = .ok { x := 63 }) ∧
    (∀ k ∈ [QKind.q, .c, .full], Met (barSpec .always [vs 3] (.v 0)) fun e i => match readSrc e i (e.thread i) (vs 3) false with
      | .error b => .error b
      | .ok q => match destOf e (e.thread i) (.v 0) false with
        | .error b => .error b
        | .ok r => if (if k = .q then 16 else 64) ≤ q.x then .error (.trap cBounds [q.x] 0 0 false)
          else .ok { t := r.put (e.thread i) false (qstatOf e.s e.co (e.wgBase (e.thread i)) (e.wg (e.thread i)) q.x k) }) := by
  have room : ∀ (e : Env) (q va : Nat), enqueueVA e.s (e.wg (e.thread 0)).ctx q = some va →
      (match vaReach e.s (e.wg (e.thread 0)).ctx va false true with
        | .ok p => !mustWait e.s e.co (e.wg (e.thread 0)).ctx 0 p 32
        | _ => false) = true →
      ∀ va, enqueueVA e.s (e.wg (e.thread 0)).ctx q = some va →
        ∃ place, vaReach e.s (e.wg (e.thread 0)).ctx va false true = .ok place ∧ mustWait e.s e.co (e.wg (e.thread 0)).ctx 0 place 32 = false := by
    intro e q va h hr va' h'
    cases h.symm.trans h'
    split at hr
    · exact ⟨_, ‹_›, by simpa using hr⟩
    · cases hr
  refine ⟨⟨spilled (withThread (regs [(3, 63), (184, 5)])), envAt _, lone_of (by decide +kernel), gives_of (by decide +kernel), gives_of (by decide +kernel), by decide, rfl, by decide +kernel,
      room _ _ (63 * 65536) (by decide +kernel) (by decide +kernel), by decide +kernel⟩, fun n h => ?_,
    fun q h => ?_, ⟨withThread (regs [(3, 63)]), envAt _, lone_of (by decide +kernel), gives_of (by decide +kernel)⟩, fun k h => ?_⟩ <;>
    simp only [List.mem_cons, List.not_mem_nil, or_false] at h
  · rcases h with rfl | rfl
    · exact ⟨withBlock 1, envAt _, lone_of (by decide +kernel), gives_of (by decide +kernel), gives_of (by decide +kernel), by decide +kernel, by decide +kernel,
      by decide +kernel, by decide +kernel, room _ _ 0 (by decide +kernel) (by decide +kernel), by decide +kernel, by decide +kernel⟩
    · exact ⟨withBlock 2, envAt _, lone_of (by decide +kernel), gives_of (by decide +kernel), gives_of (by decide +kernel), by decide +kernel, by decide +kernel,
      by decide +kernel, by decide +kernel, room _ _ 0 (by decide +kernel) (by decide +kernel), by decide +kernel, by decide +kernel⟩
  · rcases h with rfl | rfl | rfl <;> exact met_of base rfl
  · rcases h with rfl | rfl | rfl <;> exact met_of (withThread (regs [(3, 15)])) rfl
/-- Open with room, closed, and full (a queue of the least size holds 2,048 records); the last place of the ring. -/
theorem witness_EnqueueIsFirstInFirstOut :
    (∃ (s : State) (k : Context), get? s.ctxs 0 = some k ∧ (rget {} k.conts 63).closed = false ∧ (rget {} k.conts 63).len < contRoom s 0 ∧
      translateVA s 0 (contVA s 0 63 ((rget {} k.conts 63).head + (rget {} k.conts 63).len)) true = .ok (63 * 65536 + 65504) true) ∧
    (∃ (s : State) (k : Context), get? s.ctxs 0 = some k ∧ (rget {} k.conts 63).closed = true) ∧
    (∃ (s : State) (k : Context), get? s.ctxs 0 = some k ∧ (rget {} k.conts 63).closed = false ∧ contRoom s 0 ≤ (rget {} k.conts 63).len) :=
  ⟨⟨ring { head := 2047 }, _, rfl, rfl, by decide +kernel, by decide +kernel⟩, ⟨ring { closed := true }, _, rfl, rfl⟩,
   ⟨ring { len := 2048 }, _, rfl, rfl, by decide +kernel⟩⟩

/-! ### Engines -/

/-- A shape record at 0xE00 (R269): 64 MF32 elements by 2 rows of 512 bytes, at 0x400; the box is all of it. -/
def shapeRec : Nat := 0x400 + 64 * 2 ^ 64 + 2 * 2 ^ 96 + 512 * 2 ^ 256 + 63 * 2 ^ 304 + 1 * 2 ^ 312 + 4 * 2 ^ 440 + 2 * 2 ^ 444
def shape2 : Shape := { base := 0x400, dims := [64, 2, 0, 0, 0], strides := [0, 512, 0, 0, 0], boxes := [63, 1, 0, 0, 0], fmt := 4, fill := 0, cb := 0 }
theorem test_shape_record : parseShape shapeRec 2 = some shape2 := by decide +kernel
/-- v2: the record; v6: a counter at 0xFFC; v8: the end of the scratchpad, less the image. -/
def withShape : State := withBytes 0xE00 (toBytes 64 shapeRec) (withThread (regs [(2, 0xE00), (4, 0x840), (6, 0xFFC), (8, 15360), (9, 64)]))
/-- Queue register 12 bound for copies, with role 0 as producer. -/
def copyQueue (d : Nat) (s : State) : State :=
  withWG (fun w => { w with kern := { w.kern with queues := (List.replicate 12 { kind := .thread, prod := 0, cons := 0, depth := 1 }) ++ [{ kind := .copy, prod := 0, cons := 0, depth := d }] } }) s
/-- A load into the scratchpad and into a queue register, a store, a codebook, and a copy of one line. -/
theorem witness_EngineWordsStartCommands :
    let x : XWord := { xw with pad := 0 }
    let y : XWord := { x with dest := .q 12, ctr := none }
    let p := fun (x : XWord) => ({ g := x.g, regs := xRegs x, crew := true, again := true } : WordSpec)
    (∀ store ∈ [false, true], ∃ s e vals c, Lone s e (p x) 0 ∧ xVals e (e.thread 0) x = .ok vals ∧ unitFull e.co true = false ∧ lanesBusy e e.b.slots = false ∧
      xCmd e s 0 (e.thread 0) x store = .ok c) ∧
    (∃ s e vals c, Lone s e (p y) 0 ∧ xVals e (e.thread 0) y = .ok vals ∧ unitFull e.co false = false ∧ lanesBusy e e.b.slots = false ∧
      xCmd e s 0 (e.thread 0) y false = .ok c) ∧
    (∃ s e vals c, Lone s e { g := .always, regs := vRange 2 2 ++ ctrRegs (some 6) .g, crew := true, again := true } 0 ∧
      codeVals e (e.thread 0) 2 (some 6) false .g = .ok vals ∧ unitFull e.co false = false ∧ lanesBusy e e.b.slots = false ∧
      codeCmd e 0 (e.thread 0) 2 (some 6) 7 false .g = .ok c) ∧
    (∃ s e b, Lone s e { g := .always, regs := vRange 2 2 ++ vRange 4 2 ++ ctrRegs (some 6) .g ++ [.v 9] } 0 ∧
      bulkCmd e 0 (e.thread 0) 2 4 (some 6) 9 .g = .ok b ∧
      (s.bulks.filter fun b => decide (b.ctx = (e.wg (e.thread 0)).ctx) && b.failed.isNone).length < 256 ∧ lanesBusy e e.b.slots = false) := by
  refine ⟨fun store h => ?_, ?_, ?_, ?_⟩
  · simp only [List.mem_cons, List.not_mem_nil, or_false] at h
    rcases h with rfl | rfl
    · obtain ⟨v, hv⟩ := ok_of (x := xVals (envAt withShape) ((envAt withShape).thread 0) { xw with pad := 0 }) (by decide +kernel)
      obtain ⟨c, hc⟩ := ok_of (x := xCmd (envAt withShape) withShape 0 ((envAt withShape).thread 0) { xw with pad := 0 } false) (by decide +kernel)
      exact ⟨withShape, envAt _, v, c, lone_of (by decide +kernel), hv, by decide +kernel, by decide +kernel, hc⟩
    · obtain ⟨v, hv⟩ := ok_of (x := xVals (envAt withShape) ((envAt withShape).thread 0) { xw with pad := 0 }) (by decide +kernel)
      obtain ⟨c, hc⟩ := ok_of (x := xCmd (envAt withShape) withShape 0 ((envAt withShape).thread 0) { xw with pad := 0 } true) (by decide +kernel)
      exact ⟨withShape, envAt _, v, c, lone_of (by decide +kernel), hv, by decide +kernel, by decide +kernel, hc⟩
  · obtain ⟨v, hv⟩ := ok_of (x := xVals (envAt (copyQueue 1 withShape)) ((envAt (copyQueue 1 withShape)).thread 0) { xw with pad := 0, dest := .q 12, ctr := none })
      (by decide +kernel)
    obtain ⟨c, hc⟩ := ok_of (x := xCmd (envAt (copyQueue 1 withShape)) (copyQueue 1 withShape) 0 ((envAt (copyQueue 1 withShape)).thread 0)
      { xw with pad := 0, dest := .q 12, ctr := none } false) (by decide +kernel)
    exact ⟨copyQueue 1 withShape, envAt _, v, c, lone_of (by decide +kernel), hv, by decide +kernel, by decide +kernel, hc⟩
  · obtain ⟨v, hv⟩ := ok_of (x := codeVals (envAt withShape) ((envAt withShape).thread 0) 2 (some 6) false .g) (by decide +kernel)
    obtain ⟨c, hc⟩ := ok_of (x := codeCmd (envAt withShape) 0 ((envAt withShape).thread 0) 2 (some 6) 7 false .g) (by decide +kernel)
    exact ⟨withShape, envAt _, v, c, lone_of (by decide +kernel), hv, by decide +kernel, by decide +kernel, hc⟩
  · obtain ⟨b, hb⟩ := ok_of (x := bulkCmd (envAt withShape) 0 ((envAt withShape).thread 0) 2 4 (some 6) 9 .g) (by decide +kernel)
    exact ⟨withShape, envAt _, b, lone_of (by decide +kernel), hb, by decide +kernel, by decide +kernel⟩
/-- A command of the workgroup in its unit. -/
def cmd (k : CopyKind) (ctr : Option (CSpace × Nat)) : Cmd :=
  { id := 5, wg := 0, ctx := 0, launch := 0, wid := 0, slot := 0, fn := 0, sel := 0, word := 0, kind := k, ctr := ctr }
def withCmd (x : Cmd) (s : State := base) : State := updCore s 0 fun co => { co with copies := [x] }
theorem witness_CommandsEnterAndLeaveTheirUnit :
    (∃ (s : State) (x : Cmd), x.kind = .load shape2 [0, 0] 0 512 (some 12) ∧ (get? (coreOf s 0).wgs x.wg).isSome = true) ∧ (∃ x : Cmd, x.ctr = none) ∧
    (∃ (s : State) (x : Cmd), x.ctr = some (.g, 0xFFC) ∧ ctrOf (updCmd s 0 x.id fun _ => { x with moved := true }) 0 { x with moved := true } =
      .go (some (.off 0xFFC true))) :=
  ⟨⟨base, cmd (.load shape2 [0, 0] 0 512 (some 12)) none, rfl, rfl⟩, ⟨cmd (.code 0 false 0) none, rfl⟩,
   ⟨withCmd (cmd (.code 0 false 0) (some (.g, 0xFFC))), cmd (.code 0 false 0) (some (.g, 0xFFC)), rfl, rfl⟩⟩
/-- A load whose tensor is there, and one whose first element lies beyond the space; a load of two queue entries, with room and without; a
store, and one that fails; a codebook. -/
theorem witness_CopyCommandsComplete :
    let at' := fun (k : CopyKind) (p : State → Cmd → WG → Prop) => ∃ s x w, headCmd (coreOf s 0) = some x ∧ get? (coreOf s 0).wgs x.wg = some w ∧ x.kind = k ∧
      x.moved = false ∧ p s x w
    let far : Shape := { shape2 with base := 2 ^ 57 - 1 }
    let bytes := fun (l : List (Int × Nat × Nat × Int)) => l.map fun y => (y.1, y.2.1)
    at' (.load shape2 [0, 0] 0 512 none) (fun s x _ => spansEng s x.ctx false (cellSpans shape2 [0, 0] (shape2.cells.drop x.done)) = .ok ∧
      spansHeld s x.ctx (cellSpans shape2 [0, 0] (shape2.cells.drop x.done)) = false) ∧
    at' (.load far [0, 0] 0 512 none) (fun s x _ => spansEng s x.ctx false (cellSpans far [0, 0] (far.cells.drop x.done)) = .fail) ∧
    at' (.load shape2 [0, 0] 0 512 (some 12)) (fun s x w => spansEng s x.ctx false (cellSpans shape2 [0, 0] (shape2.cells.drop x.done)) = .ok ∧
      spansHeld s x.ctx (cellSpans shape2 [0, 0] (shape2.cells.drop x.done)) = false ∧
      (rget {} w.queues 12).entries.length < ((w.kern.queues[12]?).map (·.depth)).getD 0 ∧ x.pushed + 1 < shape2.rows * 512 / 512) ∧
    at' (.load shape2 [0, 0] 0 512 (some 12)) (fun s x w => spansEng s x.ctx false (cellSpans shape2 [0, 0] (shape2.cells.drop x.done)) = .ok ∧
      spansHeld s x.ctx (cellSpans shape2 [0, 0] (shape2.cells.drop x.done)) = false ∧ drains w = true) ∧
    at' (.store shape2 [0, 0] 15360 512) (fun s x w => sourceFill s 0 x w 15360 (shape2.rows * 512) = none ∧
      spansEng s x.ctx true (bytes ((storeSpans shape2 [0, 0] 15360 512).drop x.done)) = .ok ∧
      spansHeld s x.ctx (bytes ((storeSpans shape2 [0, 0] 15360 512).drop x.done)) = false) ∧
    at' (.store far [0, 0] 15360 512) (fun s x w => sourceFill s 0 x w 15360 (far.rows * 512) = none ∧
      spansEng s x.ctx true (bytes ((storeSpans far [0, 0] 15360 512).drop x.done)) = .fail) ∧
    at' (.code 0xFE0 false 7) (fun s x _ => codeVA s x 0xFE0 false = some 0xFE0 ∧ byteEng s x.ctx 0xFE0 false = .ok ∧
      spansHeld s x.ctx [(0xFE0, 32)] = false) := by
  refine ⟨⟨withCmd (cmd _ none), _, _, rfl, rfl, rfl, rfl, by decide +kernel, by decide +kernel⟩, ⟨withCmd (cmd _ none), _, _, rfl, rfl, rfl, rfl, by decide +kernel⟩,
    ⟨copyQueue 1 (withCmd (cmd _ none)), _, _, rfl, rfl, rfl, rfl, by decide +kernel, by decide +kernel, by decide +kernel, by decide +kernel⟩,
    ⟨withWG (fun w => { w with marked := true }) (copyQueue 1 (withCmd (cmd _ none))), _, _, rfl, rfl, rfl, rfl, by decide +kernel, by decide +kernel, by decide +kernel⟩,
    ⟨withCmd (cmd _ none), _, _, rfl, rfl, rfl, rfl, by decide +kernel, by decide +kernel, by decide +kernel⟩,
    ⟨withCmd (cmd _ none), _, _, rfl, rfl, rfl, rfl, by decide +kernel, by decide +kernel⟩,
    ⟨withCmd (cmd _ none), _, _, rfl, rfl, rfl, rfl, by decide +kernel, by decide +kernel, by decide +kernel⟩⟩
/-- A whole row of bytes in its pitch, the last element of the box inside and outside its tensor, and a store to snooped bytes. -/
theorem witness_CopyCommandsComplete_bytes :
    (∃ (s : State) (x : Cmd), (get? (coreOf s 0).wgs x.wg).isSome = true ∧ shape2.ext 0 * elemBytes shape2.fmt ≤ 512) ∧
    (63 < shape2.ext 0 ∧ 1 < shape2.ext 1 ∧ 0 < shape2.ext 2 ∧ 0 < shape2.ext 3 ∧ 0 < shape2.ext 4) ∧
    (∀ z ∈ [(0 : Int), 1], (∀ k, k < [0, z].length → k < 5 →
      (0 : Int) ≤ ([0, z][k]?).getD 0 + ([63, 1, 0, 0, 0][k]?).getD 0 ∧ ([0, z][k]?).getD 0 + ([63, 1, 0, 0, 0][k]?).getD 0 < ((shape2.dims[k]?).getD 0 : Nat)) ↔
      z = 0) ∧
    ∃ (s : State) (x : Cmd), ∀ y ∈ ((storeSpans shape2 [0, 0] 15360 512).drop x.done).take 2, ∀ j, j < y.2.1 → ∀ q sn,
      vaPlace s x.ctx (y.1 + (j : Nat)) = some (.off q sn) → sn = true := by
  refine ⟨⟨base, cmd (.load shape2 [0, 0] 0 512 none) none, rfl, by decide +kernel⟩, by decide +kernel, by decide +kernel,
    withCmd (cmd (.store shape2 [0, 0] 15360 512) none), cmd (.store shape2 [0, 0] 15360 512) none, fun y hy j hj q sn h => ?_⟩
  have all : ∀ y ∈ ((storeSpans shape2 [0, 0] 15360 512).drop 0).take 2, ∀ j ∈ List.range y.2.1,
      (match vaPlace (withCmd (cmd (.store shape2 [0, 0] 15360 512) none)) 0 (y.1 + (j : Nat)) with | some (.off _ sn) => sn | _ => true) = true := by decide +kernel
  have := all y hy j (List.mem_range.mpr hj)
  rw [show vaPlace (withCmd (cmd (.store shape2 [0, 0] 15360 512) none)) 0 (y.1 + (j : Nat)) = some (.off q sn) from h] at this
  exact this
/-- A BULK of one line to 0xFC0, in a context with energy left. -/
def bulkAt (src : Nat) (engine : Option Nat := some 63) : Bulk :=
  { id := 5, ctx := 0, core := 0, wg := 0, launch := 0, wid := 0, slot := 0, fn := 0, sel := 0, word := 0, src := src, dst := 0xFC0, len := 64, ctr := none,
    engine := engine }
def withBulk (src : Nat) (engine : Option Nat := some 63) : State := { base with bulks := [bulkAt src engine], ctxs := [(0, { demoCtx with budget := 0xFFFFFFFFFFFF })] }
/-- A BULK that no engine serves, one of a page's two ends, one that begins beyond the space, and a failed command whose thread stands in its batch. -/
theorem witness_BulkCompletesAndFailuresTrap :
    (∃ s x, s.bulks.find? (fun y => decide (y.id = 5)) = some x ∧ x.parked = false ∧ x.failed = none ∧ x.moved = false ∧ spentCopy s x.ctx = false ∧
      x.engine = none) ∧
    (∃ s x, s.bulks.find? (fun y => decide (y.id = 5)) = some x ∧ x.parked = false ∧ x.failed = none ∧ x.moved = false ∧ spentCopy s x.ctx = false ∧
      x.engine ≠ none ∧ spansHeld s x.ctx (bulkSrc x ++ bulkDst x) = false ∧ spansEng s x.ctx false (bulkSrc x) = .ok ∧
      spansEng s x.ctx true (bulkDst x) = .ok) ∧
    (∃ s x, s.bulks.find? (fun y => decide (y.id = 5)) = some x ∧ x.parked = false ∧ x.failed = none ∧ x.moved = false ∧ spentCopy s x.ctx = false ∧
      x.engine ≠ none ∧ spansEng s x.ctx false (bulkSrc x) = .fail) ∧
    (∃ s x p q, vaPlace s x.ctx x.src = some (.off p true) ∧ vaPlace s x.ctx x.dst = some (.off q true) ∧ (bulkSrc x).map (·.1) = [(x.src : Int)] ∧
      (bulkDst x).map (·.1) = [(x.dst : Int)] ∧ (p + 64 ≤ q ∨ q + 64 ≤ p)) ∧
    (∃ s x, (coreOf s 0).copies.find? (fun y => decide (y.id = 5)) = some x ∧ x.failed = some 7 ∧
      issuerOf s x.ctx x.launch x.wid (x.slot - x.wg) = .here 0 0) :=
  ⟨⟨withBulk 0 none, bulkAt 0 none, rfl, rfl, rfl, rfl, by decide +kernel, rfl⟩,
   ⟨withBulk 0, bulkAt 0, rfl, rfl, rfl, rfl, by decide +kernel, by decide, by decide +kernel, by decide +kernel, by decide +kernel⟩,
   ⟨withBulk (2 ^ 57), bulkAt (2 ^ 57), rfl, rfl, rfl, rfl, by decide +kernel, by decide, by decide +kernel⟩,
   ⟨withBulk 0, bulkAt 0, 0, 0xFC0, by decide +kernel, by decide +kernel, by decide +kernel, by decide +kernel, by decide⟩,
   ⟨withCmd { cmd (.code 0 false 0) none with failed := some 7 }, _, rfl, rfl, by decide +kernel⟩⟩

/-! ### The matrix unit -/

/-- A word on two operands, on none, and on a queue register; a column read and written. -/
theorem witness_MatrixWordsEnterTheUnit :
    let enters := fun (I : Instr) (p : WordSpec) (extra : Env → Nat → Thread → L Nat) => ∃ s e vals x,
      Lone s e { p with crew := true, again := true, unit := true } 0 ∧ matVals e (e.thread 0) I = .ok vals ∧ extra e 0 (e.thread 0) = .ok x ∧
      matAlign I vals = none ∧ lanesBusy e [0] = false
    let none' := fun (_ : Env) (_ : Nat) (_ : Thread) => (.ok 0 : L Nat)
    enters (.mma .always 7 true ⟨0, .g⟩ ⟨188, .sp⟩ .bf16) { g := .always, regs := vRange 0 3 ++ vRange 188 3 } none' ∧
    enters (.mmad .always 7 ⟨0, .g⟩ ⟨188, .sp⟩ .f32) { g := .always, regs := vRange 0 3 ++ vRange 188 3 } none' ∧
    enters (.mmam .always 7 ⟨0, .g⟩ ⟨188, .sp⟩) { g := .always, regs := vRange 0 3 ++ vRange 188 3 } none' ∧
    enters (.zclr .always 7 false true) { g := .always } none' ∧ enters (.zld .always 7 false ⟨0, .g⟩ .mf32) { g := .always, regs := vRange 0 3 } none' ∧
    enters (.zst .always 7 true (.mem ⟨0, .g⟩) (some ⟨4, .g⟩) .f32 true) { g := .always, regs := vRange 0 3 ++ vRange 4 2 } none' ∧
    enters (.zrd .always 63 7 false 31 true) { g := .always, regs := [.m 63] } (fun _ _ u => if u.pend.contains (.m 63) then .error .stall else .ok 0) ∧
    enters (.zwr .always 7 true 31 (.inl (vs 9))) { g := .always, regs := srcRegs (vs 9) false, perms := [.ident] }
      (fun e k u => (readSrc e k u (vs 9) false).map (·.x)) ∧
    enters (.zwr .always 7 false 31 (.inr (ms 9))) { g := .always, regs := [.m 9], perms := [.ident] } (fun e k u => readMSrc e k u (ms 9)) ∧
    (∃ s e, Lone s e { g := .always, crew := true, again := true, unit := true } 0 ∧ drainBound e 15 = true ∧
      matVals e (e.thread 0) (.zst .always 7 true (.queue 15) none .f32 true) = .ok [0, 0, 0, 0] ∧
      matAlign (.zst .always 7 true (.queue 15) none .f32 true) [0, 0, 0, 0] = none ∧ lanesBusy e [0] = false) := by
  refine ⟨?_, ?_, ?_, ?_, ?_, ?_, ?_, ?_, ?_,
    ⟨withWG (fun w => { w with kern := { w.kern with queues := List.replicate 16 { kind := .drain, prod := 0, cons := 0, depth := 1 } } }), envAt _,
      lone_of (by decide +kernel), by decide +kernel, gives_of (by decide +kernel), by decide +kernel, by decide +kernel⟩⟩ <;>
    exact ⟨base, envAt _, [0, 0, 0, 0], 0, lone_of (by decide +kernel), gives_of (by decide +kernel), gives_of (by decide +kernel), by decide +kernel, by decide +kernel⟩
/-- A word in the unit, whose batch it holds. -/
def job (i : Instr) : Job := { id := 5, wg := 0, crew := 0, sel := 0, batch := 0, word := 0, instr := i, lanes := [0], issuer := 0, vals := [0xF80, 0, 0, 0], lvals := [0] }
def withJob (j : Job) : State := updCore base 0 fun co => { co with jobs := [j] }
/-- The last 128 bytes of the page as a row. -/
def lastRow : List Place := (List.range 8).map fun k => .off (0xF80 + 16 * k) true
theorem witness_MatrixWordsReadOutAndComplete :
    (∀ x ∈ [(Instr.zclr .always 7 false true, ([] : List Place)), (.zld .always 7 false ⟨0, .g⟩ .f32, lastRow)], ∃ s j w k,
      nextJob s 0 = some j ∧ j.instr = x.1 ∧ get? (coreOf s 0).wgs j.wg = some w ∧ get? (coreOf s 0).crews j.crew = some k ∧ stopped (coreOf s 0) = false ∧
      headRows s 0 w j 0 = .ok ([], [], none) ∧ laneRows s 0 w j 0 (widthOf w.kern) (startRow k j) j.lanes = ([(0, x.2)], none) ∧
      trafficHeld s w.ctx ((rowTraffic [] [(0, x.2)] none).map (·.1)) = false) ∧
    (∃ s j, anyOf s 0 ((coreOf s 0).jobs.filter fun y => y.read) = some j ∧ j.pushes = []) ∧
    (∃ s j x r w, anyOf s 0 ((coreOf s 0).jobs.filter fun y => y.read) = some j ∧ j.pushes = x :: r ∧ queueOf j.instr = some 15 ∧
      get? (coreOf s 0).wgs j.wg = some w ∧ (rget {} w.queues 15).entries.length < ((w.kern.queues[15]?).map (·.depth)).getD 0) := by
  refine ⟨fun x h => ?_, ⟨withJob { job (.zclr .always 7 false true) with read := true }, _, rfl, rfl⟩,
    ⟨withJob { job (.zst .always 7 true (.queue 15) none .f32 true) with read := true, pushes := [[]] }, _, _, _, _, rfl, rfl, rfl, rfl, by decide +kernel⟩⟩
  simp only [List.mem_cons, List.not_mem_nil, or_false] at h
  rcases h with rfl | rfl
  · exact ⟨withJob (job (.zclr .always 7 false true)), _, _, _, rfl, rfl, rfl, rfl, by decide +kernel, gives_of (by decide +kernel), by decide +kernel, by decide +kernel⟩
  · exact ⟨withJob (job (.zld .always 7 false ⟨0, .g⟩ .f32)), _, _, _, rfl, rfl, rfl, rfl, by decide +kernel, gives_of (by decide +kernel), by decide +kernel,
      by decide +kernel⟩
theorem witness_MatrixRowResults :
    31 < 32 ∧ 127 < 128 ∧ (∀ i ∈ [Instr.zclr .always 7 false true, .zclr .always 7 true false, .zld .always 7 true ⟨0, .g⟩ .f32, .zld .always 7 true ⟨0, .g⟩ .bf16,
      .zld .always 7 true ⟨0, .g⟩ .f16, .zld .always 7 false ⟨0, .g⟩ .mf32, .zwr .always 7 true 31 (.inl (vs 9)), .zwr .always 7 false 31 (.inr (ms 9)),
      .mma .always 7 true ⟨0, .g⟩ ⟨4, .g⟩ (.s8 true false), .mma .always 7 true ⟨0, .g⟩ ⟨4, .g⟩ .bf16, .mma .always 7 true ⟨0, .g⟩ ⟨4, .g⟩ .f16,
      .mmad .always 7 ⟨0, .g⟩ ⟨4, .g⟩ .bf16, .mmad .always 7 ⟨0, .g⟩ ⟨4, .g⟩ .f16, .mmad .always 7 ⟨0, .g⟩ ⟨4, .g⟩ .f32, .mmam .always 7 ⟨0, .g⟩ ⟨4, .g⟩,
      .zst .always 7 false (.queue 15) none .mf32 true, .zst .always 7 true (.mem ⟨0, .g⟩) none .f32 true], ∃ j : Job, j.instr = i) ∧
    (∀ h ∈ [0x8000, 0x7C01, 0x3C00, 0x8001, 0x03FF], h < 65536 ∧ ((h % 1024 = 0 ∧ h / 1024 % 32 = 0) ∨ h / 1024 % 32 = 31 ∨ (0 < h / 1024 % 32 ∧ h / 1024 % 32 < 31) ∨
      (h / 1024 % 32 = 0 ∧ h % 1024 ≠ 0))) ∧
    (∃ o f width, width = 128 ∧ 16 * lastRow.length = zBytes f ∧ (job (.zst .always 7 true (.mem o) none f true)).instr = .zst .always 7 true (.mem o) none f true ∧
      (∀ p ∈ lastRow, match p with | .off _ sn => sn = true | .scr d b _ => (get? (coreOf base d).wgs b).isSome = true | .die .. => True) ∧
      lastRow.Pairwise fun p q => overlap p 16 q 16 = false) :=
  ⟨by decide, by decide, fun i _ => ⟨job i, rfl⟩, by decide, ⟨0, .g⟩, .f32, 128, rfl, by decide, rfl, fun p hp => by
    obtain ⟨k, _, rfl⟩ := List.mem_map.mp hp
    rfl, by decide +kernel⟩
/-- Exact products and sums, an infinity times zero, infinities of both signs and of one, a NaN. -/
theorem witness_MatrixRowResults_sums :
    ((∃ y ∈ [FV.nan true], (match y with | .nan _ => true | _ => false) = true) ∧
     (∀ y ∈ [FV.inf true, .fin false 0 (-149)], (match y with | .nan _ => true | _ => false) = false) ∧
     (∃ y ∈ [FV.inf true, .fin false 0 (-149)], (match y with | .inf _ => true | _ => false) = true)) ∧
    (Machine.Prod.inf true ∈ [Machine.Prod.inf true, .inf false] ∧ Machine.Prod.inf false ∈ [Machine.Prod.inf true, .inf false]) ∧
    (.nan ∉ [Machine.Prod.inf true, .zero false] ∧ .invalid ∉ [Machine.Prod.inf true, .zero false] ∧ .inf true ∈ [Machine.Prod.inf true, .zero false] ∧
      .inf (!true) ∉ [Machine.Prod.inf true, .zero false]) ∧
    (let l := [Machine.Prod.num true 3 (-298) false, .zero true]
     .nan ∉ l ∧ .invalid ∉ l ∧ .inf true ∉ l ∧ .inf false ∉ l) := by decide

/-! ### Traps, selection and the walker -/

/-- The core with its threads in no batch, and its stop as given. -/
def withStop (x : Stop) (s : State := base) : State := updCore s 0 fun co => { co with sels := [], stop := x }
def trapGroup (items : List (Nat × TrapInfo)) (entered : Bool := false) : TrapGroup := { tick := 0, sel := 0, code := 1, items := items, entered := entered }
def handled : State := withWG fun w => { w with kern := { w.kern with handler := some 1 } }
theorem witness_TrapsStopTheCoreAndRunHandlers :
    (∃ items : List (Nat × TrapInfo), (0, { code := 2 }) ∈ items ∧ (0 : Nat) ∈ ((selOf (coreOf base 0) 0).batches.flatMap (·.slots))) ∧
    (∃ s i x t k w h pa g, get? (coreOf s 0).threads i = some t ∧ crewOf (coreOf s 0) t = some k ∧ get? (coreOf s 0).wgs k.wg = some w ∧
      w.kern.handler = some h ∧ (ctxOf s w.ctx).dbgctl.getLsbD 0 = false ∧ traceOn s w.ctx = false ∧ t.trap = none ∧ t.wait ≠ .record ∧ t.tries = 0 ∧ lostPage t = false ∧
      (∀ n, n < 8 → mustWait s (coreOf s 0) w.ctx i (.off (pa + 64 * n) true) 64 = false) ∧ stillWalks (coreOf s 0) g.sel = false ∧ pendingReads (coreOf s 0) i = false ∧ translateVA s w.ctx (slice s w k.wg i 0) true = .ok pa true ∧ (coreOf s 0).late = [] ∧
      (coreOf s 0).stop.running = none ∧ (coreOf s 0).stop.pending = [g] ∧ g.entered = false ∧ g.items = [(i, x)]) ∧
    (∃ s i x k, (coreOf s 0).late = [] ∧ doubleTrap (coreOf s 0) = some (i, x) ∧ wgKey (coreOf s 0) i = some k) ∧
    (∃ s g, (coreOf s 0).late = [] ∧ (coreOf s 0).stop = { running := some g, since := (coreOf s 0).stop.since, grace := (coreOf s 0).stop.grace } ∧ g.items = []) ∧
    (∀ n ∈ [16383#64, 16384], ∃ s g i x r k, (coreOf s 0).stop.running = some g ∧ g.items = (i, x) :: r ∧ wgKey (coreOf s 0) i = some k ∧
      s.tick = n ∧ (coreOf s 0).stop.since = some 0) ∧
    (∃ s n, (coreOf s 0).stop.resumeAt = some n ∧ n ≤ now s) ∧
    (∃ s b w, get? (coreOf s 0).wgs b = some w ∧ (get? s.ctxs w.ctx).isSome = true) :=
  ⟨⟨[(0, { code := 2 })], by decide, by decide +kernel⟩,
   ⟨withStop { pending := [trapGroup [(0, { code := 1 })]] } handled, 0, { code := 1 }, _, _, _, 1, 0, _, rfl, rfl, rfl, rfl, rfl, rfl, rfl, by decide, rfl, rfl,
    by decide +kernel, rfl, rfl, by decide +kernel, rfl, rfl, rfl, rfl, rfl⟩,
   ⟨withStop { pending := [trapGroup [(0, { code := 1 })]] } (withThread inTrap), 0, { code := 1 }, 0, rfl, rfl, rfl⟩,
   ⟨withStop { running := some (trapGroup [] true), since := some 3 }, _, rfl, rfl, rfl⟩,
   fun n _ => ⟨{ withStop { running := some (trapGroup [(0, { code := 1 })] true), since := some 0 } (withThread inTrap) with tick := n }, _, 0, _, _, 0, rfl, rfl, rfl, rfl, rfl⟩,
   ⟨withStop { resumeAt := some 0 }, 0, rfl, by decide⟩, base, 0, _, rfl, rfl⟩

/-- A function of two nodes: node 0 as given, and a block below it. -/
def withTree (x : Nat) (s : State := base) : State :=
  let s := withBytes 0 (toBytes 16 x) (withBytes 16 (toBytes 16 (2 * 2 ^ 124 + 2 ^ 111)) s)
  updCtx s 0 fun k => { k with dir := [(0, BitVec.ofNat 256 (0x100 * 2 ^ 64 + 2 * 2 ^ 192))] }
/-- Node 1 as the one child (R59). -/
def kid : Nat := 2 ^ 64 + 2 ^ 56
/-- Thread 0 in no body and no batch, in an entry of the block table. -/
def entered (e : Entry) (s : State := base) : State :=
  updCore s 0 fun co => { co with sels := [], crews := [(0, { wg := 0, num := 0, role := 0, masks := [(0, [0])], masksAt := [(0, [0])] })], entries := [(0, e)] }
def entryOf (slots : List Nat) (age : Nat := 0) (r : Option Reason := none) (node : Nat := 0) : Entry :=
  { launch := 0, role := 0, pos := { fn := 0, node := node, step := 0 }, slots := slots, age := age, reason := r }
/-- Two ready entries, of threads of one crew. -/
def twoEntries (a b : Nat) : State :=
  updCore (entered (entryOf [0])) 0 fun co =>
    { co with threads := [(0, { crew := 0 }), (1, { crew := 0 })], entries := [(0, entryOf [0] a), (1, entryOf [1] b)] }
/-- A REFILL (R61, R70) at node 0 of queue 3, registers v4-v9 and p1, with as many records in its queue; the head's names node 1. -/
def vacant (closed : Bool) (len : Nat) : State :=
  updCtx (entered (entryOf [0] 0 (some .refill)) (withBytes 0x3FFE0 (toBytes 32 (2 ^ 16)) (spilled (withTree (8 * 2 ^ 124 + 3 * 2 ^ 50 + 1 * 2 ^ 47 + 4 * 2 ^ 39))))) 0 fun k =>
    { k with conts := [(3, { head := 2047, len := len, closed := closed })] }
theorem refill_of {x : Option (WG × Fetch Node)} {w : WG} {n : Node} (h : x.any (fun y => decide (y.1 = w) && fetches y.2 n) = true) : x = some (w, .ok n) := by
  match x, h with
  | some (v, y), h =>
    simp only [Option.any, Bool.and_eq_true, decide_eq_true_eq] at h
    rw [h.1, fetch_of h.2]
theorem witness_SelectorsServeTheirEntries :
    (∃ s k e l, choose s 0 0 [] = some (k, e, l) ∧ e.age = 3071) ∧
    (∃ s k e l, choose s 0 0 [] = some (k, e, l) ∧ e.age = 4000 ∧ ∃ y ∈ (coreOf s 0).entries, y.2.reason = none ∧ pickFrom (coreOf s 0) 0 y.2 ≠ [] ∧
      (spentIssue s (entryCtx (coreOf s 0) y.2) 0 && othersReady s 0) = false ∧ y.2.age = 3072) ∧
    (∃ s k e i launch role wg va x count live, get? (coreOf s 0).entries k = some e ∧ keyOf (coreOf s 0) i = some (launch, role, wg) ∧
      headerVA s wg.ctx e.pos.fn e.pos.node (roleOf wg role).nv = some va ∧ fetchVA s wg.ctx va 8 = .ok x ∧ headerOf x = some (count, live) ∧ e.pos.step < count ∧
      (threadOf (coreOf s 0) i).bad = [] ∧ traceOn s wg.ctx = false ∧ (coreOf s 0).cold = []) ∧
    (∃ s k e, get? (coreOf s 0).entries k = some e ∧ e.age = 2048) ∧
    (∃ s h r k e, (coreOf s 0).cold = h :: r ∧ (coreOf s 0).coldAge = 4096 ∧ (coreOf s 0).entries.length = 512 ∧
      (coreOf s 0).entries.find? (fun y => y.2.reason.isSome) = some (k, e)) ∧
    (∃ s q k pos m first slots w, stopped (coreOf s 0) = false ∧ keys (coreOf s 0).crews = [q] ∧ get? (coreOf s 0).crews q = some k ∧
      get? (coreOf s 0).wgs k.wg = some w ∧ w.single = false ∧ w.stopping = false ∧ w.swap = none ∧
      (∀ x ∈ heldGathers s (coreOf s 0) q, ∃ g, x.1 = .ok g) ∧ gathersOf s (coreOf s 0) q = [(pos, m, first, slots)] ∧ canFire k.masksAt (pos, m, first, slots) = true) ∧
    (∀ closed ∈ [true, false], ∀ len ∈ [0, 1], ∃ s t l role w n, get? (coreOf s 0).threads 0 = some t ∧
      keyOf (coreOf s 0) 0 = some (l, role, w) ∧ w.single = false ∧ w.stopping = false ∧ w.swap = none ∧
      refillSlots (coreOf s 0) = [0] ∧ refillAt s (coreOf s 0) 0 = some (w, .ok n) ∧ n.field 50 6 = 3 ∧
      (∀ j ∈ refillSlots (coreOf s 0), vacantBefore s (coreOf s 0) w.ctx (n.field 50 6) 0 j = false) ∧
      rget {} (ctxOf s w.ctx).conts 3 = { head := 2047, len := len, closed := closed } ∧
      translateVA s w.ctx (contVA s w.ctx 3 2047) false = .ok 0x3FFE0 true ∧ mustWait s (coreOf s 0) w.ctx 0 (.off 0x3FFE0 true) 32 = false ∧
      memRead s.mem 0x3FFE0 32 = 2 ^ 16 ∧ (fnOf s w.ctx 0).any (fun f => decide (1 < f.nnodes)) = true) ∧
    (∃ s b i r w, matchBatch s 0 0 = some b ∧ matchDue s (coreOf s 0) b = i :: r ∧ stopped (coreOf s 0) = false ∧
      (∀ p ∈ (coreOf s 0).pend, ∀ l ∈ p.lanes, l.slot ∉ i :: r) ∧ wgOf (coreOf s 0) (threadOf (coreOf s 0) i) = some w ∧
      (b.shadow.or (startPoints s 0 (i :: r) (matchesAt (ctxOf s w.ctx) b.pos))).isSome = true) := by
  refine ⟨⟨entered (entryOf [0] 3071), 0, entryOf [0] 3071, [0], by decide +kernel, rfl⟩,
    ⟨twoEntries 3072 4000, 1, entryOf [1] 4000, [1], by decide +kernel, rfl, (0, entryOf [0] 3072), by decide +kernel, by decide +kernel⟩,
    ⟨entered (entryOf [0]), 0, _, 0, _, _, demoWG, 0x100, demoHeader, 255, [{ m := false, base := 0, len := 192 }, { m := true, base := 0, len := 64 }], rfl, rfl,
      by decide +kernel, fetch_of (by decide +kernel), by decide +kernel, by decide, rfl, rfl, rfl⟩,
    ⟨entered (entryOf [0] 2048), 0, _, rfl, rfl⟩,
    ⟨updCore base 0 fun co =>
       { co with cold := [entryOf [0]], coldAge := 4096, entries := (List.range 512).map fun k => (k, entryOf [1] 0 (if k = 7 then some .queue else none)) }, _, _, 7, entryOf [1] 0 (some .queue), rfl, rfl, by decide +kernel, by decide +kernel⟩,
    ⟨entered (entryOf [0] 0 (some .gather)) (withTree (7 * 2 ^ 124 + kid)), 0, _, {}, 0, 1, [0], _, rfl, rfl, rfl, rfl, rfl, rfl, rfl, fun x hx => ?_, by decide +kernel, by decide +kernel⟩,
    fun closed hc len hr => ⟨vacant closed len, _, _, _, demoWG, { raw := 8 * 2 ^ 124 + 3 * 2 ^ 50 + 1 * 2 ^ 47 + 4 * 2 ^ 39 }, rfl, rfl, rfl, rfl, rfl, rfl, ?_, by decide, ?_, ?_,
      ?_, ?_, ?_, ?_⟩,
    ⟨updCtx (withHandler (withThread (regs []))) 0 fun k => { k with matchp := [(5, 2 ^ 40)] }, _, 0, [], _, rfl, by decide +kernel, rfl, by decide +kernel, rfl, by decide +kernel⟩⟩
  · have h : (heldGathers (entered (entryOf [0] 0 (some .gather)) (withTree (7 * 2 ^ 124 + kid)))
        (coreOf (entered (entryOf [0] 0 (some .gather)) (withTree (7 * 2 ^ 124 + kid))) 0) 0).all (fun x => match x.1 with | .ok _ => true | _ => false) = true := by
      decide +kernel
    have := List.all_eq_true.mp h x hx
    split at this
    · exact ⟨_, ‹_›⟩
    · cases this
  · refine refill_of ?_
    simp only [List.mem_cons, List.not_mem_nil, or_false] at hc hr
    rcases hc with rfl | rfl <;> rcases hr with rfl | rfl <;> decide +kernel
  all_goals
    simp only [List.mem_cons, List.not_mem_nil, or_false] at hc hr
    rcases hc with rfl | rfl <;> rcases hr with rfl | rfl <;> decide +kernel

/-- The same thread of a crew without a body, in a function whose node 0 is given. -/
def walked (x : Nat) (t : Thread := { crew := 0 }) : State := entered (entryOf [0]) (withTree x (withThread t))
/-- Its hypotheses at node `n`, whose record is `rec`. -/
def AtNode (s : State) (n : Nat) (t : Thread) (w : WG) (rec : Node) : Prop :=
  get? (coreOf s 0).threads 0 = some t ∧ keyOf (coreOf s 0) 0 = some (0, 0, w) ∧ nodeAt s w.ctx 0 n (roleOf w 0).nv = .ok (some rec)
def atNodeB (s : State) (n : Nat) (t : Thread) (rec : Node) : Bool :=
  decide (get? (coreOf s 0).threads 0 = some t) && decide (keyOf (coreOf s 0) 0 = some (0, 0, demoWG)) && fetches (nodeAt s 0 0 n 192) (some rec)
theorem atNode_of {s : State} {n : Nat} {t : Thread} {rec : Node} (h : atNodeB s n t rec = true) : AtNode s n t demoWG rec := by
  simp only [atNodeB, Bool.and_eq_true, decide_eq_true_eq] at h
  exact ⟨h.1.1, h.1.2, fetch_of h.2⟩
/-- Each kind of node with each of its cases: kind, flags of the record, and v0. -/
theorem witness_TheWalkerFollowsTheTree :
    (∃ s w, nextWalk (coreOf s 0) = some w) ∧
    (∀ x ∈ [1 * 2 ^ 124 + kid, 2 * 2 ^ 124, 3 * 2 ^ 124 + kid, 3 * 2 ^ 124 + 2 ^ 55 + kid, 4 * 2 ^ 124 + kid, 4 * 2 ^ 124 + 1 * 2 ^ 54 + kid,
        4 * 2 ^ 124 + 2 * 2 ^ 54 + kid, 5 * 2 ^ 124, 7 * 2 ^ 124 + kid, 7 * 2 ^ 124 + 1 * 2 ^ 54 + kid, 8 * 2 ^ 124],
      ∀ v ∈ [(0#32), 1#32], ∃ s t w, AtNode s 0 t w { raw := x } ∧ t.getV 0 = v ∧ t.stepping = false ∧
        (∃ f, fnOf s w.ctx 0 = some f ∧ f.fbase = 0) ∧ ∃ k, crewOf (coreOf s 0) t = some k ∧ 0 ∈ rget [] k.masks 0 ∧ 0 ∉ rget [] k.masks 1) ∧
    (∃ s, nodeAt s 0 0 0 192 = .ok none) ∧
    (∀ x ∈ [1 * 2 ^ 124 + kid, 3 * 2 ^ 124 + kid, 4 * 2 ^ 124 + kid, 4 * 2 ^ 124 + 1 * 2 ^ 54 + kid, 4 * 2 ^ 124 + 2 * 2 ^ 54 + kid, 7 * 2 ^ 124 + kid],
      ∃ s t w self, AtNode s 1 t w self ∧ self.parent = 0 ∧ AtNode s 0 t w { raw := x } ∧ bodyAt (coreOf s 0) 0 = none) ∧
    (∀ d ∈ [0, 1, 15, 16], ∃ s t w, AtNode s 0 t w { raw := 2 * 2 ^ 124 } ∧ t.depth = d ∧ w.kern.depth = 16 ∧ t.trap = none ∧ lostPage t = false ∧
      (∃ u va pa, frameVA s (coreOf s 0) 0 t.depth = some (u, va) ∧ translateVA s u.ctx va true = .ok pa true ∧
        mustWait s (coreOf s 0) u.ctx 0 (.off pa true) 8 = false) ∧
      ∃ u va pa, frameVA s (coreOf s 0) 0 (t.depth - 1) = some (u, va) ∧ translateVA s u.ctx va false = .ok pa true ∧
        mustWait s (coreOf s 0) u.ctx 0 (.off pa true) 8 = false) := by
  refine ⟨⟨updCore base 0 fun co => { co with walks := [{ slots := [0], act := .ret }] }, { slots := [0], act := .ret }, by decide +kernel⟩, fun x hx v hv => ?_,
    ⟨walked (9 * 2 ^ 124), fetch_of (by decide +kernel)⟩, fun x hx => ?_, fun d hd => ?_⟩
  · refine ⟨walked x (regs (if v = 0 then [] else [(0, v)])), regs (if v = 0 then [] else [(0, v)]), demoWG, ?_, ?_, rfl, 
      ⟨{ fbase := 0, segSize := 0, nnodes := 2, seg := 0, code := 256, nodes := 0 }, ?_, rfl⟩, _, rfl, by decide, by decide⟩ <;>
    simp only [List.mem_cons, List.not_mem_nil, or_false] at hx hv <;> rcases hv with rfl | rfl
    · rcases hx with rfl | rfl | rfl | rfl | rfl | rfl | rfl | rfl | rfl | rfl | rfl <;> exact atNode_of (by decide +kernel)
    · rcases hx with rfl | rfl | rfl | rfl | rfl | rfl | rfl | rfl | rfl | rfl | rfl <;> exact atNode_of (by decide +kernel)
    all_goals first | decide | (rcases hx with rfl | rfl | rfl | rfl | rfl | rfl | rfl | rfl | rfl | rfl | rfl <;> decide +kernel)
  · refine ⟨walked x, { crew := 0 }, demoWG, { raw := 2 * 2 ^ 124 + 2 ^ 111 }, ?_, by decide +kernel, ?_, rfl⟩ <;>
    simp only [List.mem_cons, List.not_mem_nil, or_false] at hx <;> rcases hx with rfl | rfl | rfl | rfl | rfl | rfl <;> exact atNode_of (by decide +kernel)
  · refine ⟨walked (2 * 2 ^ 124) { crew := 0, depth := d }, { crew := 0, depth := d }, demoWG, ?_, rfl, rfl, rfl, rfl, ⟨demoWG, slice base demoWG 0 0 (512 + 8 * d), 512 + 8 * d, ?_, ?_, ?_⟩,
      ⟨demoWG, slice base demoWG 0 0 (512 + 8 * (d - 1)), 512 + 8 * (d - 1), ?_, ?_, ?_⟩⟩ <;>
    simp only [List.mem_cons, List.not_mem_nil, or_false] at hd <;> rcases hd with rfl | rfl | rfl | rfl <;>
      first | exact atNode_of (by decide +kernel) | decide +kernel

/-! ### Paging, workgroups and launches -/

/-- A page group of cluster 0 that one lane waits on. -/
def pageGroup (st : GroupState) (s : State := base) : State :=
  { s with groups := [(0, [{ id := 1, ctx := 0, first := 0, state := st, pages := [(1, false)], waiters := [.lane 0 0] }])] }
/-- A thread that waits for the entry of a call table at 0x800, whose lazy bit is set (R368). -/
def parked : State :=
  updCtx (entered (entryOf [0] 0 (some .binding)) (withBytes 0x800 (toBytes 8 (2 ^ 16)) (withThread { crew := 0, wait := .entry 0x800 }))) 0 fun k =>
    { k with binds := [{ va := 0x800, waiters := [(0, 0)] }] }
/-- A read of 0x100 in flight. -/
def reading : Pend :=
  { id := 1, wg := 0, kind := .load .b32, lanes := [{ slot := 0, place := .off 0x100 true, len := 4 }], order := .free, scope := 0, read := true, write := false }
theorem witness_PageRequestsAndBindings :
    (∃ s g, groupAt s 0 1 = some g ∧ leafHeld s 0 = false ∧ g.state = .opened ∧ g.first + 64 = now s) ∧
    (∃ s g, groupAt s 0 1 = some g ∧ leafHeld s 0 = false ∧ g.state = .closed ∧ waitsBefore s g = false ∧
      rget 0 s.pageUsed (ctxField s g.ctx 358 6) + g.pages.length = 1024 ∧
      rget 0 s.pageUsed (ctxField s g.ctx 358 6) + g.pages.length = rget 0 s.pageAlloc (ctxField s g.ctx 358 6)) ∧
    (∃ s g t vals k, groupAt s 0 1 = some g ∧ leafHeld s 0 = false ∧ g.state = .issued ∧ g.waiters = [.lane 0 0] ∧ (get? s.ctxs g.ctx).isSome = true ∧
      (ctxOf s g.ctx).unbinds = [] ∧ get? (coreOf s 0).threads 0 = some t ∧ t.wait = .page ∧ t.resume = .replay vals k) ∧
    (∃ s t pa, hasCtx s 0 = true ∧ schedHeld s = false ∧ (∃ b, (ctxOf s 0).binds.find? (fun b => decide (b.va = 0x800)) = some b ∧ b.answer = none) ∧ keys s.cores = [0] ∧
      boundSlots (coreOf s 0) 0 0x800 = [0] ∧ get? (coreOf s 0).threads 0 = some t ∧ translateVA s 0 0x800 true = .ok pa true ∧
      bits (memRead s.mem pa 8) 16 1 = 1 ∧
      ∃ l role w, keyOf (coreOf s 0) 0 = some (l, role, w) ∧ ∃ r, nodeAt s 0 t.pos.fn t.pos.node (roleOf w role).nv = .ok r) ∧
    (∃ s, hasCtx s 0 = true ∧ rangeBusy s 0 0x100 8 = false) ∧ ∃ s, hasCtx s 0 = true ∧ rangeBusy s 0 0x100 8 = true :=
  ⟨⟨{ pageGroup .opened with tick := 64 }, _, rfl, rfl, rfl, rfl⟩,
   ⟨{ pageGroup .closed with pageUsed := [(0, 1023)], pageAlloc := [(0, 1024)] }, _, rfl, rfl, rfl, by decide +kernel, by decide +kernel, by decide +kernel⟩,
   ⟨pageGroup .issued (withThread { crew := 0, wait := .page, resume := .replay [7] 2 }), _, _, _, _, rfl, rfl, rfl, rfl, rfl, rfl, rfl, rfl, rfl⟩,
   ⟨parked, _, 0x800, rfl, rfl, ⟨_, rfl, rfl⟩, rfl, by decide +kernel, rfl, by decide +kernel, by decide +kernel, _, _, _, rfl, _,
     fetch_of (y := some { raw := 2 * 2 ^ 124 }) (by decide +kernel)⟩,
   ⟨base, rfl, by decide +kernel⟩,
   ⟨updCore base 0 fun co => { co with pend := [reading] }, rfl, by decide +kernel⟩⟩
/-- A launch of the kernel, with one workgroup to place. -/
def launch1 (st : LaunchState) (prio : Nat := 0) (k : Kernel := demoKernel) : Launch :=
  { arr := 1, record := [0, 0, BitVec.ofNat 64 (1 + 2 ^ 16 + 2 ^ 32 + prio * 2 ^ 48), 0, 0, 0, 0, 0], state := st, kern := some k,
    unplaced := if st = .eligible then [0] else [] }
def withLaunch (l : Launch) (s : State := base) : State := updCtx s 0 fun k => { k with launches := k.launches ++ [l] }
/-- The image of the workgroup on core 0. -/
def savedImage (swapped : Bool := false) : Image := imageOf (coreOf base 0) 0 0 demoWG [] swapped false
def withImage (m : Image) : State := updCtx { base with cores := [] } 0 fun k => { k with images := [(5, m)] }
/-- With an access of the workgroup in flight, or without. -/
def flying (y : Bool) (s : State) : State := updCore s 0 fun co => { co with pend := if y then [reading] else [] }
theorem witness_SavedWorkgroupsComeBack :
    (∃ s value, hasCtx s 0 = true ∧ schedHeld s = false ∧
      ((residents s).find? fun y => decide (y.2.2.ctx = 0 ∧ y.2.2.id = bits (value : Word64).toNat 0 32 ∧ launchIdOf s 0 y.2.2.launch = bits value.toNat 32 16) &&
        !y.2.2.marked).isSome = true) ∧
    (∃ s w, get? (coreOf s 0).wgs 0 = some w ∧ w.stopping = false ∧ schedHeld s = false ∧ preemptChoice s = some (0, 0, w)) ∧
    (∃ s w, get? (coreOf s 0).wgs 0 = some w ∧ w.stopping = false ∧ stepOver s 0 0 w = true) ∧
    (∀ y ∈ [false, true], ∀ z ∈ [false, true], ∃ s w l, get? (coreOf s 0).wgs 0 = some w ∧ (get? s.ctxs w.ctx).isSome = true ∧ w.members = [] ∧ w.stopping = true ∧
      schedHeld s = false ∧ ((groupOf s 0 0).any fun y => !drained s y.1 y.2) = z ∧ discardable w = y ∧ launchAt s w.ctx w.launch = some l) ∧
    (∀ z ∈ [false, true], ∃ s w va, get? (coreOf s 0).wgs 0 = some w ∧ (get? s.ctxs w.ctx).isSome = true ∧ w.members = [] ∧ w.swap = some va ∧
      leafHeld s (clusterOf 0) = false ∧ ((groupOf s 0 0).any fun y => !drained s y.1 y.2) = z ∧ ∃ u id r, saveAll (groupOf s 0 0) true false s = (u, id :: r)) ∧
    (∀ y ∈ [false, true], ∃ s m cores c, get? (ctxOf s 0).images 5 = some m ∧ schedHeld s = false ∧ restoreCores s 0 m = some cores ∧ cores.head? = some c ∧
      restoreDue s 0 m c = true ∧ m.swapped = y ∧ m.arrived = y ∧ (∀ l ∈ waitingLaunches s 0, l.block = false) ∧ leafHeld s (clusterOf m.core) = false ∧ m.halted = false ∧
      outranked s 0 m.wg.prio = false ∧ ∀ z ∈ imagesWith s 0 m, z.2.halted = false ∧ z.2.swapped = y) ∧
    (∃ s m b, get? (ctxOf s 0).images 5 = some m ∧ imagesWith s 0 m = [(5, m)] ∧ m.wg.members = [] ∧ m.step = none ∧ m.form = none ∧
      freeRun (coreOf s 0) m.wg.kern = some b ∧ (m.threads.map (·.1)).Nodup ∧ ∀ y ∈ m.threads, m.base ≤ y.1) := by
  refine ⟨⟨withLaunch { launch1 .complete with arr := 0 }, 0, rfl, rfl, by decide +kernel⟩,
    ⟨withLaunch (launch1 .eligible 1 { demoKernel with scratch := 2 ^ 30 }), demoWG, rfl, rfl, rfl, by decide +kernel⟩,
    ⟨withWG fun w => { w with single := true }, _, rfl, rfl, by decide +kernel⟩, fun y hy z hz => ?_,
    fun z hz => ⟨flying z (withWG fun w => { w with swap := some 0x1000 }), _, _, rfl, rfl, rfl, rfl, rfl, ?_, _, _, [], Prod.ext rfl rfl⟩, fun y hy => ?_,
    ⟨withImage savedImage, savedImage, 0, rfl, by decide +kernel, rfl, rfl, rfl, by decide +kernel, by decide +kernel, by decide +kernel⟩⟩
  · simp only [List.mem_cons, List.not_mem_nil, or_false] at hy hz
    refine ⟨flying z (withLaunch { launch1 .eligible with arr := 0 } (withWG fun w => { w with stopping := true, kern := { w.kern with idem := y } })), _, _,
      rfl, rfl, rfl, rfl, rfl, ?_, ?_, rfl⟩ <;> rcases hy with rfl | rfl <;> rcases hz with rfl | rfl <;> decide +kernel
  · simp only [List.mem_cons, List.not_mem_nil, or_false] at hz
    rcases hz with rfl | rfl <;> decide +kernel
  · simp only [List.mem_cons, List.not_mem_nil, or_false] at hy
    refine ⟨withImage { savedImage y with arrived := y }, _, [0], 0, rfl, rfl, ?_, rfl, rfl, rfl, rfl, ?_, rfl, rfl, rfl, ?_⟩ <;> rcases hy with rfl | rfl <;> decide +kernel
/-- An image that no page holds stands as it was saved; one whose first byte the host has changed does not. -/
theorem witness_SavedWorkgroupsComeBack_edited : (∃ s m, intact s 0 m = true) ∧ ∃ s m, intact s 0 m = false := by
  refine ⟨⟨{}, savedImage, List.all_eq_true.mpr fun k _ => ?_⟩,
    withBytes 0x800 [Config.imageByte 0 0 + 1], { savedImage with off := 0x800 }, List.all_eq_false.mpr ⟨0, ?_, ?_⟩⟩
  · rfl
  · simp [Config.imageLen]
  · have h : vaPlace (withBytes 0x800 [Config.imageByte 0 0 + 1]) 0 (imageVA (withBytes 0x800 [Config.imageByte 0 0 + 1]) 0 { savedImage with off := 0x800 } 0) =
        some (.off 0x800 true) := rfl
    have g : getByte (withBytes 0x800 [Config.imageByte 0 0 + 1]) (.off 0x800 true) = Config.imageByte 0 0 + 1 := by
      show memGet (memWrite base.mem 0x800 [Config.imageByte 0 0 + 1]) 0x800 = _
      exact memGet_memWrite_in base.mem 0x800 [Config.imageByte 0 0 + 1] 0 (by decide)
    rw [h]
    simp only [g]
    simp [savedImage, imageOf]

theorem witness_LaunchesPlaceTheirWorkgroups :
    (∀ n ∈ [4095, 4096], ∃ s, hasCtx s 0 = true ∧ queued (ctxOf s 0) = n) ∧ recField (List.replicate 8 0) 128 16 = 0 ∧
    (∀ k ∈ [none, some { demoKernel with scratch := 2 ^ 30 }, some demoKernel], ∃ s l, launchAt s 0 1 = some l ∧ schedHeld s = false ∧ l.state = .waiting ∧
      l.valid = k.isSome ∧ l.kern = k ∧ recField l.record 320 57 = 0 ∧ recField l.record 384 57 = 0 ∧ phaseHeld (ctxOf s 0) l = false) ∧
    (neverFits { demoKernel with scratch := 2 ^ 30 } = true ∧ neverFits demoKernel = false) ∧
    (∃ s pa, translateVA s 0 0xFF8 true = .ok pa true) ∧
    (∃ s l cores c k id r b, schedHeld s = false ∧ nextLaunch s 0 = some (l, cores) ∧ l.arr = 1 ∧ cores.head? = some c ∧ launchAt s 0 l.arr = some l ∧
      l.kern = some k ∧ recNA l = 0 ∧ l.unplaced = id :: r ∧ id ∉ r ∧ freeRun (coreOf s c) k = some b) ∧
    (∃ s w l t, get? (coreOf s 0).wgs 0 = some w ∧ launchAt s w.ctx w.launch = some l ∧ w.started = false ∧ w.marked = false ∧ w.members = [] ∧
      get? l.starts (dieOf 0) = some t ∧ t + recField l.record 178 14 = now s) ∧
    (∃ s l, launchAt s 0 1 = some l ∧ schedHeld s = false ∧ l.state = .eligible ∧ nextIds s 0 l ≠ [] ∧ l.since + 60000 = now s ∧ nextCores s 0 l = none) ∧
    (∃ s w, get? (coreOf s 0).wgs 0 = some w ∧ w.started = true ∧ slotsOf (coreOf s 0) 0 = [] ∧ inFlight s 0 0 w = false ∧
      (∀ y ∈ (coreOf s 0).copies, y.wg ≠ 0) ∧ (∀ j ∈ (coreOf s 0).jobs, j.wg ≠ 0) ∧ wbState s w none = .clean) ∧
    (∃ s l, hasCtx s 0 = true ∧ launchAt s 0 1 = some l ∧ l.state = .waiting ∧ l.live = 0 ∧ l.owed = [] ∧ countersOf s 0 l.record = [] ∧
      (∀ y ∈ residents s, y.2.2.ctx = 0 → y.2.2.launch ≠ 1) ∧ ∀ y ∈ (ctxOf s 0).images, y.2.wg.launch ≠ 1) ∧
    (∀ y ∈ [false, true], ∃ s, hasCtx s 0 = true ∧ schedHeld s = y) ∧ (∃ s : State, (ctxOf s 0).heldCancels = []) ∧
    ∃ (s : State) (n : Nat) (r : List Nat), (ctxOf s 0).heldCancels = n :: r := by
  refine ⟨fun n hn => ⟨updCtx base 0 fun k => { k with launches := List.replicate n (launch1 .waiting) }, rfl, ?_⟩, rfl,
    fun k hk => ⟨withLaunch { launch1 .waiting with valid := k.isSome, kern := k }, _, rfl, rfl, rfl, rfl, rfl, ?_, ?_, ?_⟩, by decide +kernel, ⟨base, 0xFF8, by decide +kernel⟩,
    ⟨withLaunch (launch1 .eligible) { base with cores := [] }, launch1 .eligible, [0], 0, _, _, _, 0, rfl, by decide +kernel, rfl, rfl, rfl, rfl, rfl, rfl,
      by decide, by decide +kernel⟩,
    ⟨{ withLaunch { launch1 .eligible with arr := 0, record := [0, 0, 5 <<< 50, 0, 0, 0, 0, 0], starts := [(0, 2)] } (withWG fun w => { w with started := false }) with
       tick := 7 }, _, _, _, rfl, rfl, rfl, rfl, rfl, rfl, by decide +kernel⟩,
    ⟨{ withLaunch (launch1 .eligible 0 { demoKernel with scratch := 2 ^ 30 }) with tick := 60000 }, _, rfl, rfl, rfl, by decide, by decide +kernel, by decide +kernel⟩,
    ⟨updCore base 0 fun co => { co with threads := [], crews := [] }, _, rfl, rfl, by decide +kernel, by decide +kernel, by decide +kernel,
      by decide +kernel, by decide +kernel⟩,
    ⟨withLaunch (launch1 .waiting), _, rfl, rfl, rfl, rfl, rfl, by decide +kernel, by decide +kernel,
      by decide +kernel⟩, fun y _ => ⟨{ base with fw := { repl := if y then some { cls := 1, unit := 0, slot := 1, record := 0, holdAt := 0 } else none } }, rfl, by cases y <;> rfl⟩,
    ⟨base, rfl⟩, updCtx base 0 fun k => { k with heldCancels := [3] }, 3, [], rfl⟩
  · simp only [List.mem_cons, List.not_mem_nil, or_false] at hn
    rcases hn with rfl | rfl <;> decide +kernel
  all_goals
    simp only [List.mem_cons, List.not_mem_nil, or_false] at hk
    rcases hk with rfl | rfl | rfl <;> decide +kernel

/-! ### The host's registers, power, firmware and the outside -/

/-- The saved workgroup, halted with a thread trapped at step 3 of its block. -/
def haltedImage : Image :=
  let m := savedImage
  { m with halted := true, threads := [(0, { inTrap with trap := some { base := 0, pos := { fn := 0, node := 0, step := 3 }, info := { code := 0x12 } } })],
           wg := { m.wg with halts := [trapGroup [(0, { code := 0x12 })] true] } }
theorem witness_WindowWritesChangeTheirContext :
    (∃ s, hasCtx s 0 = false) ∧ (∃ s, hasCtx s 0 = true ∧ schedHeld s = true) ∧ (∃ s, hasCtx s 0 = true ∧ schedHeld s = false) ∧
    (∃ v : Word64, v &&& 0xFFFFFFFFFF00FFF8 = 0 ∧ bits v.toNat 16 4 = 10 ∧ v.getLsbD 0 = true) ∧ (0 : Word64).getLsbD 0 = false ∧
    (∀ k ∈ [3, 4], ∃ s n m, hasCtx s 0 = true ∧ schedHeld s = false ∧ haltedSel s 0 = some (n, m) ∧ imagesWith s 0 m = [(n, m)] ∧
      standsAt m { fn := 0, node := 0, step := k } = decide (k = 3)) ∧
    (∃ s, traceOn s 0 = true ∧ keys s.cores = [0] ∧ burstDue (traceCore s 0 0) = false ∧ 0 < (traceCore s 0 0).drops ∧ ringRoom s 0 32 = true) ∧
    (∃ s : State, ∀ c, (traceCore s c 0).drops = 0) ∧ (0 < Config.nCores) ∧
    (∃ s, traceOn s 0 = true ∧ (traceCore s 0 0).burst = false ∧ 4096 ≤ (traceCore s 0 0).since ∧ (traceCore s 0 0).drops = 0 ∧ ringRoom s 0 1056 = true ∧
      ∀ y ∈ (coreOf s 0).entries, entryCtx (coreOf s 0) y.2 ≠ 0) := by
  refine ⟨⟨{}, rfl⟩, ⟨{ base with fw := { repl := some { cls := 1, unit := 0, slot := 1, record := 0, holdAt := 0 } } }, rfl, rfl⟩, ⟨base, rfl, rfl⟩,
    ⟨0xA0001, by decide, by decide, by decide⟩, by decide, fun k hk => ⟨withLaunch { launch1 .complete with arr := 0 } (withImage haltedImage), 5, haltedImage, rfl, rfl,
      by decide +kernel, by decide +kernel, ?_⟩,
    ⟨updCtx (updCore base 0 fun co => { co with trace := [(0, { burst := false, drops := 3 })] }) 0 fun k => { k with trcctl := 1 }, by decide +kernel⟩,
    ⟨{}, fun c => rfl⟩, by decide,
    ⟨updCtx (updCore base 0 fun co => { co with trace := [(0, { since := 4096, burst := false })] }) 0 fun k => { k with trcctl := 1 }, by decide +kernel⟩⟩
  simp only [List.mem_cons, List.not_mem_nil, or_false] at hk
  rcases hk with rfl | rfl <;> decide +kernel
/-- Which images pass is for the maker's keys, a free value. -/
theorem witness_PowerSequence :
    (∃ s : State, s.power = .hallmark) ∧ (∃ s : State, s.power ≠ .off ∧ busy s = false) ∧
    ∀ x ∈ [64#64, 63], ∃ (s : State) (n : Nat), s.stopAt = some n ∧ s.power = .running ∧ n = 64 ∧ s.tick = x :=
  ⟨⟨{}, rfl⟩, ⟨{}, by decide, by decide⟩, fun x _ => ⟨{ base with stopAt := some 64, tick := x }, 64, rfl, rfl, rfl, rfl⟩⟩
def replacing (r : Replacement) (t : Word64 := 0) : State := { base with tick := t, fw := { repl := some r } }
/-- The deadline of 50 ms less 60,000 ticks is 29,940,000 ticks. -/
theorem witness_ReplacementHoldsAndLinks :
    (∃ (s : State) (r : Replacement), s.fw.repl = some r ∧ s.power = .running ∧ r.cls = 1 ∧ r.slot < 2 ∧ r.back = false ∧ r.gap = false ∧ s.fw.log.length < 256) ∧
    (∃ (s : State) (r : Replacement), s.fw.repl = some r ∧ s.power = .running ∧ r.cls = 2 ∧ r.back = false ∧ r.unit = 26 ∧ r.gap = false) ∧
    (∀ b ∈ [false, true], ∃ (s : State) (r : Replacement), s.fw.repl = some r ∧ s.power = .running ∧ r.gap = true ∧ r.cls = 3 ∧ engineBusy s r.unit = b) ∧
    (∀ t ∈ [29940000#64, 29939999], ∃ (s : State) (r : Replacement), s.fw.repl = some r ∧ s.power = .running ∧ r.cls = 1 ∧ r.back = false ∧ r.gap = false ∧ s.fw.log.length < 256 ∧ s.tick = t ∧
      r.holdAt = 0 ∧ s.fw.deadlineMs = 50) ∧
    (∀ b ∈ [false, true], ∃ (s : State) (l : LinkCmd), s.power = .running ∧ l.cluster = 27 ∧ l.body.length = 8 ∧ l.toLeaf = b ∧
      l.seq = (rget {} s.links (2 * l.cluster + (if l.toLeaf then 1 else 0))).sent % 2 ^ 32 ∧
      (rget {} s.links (2 * l.cluster + (if l.toLeaf then 1 else 0))).permits ≠ 0) :=
  ⟨⟨replacing { cls := 1, unit := 0, slot := 1, record := 0, holdAt := 0 }, _, rfl, rfl, rfl, by decide, rfl, rfl, by decide⟩,
   ⟨replacing { cls := 2, unit := 26, slot := 1, record := 0, holdAt := 0 }, _, rfl, rfl, rfl, rfl, rfl, rfl⟩,
   fun b _ => ⟨{ replacing { cls := 3, unit := 63, slot := 1, gap := true } with bulks := if b then [bulkAt 0] else [] },
     { cls := 3, unit := 63, slot := 1, gap := true }, rfl, rfl, rfl, rfl, by cases b <;> rfl⟩,
   fun t _ => ⟨replacing { cls := 1, unit := 0, slot := 1, record := 0, holdAt := 0 } t, { cls := 1, unit := 0, slot := 1, record := 0, holdAt := 0 }, rfl, rfl, rfl, rfl, rfl, by simp [replacing], rfl, rfl, rfl⟩,
   fun b _ => ⟨base, { cluster := 27, toLeaf := b, seq := 0, body := List.replicate 8 0 }, rfl, rfl, rfl, rfl, by cases b <;> rfl, by cases b <;> decide⟩⟩
/-- Whether a signature or an image passes is a free value: the clauses that depend on it hold for either answer. -/
theorem witness_MailboxCommands :
    (∀ p ∈ [Power.recovery, .stopped], ∃ s : State, s.power = p ∧ busy s = false ∧ s.fw.destroying = none) ∧
    (∃ s : State, s.power ≠ .off ∧ busy s = true) ∧
    (∃ s : State, (s.power = .running ∧ busy s = false ∧ schedHeld s = false) ∧ createOk s [0, 0, 0, 0, 0, 1, 0, 0] = true ∧
      createOk s [0, 0, 0, 0, 0, 0, 0, 0] = false ∧
      s.fw.destroying = none ∧ hasCtx s 2 = false ∧ hasCtx s 3 = true ∧ (∀ y ∈ residents s, y.2.2.ctx ≠ 3) ∧ (∀ b ∈ s.bulks, b.ctx ≠ 3) ∧
      (∀ l ∈ (ctxOf s 3).launches, l.state = .complete) ∧  s.fw.log.length = 1 ∧ s.fw.log[0 + 0]? = some 7 ∧ s.fw.owner = none) ∧
    (∃ s : State, s.power = .running ∧ busy s = false ∧ s.fw.owner = some 9 ∧ s.fw.nonce = none) ∧
    (∃ s : State, s.power = .running ∧ busy s = false ∧ s.fw.owner = some 9 ∧ s.fw.nonce = some 5) ∧
    (([] : List Byte).length ≠ 1312 ∧ (∃ key : List Byte, key.length = 1312) ∧ 64 + 2 ^ 23 + 2 * (1312 + 2420) < 2 ^ 24 + 0 ∧ 16 + 4080 ≤ 4096 ∧ ∃ b : List Byte, 4096 < b.length) :=
  ⟨fun p _ => ⟨{ power := p }, rfl, by cases p <;> decide +kernel, rfl⟩, ⟨{ fw := { mbstat := 2 ^ 63 } }, by decide, by decide +kernel⟩,
   ⟨{ base with ctxs := put base.ctxs 3 {}, fw := { log := [7] } }, by decide +kernel⟩,
   ⟨{ base with fw := { owner := some 9 } }, by decide +kernel⟩, ⟨{ base with fw := { owner := some 9, nonce := some 5 } }, by decide +kernel⟩,
   by decide, ⟨_, List.length_replicate (n := 1312) (a := 0)⟩, by decide, by decide, List.replicate 4097 0, by rw [List.length_replicate]; decide⟩
/-- A container (R358-R361) of one function: a node, and a block of one NOP. -/
def container : List Byte :=
  toBytes 64 (64 + 2 * 2 ^ 32 + 2 ^ 56) ++ toBytes 32 (64 * 2 ^ 192 + 128 * 2 ^ 128 + 7 * 256 + 0x10) ++ toBytes 32 (16 * 2 ^ 192 + 192 * 2 ^ 128 + 7 * 256 + 0x12) ++
  toBytes 64 (2 * 2 ^ 124 + (2 ^ 56) * 2 ^ 128 + 0xBB85000000000000 * 2 ^ 192) ++ toBytes 16 (1 * 2 ^ 32 + 16 * 2 ^ 64 + 2 * 2 ^ 96)
def withObjPage : State :=
  updCtx base 0 fun k => { k with pages := k.pages ++ [{ va := 65536, log2 := 16, pa := 65536, rd := true, wr := true, fatal := false, snooped := true }] }
def withObj : State := updCtx base 0 fun k =>
  { k with objs := [{ fbase := 7, nfn := 1, base := 0, imgSize := 0, seg := 0, segSize := 0, kernels := [], exports := [], tables := [] },
                    { fbase := 0, nfn := 1, base := 0, imgSize := 0, seg := 0, segSize := 0, kernels := [], exports := [], tables := [] }] }
theorem witness_OutsideAccessesAndObjects :
    (∃ s : State, s.power = .running ∧ rget [] s.routes 5 ≠ [] ∧ (∀ i, i < 4 → exists? s (0xFFC + i) = true) ∧ 2 ^ 63 < 2 * 2 ^ 64 ∧ exists? s (2 ^ 63) = false ∧
      ∀ i, i < 4 → exists? s (2 * 2 ^ 64 + i) = true) ∧
    (∃ s : State, s.power = .recovery) ∧
    (∃ s : State, s.power = .stopped) ∧ (∃ s : State, s.power ≠ .stopped ∧ ∀ y ∈ s.routes, y.2 ≠ [] → ∃ j ∈ y.2, j ≠ 11) ∧
    (∃ s : State, s.power = .running ∧ (1 ≤ s.vfs ∧ 1 ≤ 32 ∧ ctxField s 0 358 6 ≠ 1) ∧ hasCtx s 5 = false) ∧
    (∃ s : State, rget [] s.routes 63 = [] ∧ (∃ k ∈ [11, 12], k < 12) ∧ ∀ y ∈ s.routes, y.2 ≠ [] → ∃ j ∈ y.2, j ≠ 11) ∧
    (∃ s a, a < 2 * 2 ^ 64 ∧ exists? s a = true) ∧
    (∃ s st k, hasCtx s 0 = true ∧ loadObject s 0 65536 [] = .error (st, k)) ∧ (∃ s x, hasCtx s 0 = true ∧ loadObject s 0 65536 container = .ok x) ∧
    (∀ f ∈ [0, 7], ∃ s o, (ctxOf s 0).objs.find? (fun o => decide (o.fbase = f)) = some o ∧ inUse s 0 o = decide (f = 0)) := by
  refine ⟨⟨{ base with routes := [(5, [0])] }, rfl, by decide, by decide +kernel, by decide, by decide +kernel, by decide +kernel⟩,
    ⟨{ power := .recovery }, rfl⟩, ⟨{ power := .stopped }, rfl⟩, ⟨{ routes := [(5, [0, 11])] }, by decide, by decide +kernel⟩,
    ⟨{ base with vfs := 1 }, rfl, by decide +kernel, rfl⟩, ⟨{ routes := [(5, [0, 11])] }, rfl, by decide, by decide +kernel⟩, ⟨base, 0xFC0, by decide, by decide +kernel⟩, ⟨base, _, _, rfl, rfl⟩,
    ⟨withObjPage, (ok_of (by decide +kernel)).choose, rfl, (ok_of (by decide +kernel)).choose_spec⟩, fun f hf => ?_⟩
  simp only [List.mem_cons, List.not_mem_nil, or_false] at hf
  rcases hf with rfl | rfl
  · exact ⟨withObj, _, rfl, by decide +kernel⟩
  · exact ⟨withObj, _, rfl, by decide +kernel⟩

/-! ### The machine as a whole -/

/-- A word that decodes and one that does not, at the position of a batch that stands alone. -/
theorem witness_StepRunsTheDecodedWord :
    (∀ w ∈ [0xBB85000000000000, 0], ∃ s b x va, s.agenda = [.word 0 0] ∧ s.power = .running ∧ issuable s 0 0 = [b] ∧
      batchWordVA { s with agenda := [] } (coreOf s 0) b = some (x, va) ∧ fetchVA s x va 8 = .ok w ∧ matchLeft s 0 0 b.id = false) ∧
    decode (BitVec.ofNat 64 0xBB85000000000000) = .ok (.nop .always) ∧ (∃ e, decode (BitVec.ofNat 64 0) = .error e) ∧
    (∃ s : State, s.agenda = [.event .powerUp] ∧ awake s.power .powerUp = true) ∧ (∃ s : State, s.agenda = [] ∧ s.power ≠ .off ∧ s.power ≠ .stopped) ∧ ∀ y ∈ ([] : List Batch), y.boarded = false := by
  refine ⟨fun w hw => ?_, rfl, ⟨_, rfl⟩, ⟨{ agenda := [.event .powerUp] }, rfl, rfl⟩, ⟨{}, rfl, by decide, by decide⟩, by simp⟩
  simp only [List.mem_cons, List.not_mem_nil, or_false] at hw
  rcases hw with rfl | rfl
  · exact ⟨State.reset.withFetchWord 64 0xBB85000000000000, _, 0, 0x108, rfl, rfl, rfl, by decide +kernel, fetch_of (by decide +kernel), by decide +kernel⟩
  · exact ⟨State.reset.withFetchWord 64 0, _, 0, 0x108, rfl, rfl, rfl, by decide +kernel, fetch_of (by decide +kernel), by decide +kernel⟩
theorem witness_EncodedWordsDecode : ∃ i : Instr, i.isWord = true ∧ i.wf = true := ⟨.nop .always, rfl, rfl⟩
theorem witness_DecodedWordsAreWellFormed : ∃ w i, decode w = .ok i := ⟨0xBB85000000000000, _, rfl⟩
theorem witness_StepsKeepMemoryCanonical : ∃ s t, Memory.wf s.mem = true ∧ step s = .next t := ⟨State.reset, _, rfl, rfl⟩

/-! ### One step on small states: results worked by hand or printed in the spec -/

/-- Thread 0 after an instruction, where the machine answers a next state. -/
def after (i : Instr) (s : State) : Option Thread := match exec i s with | .next t => some (threadAt t 0 0) | _ => none
/-- A v register of thread 0 after a word on registers. -/
def vAfter (i : Instr) (v : SMap Word) (n : Nat) : Option Word := (after i (withThread (regs v))).map (·.getV n)
/-- The codes of the traps that are pending after an instruction. -/
def codesAfter (i : Instr) (s : State) : List Nat := match exec i s with | .next t => (coreOf t 0).stop.pending.map (·.code) | _ => []

theorem test_iadd_wraps : vAfter (.iadd (r3 4 2 3) false) [(2, 0x7FFFFFFF), (3, 1)] 4 = some 0x80000000 := by decide +kernel
theorem test_isub_order : vAfter (.isub (r3 4 2 3) false) [(2, 5), (3, 7)] 4 = some 0xFFFFFFFE := by decide +kernel
/-- R104: the quotient of -2^31 by -1, and truncation toward zero. -/
theorem test_idiv_corner : vAfter (.idiv (r3 4 2 3)) [(2, 0x80000000), (3, 0xFFFFFFFF)] 4 = some 0x80000000 := by decide +kernel
theorem test_irem_sign : vAfter (.irem (r3 4 2 3)) [(2, 0xFFFFFFF9), (3, 2)] 4 = some 0xFFFFFFFF := by decide +kernel
/-- R102: DIVZERO is code 0x05. -/
theorem test_idiv_by_zero : codesAfter (.idiv (r3 4 2 3)) (withThread (regs [(2, 7)])) = [0x05] := by decide +kernel
/-- R105's own corner: rhu(0xFFFFFFFF, 1). -/
theorem test_irsh_unsigned : vAfter (.irsh (r3 4 2 3) true) [(2, 0xFFFFFFFF), (3, 1)] 4 = some 0x80000000 := by decide +kernel
theorem test_isat_s8 : vAfter (.isat (r2 4 2) .s8) [(2, 0xFFFFFF00)] 4 = some 0xFFFFFF80 := by decide +kernel
/-- R108's table: scale 0.375 / 8, zero point -10. -/
theorem test_iqnt_s8 : ([(1000#32, 0x25#32), (BitVec.ofInt 32 (-2500), 0xFFFFFF81#32), (4000#32, 0x7F#32), (BitVec.ofInt 32 (-12), 0xFFFFFFF5#32)].all fun x =>
    decide (vAfter (.iqnt (t3 7 3 12 13) .s8) [(3, x.1), (12, 0x60000000), (13, 0xFFF60003)] 7 = some x.2)) = true := by decide +kernel
theorem test_iqnt_u8 : ([(1000#32, 37#32), (BitVec.ofInt 32 (-2500), 0#32), (4000#32, 178#32), (BitVec.ofInt 32 (-12), 0#32)].all fun x =>
    decide (vAfter (.iqnt (t3 7 3 12 13) .u8) [(3, x.1), (12, 0x60000000), (13, 0xFFF60003)] 7 = some x.2)) = true := by decide +kernel
theorem test_bfi : vAfter (.bfi (t3 4 2 3 5)) [(2, 0xFFFFFFFF), (3, 0), (5, 0x0404)] 4 = some 0xF0 := by decide +kernel
theorem test_icmp_is_signed : (after (.icmp .always 2 (vs 3) (vs 4) .lt) (withThread (regs [(3, 0xFFFFFFFF), (4, 1)]))).map (·.p) = some 4 := by decide +kernel

/-- R117's example: slot 5's v8 and v9 set a1, and lane 10 adds its own v21. -/
def affineCrew : State :=
  updCore base 0 fun co =>
    mapBatch { co with threads := [(5, regs [(8, 0x1000), (9, 64)]), (10, regs [(8, 3), (9, 4), (21, 7)])],
                       crews := [(0, { wg := 0, num := 0, role := 0, bodies := [{ fn := 0, node := 1, depths := [(5, 0), (10, 0)], slots := [5, 10] }] })] } 0 0
      fun b => { b with slots := [5, 10] }
theorem test_aset_takes_the_lowest_lane :
    (match exec (.aset .always 1 (vs 8) (vs 9)) affineCrew with
      | .next t => (get? (coreOf t 0).crews 0).map fun k => get? k.aff 1
      | _ => none) = some (some 0x4000001000) := by decide +kernel
theorem test_affine_source_is_by_lane :
    (match exec (.iadd { g := .always, d := .v 20, a := { code := .a 1 }, b := vs 21 } false)
        (updCore affineCrew 0 fun co => updCrew co 0 fun k => { k with aff := [(1, 0x4000001000)] }) with
      | .next t => some ((threadAt t 0 10).getV 20)
      | _ => none) = some (0x1280 + 7) := by decide +kernel

/-- 1.5 + 2.25 and (2^24 + 1 rounds to even): R135. -/
theorem test_fadd : vAfter (.fadd (r3 4 2 3) .f32) [(2, 0x3FC00000), (3, 0x40100000)] 4 = some 0x40700000 := by decide +kernel
theorem test_fadd_tie : vAfter (.fadd (r3 4 2 3) .f32) [(2, 0x4B800000), (3, 0x3F800000)] 4 = some 0x4B800000 := by decide +kernel
/-- R143's own example: 1 + 2^-10 becomes 1.0 with NX under RNE, and 0x3F81 under RUP. -/
theorem test_fcvt_rounds :
    (after (.fcvt .always (.v 6) (vs 2) none .bf16x2 .f16x2) (withThread (regs [(2, 0x3C013C01)]))).map (·.getV 6) = some 0x3F803F80 ∧
    (after (.fcvt .always (.v 6) (vs 2) none .bf16x2 .f16x2) (withThread { regs [(2, 0x3C013C01)] with fpctl := 2 })).map (·.getV 6) = some 0x3F813F81 := by
  decide +kernel
/-- "Worked conversions", threads 0 and 1, with FPCTL. -/
theorem test_fcvt_worked :
    let run := fun (a b : Word) => (after (.fcvt .always (.v 6) (vs 1) (some (vs 2)) .f16x2 .f32) (withThread (regs [(1, a), (2, b)]))).map fun t => (t.getV 6, t.fpctl)
    run 0x3FAAAAAB 0x4788B800 = some (0x7C003D55, 0x2940) ∧ run 0x35800000 0xC7800000 = some (0xFC000010, 0x2940) := by decide +kernel
/-- R144: 65,520 overflows FP16 under RNE, 65,519 does not. -/
theorem test_icvtf_overflow :
    vAfter (.icvtf .always (.v 6) (vs 2) (some (vs 3)) .f16x2 .s32) [(2, 65520), (3, 65519)] 6 = some 0x7BFF7C00 := by decide +kernel

/-- The worked example of "Moment Arithmetic", slots 0, 1 and 2 (the mean lies in bits 31:0, R323). -/
def momentBlock (m1 m2 : Word64) : State := withThread { crew := 0, m := [(1, m1), (2, m2), (3, 0x40A0000000000000), (4, 0x411000003F800000)] }
def mAfter (i : Instr) (s : State) (n : Nat) : Option Word64 := (after i s).map (·.getM n)
theorem test_mset_minus_zero : mAfter (.mset .always 2 (vs 6) (vs 7)) (withThread (regs [(6, 0x3FC00000), (7, 0x80000000)])) 2 = some 0x000000003FC00000 := by
  decide +kernel
theorem test_mset_negative_variance : codesAfter (.mset .always 2 (vs 6) (vs 7)) (withThread (regs [(6, 0x40000000), (7, 0xBF800000)])) = [0x06] := by decide +kernel
theorem test_madd : mAfter (.madd .always 3 (ms 1) (ms 2) none) (momentBlock 0x3F8000003F800000 0x40800000BF800000) 3 = some 0x40A0000000000000 := by decide +kernel
theorem test_madd_ant : mAfter (.madd .always 3 (ms 1) (ms 2) (some .ant)) (momentBlock 0x3F8000003F800000 0x40800000BF800000) 3 = some 0x3F80000000000000 := by
  decide +kernel
theorem test_mmul_cor : mAfter (.mmul .always 4 (ms 1) (ms 2) (some .cor)) (momentBlock 0x3F8000003F800000 0x40800000BF800000) 4 = some 0x411000003F800000 := by
  decide +kernel
theorem test_mmul_cor_invalid :
    (after (.mmul .always 4 (ms 1) (ms 2) (some .cor)) (momentBlock 0x7F8000003F800000 0x3F80000000000000)).map (fun t => (t.getM 4, t.fpctl)) =
      some (0x7FC000007F800000, 0x8400) := by decide +kernel
theorem test_mcol_upper : (after (.mcol .always (.v 8) (ms 4) (.upper 0x4000)) (momentBlock 0 0)).map (·.getV 8) = some 0x40E00000 := by decide +kernel
theorem test_mchk : (after (.mchk .always 1 (ms 1)) (momentBlock 0x7F8000003F800000 0)).map (·.p) = some 0 := by decide +kernel

/-- The worked example of "The Matrix Unit": each group of 16 terms is summed exactly and rounded once. -/
theorem test_mma_rounds_by_groups :
    accumulate (.mma .always 1 false ⟨2, .sp⟩ ⟨6, .sp⟩ .bf16) false 0 (0x4580 + 0x3F80 * 2 ^ 16 + 0x3F80 * 2 ^ 256)
      ((List.range 32).map fun k => match k with | 0 => 0x4580 | 1 => 0x3F80 | 2 => 0x40400000 | 16 => 0x3F80 | _ => 0) 0 = 0x4B800000 := by decide +kernel
theorem test_mma_row_one :
    ∀ x ∈ [(0, 0x45800000), (1, 0xC0C00000)], accumulate (.mma .always 1 false ⟨2, .sp⟩ ⟨6, .sp⟩ .bf16) false 0 (0x3F80 + 0xC000 * 2 ^ 32)
      ((List.range 32).map fun k => match k with | 0 => 0x4580 | 1 => 0x3F80 | 2 => 0x40400000 | 16 => 0x3F80 | _ => 0) x.1 = x.2 := by decide +kernel

/-- The example "a C4 box with fill": the shape record, and rows 0 and 1 of the image with the codebook of slot 0. -/
def c4Shape : Shape := { base := 0x400, dims := [6, 3, 0, 0, 0], strides := [0, 4, 0, 0, 0], boxes := [7, 2, 0, 0, 0], fmt := 5, fill := 0xC2C8, cb := 0 }
theorem test_c4_shape_record :
    parseShape (0x400 + 0x0000000300000006 * 2 ^ 64 + 0x0000C2C800000000 * 2 ^ 192 + 0x0207000000000004 * 2 ^ 256 + 0x2500000000000000 * 2 ^ 384) 2 = some c4Shape := by
  decide +kernel
theorem test_c4_box_with_fill :
    let s := withBytes 0x400 (toBytes 12 0x000E770000F0432100543210)
    let w : WG := { demoWG with books := (List.zip (List.range 16)
      [0, 0x3F80, 0x4000, 0x4040, 0x4080, 0x40A0, 0x40C0, 0x40E0, 0x4100, 0x4110, 0x4120, 0x4130, 0x4140, 0x4150, 0x4160, 0xBF80]).filter (·.1 ≠ 0) }
    ([0, 1].map fun r => (List.range 8).map fun k => (imageElem s 0 w c4Shape [0, 1] r k).1) =
      [[0x3F80, 0x4000, 0x4040, 0x4080, 0x0000, 0xBF80, 0xC2C8, 0xC2C8], [0x0000, 0x0000, 0x40E0, 0x40E0, 0x4160, 0x0000, 0xC2C8, 0xC2C8]] := by decide +kernel

/-- The example "one lane faults": a load of an absent page waits for it in a held entry, and a present one is in flight. -/
theorem test_load_of_an_absent_page :
    (match exec (.ld .always (.c (.v 2)) { addr 2 .b32 with off := 4, scope := 5 }) (withThread (regs [(2, 0x20400000), (3, 0x10)])) with
      | .next t => ((threadAt t 0 0).wait, (coreOf t 0).entries.map (fun e => e.2.reason), (coreOf t 0).pend.length, (rget [] t.groups 0).map (·.pages))
      | _ => (.none, [], 9, [])) = (.page, [some .replay], 0, [[(0x1020400, false)]]) := by decide +kernel
/-- An ATADD of 5 to 0x800 in flight, with v4 as destination. -/
def adding : Pend :=
  { id := 1, wg := 0, kind := .atomic 0 false false .f32, lanes := [{ slot := 0, place := .off 0x800 true, len := 4, data := 5, dst := [.v 4] }], order := .free,
    scope := 0, read := true, write := true }
theorem test_atadd_returns_the_old_value :
    (match exec (.accessComplete 0 1) (updCore (withBytes 0x800 (toBytes 4 7)) 0 fun co => { co with pend := [adding] }) with
      | .next t => (((threadAt t 0 0).getV 4), memRead t.mem 0x800 4)
      | _ => (0, 0)) = (7, 12) := by decide +kernel

/-- R263: the ballot of the crew batch's lanes, into (v4, v5), (v6, v7). -/
theorem test_vote_ballot :
    (match exec (.voteBallot .always 4 1 false) (updCore affineCrew 0 fun co => updThread co 10 fun t => t.setP 1 true) with
      | .next t => [4, 5, 6, 7].map (threadAt t 0 5).getV
      | _ => []) = [0x400, 0, 0, 0] := by decide +kernel
/-- R127: the accrued flags are cleared by writing 1, the others are written. -/
theorem test_swr_fpctl :
    (after (.swr .always 0 (vs 2) false) (withThread { regs [(2, 0xFFFFFC7A)] with fpctl := 0x7C0 })).map (·.fpctl) = some 0xFB8A := by decide +kernel
/-- "Worked record: a refused page request": ACCESS in slot 2 of core 263 (R322), words 0 to 9. -/
def refused : State :=
  let s : State := { base with tick := 0x000000024A1C3F00, cores := [], ctxs := [(5, { launches := [{ arr := 4, record := [0, 0, 0, 0x31, 0, 0, 0, 0] }] })] }
  updCore s 263 fun co => { co with
    threads := [(2, { crew := 0, pos := { fn := 3 } })]
    crews := [(0, { wg := 0, num := 0, role := 0, masks := [(0, [2]), (1, [2]), (2, [2]), (3, [2])] })]
    wgs := [(0, { demoWG with ctx := 5, launch := 4 })] }
theorem test_worked_trap_record :
    let r := ofBytes (newRecord refused 263 2
      { code := 0x0B, word := 0x7380080800428100, srcs := [0x0000001020400000], addr := 0x0000001020400004, replay := true, tick := 0x000000024A1C3F00 })
    ((List.range 13).map fun k => bits r (64 * k) 64) = [0x000F00000000040B, 0x0000003101070005, 0x0000020000000000, 0x0000000000000003, 0x000000024A1C3F00,
      0x7380080800428100, 0x0000001020400000, 0, 0, 0x0000001020400004, 0, 0, 0] := by decide +kernel
/-- R15's example: core 263 lies on die 2 in cluster 19. -/
theorem test_core_numbers : dieOf 263 = 2 ∧ clusterOf 263 = 19 := by decide

end Sys2Proof.Tests
end

section
/-! ### Definitions that leave off-chip memory as it is

A definition that changes threads, workgroups, queues or firmware alone leaves `mem`: each such fact follows its steps. -/
set_option Elab.async false
namespace Sys2Proof.Machine

/-! #### Choices and folds -/

@[simp] theorem mem_ite (p : Prop) [Decidable p] (s t : State) : (if p then s else t).mem = if p then s.mem else t.mem := apply_ite ..
@[simp] theorem foldl_mem {α : Type} {f : State → α → State} (h : ∀ s a, (f s a).mem = s.mem) (l : List α) (s : State) :
    (l.foldl f s).mem = s.mem := by
  induction l generalizing s with
  | nil => rfl
  | cons a r ih => exact (ih _).trans (h s a)
@[simp] theorem foldl_fst_mem {α β : Type} {f : State × β → α → State × β} (h : ∀ x a, (f x a).1.mem = x.1.mem) (l : List α) (x : State × β) :
    (l.foldl f x).1.mem = x.1.mem := by
  induction l generalizing x with
  | nil => rfl
  | cons a r ih => exact (ih _).trans (h x a)
@[simp] theorem foldl_snd_mem {α β : Type} {f : β × State → α → β × State} (h : ∀ x a, (f x a).2.mem = x.2.mem) (l : List α) (x : β × State) :
    (l.foldl f x).2.mem = x.2.mem := by
  induction l generalizing x with
  | nil => rfl
  | cons a r ih => exact (ih _).trans (h x a)

@[simp] theorem chargeWord_mem (s : State) (c : Nat) (word : Word64) (slots : List Nat) : (chargeWord s c word slots).mem = s.mem := by
  unfold chargeWord
  split <;> rfl
@[simp] theorem countIssue_mem (s : State) (c ctx : Nat) (bases : List Nat) (page : Nat) : (countIssue s c ctx bases page).mem = s.mem := rfl
@[simp] theorem deposit_mem (s : State) (c : Nat) (slots : List Nat) (pos : Pos) (r : Option Reason) (ord : Nat) (group : Bool) :
    (deposit s c slots pos r ord group).mem = s.mem := by
  unfold deposit
  split <;> rfl
@[simp] theorem dissolve_mem (s : State) (c sel id : Nat) : (dissolve s c sel id).mem = s.mem := by
  unfold dissolve
  split <;> simp
@[simp] theorem pageFault_mem (s : State) (cluster ctx va : Nat) (write : Bool) (w : Waiter) :
    (pageFault s cluster ctx va write w).mem = s.mem := by
  simp [pageFault]
@[simp] theorem holdLanes_mem (s : State) (c : Nat) (ctx : Nat) (pos : Pos) (l : List (Nat × Wait × Reason × Resume × Option (Nat × Bool))) :
    (holdLanes s c ctx pos l).mem = s.mem := by
  induction l generalizing s with
  | nil => rfl
  | cons a r ih =>
    unfold holdLanes
    dsimp only
    repeat' split
    all_goals simp [*]
@[simp] theorem noteIssue_mem (s : State) (e : Env) (traps : Bool) : (noteIssue s e traps).mem = s.mem := rfl
@[simp] theorem takeTrap_mem (s : State) (c sel : Nat) (items : List (Nat × TrapInfo)) : (takeTrap s c sel items).mem = s.mem := by
  unfold takeTrap
  split <;> rfl
@[simp] theorem stepTraps_mem (s : State) (c sel id : Nat) (slots : List Nat) : (stepTraps s c sel id slots).mem = s.mem := by
  unfold stepTraps
  dsimp only
  split <;> simp
@[simp] theorem settle_mem (s : State) (e : Env) (p : WordSpec) (done : List Nat) (traps : List (Nat × TrapInfo))
    (holds : List (Nat × Wait × Reason × Resume × Option (Nat × Bool))) : (settle s e p done traps holds).mem = s.mem := by
  simp [settle]
@[simp] theorem stallWord_mem (s : State) (e : Env) (res : List (Nat × Except Bar LaneOut)) : (stallWord s e res).mem = s.mem := by
  unfold stallWord
  refine (foldl_mem (by intros; rfl) _ _).trans ?_
  split <;> rfl
@[simp] theorem storeLanes_mem (e : Env) (p : WordSpec) (live : List Nat) (oks : List (Nat × LaneOut)) (held : List Nat) (early : Bool)
    (s : State) : (storeLanes e p live oks held early s).mem = s.mem := by
  unfold storeLanes
  repeat' split
  all_goals rfl
@[simp] theorem countTraffic_mem (s : State) (ctx : Nat) (ps : List (Place × Nat)) : (countTraffic s ctx ps).mem = s.mem := rfl
@[simp] theorem lanesNow_mem (s : State) (k : PKind) (lanes : List PLane) : (lanesNow s k lanes).2.mem = s.mem := by
  unfold lanesNow
  dsimp only
  repeat' split
  all_goals simp
@[simp] theorem noteLane_mem (c : Nat) (p : Pend) (before : List Pend) (s : State) (l : PLane) : (noteLane c p before s l).mem = s.mem := rfl
@[simp] theorem noteAccess_mem (s : State) (c : Nat) (p : Pend) (lanes : List PLane) (before : List Pend) :
    (noteAccess s c p lanes before).mem = s.mem := by
  unfold noteAccess
  split
  · rfl
  · exact foldl_mem (by simp) lanes s
@[simp] theorem poisonAt_mem (s : State) (p : Place) (n : Nat) : (poisonAt s p n).mem = s.mem := by
  unfold poisonAt
  split <;> rfl
@[simp] theorem unpoison_mem (s : State) (p : Place) (n : Nat) : (unpoison s p n).mem = s.mem := by
  unfold unpoison
  split <;> rfl
@[simp] theorem settlePoison_mem (s : State) (ws : List (Place × Nat × Bool)) : (settlePoison s ws).mem = s.mem := by simp [settlePoison]
@[simp] theorem poisonTrap_mem (c : Nat) (word : Word64) (s : State) (l : List PLane) : (poisonTrap c word s l).mem = s.mem := by
  induction l generalizing s with
  | nil => rfl
  | cons a r ih => simp [poisonTrap, ih]
@[simp] theorem updSample_mem (s : State) (c id : Nat) (f : Sample → Sample) : (updSample s c id f).mem = s.mem := rfl
@[simp] theorem sampleLanes_mem (s : State) (c width : Nat) (lanes : List PLane) : (sampleLanes s c width lanes).mem = s.mem :=
  foldl_mem (by intros; rfl) _ s
@[simp] theorem setTrace_mem (s : State) (c ctx : Nat) (f : TraceCore → TraceCore) : (setTrace s c ctx f).mem = s.mem := rfl
@[simp] theorem takeOwn_mem (s : State) (c : Nat) (co : Core) (p : Pend) (lanes : List PLane) : (takeOwn s c co p lanes).2.mem = s.mem := by
  unfold takeOwn
  split
  · refine foldl_snd_mem (fun x l => ?_) lanes ([], s)
    dsimp only
    split <;> rfl
  · rfl
@[simp] theorem updFw_mem (s : State) (f : Firmware → Firmware) : (updFw s f).mem = s.mem := rfl
@[simp] theorem awaitHold_mem (s : State) (r : Replacement) : (awaitHold s r).mem = s.mem := rfl
@[simp] theorem beginHold_mem (s : State) (r : Replacement) : (beginHold s r).mem = s.mem := by
  unfold beginHold
  split <;> rfl
@[simp] theorem setArg_mem (s : State) (bs : List Byte) : (setArg s bs).mem = s.mem := rfl
@[simp] theorem writeCmd_mem (s : State) (code : Nat) (args : List Byte) : (writeCmd s code args).mem = s.mem := rfl
@[simp] theorem addPends_mem (c wg : Nat) (word : Word64) (x : PendSpec) (l : List (List PLane)) (s : State) :
    (addPends c wg word x l s).mem = s.mem := by
  induction l generalizing s with
  | nil => rfl
  | cons a r ih => simp [addPends, ih]
@[simp] theorem levelOf_mem (s : State) (p : Place) : (levelOf s p).2.mem = s.mem := by
  unfold levelOf
  split <;> rfl
@[simp] theorem servedBy_mem (l : List Place) (s : State) : (servedBy l s).2.mem = s.mem := by
  induction l generalizing s with
  | nil => rfl
  | cons a r ih => simp [servedBy, ih]
@[simp] theorem chargeLevels_mem (s : State) (c wg : Nat) (ps : List Place) : (chargeLevels s c wg ps).2.mem = s.mem := by simp [chargeLevels]
@[simp] theorem chargeLanesBy_mem (s : State) (c : Nat) (lanes : List PLane) : (chargeLanesBy s c lanes).2.mem = s.mem := by simp [chargeLanesBy]
@[simp] theorem sampleDeep_mem (s : State) (c : Nat) (lanes : List PLane) (levels : List (Place × Nat)) :
    (sampleDeep s c lanes levels).mem = s.mem :=
  foldl_mem (by intros; rfl) _ s
@[simp] theorem sampleReplays_mem (s : State) (c : Nat) (lanes : List PLane) :
    (sampleReplays s c lanes).mem = s.mem := foldl_mem (by intros; rfl) _ s
@[simp] theorem sampleStart_mem (s : State) (c ctx : Nat) (p : Pos) (live : List Nat) (sect : Nat) :
    (sampleStart s c ctx p live sect).2.mem = s.mem := by
  unfold sampleStart
  dsimp only
  repeat' split
  all_goals simp
@[simp] theorem sampleWord_mem (e : Env) (live : List Nat) (lanes : List PLane) (s : State) : (sampleWord e live lanes s).2.mem = s.mem := by
  unfold sampleWord
  simp [apply_ite Prod.snd]
@[simp] theorem issueAccesses_mem (g : Guard) (x : PendSpec) (e : Env) (oks : List (Nat × LaneOut)) (s : State) :
    (issueAccesses g x e oks s).mem = s.mem := by
  simp [issueAccesses]
@[simp] theorem wake_mem (s : State) (c : Nat) (slots : List Nat) : (wake s c slots).mem = s.mem := by
  refine foldl_mem (fun s i => ?_) slots s
  split <;> simp
@[simp] theorem release_mem (s : State) (c slot : Nat) (r : Resume) : (release s c slot r).mem = s.mem := by simp [release]
@[simp] theorem fetchFault_mem (s : State) (c : Nat) (slots : List Nat) (va : Nat) : (fetchFault s c slots va).mem = s.mem := rfl
@[simp] theorem bindCore_mem (ctx va : Nat) (s : State) (c : Nat) : (bindCore ctx va s c).mem = s.mem := foldl_mem (by intros; rfl) ..
@[simp] theorem dropBind_mem (s : State) (ctx va : Nat) : (dropBind s ctx va).mem = s.mem := rfl
@[simp] theorem nodeTrap_mem (s : State) (c f n sel : Nat) (raw : Nat) (items : List (Nat × Nat × List Nat × Nat)) :
    (nodeTrap s c f n sel raw items).mem = s.mem := by
  simp [nodeTrap]
@[simp] theorem unboundCore_mem (ctx va : Nat) (s : State) (c : Nat) : (unboundCore ctx va s c).mem = s.mem := by
  refine foldl_mem (fun s g => ?_) _ s
  dsimp only
  split <;> simp
@[simp] theorem refuseBind_mem (s : State) (ctx va : Nat) : (refuseBind s ctx va).mem = s.mem := by simp [refuseBind]
@[simp] theorem markSticky_mem (e : Env) (oks : List (Nat × LaneOut)) (s : State) : (markSticky e oks s).mem = s.mem := rfl
@[simp] theorem updBulk_mem (s : State) (id : Nat) (f : Bulk → Bulk) : (updBulk s id f).mem = s.mem := rfl
@[simp] theorem parkBulk_mem (s : State) (x : Bulk) (va : Nat) (write : Bool) : (parkBulk s x va write).mem = s.mem := by simp [parkBulk]
@[simp] theorem wantFill_mem (s : State) (c b k i : Nat) : (wantFill s c b k i).mem = s.mem := rfl
@[simp] theorem chargePlaces_mem (s : State) (c wg : Nat) (ps : List Place) : (chargePlaces s c wg ps).mem = s.mem := by simp [chargePlaces]
@[simp] theorem chargeBulk_mem (s : State) (x : Bulk) : (chargeBulk s x).mem = s.mem := by
  unfold chargeBulk
  dsimp only
  split <;> simp
@[simp] theorem countSpans_mem (s : State) (ctx : Nat) (l : List (Int × Nat)) : (countSpans s ctx l).mem = s.mem := rfl
@[simp] theorem portion_mem (s : State) (left : Nat) : (portion s left).2.mem = s.mem := by
  unfold portion
  split <;> rfl
@[simp] theorem leaveDie_mem (s : State) (ctx arr die : Nat) (retired : Bool) : (leaveDie s ctx arr die retired).mem = s.mem := rfl
@[simp] theorem updLaunch_mem (s : State) (ctx arr : Nat) (f : Launch → Launch) : (updLaunch s ctx arr f).mem = s.mem := rfl
@[simp] theorem setHalt_mem (s : State) (ctx : Nat) : (setHalt s ctx).mem = s.mem := rfl
@[simp] theorem dropWaits_mem (s : State) (c : Nat) (slots : List Nat) : (dropWaits s c slots).mem = s.mem := rfl
@[simp] theorem endWG_mem (s : State) (c base : Nat) : (endWG s c base).mem = s.mem := rfl
@[simp] theorem raiseStatus_mem (s : State) (ctx arr code : Nat) : (raiseStatus s ctx arr code).mem = s.mem := rfl
@[simp] theorem schedFault_mem (s : State) (ctx arr va : Nat) (write : Bool) :
    (schedFault s ctx arr va write).mem = s.mem := by simp [schedFault]
@[simp] theorem poisonFlat_mem (s : State) (addr : Nat) : (poisonFlat s addr).mem = s.mem := by
  unfold poisonFlat
  split <;> simp
@[simp] theorem report_mem (s : State) (st idx : Nat) : (report s st idx).mem = s.mem := rfl
@[simp] theorem trapHeld_mem (s : State) (c code : Nat) (addr : Nat) (s0 : State) (i : Nat) : (trapHeld s c code addr s0 i).mem = s0.mem := by
  unfold trapHeld
  split <;> simp
@[simp] theorem fireGathers_mem (s : State) (c crew : Nat) (k : Crew) : (fireGathers s c crew k).mem = s.mem := by simp [fireGathers]
@[simp] theorem needRecord_mem (c : Nat) (s : State) (x : Fetch Gather × List Nat) : (needRecord c s x).mem = s.mem := by
  unfold needRecord
  split <;> simp
@[simp] theorem fireCrew_mem (s : State) (c crew : Nat) : (fireCrew s c crew).mem = s.mem := by
  unfold fireCrew
  dsimp only
  split <;> simp
@[simp] theorem chargeEngine_mem (s : State) (c : Nat) (x : Cmd) (bytes : Nat) (src : List (Int × Nat)) :
    (chargeEngine s c x bytes src).mem = s.mem := by
  simp [chargeEngine]
@[simp] theorem freeCmd_mem (s : State) (c : Nat) (x : Cmd) : (freeCmd s c x).mem = s.mem := rfl
@[simp] theorem updCmd_mem (s : State) (c id : Nat) (f : Cmd → Cmd) : (updCmd s c id f).mem = s.mem := rfl
@[simp] theorem failCmd_mem (s : State) (c : Nat) (x : Cmd) (status : Nat) : (failCmd s c x status).mem = s.mem := rfl
@[simp] theorem parkCmd_mem (s : State) (c : Nat) (x : Cmd) (va : Nat) (write : Bool) : (parkCmd s c x va write).mem = s.mem := by simp [parkCmd]
@[simp] theorem settleImage_mem (s : State) (c : Nat) (x : Cmd) (h : Shape) (dst pitch : Nat) : (settleImage s c x h dst pitch).mem = s.mem := by
  simp [settleImage]
@[simp] theorem settleStore_mem (s : State) (x : Cmd) (h : Shape) (cs : List Int) (src pitch done k : Nat) :
    (settleStore s x h cs src pitch done k).mem = s.mem := by
  simp [settleStore]
@[simp] theorem chargeRead_mem (s : State) (c slot : Nat) (p : Place) : (chargeRead s c slot p).mem = s.mem := by
  unfold chargeRead
  split <;> simp
@[simp] theorem rereadStop_mem (s : State) (c slot : Nat) (t : Thread) (vals : List Nat) (x : Reach) :
    (rereadStop s c slot t vals x).mem = s.mem := by
  unfold rereadStop
  split <;> simp
@[simp] theorem chargeLanes_mem (s : State) (c : Nat) (lanes : List PLane) : (chargeLanes s c lanes).mem = s.mem := by simp [chargeLanes]
@[simp] theorem drive_mem (s : State) (ctx : Nat) (m : Image) (f : Image → Image) : (drive s ctx m f).mem = s.mem := rfl
@[simp] theorem freeCtx_mem (s : State) (ctx : Nat) : (freeCtx s ctx).mem = s.mem := rfl
@[simp] theorem destroyStep_mem (s : State) (ctx : Nat) : (destroyStep s ctx).1.mem = s.mem := by
  unfold destroyStep
  split <;> rfl
@[simp] theorem sendMsix_mem (s : State) (ctx : Nat) : (sendMsix s ctx).mem = s.mem := rfl
@[simp] theorem contextFault_mem (s : State) (ctx arr : Nat) : (contextFault s ctx arr).mem = s.mem := rfl
@[simp] theorem lateFault_mem (s : State) (ctx launch wid off sel st : Nat) (word : Word64) (drop : State → State)
    (hd : ∀ s, (drop s).mem = s.mem) : (lateFault s ctx launch wid off sel st word drop).mem = s.mem := by
  unfold lateFault
  split <;> simp [hd]
@[simp] theorem setMask_mem (e : Env) (k : Nat) (on : Bool) (slots : List Nat) (s : State) : (setMask e k on slots s).mem = s.mem := rfl
@[simp] theorem addLog_mem (s : State) (digest : BitVec 256) (version result slot event : Nat) :
    (addLog s digest version result slot event).mem = s.mem :=
  rfl
@[simp] theorem addFence_mem (c wg : Nat) (word : Word64) (scope : Nat) (l : List Nat) (s : State) :
    (addFence c wg word scope l s).mem = s.mem := by
  induction l generalizing s with
  | nil => rfl
  | cons a r ih => simp [addFence, ih]
@[simp] theorem noteFence_mem (s : State) (co : Core) (c i : Nat) (k : FenceKind) (scope : Nat) : (noteFence s co c i k scope).mem = s.mem := rfl
@[simp] theorem setStop_mem (s : State) (c : Nat) (f : Stop → Stop) : (setStop s c f).mem = s.mem := rfl
@[simp] theorem restStop_mem (s : State) (c : Nat) : (restStop s c).mem = s.mem := by simp [restStop]
@[simp] theorem endHold_mem (s : State) : (endHold s).mem = s.mem := by
  unfold endHold
  split <;> rfl
@[simp] theorem logImage_mem (s : State) (cls slot result event : Nat) : (logImage s cls slot result event).mem = s.mem := rfl
@[simp] theorem finishRepl_mem (s : State) (r : Replacement) : (finishRepl s r).mem = s.mem := rfl
@[simp] theorem nextUnit_mem (s : State) (r : Replacement) : (nextUnit s r).mem = s.mem := by
  unfold nextUnit
  dsimp only
  repeat' split
  all_goals simp
@[simp] theorem unsupported_mem (s : State) : (unsupported s).mem = s.mem := rfl
@[simp] theorem stopWG_mem (s : State) (l : List (Nat × Nat)) : (stopWG s l).mem = s.mem := foldl_mem (by intros; rfl) l s
@[simp] theorem writeMbarg_mem (s : State) (o : Nat) (bs : List Byte) : (writeMbarg s o bs).mem = s.mem := rfl
@[simp] theorem trapAll_mem (s : State) (e : Env) (code addr : Nat) : (trapAll s e code addr).mem = s.mem := by simp [trapAll]
@[simp] theorem departTo_mem (e : Env) (slots : List Nat) (act : WalkAct) (s : State) : (departTo e slots act s).mem = s.mem := rfl
@[simp] theorem fetchAbove_mem (g : Guard) (s : State) : (fetchAbove g s).mem = s.mem := by
  unfold fetchAbove
  repeat' split
  all_goals rfl
@[simp] theorem copyPoison_mem (s : State) (src : Place) (n : Nat) (dst : Place) (k : Nat) : (copyPoison s src n dst k).mem = s.mem := by
  simp [copyPoison]
@[simp] theorem failPoint_mem (s : State) (c i ctx k : Nat) : (failPoint s c i ctx k).mem = s.mem := rfl
@[simp] theorem passJob_mem (s : State) (c : Nat) (j : Job) : (passJob s c j).mem = s.mem := by simp [passJob]
@[simp] theorem settleRows_mem (s : State) (old new : List Place) : (settleRows s old new).mem = s.mem := by simp [settleRows]
@[simp] theorem rowsNow_mem (s : State) (j : Job) (rows : Nat) (failed : Bool) : (rowsNow s j rows failed).2.mem = s.mem := by
  simp [rowsNow, apply_ite Prod.snd]
@[simp] theorem stopJob_mem (s : State) (c : Nat) (j : Job) (lane : Nat) (x : RowStop) (row : Nat) : (stopJob s c j lane x row).mem = s.mem := by
  unfold stopJob
  dsimp only
  repeat' split
  all_goals simp
@[simp] theorem passHeld_mem (s : State) (c crew : Nat) (slots : List Nat) : (passHeld s c crew slots).mem = s.mem := rfl
@[simp] theorem startJob_mem (e : Env) (j : Job) (s : State) : (startJob e j s).mem = s.mem := rfl
@[simp] theorem updGroup_mem (s : State) (cluster gid : Nat) (f : PageGroup → PageGroup) : (updGroup s cluster gid f).mem = s.mem := rfl
@[simp] theorem dropGroup_mem (s : State) (cluster gid : Nat) : (dropGroup s cluster gid).mem = s.mem := rfl
@[simp] theorem faultGroup_mem (s : State) (g : PageGroup) (arrs : List Nat) : (faultGroup s g arrs).mem = s.mem :=
  (foldl_mem (by simp) ..).trans (updCtx_mem ..)
@[simp] theorem resolveLane_mem (s : State) (ok : Bool) (c i : Nat) : (resolveLane s ok c i).mem = s.mem := by
  unfold resolveLane
  dsimp only
  split <;> simp
@[simp] theorem resolveWalk_mem (s : State) (ok : Bool) (c i : Nat) (w : Wait) : (resolveWalk s ok c i w).mem = s.mem := by
  unfold resolveWalk
  repeat' split
  all_goals rfl
@[simp] theorem updImage_mem (s : State) (ctx img : Nat) (f : Image → Image) : (updImage s ctx img f).mem = s.mem := rfl
@[simp] theorem loseLanes_mem (s : State) (c : Nat) (p : Pend) (lost : List PLane) : (loseLanes s c p lost).mem = s.mem := by
  unfold loseLanes
  repeat' split
  all_goals rfl
@[simp] theorem losePends_mem (c peer : Nat) (l : List Pend) (s : State) : (losePends c peer l s).mem = s.mem := by
  induction l generalizing s with
  | nil => rfl
  | cons a r ih => simp [losePends, ih]
@[simp] theorem trapLost_mem (c : Nat) (l : List ((Nat × Word64) × (Nat × TrapInfo))) (s : State) :
    (trapLost c l s).mem = s.mem := by simp [trapLost]
@[simp] theorem losePeer_mem (peer : Nat) (s : State) (c : Nat) : (losePeer peer s c).mem = s.mem := by simp [losePeer]
@[simp] theorem losePeers_mem (l : List Nat) (s : State) : (losePeers l s).mem = s.mem := by
  induction l generalizing s with
  | nil => rfl
  | cons a r ih => simp [losePeers, ih]
@[simp] theorem bootClass_mem (s : State) (cls : Nat) : (bootClass s cls).1.mem = s.mem := by simp [bootClass, apply_ite Prod.fst]
@[simp] theorem freeCore_mem (s : State) (c base : Nat) : (freeCore s c base).mem = s.mem := by
  unfold freeCore
  split <;> rfl
@[simp] theorem mapWaiters_mem (s : State) (f : Waiter → Waiter) : (mapWaiters s f).mem = s.mem := rfl
@[simp] theorem parkBatch_mem (s : State) (c sel : Nat) (slots : List Nat) (b : Batch) :
    (parkBatch s c sel slots b).mem = s.mem := by simp [parkBatch]
@[simp] theorem parkBatches_mem (s : State) (c : Nat) (slots : List Nat) : (parkBatches s c slots).mem = s.mem := by simp [parkBatches]
@[simp] theorem stopJobs_mem (s : State) (c base : Nat) : (stopJobs s c base).mem = s.mem := foldl_mem (by intros; rfl) _ s
@[simp] theorem popRecord_mem (s : State) (core slot : Nat) (w : WG) (n : Node) (r : Nat) : (popRecord s core slot w n r).mem = s.mem := by
  simp [popRecord]
@[simp] theorem retryOne_mem (c sel : Nat) (s : State) (x : Nat × TrapCtx) : (retryOne c sel s x).mem = s.mem := by
  unfold retryOne
  split <;> rfl
@[simp] theorem skipOne_mem (c sel : Nat) (s : State) (x : Nat × TrapCtx) : (skipOne c sel s x).mem = s.mem := by simp [skipOne]
@[simp] theorem joinDie_mem (s : State) (ctx arr die size : Nat) : (joinDie s ctx arr die size).mem = s.mem := by
  unfold joinDie
  repeat' split
  all_goals rfl
@[simp] theorem placeOne_mem (s : State) (ctx : Nat) (l : Launch) (k : Kernel) (id c member : Nat) :
    (placeOne s ctx l k id c member).1.mem = s.mem := by
  unfold placeOne
  split <;> simp
@[simp] theorem placeIds_mem (s : State) (ctx : Nat) (l : Launch) (k : Kernel) (cores : List Nat) (ids : List Nat) :
    (placeIds s ctx l k cores ids).1.mem = s.mem := by
  refine foldl_fst_mem (fun x id => ?_) ids (s, [])
  dsimp only
  split <;> simp
@[simp] theorem restoreAt_mem (s : State) (ctx id : Nat) (m : Image) (c base : Nat) : (restoreAt s ctx id m c base).mem = s.mem := rfl
@[simp] theorem restoreAll_mem (ctx : Nat) (cores : List Nat) (l : List (Nat × Image)) (s : State) :
    (restoreAll ctx cores l s).1.mem = s.mem := by
  refine foldl_fst_mem (fun x m => ?_) l (s, [])
  dsimp only
  split
  · rfl
  · split <;> simp
@[simp] theorem setMembers_mem (s : State) (l : Launch) (cores : List Nat) (placed : List (Nat × Nat × Nat)) :
    (setMembers s l cores placed).mem = s.mem := by
  unfold setMembers
  split
  · rfl
  · exact foldl_mem (by intros; rfl) placed s
@[simp] theorem startOne_mem (s : State) (c base : Nat) : (startOne s c base).mem = s.mem := rfl
@[simp] theorem holdRecord_mem (s : State) (c i va : Nat) : (holdRecord s c i va).mem = s.mem := by
  unfold holdRecord
  split <;> simp
@[simp] theorem loseRecord_mem (s : State) (c sel i va : Nat) : (loseRecord s c sel i va).mem = s.mem := rfl
@[simp] theorem frameFault_mem (s : State) (c : Nat) (w : Walk) (pop : Nat) (slots : List Nat) : (frameFault s c w pop slots).mem = s.mem := by
  unfold frameFault
  split <;> rfl
@[simp] theorem walkAgain_mem (s : State) (c : Nat) (w : Walk) : (walkAgain s c w).mem = s.mem := rfl
@[simp] theorem walkWait_mem (s : State) (c ctx : Nat) (w : Walk) (i : Nat) (act : WalkAct) (pos : Pos) (va : Nat) (write : Bool) :
    (walkWait s c ctx w i act pos va write).mem = s.mem := by
  simp [walkWait]
@[simp] theorem withNode_mem (s : State) (c ctx f n nv : Nat) (w : Walk) (go : Node → State × List Walk) (hg : ∀ n, (go n).1.mem = s.mem) :
    (withNode s c ctx f n nv w go).1.mem = s.mem := by
  unfold withNode
  split
  · split <;> simp
  · simp
  · simp
  · exact hg _
@[simp] theorem arrive_mem (s : State) (c : Nat) (w : Walk) (slots : List Nat) (pos : Pos) (r : Option Reason) :
    (arrive s c w slots pos r).mem = s.mem := by
  simp [arrive]
@[simp] theorem splitWalks_mem (s : State) (c f n : Nat) (w : Walk) (gs : Groups) (stuck : List Nat) :
    (splitWalks s c f n w gs stuck).1.mem = s.mem := by
  unfold splitWalks
  dsimp only
  repeat' split
  all_goals simp
@[simp] theorem calltGroup_mem (s : State) (c ctx f n : Nat) (rec : Node) (w : Walk) : (calltGroup s c ctx f n rec w).1.mem = s.mem := by
  unfold calltGroup
  dsimp only
  rw [apply_ite Prod.fst, mem_ite]
  split
  · simp
  · refine (splitWalks_mem ..).trans ((foldl_fst_mem (fun x g => ?_) _ _).trans ?_)
    · obtain ⟨s, out, parks, stuck⟩ := x
      dsimp only
      split <;> simp
    · simp
@[simp] theorem enterNode_mem (s : State) (c : Nat) (w : Walk) (f n : Nat) : (enterNode s c w f n).1.mem = s.mem := by
  unfold enterNode
  split
  · rfl
  · extract_lets
    split
    · rfl
    · refine withNode_mem _ _ _ _ _ _ _ _ fun r => ?_
      split
      all_goals simp
@[simp] theorem leaveNode_mem (s : State) (c : Nat) (w : Walk) (f n : Nat) : (leaveNode s c w f n).1.mem = s.mem := by
  unfold leaveNode
  split
  · rfl
  · extract_lets
    rw [apply_ite Prod.fst, mem_ite]
    split
    · exact setCore_mem ..
    · split
      · exact setCore_mem ..
      · split
        · exact setCore_mem ..
        · refine (withNode_mem _ _ _ _ _ _ _ _ fun self => ?_).trans (setCore_mem ..)
          refine withNode_mem _ _ _ _ _ _ _ _ fun P => ?_
          split
          · split <;> rfl
          · exact updCore_mem ..
          · simp
          · rfl
@[simp] theorem addBind_mem (s : State) (ctx va c : Nat) (slots : List Nat) : (addBind s ctx va c slots).mem = s.mem := rfl
@[simp] theorem parkGroup_mem (s : State) (c f n : Nat) (why : Park) (w : Walk) : (parkGroup s c f n why w).mem = s.mem := by
  unfold parkGroup
  dsimp only
  repeat' split
  all_goals simp
@[simp] theorem placeNext_mem (s : State) (ctx : Nat) (l : Launch) (cores : List Nat) : (placeNext s ctx l cores).mem = s.mem := by
  unfold placeNext
  split <;> simp
@[simp] theorem losePage_mem (s : State) (core wg : Nat) (w : WG) (page : Nat) : (losePage s core wg w page).mem = s.mem := rfl
@[simp] theorem startCmd_mem (c : Nat) (x : Cmd) (s : State) : (startCmd c x s).mem = s.mem := rfl
@[simp] theorem fetchFatal_mem (s : State) (c sel ctx : Nat) (b : Batch) (va : Nat) :
    (fetchFatal s c sel ctx b va).mem = s.mem := by simp [fetchFatal]

end Sys2Proof.Machine
end

section
/-! ### Definitions that write off-chip memory keep its canonical form (log entry 2)

Every write goes through `memPut`, of one byte, or drops bytes that are listed; the others follow by composition. -/
set_option Elab.async false
namespace Sys2Proof.Machine

variable {s : State}

theorem foldl_wf {α : Type} {f : State → α → State} (hf : ∀ s a, s.mem.wf = true → (f s a).mem.wf = true) (l : List α) (h : s.mem.wf = true) :
    (l.foldl f s).mem.wf = true := by
  induction l generalizing s with
  | nil => exact h
  | cons a r ih => exact ih (hf s a h)
theorem ite_wf {p : Prop} [Decidable p] {s t : State} (hs : s.mem.wf = true) (ht : t.mem.wf = true) : (if p then s else t).mem.wf = true := by
  split
  · exact hs
  · exact ht
theorem foldl_fst_wf {α β : Type} {f : State × β → α → State × β} (hf : ∀ x a, x.1.mem.wf = true → (f x a).1.mem.wf = true) (l : List α)
    {x : State × β} (h : x.1.mem.wf = true) : (l.foldl f x).1.mem.wf = true := by
  induction l generalizing x with
  | nil => exact h
  | cons a r ih => exact ih (hf x a h)
theorem foldl_memPut_wf {α : Type} (l : List α) (a : α → Nat) (b : α → Byte) {m : Memory} (h : m.wf = true) :
    Memory.wf (l.foldl (fun m i => memPut m (a i) (b i)) m) = true := by
  induction l generalizing m with
  | nil => exact h
  | cons i r ih => exact ih (memPut_wf h _ _)

/-! #### Lines, places and accesses -/

@[simp] theorem cleanLine_wf (h : s.mem.wf = true) (line : Nat) (keep : Bool) : (cleanLine s line keep).mem.wf = true := by
  unfold cleanLine
  split
  · exact h
  · exact foldl_memPut_wf _ _ _ h
@[simp] theorem maintain_wf (h : s.mem.wf = true) (inval : Bool) (lv : Level) (p : Place) : (maintain s inval lv p).mem.wf = true := by
  unfold maintain
  split
  · split <;> simp [h]
  · exact h
@[simp] theorem mayEvict_wf (h : s.mem.wf = true) (line : Nat) : (mayEvict s line).mem.wf = true := by
  unfold mayEvict
  split
  · exact h
  · dsimp only
    split <;> simp [h]
@[simp] theorem touchLine_wf (h : s.mem.wf = true) (pa : Nat) (sn : Bool) : (touchLine s pa sn).mem.wf = true := by
  unfold touchLine
  split <;> simp [h]
@[simp] theorem touchPlace_wf (h : s.mem.wf = true) (p : Place) : (touchPlace s p).mem.wf = true := by
  unfold touchPlace
  split <;> simp [h]
@[simp] theorem offPut_wf (h : s.mem.wf = true) (pa : Nat) (sn : Bool) (b : Byte) : (offPut s pa sn b).mem.wf = true := by
  unfold offPut
  split
  · exact memPut_wf h pa b
  · split
    · exact h
    · exact memPut_wf h pa b
@[simp] theorem putByte_wf (h : s.mem.wf = true) (p : Place) (x : Byte) : (putByte s p x).mem.wf = true := by
  unfold putByte
  split <;> simp [h]
@[simp] theorem writeBytes_wf (h : s.mem.wf = true) (p : Place) (bs : List Byte) : (writeBytes s p bs).mem.wf = true := by
  induction bs generalizing s p with
  | nil => exact h
  | cons b r ih => exact ih (putByte_wf h p b) _
@[simp] theorem storeAt_wf (h : s.mem.wf = true) (p : Place) (bs : List Byte) : (storeAt s p bs).mem.wf = true := by
  simp [storeAt, h]
@[simp] theorem writePlace_wf (h : s.mem.wf = true) (p : Place) (bs : List Byte) : (writePlace s p bs).mem.wf = true :=
  storeAt_wf (touchPlace_wf h p) p bs
@[simp] theorem writeDirty_wf (h : s.mem.wf = true) (src dst : Place) (mask : BitVec 32) (n : Nat) :
    (writeDirty src dst mask n s).mem.wf = true := by
  induction n with
  | zero => exact h
  | succ n ih =>
    unfold writeDirty
    dsimp only
    split
    · exact putByte_wf ih _ _
    · exact ih
@[simp] theorem storeSys_wf (h : s.mem.wf = true) (ctx va : Nat) (bs : List Byte) : (storeSys s ctx va bs).mem.wf = true := by
  unfold storeSys
  split
  · dsimp only
    split
    · exact writePlace_wf h _ _
    · exact foldl_wf (fun _ _ h => cleanLine_wf h _ _) _ (writePlace_wf h _ _)
  · exact h
@[simp] theorem storeVA_wf (h : s.mem.wf = true) (ctx va : Nat) (bs : List Byte) : (storeVA s ctx va bs).mem.wf = true := by
  unfold storeVA
  split <;> simp [h]
@[simp] theorem writeVA_wf (h : s.mem.wf = true) (ctx : Nat) (va : Int) (bs : List Byte) : (writeVA s ctx va bs).mem.wf = true := by
  refine foldl_wf (fun s i h => ?_) _ h
  split <;> simp [h]
@[simp] theorem hostWriteVA_wf (h : s.mem.wf = true) (ctx va : Nat) (bs : List Byte) : (hostWriteVA s ctx va bs).mem.wf = true := by
  induction bs generalizing s va with
  | nil => exact h
  | cons b r ih =>
    refine ih ?_ _
    split
    · exact memPut_wf (cleanLine_wf h _ _) _ _
    · exact h
@[simp] theorem performLane_wf (h : s.mem.wf = true) (c : Nat) (k : PKind) (l : PLane) : (performLane s c k l).mem.wf = true := by
  unfold performLane
  dsimp only
  split
  · simp [h]
  · simp [h]
  · split <;> simp [h]
  · simp [h]
@[simp] theorem performAll_wf (h : s.mem.wf = true) (c : Nat) (k : PKind) (lanes : List PLane) : (performAll c k s lanes).mem.wf = true := by
  induction lanes generalizing s with
  | nil => exact h
  | cons l r ih => exact ih (performLane_wf h c k l)
@[simp] theorem touchAccess_wf (h : s.mem.wf = true) (k : PKind) (lanes : List PLane) : (touchAccess s k lanes).mem.wf = true := by
  unfold touchAccess
  split <;> simp [h]
@[simp] theorem performAccess_wf (h : s.mem.wf = true) (c : Nat) (k : PKind) (lanes : List PLane) :
    (performAccess s c k lanes).mem.wf = true := by
  unfold performAccess
  split <;> simp [h]
@[simp] theorem bumpAt_wf (h : s.mem.wf = true) (ctx : Nat) (p : Place) : (bumpAt s ctx p).mem.wf = true := by
  simp [bumpAt, h]
@[simp] theorem addOwn_wf (h : s.mem.wf = true) (ctx va n : Nat) : (addOwn s ctx va n).mem.wf = true := by
  unfold addOwn
  split
  · dsimp only
    split
    · exact writePlace_wf (touchPlace_wf h _) _ _
    · exact cleanLine_wf (writePlace_wf (touchPlace_wf h _) _ _) _ _
  · exact h
@[simp] theorem bumpCounter_wf (h : s.mem.wf = true) (ctx st va : Nat) : (bumpCounter s ctx st va).mem.wf = true := by
  unfold bumpCounter
  split
  · extract_lets
    split
    · exact writePlace_wf (touchPlace_wf h _) _ _
    · exact cleanLine_wf (writePlace_wf (touchPlace_wf h _) _ _) _ _
  · exact h
@[simp] theorem extAccess_wf (h : s.mem.wf = true) (pa : Nat) (op : ExtOp) : (extAccess s pa op).1.mem.wf = true := by
  unfold extAccess
  extract_lets
  split
  · exact h
  · exact writePlace_wf h _ _
  · dsimp only
    split
    · exact writePlace_wf h _ _
    · exact h

/-! #### Trace records -/

@[simp] theorem ringUnits_wf (h : s.mem.wf = true) (ctx : Nat) (us : List (List Byte)) (o : Nat) : (ringUnits ctx us o s).mem.wf = true := by
  induction us generalizing s o with
  | nil => exact h
  | cons u r ih => exact ih (storeSys_wf h _ _ _) _
@[simp] theorem rawRecord_wf (h : s.mem.wf = true) (c ctx : Nat) (burst : Bool) (us : List (List Byte)) :
    (rawRecord s c ctx burst us).mem.wf = true := by
  unfold rawRecord
  dsimp only
  split
  · split <;> simp [h]
  · exact h
@[simp] theorem syncAll_wf (h : s.mem.wf = true) (c ctx : Nat) (l : List (Nat × Entry)) : (syncAll c ctx l s).mem.wf = true := by
  induction l generalizing s with
  | nil => exact h
  | cons x r ih => exact ih (rawRecord_wf h _ _ _ _)
@[simp] theorem syncNow_wf (h : s.mem.wf = true) (c ctx : Nat) : (syncNow s c ctx).mem.wf = true := by
  unfold syncNow
  dsimp only
  split <;> simp [h]
@[simp] theorem burstIfDue_wf (h : s.mem.wf = true) (c ctx : Nat) : (burstIfDue s c ctx).mem.wf = true := by
  unfold burstIfDue
  split <;> simp [h]
@[simp] theorem lostNow_wf (h : s.mem.wf = true) (c ctx : Nat) : (lostNow s c ctx).mem.wf = true := by
  unfold lostNow
  split <;> simp [h]
@[simp] theorem traceDue_wf (h : s.mem.wf = true) (c ctx : Nat) : (traceDue s c ctx).mem.wf = true :=
  burstIfDue_wf (lostNow_wf (burstIfDue_wf h c ctx) c ctx) c ctx
@[simp] theorem emitTrace_wf (h : s.mem.wf = true) (c ctx ty sel body : Nat) (more : List (List Byte)) :
    (emitTrace s c ctx ty sel body more).mem.wf = true := by
  unfold emitTrace
  split <;> simp [h]
@[simp] theorem assayRecord_wf (h : s.mem.wf = true) (c : Nat) (x : Sample) : (assayRecord s c x).mem.wf = true := by
  simp [assayRecord, h]
@[simp] theorem sampleSweep_wf (h : s.mem.wf = true) (c : Nat) : (sampleSweep s c).mem.wf = true := by
  unfold sampleSweep
  dsimp only
  split
  · exact h
  · exact foldl_wf (fun _ _ h => assayRecord_wf h _ _) _ h
@[simp] theorem traceBatch_wf (h : s.mem.wf = true) (c ctx sel k : Nat) (e : Entry) (slots : List Nat) :
    (traceBatch s c ctx sel k e slots).mem.wf = true := by
  unfold traceBatch
  split <;> simp [h]
@[simp] theorem traceMark_wf (h : s.mem.wf = true) (c ctx x slot : Nat) (p : Pos) : (traceMark s c ctx x slot p).mem.wf = true := by
  unfold traceMark
  split <;> simp [h]
@[simp] theorem traceTrap_wf (h : s.mem.wf = true) (c ctx code slot : Nat) (p : Pos) : (traceTrap s c ctx code slot p).mem.wf = true :=
  emitTrace_wf h ..
@[simp] theorem traceTraps_wf (h : s.mem.wf = true) (c : Nat) (l : List (Nat × TrapInfo)) : (traceTraps c l s).mem.wf = true := by
  induction l generalizing s with
  | nil => exact h
  | cons x r ih =>
    unfold traceTraps
    dsimp only
    split
    · exact ih (traceTrap_wf h ..)
    · exact ih h
@[simp] theorem roomBack_wf (h : s.mem.wf = true) (ctx : Nat) : (roomBack s ctx).mem.wf = true := by
  unfold roomBack
  split
  · exact h
  · refine foldl_wf (fun s c h => ?_) _ h
    split <;> simp [h]

/-! #### Accesses that are performed -/

@[simp] theorem performNow_wf (h : s.mem.wf = true) (core : Nat) (p : Pend) (ready : List PLane) (before : List Pend) :
    (performNow s core p ready before).mem.wf = true := by
  unfold performNow
  dsimp only
  split <;> simp [h]
theorem performNew_wf (h : s.mem.wf = true) {c from0 : Nat} {t : State} (ht : performNew c from0 s = some t) : t.mem.wf = true := by
  unfold performNew at ht
  dsimp only at ht
  split at ht
  · cases ht
  · obtain rfl := Option.some.inj ht
    exact foldl_wf (fun s p h => by simp [h]) _ h
@[simp] theorem writeBack_wf (h : s.mem.wf = true) (core wg slot sector : Nat) : (writeBack s core wg slot sector).mem.wf = true := by
  unfold writeBack
  repeat' split
  all_goals simp [h]

/-! #### Page tables and bindings -/

@[simp] theorem unbindEntry_wf (h : s.mem.wf = true) (ctx lo n va : Nat) : (unbindEntry s ctx lo n va).mem.wf = true := by
  unfold unbindEntry
  split
  · exact h
  · dsimp only
    split <;> simp [h]
@[simp] theorem addPages_wf (h : s.mem.wf = true) (ctx : Nat) (maps : List PageMap) : (addPages s ctx maps).mem.wf = true :=
  foldl_wf (fun _ _ h => unbindEntry_wf h ..) _ h
@[simp] theorem answerBind_wf (h : s.mem.wf = true) (ctx : Nat) (b : Binding) (fn : Nat) : (answerBind s ctx b fn).mem.wf = true := by
  unfold answerBind
  split
  · rw [foldl_mem (by simp), dropBind_mem]
    split <;> simp [h]
  · split <;> simp [h]
  · simp [h]
@[simp] theorem resolveBind_wf (h : s.mem.wf = true) (ctx va : Nat) (ok : Bool) : (resolveBind s ctx va ok).mem.wf = true := by
  unfold resolveBind
  repeat' split
  all_goals simp [h]
@[simp] theorem resolve_wf (h : s.mem.wf = true) (ctx : Nat) (ok : Bool) (w : Waiter) : (resolve ctx ok s w).mem.wf = true := by
  unfold resolve
  repeat' split
  all_goals simp [h]

/-! #### Engines -/

@[simp] theorem closeBulk_wf (h : s.mem.wf = true) (x : Bulk) : (closeBulk s x).mem.wf = true := by
  unfold closeBulk
  dsimp only
  repeat' split
  all_goals simp [h]
@[simp] theorem moveLines_wf (h : s.mem.wf = true) (x : Bulk) (k : Nat) : (moveLines s x k).mem.wf = true := by
  refine (congrArg _ (countSpans_mem ..)).trans (foldl_wf (fun s y h => ?_) _ h)
  dsimp only
  split
  · split <;> simp [h]
  · exact h
@[simp] theorem moveBulk_wf (h : s.mem.wf = true) (x : Bulk) (k : Nat) : (moveBulk s x k).mem.wf = true := by
  unfold moveBulk
  split <;> simp [h]
theorem ctrOf_later_mem {c : Nat} {x : Cmd} {t : State} (h : ctrOf s c x = .later t) : t.mem = s.mem := by
  unfold ctrOf at h
  repeat' split at h
  all_goals cases h
  all_goals rfl
@[simp] theorem endCmd_wf (h : s.mem.wf = true) (c : Nat) (x : Cmd) (ctr : Option Place) : (endCmd s c x ctr).mem.wf = true := by
  unfold endCmd
  repeat' split
  all_goals simp [h]
@[simp] theorem closeCmd_wf (h : s.mem.wf = true) (c : Nat) (x : Cmd) : (closeCmd s c x).mem.wf = true := by
  unfold closeCmd
  extract_lets x s1
  have h1 : s1.mem.wf = true := by simp [s1, h]
  split
  · simp [h1]
  · next ht => simp [ctrOf_later_mem ht, h1]
  · simp [h1]
  · simp [h1]
@[simp] theorem writeImage_wf (h : s.mem.wf = true) (c : Nat) (x : Cmd) (w : WG) (sh : Shape) (cs : List Int) (dst pitch k : Nat) :
    (writeImage s c x w sh cs dst pitch k).mem.wf = true :=
  foldl_wf (fun _ _ h => writeBytes_wf h _ _) _ h
@[simp] theorem moveImage_wf (h : s.mem.wf = true) (c : Nat) (x : Cmd) (w : WG) (sh : Shape) (cs : List Int) (dst pitch k : Nat) :
    (moveImage s c x w sh cs dst pitch k).mem.wf = true := by
  unfold moveImage
  dsimp only
  split <;> simp [h]
@[simp] theorem writeStore_wf (h : s.mem.wf = true) (c : Nat) (x : Cmd) (sh : Shape) (cs : List Int) (src pitch k : Nat) :
    (writeStore s c x sh cs src pitch k).mem.wf = true :=
  foldl_wf (fun _ _ h => writeVA_wf h _ _ _) _ h
@[simp] theorem moveStore_wf (h : s.mem.wf = true) (c : Nat) (x : Cmd) (sh : Shape) (cs : List Int) (src pitch k : Nat) :
    (moveStore s c x sh cs src pitch k).mem.wf = true := by
  unfold moveStore
  dsimp only
  split <;> simp [h]
@[simp] theorem mergeMax_wf (h : s.mem.wf = true) (amax : Option Place) (top : Option Nat) : (mergeMax s amax top).mem.wf = true := by
  unfold mergeMax
  split <;> simp [h]
@[simp] theorem rowWrite_wf (h : s.mem.wf = true) (ps : List Place) (x : Nat) : (rowWrite s ps x).mem.wf = true := by
  induction ps generalizing s x with
  | nil => exact h
  | cons p r ih => exact ih (writePlace_wf h _ _) _
@[simp] theorem rowEffects_wf (h : s.mem.wf = true) (c : Nat) (j : Job) (width : Nat) (ok : List (Nat × List Place)) :
    (rowEffects s c j width ok).mem.wf = true := by
  unfold rowEffects
  dsimp only
  split
  · rw [settleRows_mem]
    exact foldl_wf (fun _ _ h => rowWrite_wf h _ _) _ h
  · exact h
  · exact h
@[simp] theorem readOut_wf (h : s.mem.wf = true) (c : Nat) (w : WG) (k : Crew) (j : Job) : (readOut s c w k j).mem.wf = true := by
  unfold readOut
  dsimp only
  repeat' split
  all_goals simp [h]

/-! #### Launches and workgroups -/

@[simp] theorem retireRecord_wf (h : s.mem.wf = true) (c ctx : Nat) (w : WG) : (retireRecord s c ctx w).mem.wf = true := by
  unfold retireRecord
  refine emitTrace_wf ?_ ..
  repeat' split
  all_goals simp [h]
@[simp] theorem dropImages_wf (h : s.mem.wf = true) (ctx arr : Nat) : (dropImages s ctx arr).mem.wf = true :=
  foldl_wf (fun _ _ h => by simp [h]) _ h
@[simp] theorem completeLaunch_wf (h : s.mem.wf = true) (ctx arr : Nat) : (completeLaunch s ctx arr).mem.wf = true := by
  unfold completeLaunch
  split
  · exact h
  · split
    · exact h
    · split
      · simp [h]
      · exact foldl_wf (fun _ _ h => bumpCounter_wf h ..) _ (foldl_wf (fun _ _ h => addOwn_wf h ..) _ h)
@[simp] theorem tryComplete_wf (h : s.mem.wf = true) (ctx arr : Nat) : (tryComplete s ctx arr).mem.wf = true := by
  unfold tryComplete
  split
  · exact h
  · split <;> simp [h]
@[simp] theorem finishLaunch_wf (h : s.mem.wf = true) (ctx arr code : Nat) : (finishLaunch s ctx arr code).mem.wf = true := by
  simp [finishLaunch, h]
@[simp] theorem loseLaunch_wf (h : s.mem.wf = true) (ctx : Nat) (l : Launch) (va : Nat) : (loseLaunch s ctx l va).mem.wf = true :=
  finishLaunch_wf (by simp [h]) ..
@[simp] theorem checkWaits_wf (h : s.mem.wf = true) (ctx : Nat) (l : Launch) : (checkWaits s ctx l).mem.wf = true := by
  unfold checkWaits
  dsimp only
  repeat' split
  all_goals simp [h]
@[simp] theorem needPage_wf (h : s.mem.wf = true) (ctx : Nat) (l : Launch) (va : Nat) : (needPage s ctx l va).mem.wf = true := by
  unfold needPage
  split <;> simp [h]
@[simp] theorem cancelLaunch_wf (h : s.mem.wf = true) (ctx : Nat) (l : Launch) : (cancelLaunch s ctx l).mem.wf = true := by
  unfold cancelLaunch
  extract_lets s1 here s2 s3 s4 s5 s6
  have h1 : s1.mem.wf = true := by
    simp only [s1]
    split <;> simp [h]
  have h2 : s2.mem.wf = true := foldl_wf (fun _ _ h => by simp [h]) _ h1
  have h4 : s4.mem.wf = true := dropImages_wf (by simp [s3, h2]) ..
  exact tryComplete_wf (by simp [s6, s5, h4]) ..
@[simp] theorem cancelAll_wf (h : s.mem.wf = true) (ctx : Nat) (p : Launch → Bool) : (cancelAll s ctx p).mem.wf = true :=
  foldl_wf (fun _ _ h => cancelLaunch_wf h ..) _ h
@[simp] theorem faultLog_wf (h : s.mem.wf = true) (ctx : Nat) (bs : List Byte) : (faultLog s ctx bs).mem.wf = true := by
  unfold faultLog
  extract_lets
  rw [mem_ite]
  split
  · exact h
  · rw [sendMsix_mem, updCtx_mem]
    exact storeSys_wf h ..
@[simp] theorem faultLogs_wf (h : s.mem.wf = true) (ctx : Nat) (l : List (List Byte)) : (faultLogs s ctx l).mem.wf = true := by
  unfold faultLogs
  induction l generalizing s with
  | nil => exact h
  | cons b r ih =>
    rw [List.foldl_cons]
    exact ih (faultLog_wf h ctx b)
@[simp] theorem killWG_wf (h : s.mem.wf = true) (c base : Nat) (l : List (List Byte)) : (killWG s c base l).mem.wf = true := by
  unfold killWG
  split <;> simp [h]
@[simp] theorem retireWG_wf (h : s.mem.wf = true) (c base : Nat) (retired : Bool) : (retireWG s c base retired).mem.wf = true := by
  unfold retireWG
  split <;> simp [h]
@[simp] theorem discardOne_wf (h : s.mem.wf = true) (c base : Nat) : (discardOne s c base).mem.wf = true := by
  unfold discardOne
  split <;> simp [h]
@[simp] theorem writeImageBytes_wf (h : s.mem.wf = true) (ctx : Nat) (m : Image) : (writeImageBytes s ctx m).mem.wf = true :=
  writeVA_wf h ..
@[simp] theorem saveOne_wf (h : s.mem.wf = true) (c base : Nat) (swapped halted : Bool) : (saveOne s c base swapped halted).1.mem.wf = true := by
  unfold saveOne
  split <;> simp [h]
@[simp] theorem saveAll_wf (h : s.mem.wf = true) (l : List (Nat × Nat)) (swapped halted : Bool) : (saveAll l swapped halted s).1.mem.wf = true :=
  foldl_fst_wf (fun x y h => by exact saveOne_wf h y.1 y.2 swapped halted) l (x := (s, ([] : List Nat))) h
@[simp] theorem leaveOne_wf (h : s.mem.wf = true) (c base : Nat) (halted : Bool) : (leaveOne s c base halted).mem.wf = true := by
  unfold leaveOne
  repeat' split
  all_goals simp [h]
@[simp] theorem resumeAll_wf (h : s.mem.wf = true) (c sel : Nat) (form : ResumeForm) (l : List (Nat × Nat)) :
    (resumeAll s c sel form l).mem.wf = true := by
  unfold resumeAll
  split
  · exact foldl_wf (fun _ _ h => by simp [h]) _ (by simp [h])
  · exact foldl_wf (fun _ _ h => by simp [h]) _ (by simp [h])
  · exact h
  · exact foldl_wf (fun _ _ h => killWG_wf h ..) _ h
@[simp] theorem wakeHalts_wf (h : s.mem.wf = true) (c base : Nat) (m : Image) : (wakeHalts s c base m).mem.wf = true := by
  unfold wakeHalts
  split
  · exact h
  · extract_lets
    split
    · split
      · exact h
      · exact foldl_wf (fun _ _ h => resumeAll_wf h ..) _ h
    · exact resumeAll_wf h ..
@[simp] theorem restoreOn_wf (h : s.mem.wf = true) (ctx : Nat) (m : Image) (cores : List Nat) : (restoreOn s ctx m cores).mem.wf = true := by
  unfold restoreOn
  dsimp only
  refine foldl_wf (fun _ _ h => wakeHalts_wf h ..) _ ?_
  split
  · rw [mem_ite, updLaunch_mem, ite_self, foldl_mem (by simp)]
    simp [h]
  · simp [h]

/-! #### Trap records and frames -/

@[simp] theorem writeRecord_wf (h : s.mem.wf = true) (c : Nat) (x : Nat × TrapInfo) : (writeRecord s c x).mem.wf = true := by
  unfold writeRecord
  split <;> simp [h]
@[simp] theorem writeRecords_wf (h : s.mem.wf = true) (c : Nat) (l : List (Nat × TrapInfo)) : (writeRecords c l s).mem.wf = true := by
  induction l generalizing s with
  | nil => exact h
  | cons x r ih => exact ih (writeRecord_wf h c x)
@[simp] theorem haltGroup_wf (h : s.mem.wf = true) (c : Nat) (g : TrapGroup) (l : List (Nat × TrapInfo)) :
    (haltGroup s c g l).mem.wf = true := by
  unfold haltGroup
  split <;> simp [h]
@[simp] theorem killFirst_wf (h : s.mem.wf = true) (c : Nat) (l : List (Nat × (Nat × TrapInfo))) : (killFirst c l s).mem.wf = true := by
  induction l generalizing s with
  | nil => exact h
  | cons x r ih => exact ih (killWG_wf h ..)
@[simp] theorem runGroup_wf (h : s.mem.wf = true) (c : Nat) (g : TrapGroup) (l : List (Nat × TrapInfo)) (handler : Nat) :
    (runGroup s c g l handler).mem.wf = true := by
  simp [runGroup, h]
@[simp] theorem deliverGroup_wf (h : s.mem.wf = true) (c : Nat) (g : TrapGroup) : (deliverGroup s c g).mem.wf = true := by
  unfold deliverGroup
  extract_lets co items debug rest bare own lost waits s1 s2 s3
  have h2 : s2.mem.wf = true := haltGroup_wf (by simp [s1, h]) ..
  have h3 : s3.mem.wf = true := by
    clear_value own
    simp only [s3]
    split <;> simp [h2]
  refine ite_wf h (ite_wf h (ite_wf ?_ (ite_wf ?_ ?_)))
  · exact foldl_wf (fun _ _ h => by simp [h]) _ h
  · exact foldl_wf (fun _ _ h => by simp [h]) _ h
  · simp [h3]
@[simp] theorem pushFrame_wf (h : s.mem.wf = true) (c f n g m : Nat) (w : Walk) (i : Nat) : (pushFrame s c f n g m w i).1.mem.wf = true := by
  unfold pushFrame
  dsimp only
  repeat' split
  all_goals simp [h]
@[simp] theorem pushFrames_wf (h : s.mem.wf = true) (c f n g m : Nat) (w : Walk) (l : List Nat) :
    (pushFrames c f n g m w s l).1.mem.wf = true := by
  induction l generalizing s with
  | nil => exact h
  | cons i r ih => exact ih (pushFrame_wf h ..)
@[simp] theorem callFrames_wf (h : s.mem.wf = true) (c f n g m : Nat) (w : Walk) (l : List Nat) :
    (callFrames s c f n g m w l).1.mem.wf = true := by
  simp [callFrames, h]
theorem withNode_wf (h : s.mem.wf = true) (c ctx f n nv : Nat) (w : Walk) {go : Node → State × List Walk} (hg : ∀ r, (go r).1.mem.wf = true) :
    (withNode s c ctx f n nv w go).1.mem.wf = true := by
  unfold withNode
  split
  · split <;> simp [h]
  · simp [h]
  · simp [h]
  · exact hg _
@[simp] theorem callGroup_wf (h : s.mem.wf = true) (c f n g m : Nat) (w : Walk) : (callGroup s c f n g m w).1.mem.wf = true := by
  unfold callGroup
  extract_lets
  split
  · simp [h]
  · exact withNode_wf h _ _ _ _ _ _ fun _ => callFrames_wf (by simp [h]) ..
@[simp] theorem retGroup_wf (h : s.mem.wf = true) (c : Nat) (w : Walk) : (retGroup s c w).1.mem.wf = true := by
  unfold retGroup
  extract_lets co base low trapped s1 s2 read
  have h2 : s2.mem.wf = true := by simp [s2, s1, h]
  refine (congrArg _ (frameFault_mem ..)).trans (foldl_fst_wf (fun x i h => ?_) _ h2)
  obtain ⟨s, ok, bad⟩ := x
  simp only [read]
  repeat' split
  all_goals simp_all
@[simp] theorem walkOne_wf (h : s.mem.wf = true) (c : Nat) (w : Walk) : (walkOne s c w).1.mem.wf = true := by
  unfold walkOne
  split <;> simp [h]
@[simp] theorem walkRun_wf (h : s.mem.wf = true) (k c : Nat) (l : List Walk) : (walkRun k s c l).mem.wf = true := by
  induction k generalizing s l with
  | zero => exact h
  | succ k ih =>
    cases l with
    | nil => exact h
    | cons w r => exact ih (walkOne_wf h c w) _

/-! #### Words, queues and batches -/

@[simp] theorem enqueue_wf (h : s.mem.wf = true) (ctx q : Nat) (rec : BitVec 256) : (enqueue s ctx q rec).2.mem.wf = true := by
  unfold enqueue
  dsimp only
  repeat' split
  all_goals simp [h]
@[simp] theorem popFor_wf (h : s.mem.wf = true) (core slot : Nat) (w : WG) (n : Node) : (popFor s core slot w n).mem.wf = true := by
  unfold popFor
  dsimp only
  repeat' split
  all_goals simp [h]
@[simp] theorem formBatch_wf (h : s.mem.wf = true) (c sel k : Nat) (e : Entry) (l : List Nat) : (formBatch s c sel k e l).mem.wf = true := by
  unfold formBatch
  dsimp only
  repeat' split
  all_goals simp [h]
@[simp] theorem selectAll_wf (h : s.mem.wf = true) (c : Nat) (l taken : List Nat) : (selectAll c l s taken).mem.wf = true := by
  induction l generalizing s taken with
  | nil => exact h
  | cons sel r ih =>
    unfold selectAll
    dsimp only
    split
    · exact ih h _
    · split
      · exact ih h _
      · exact ih (formBatch_wf h ..) _

/-! #### Power and time -/

@[simp] theorem atPowerOn_wf (h : s.mem.wf = true) (p : Power) : (atPowerOn s p).mem.wf = true := filter_wf h _
theorem wf_of_bootClass (h : s.mem.wf = true) {cls : Nat} {t : State} {slot : Option Nat} (e : bootClass s cls = (t, slot)) :
    t.mem.wf = true := by
  have hm := bootClass_mem s cls
  rw [e] at hm
  exact hm ▸ h
@[simp] theorem boot_wf (h : s.mem.wf = true) : (boot s).mem.wf = true := by
  unfold boot
  rcases e1 : bootClass s 1 with ⟨s1, a⟩
  rcases e2 : bootClass s1 2 with ⟨s2, b⟩
  rcases e3 : bootClass s2 3 with ⟨s3, c⟩
  have h3 : s3.mem.wf = true := wf_of_bootClass (wf_of_bootClass (wf_of_bootClass h e1) e2) e3
  simp only [e2, e3]
  refine ite_wf h3 ?_
  split <;> exact filter_wf h3 _
@[simp] theorem beginTick_wf (h : s.mem.wf = true) : (beginTick s).mem.wf = true := by
  unfold beginTick
  extract_lets s1 due s2 ins s3
  have h2 : s2.mem.wf = true := by
    simp only [s2, s1]
    split <;> exact h
  split
  · split
    · exact h2
    · exact foldl_wf (fun _ _ h => sampleSweep_wf h _) _ h2
  · exact h2
  · exact h2

end Sys2Proof.Machine
end

section
/-! ### Instruction words keep off-chip memory canonical

A word's issue threads the state through its lanes, its effect on them and its executing lane. -/
set_option Elab.async false
namespace Sys2Proof.Machine

variable {s : State}

/-- The state of an answer, where it has one, holds canonical memory. -/
structure OutWf (o : Out) : Prop where
  mem : ∀ t, o = .next t → t.mem.wf = true
/-- The state that a lane leaves, where it completes, holds canonical memory. -/
structure LaneWf {α : Type} (x : L (α × State)) : Prop where
  mem : ∀ a t, x = .ok (a, t) → t.mem.wf = true

@[simp] theorem outWf_next {t : State} : OutWf (.next t) ↔ t.mem.wf = true :=
  ⟨fun h => h.mem t rfl, fun h => ⟨fun _ e => Host.Outcome.next.inj e ▸ h⟩⟩
@[simp] theorem outWf_fault (f : Fault) : OutWf (.fault f) := ⟨fun _ h => nomatch h⟩
@[simp] theorem outWf_refused (f : Refusal) : OutWf (.refused f) := ⟨fun _ h => nomatch h⟩

theorem laneWf_ok {α : Type} {a : α} (h : s.mem.wf = true) : LaneWf (.ok (a, s)) :=
  ⟨fun _ _ e => (Prod.mk.inj (Except.ok.inj e)).2 ▸ h⟩
theorem laneWf_error {α : Type} (b : Bar) : LaneWf (.error b : L (α × State)) := ⟨fun _ _ h => nomatch h⟩
/-- A part of a lane that yields a value. -/
theorem laneWf_bind {α β : Type} {x : L β} {f : β → L (α × State)} (hf : ∀ v, LaneWf (f v)) : LaneWf (x >>= f) := by
  cases x with
  | error b => exact laneWf_error b
  | ok v => exact hf v
/-- A part of a lane that yields a value and a state. -/
theorem laneWf_bind_state {α β : Type} {x : L (β × State)} {f : β × State → L (α × State)} (hx : LaneWf x)
    (hf : ∀ b t, t.mem.wf = true → LaneWf (f (b, t))) : LaneWf (x >>= f) := by
  rcases x with b | ⟨b, t⟩
  · exact laneWf_error b
  · exact hf b t (hx.mem b t rfl)
/-- A check that is made in some states alone, before the rest of a lane. -/
theorem laneWf_check {α β : Type} {p : Prop} [Decidable p] {x : L β} {y : L (α × State)} (hy : LaneWf y) :
    LaneWf (if p then x >>= fun _ => y else y) := by
  split
  · exact laneWf_bind fun _ => hy
  · exact hy
theorem pureLane_wf (h : s.mem.wf = true) (f : Env → Nat → Thread → L LaneOut) (e : Env) (i : Nat) (t : Thread) : LaneWf (pureLane f e s i t) :=
  laneWf_bind fun _ => laneWf_ok h

/-- What a word's lanes, its effect on the lanes that completed, and the effect of its executing lane must keep. -/
structure WordWf (p : WordSpec) (lane : Lane) (post : Env → List (Nat × LaneOut) → State → State) : Prop where
  lane : ∀ e s i t, s.mem.wf = true → LaneWf (lane e s i t)
  post : ∀ e l s, s.mem.wf = true → (post e l s).mem.wf = true
  once : ∀ f, p.once = some f → ∀ e i o s, s.mem.wf = true → (f e i o s).mem.wf = true

theorem runLanes_wf {lane : Lane} (hl : ∀ e s i t, s.mem.wf = true → LaneWf (lane e s i t)) (e : Env) (l : List Nat) (h : s.mem.wf = true) :
    (runLanes lane e s l).2.mem.wf = true := by
  induction l generalizing s with
  | nil => exact h
  | cons i r ih =>
    unfold runLanes
    split
    · next o t ht => exact ih ((hl e s i _ h).mem o t ht)
    · exact ih h

/-- R90: the issue of a word keeps the canonical form where its lanes and its effects do. -/
theorem issueWord_wf {p : WordSpec} {lane : Lane} {post : Env → List (Nat × LaneOut) → State → State} (hw : WordWf p lane post)
    (h : s.mem.wf = true) : OutWf (issueWord s p lane post) := by
  unfold issueWord
  split
  · simp [h]
  · next e _ =>
    extract_lets parts illegal passed live idle all
    have hr : (runLanes lane e s live).2.mem.wf = true := runLanes_wf hw.lane e live h
    generalize runLanes lane e s live = x at hr ⊢
    obtain ⟨res, t⟩ := x
    split
    · simp [h]
    · split
      · simp [h]
      · dsimp only
        split
        · split <;> simp [h]
        · split
          · simp [h]
          · split <;> simp [h]
        · simp [h]
        · split
          · simp [h]
          · rw [outWf_next, settle_mem]
            split
            · next hf _ _ =>
              exact ite_wf (hw.post _ _ _ (by simpa using hr)) (hw.once _ hf _ _ _ _ (hw.post _ _ _ (by simpa using hr)))
            · exact hw.post _ _ _ (by simpa using hr)

/-- A word of lanes that leave the state, without an effect of the executing lane. -/
theorem pureWord_wf {p : WordSpec} {f : Env → Nat → Thread → L LaneOut} {post : Env → List (Nat × LaneOut) → State → State} (hp : p.once = none)
    (hpost : ∀ e l s, s.mem.wf = true → (post e l s).mem.wf = true) : WordWf p (pureLane f) post :=
  ⟨fun e _ i t h => pureLane_wf h f e i t, hpost, fun f hf => by rw [hp] at hf; cases hf⟩
theorem noPost_wf (e : Env) (l : List (Nat × LaneOut)) (s : State) (h : s.mem.wf = true) : (noPost e l s).mem.wf = true := h
/-- A word that changes its threads and its destination alone. -/
theorem plainWord_wf {p : WordSpec} {f : Env → Nat → Thread → L LaneOut} (hp : p.once = none) (h : s.mem.wf = true) :
    OutWf (issueWord s p (pureLane f) noPost) :=
  issueWord_wf (pureWord_wf hp noPost_wf) h
/-- A word of lanes that leave the state, whose executing lane alone has an effect. -/
theorem onceWord_wf {p : WordSpec} {f : Env → Nat → Thread → L LaneOut} {post : Env → List (Nat × LaneOut) → State → State}
    (hpost : ∀ e l s, s.mem.wf = true → (post e l s).mem.wf = true)
    (hp : ∀ f, p.once = some f → ∀ e i o s, (f e i o s).mem = s.mem) (h : s.mem.wf = true) : OutWf (issueWord s p (pureLane f) post) :=
  issueWord_wf ⟨fun e _ i t h => pureLane_wf h f e i t, hpost, fun f hf e i o s h => (congrArg Memory.wf (hp f hf e i o s)).trans h⟩ h

theorem markSticky_wf (e : Env) (l : List (Nat × LaneOut)) (s : State) (h : s.mem.wf = true) : (markSticky e l s).mem.wf = true := h
theorem issueAccesses_wf (g : Guard) (x : PendSpec) (e : Env) (l : List (Nat × LaneOut)) (s : State) (h : s.mem.wf = true) :
    (issueAccesses g x e l s).mem.wf = true := by
  simp [h]

/-! #### The common shapes of words -/

theorem runAlu_wf (h : s.mem.wf = true) (a : Alu) (f : Env → Thread → List Nat → L (Nat × Thread)) : OutWf (runAlu s a f) := plainWord_wf rfl h
theorem runPred_wf (h : s.mem.wf = true) (g : Guard) (p : Nat) (srcs : List Src) (f : Env → Thread → List Nat → Bool × Thread) :
    OutWf (runPred s g p srcs f) := plainWord_wf rfl h
theorem runAff_wf (h : s.mem.wf = true) (g : Guard) (d : Nat) (srcs : List Src) (f : (Nat → Word64) → List Nat → Nat × Nat) :
    OutWf (runAff s g d srcs f) := plainWord_wf rfl h
theorem runAval_wf (h : s.mem.wf = true) (g : Guard) (d : Code) (f : Word64 → Nat → Nat) (r : Nat) :
    OutWf (runAval s g d f r) := plainWord_wf rfl h
theorem runM_wf (h : s.mem.wf = true) (x : MWord) (f : Thread → List Nat → L (Nat × Thread)) : OutWf (runM s x f) := plainWord_wf rfl h
theorem runX_wf (h : s.mem.wf = true) (g : Guard) (srcs : List Src) (f : Thread → List Nat → L Thread) :
    OutWf (runX s g srcs f) := plainWord_wf rfl h
theorem runControl_wf (h : s.mem.wf = true) (g : Guard) (f : Env → Thread → L Unit) {post : Env → List Nat → State → State}
    (hp : ∀ e l s, (post e l s).mem = s.mem) : OutWf (runControl s g f post) :=
  issueWord_wf (pureWord_wf rfl fun e _ s h => ite_wf h ((congrArg Memory.wf (hp e _ s)).trans h)) h
theorem runLeave_wf (h : s.mem.wf = true) (g : Guard) (k : Nat) (body : Bool) : OutWf (runLeave s g k body) := by
  refine runControl_wf (by simp [h]) g _ fun e l s => ?_
  split <;> simp
theorem accLane_wf (h : s.mem.wf = true) (a : MAddr) (x : Acc) (data : Env → Nat → Thread → L (List Nat × Bool))
    (dst : Env → Thread → L (List Reg × Bool)) (mk : List Nat → Nat × Nat) (e : Env) (i : Nat) (t : Thread) :
    LaneWf (accLane a x data dst mk e s i t) := by
  unfold accLane
  refine laneWf_bind fun _ => laneWf_bind fun _ => ?_
  dsimp only
  split
  · exact laneWf_bind fun _ => laneWf_ok h
  · refine laneWf_bind fun _ => laneWf_bind fun _ => laneWf_bind fun _ => ?_
    split
    · exact laneWf_error _
    · exact laneWf_bind fun _ => laneWf_ok h
theorem runAtomic_wf (h : s.mem.wf = true) (g : Guard) (minor : Nat) (d : Code) (a : MAddr) (nr : Bool) (ty : FTy) :
    OutWf (runAtomic s g minor d a nr ty) :=
  issueWord_wf ⟨fun _ _ _ _ h => accLane_wf h .., issueAccesses_wf g _, fun _ hf => nomatch hf⟩ h
theorem runMaint_wf (h : s.mem.wf = true) (g : Guard) (base : Code) (off : Int) (inval : Bool) (lv : Level) :
    OutWf (runMaint s g base off inval lv) := by
  refine issueWord_wf ⟨fun e s i t h => ?_, issueAccesses_wf g _, fun _ hf => nomatch hf⟩ h
  exact laneWf_bind_state (accLane_wf h ..) fun _ _ h => laneWf_ok h
theorem runRegion_wf (h : s.mem.wf = true) (g : Guard) (slot : Option Nat) (wb : Bool) (act : WG → WG) : OutWf (runRegion s g slot wb act) := by
  unfold runRegion
  dsimp only
  refine issueWord_wf ⟨fun e s i t h => ?_, fun e l s h => ?_, fun _ hf => nomatch hf⟩ h
  · split
    · exact laneWf_ok h
    · split
      · exact laneWf_error _
      · split
        · exact laneWf_bind fun _ => laneWf_ok h
        · exact laneWf_ok h
  · split
    · exact h
    · exact ite_wf h h
theorem runMatrix_wf (h : s.mem.wf = true) (i : Instr) (spec : WordSpec) (extra : Env → Nat → Thread → L Nat) (legal : Env → Bool)
    (hs : spec.once = none) : OutWf (runMatrix s i spec extra legal) := by
  unfold runMatrix
  dsimp only
  refine issueWord_wf ⟨fun e s j t h => ?_, fun e l s h => ?_, fun f hf => ?_⟩ h
  · split
    · exact laneWf_error _
    · refine laneWf_bind fun _ => laneWf_bind fun _ => ?_
      split
      · exact laneWf_ok h
      · split
        · exact laneWf_error _
        · split
          · exact laneWf_error _
          · split
            · exact laneWf_error _
            · exact laneWf_ok h
  · split
    · split
      · split <;> simp [h]
      · exact h
    · exact ite_wf h (by simp [h])
  · rw [hs] at hf
    cases hf
theorem runEngine_wf (h : s.mem.wf = true) (spec : WordSpec) (check : Env → Thread → L Unit) (full : Env → Bool)
    (mk : Env → State → Nat → Thread → L Cmd) (reads : Env → State → Nat → Thread → List Place) :
    OutWf (runEngine s spec check full mk reads) := by
  unfold runEngine
  dsimp only
  refine issueWord_wf ⟨fun e s i t h => ?_, fun e l s h => ?_, fun f hf e i o s h => ?_⟩ h
  · refine laneWf_check ?_
    split
    · exact laneWf_ok h
    · split
      · exact laneWf_error _
      · exact laneWf_bind fun _ => laneWf_ok h
  · split
    · exact h
    · exact ite_wf h (by simp [h])
  · obtain rfl := Option.some.inj hf
    dsimp only
    split <;> simp [h]
theorem recordRegs_wf (h : s.mem.wf = true) (e : Env) (i : Nat) (t : Thread) : LaneWf (recordRegs e s i t) :=
  laneWf_bind fun _ => laneWf_ok h
theorem runResume_wf (h : s.mem.wf = true) (g : Guard) (back : Bool) {go : Env → List (Nat × Nat) → State → State}
    (hg : ∀ e l s, s.mem.wf = true → (go e l s).mem.wf = true) : OutWf (runResume s g back go) := by
  refine issueWord_wf ⟨fun e s i t h => ?_, fun e l s h => ite_wf h (hg _ _ _ h), fun _ hf => nomatch hf⟩ h
  dsimp only
  split
  · exact laneWf_error _
  · split
    · exact laneWf_error _
    · exact laneWf_bind_state (recordRegs_wf h ..) fun _ _ h => laneWf_ok h

/-! #### Words with a shape of their own -/

theorem execRep_wf (h : s.mem.wf = true) (g : Guard) (n xmask : Nat) : OutWf (execRep g n xmask s) := by
  unfold execRep
  split
  · simp [h]
  · split
    · simp [h]
    · split
      · split <;> simp [h]
      · simp [h]
      · split
        · simp [h]
        · exact plainWord_wf rfl h
theorem execDone_wf (h : s.mem.wf = true) (g : Guard) : OutWf (execDone g s) := runControl_wf h _ _ fun _ _ _ => rfl
theorem execEnrol_wf (h : s.mem.wf = true) (g : Guard) (k : Nat) : OutWf (execEnrol g k s) := runControl_wf h _ _ fun _ _ _ => by simp
theorem execStrike_wf (h : s.mem.wf = true) (g : Guard) (k : Nat) : OutWf (execStrike g k s) := runControl_wf h _ _ fun _ _ _ => by simp
theorem execRet_wf (h : s.mem.wf = true) (g : Guard) : OutWf (execRet g s) := runControl_wf h _ _ fun _ _ _ => by simp
theorem execLd_wf (h : s.mem.wf = true) (g : Guard) (d : Data) (a : MAddr) : OutWf (execLd g d a s) :=
  issueWord_wf ⟨fun _ _ _ _ h => accLane_wf h .., issueAccesses_wf g _, fun _ hf => nomatch hf⟩ h
theorem execSt_wf (h : s.mem.wf = true) (g : Guard) (d : Data) (a : MAddr) : OutWf (execSt g d a s) :=
  issueWord_wf ⟨fun _ _ _ _ h => accLane_wf h .., issueAccesses_wf g _, fun _ hf => nomatch hf⟩ h
theorem execSpmap_wf (h : s.mem.wf = true) (g : Guard) (slot va : Nat) (ctl : Src) (k : MapKind) : OutWf (execSpmap g slot va ctl k s) := by
  refine onceWord_wf noPost_wf (fun f hf e i o s => ?_) h
  obtain rfl := Option.some.inj hf
  rfl
theorem execFence_wf (h : s.mem.wf = true) (g : Guard) (k : FenceKind) (scope : Nat) : OutWf (execFence g k scope s) := by
  unfold execFence
  dsimp only
  refine issueWord_wf ⟨fun e s i t h => ?_, fun e l s h => ite_wf (by simp [h]) h, fun _ hf => nomatch hf⟩ h
  split
  · exact laneWf_error _
  · split
    · exact laneWf_ok h
    · split
      · split
        · exact laneWf_error _
        · exact laneWf_ok (by simp [h])
      · split
        · exact laneWf_bind fun _ => laneWf_ok h
        · exact laneWf_ok h
theorem execBarinit_wf (h : s.mem.wf = true) (g : Guard) (b n : Src) : OutWf (execBarinit g b n s) := by
  refine onceWord_wf noPost_wf (fun f hf e i o s => ?_) h
  obtain rfl := Option.some.inj hf
  rfl
theorem execBarr_wf (h : s.mem.wf = true) (g : Guard) (d : Code) (b : Src) : OutWf (execBarr g d b s) := by
  refine issueWord_wf ⟨fun e s i t h => ?_, noPost_wf, fun _ hf => nomatch hf⟩ h
  refine laneWf_bind fun _ => laneWf_bind fun _ => ?_
  dsimp only
  split
  · exact laneWf_error _
  · split
    · exact laneWf_error _
    · exact laneWf_ok h
theorem execBars_wf (h : s.mem.wf = true) (g : Guard) (b : Src) : OutWf (execBars g b s) := issueWord_wf (pureWord_wf rfl fun _ _ _ h => h) h
theorem chargeLanesPost_wf (e : Env) (l : List (Nat × LaneOut)) (s : State) (h : s.mem.wf = true) :
    (chargeLanes s e.c (l.flatMap fun (_, o) => o.acc)).mem.wf = true := by
  simp [h]
theorem execPharr_wf (h : s.mem.wf = true) (g : Guard) (d : Code) (a c : Src) (spc : PhSpace) : OutWf (execPharr g d a c spc s) := by
  refine issueWord_wf ⟨fun e s i t h => ?_, chargeLanesPost_wf, fun _ hf => nomatch hf⟩ h
  refine laneWf_bind fun _ => laneWf_bind fun _ => laneWf_bind fun _ => laneWf_bind fun p => ?_
  split
  · exact laneWf_error _
  · dsimp only
    split
    · exact laneWf_error _
    · exact laneWf_ok (by simp [h])
theorem execPhwait_wf (h : s.mem.wf = true) (g : Guard) (a ph : Src) (spc : PhSpace) : OutWf (execPhwait g a ph spc s) := by
  refine issueWord_wf ⟨fun e s i t h => ?_, chargeLanesPost_wf, fun _ hf => nomatch hf⟩ h
  refine laneWf_bind fun _ => laneWf_bind fun _ => laneWf_bind fun p => ?_
  split
  · exact laneWf_error _
  · dsimp only
    split
    · exact laneWf_error _
    · exact laneWf_ok h
theorem execCwait_wf (h : s.mem.wf = true) (g : Guard) (d : Code) (a n : Src) (spc : CSpace) (k : CCond) :
    OutWf (execCwait g d a n spc k s) := by
  unfold execCwait
  dsimp only
  refine issueWord_wf ⟨fun e s i t h => ?_, chargeLanesPost_wf, fun _ hf => nomatch hf⟩ h
  refine laneWf_bind fun _ => ?_
  split
  · exact laneWf_bind fun _ => laneWf_ok h
  · refine laneWf_bind fun _ => laneWf_bind fun _ => laneWf_bind fun p => ?_
    split
    · exact laneWf_error _
    · split
      · exact laneWf_ok (by simp [h])
      · exact laneWf_error _
theorem execBulk_wf (h : s.mem.wf = true) (g : Guard) (src dst : Nat) (ctr : Option Nat) (len : Nat) (cspace : CSpace) :
    OutWf (execBulk g src dst ctr len cspace s) := by
  unfold execBulk
  dsimp only
  refine issueWord_wf ⟨fun e s i t h => ?_, markSticky_wf, fun f hf e i o s h => ?_⟩ h
  · refine laneWf_bind fun _ => ?_
    split
    · exact laneWf_ok h
    · split
      · exact laneWf_error _
      · exact laneWf_bind fun _ => laneWf_ok h
  · obtain rfl := Option.some.inj hf
    dsimp only
    split <;> exact h
theorem execEnq_wf (h : s.mem.wf = true) (g : Guard) (p r : Nat) (n : Src) : OutWf (execEnq g p r n s) := by
  refine issueWord_wf ⟨fun e s i t h => ?_, markSticky_wf, fun _ hf => nomatch hf⟩ h
  refine laneWf_bind fun _ => laneWf_bind fun log => ?_
  dsimp only
  split
  · exact laneWf_error _
  · split
    · exact laneWf_error _
    · exact laneWf_bind fun _ => laneWf_ok (enqueue_wf h ..)
theorem execJoin_wf (h : s.mem.wf = true) (g : Guard) (p a : Nat) : OutWf (execJoin g p a s) := by
  refine issueWord_wf ⟨fun e s i t h => ?_, markSticky_wf, fun _ hf => nomatch hf⟩ h
  refine laneWf_bind fun _ => laneWf_bind fun log => laneWf_bind fun pl => ?_
  dsimp only
  split
  · exact laneWf_error _
  · split
    · exact laneWf_error _
    · refine laneWf_check ?_
      split
      · exact laneWf_ok (enqueue_wf (by simp [h]) ..)
      · exact laneWf_ok (by simp [h])
theorem execQcloseC_wf (h : s.mem.wf = true) (g : Guard) (n : Src) : OutWf (execQcloseC g n s) := by
  refine onceWord_wf markSticky_wf (fun f hf e i o s => ?_) h
  obtain rfl := Option.some.inj hf
  rfl
theorem execPmatch_wf (h : s.mem.wf = true) (g : Guard) (k v : Nat) : OutWf (execPmatch g k v s) := by
  refine onceWord_wf noPost_wf (fun f hf e i o s => ?_) ?_
  · obtain rfl := Option.some.inj hf
    rfl
  · repeat' split
    all_goals simp [h]
theorem execPmatchRm_wf (h : s.mem.wf = true) (g : Guard) (k : Nat) : OutWf (execPmatchRm g k s) := by
  refine onceWord_wf noPost_wf (fun f hf e i o s => ?_) h
  obtain rfl := Option.some.inj hf
  rfl
theorem optSpec_once (g : Guard) (a : Option Src) : (optSpec g a).once = none := by
  cases a <;> rfl
theorem execTrap_wf (h : s.mem.wf = true) (g : Guard) (n : Nat) (a : Option Src) : OutWf (execTrap g n a s) := plainWord_wf (optSpec_once g a) h
theorem execHint_wf (h : s.mem.wf = true) (g : Guard) (n : Nat) (a : Option Src) : OutWf (execHint g n a s) :=
  issueWord_wf (pureWord_wf (optSpec_once g a) fun _ _ _ h => ite_wf (foldl_wf (fun _ _ h => traceMark_wf h ..) _ h) h) h
theorem specialVal_wf (h : s.mem.wf = true) (e : Env) (i : Nat) (t : Thread) (reg : Nat) : LaneWf (specialVal e s i t reg) := by
  unfold specialVal
  dsimp only
  split
  · exact laneWf_bind fun _ => laneWf_ok h
  · exact laneWf_ok h
theorem execSrd_wf (h : s.mem.wf = true) (g : Guard) (d : Code) (reg : Nat) (w : Bool) : OutWf (execSrd g d reg w s) := by
  refine issueWord_wf ⟨fun e s i t h => ?_, noPost_wf, fun _ hf => nomatch hf⟩ h
  refine laneWf_bind fun _ => ?_
  split
  · exact laneWf_error _
  · exact laneWf_bind_state (specialVal_wf h ..) fun _ _ h => laneWf_ok h
theorem writeSpecial_wf (h : s.mem.wf = true) (e : Env) (g : Guard) (i : Nat) (t : Thread) (reg : Nat) (x : Word) :
    LaneWf (writeSpecial e g s i t reg x) := by
  unfold writeSpecial
  split
  · exact laneWf_ok h
  · exact laneWf_ok h
  · exact laneWf_ok h
  · split
    · exact laneWf_error _
    · exact laneWf_bind fun _ => laneWf_ok (by simp [h])
  · exact laneWf_ok h
  · split
    · exact laneWf_error _
    · exact laneWf_ok (ite_wf h h)
  · exact laneWf_ok (ite_wf h h)
  · exact laneWf_ok h
theorem execSwr_wf (h : s.mem.wf = true) (g : Guard) (reg : Nat) (a : Src) (w : Bool) : OutWf (execSwr g reg a w s) := by
  refine issueWord_wf ⟨fun e s i t h => ?_, noPost_wf, fun _ hf => nomatch hf⟩ h
  exact laneWf_bind fun _ => laneWf_bind_state (writeSpecial_wf h ..) fun _ _ h => laneWf_ok h
theorem execResume_wf (h : s.mem.wf = true) (g : Guard) (back : Bool) (form : ResumeForm) :
    OutWf (runResume s g back fun e l s => resumeAll s e.c e.sel form l) :=
  runResume_wf h g back fun _ _ _ h => resumeAll_wf h ..

end Sys2Proof.Machine
end

section
/-! ### Events and accesses of the host keep off-chip memory canonical -/
set_option Elab.async false
namespace Sys2Proof.Machine

variable {s : State}
/-! #### Host registers and the mailbox -/

theorem window_wf (h : s.mem.wf = true) (ctx : Nat) (i : Instr) {go : State → State} (hg : ∀ s, s.mem.wf = true → (go s).mem.wf = true) :
    OutWf (window s ctx i go) := by
  unfold window
  split
  · simp [h]
  · split
    · simp [h]
    · simp [hg s h]
theorem mailbox_wf (h : s.mem.wf = true) (code : Nat) (args : List Byte) {go : State → State × Nat}
    (hg : ∀ s, s.mem.wf = true → (go s).1.mem.wf = true) : OutWf (mailbox s code args go) := by
  unfold mailbox
  split
  · simp [h]
  · dsimp only
    split
    · rw [outWf_next, updFw_mem, apply_ite Prod.fst]
      exact ite_wf (by simp [h]) (hg _ (by simp [h]))
    · simp [h]
theorem schedMailbox_wf (h : s.mem.wf = true) (waits : Bool) (code : Nat) (args : List Byte) (i : Instr) {go : State → State × Nat}
    (hg : ∀ s, s.mem.wf = true → (go s).1.mem.wf = true) : OutWf (schedMailbox s waits code args i go) := by
  unfold schedMailbox
  split
  · simp [h]
  · exact mailbox_wf h code args hg
theorem resolveAll_wf (h : s.mem.wf = true) (ctx : Nat) (ok : Bool) (l : List Waiter) : (l.foldl (resolve ctx ok) s).mem.wf = true :=
  foldl_wf (fun _ _ h => resolve_wf h ..) l h

/-! #### Events, and accesses of the host -/

theorem execAccessComplete_wf (h : s.mem.wf = true) (core id : Nat) : OutWf (execAccessComplete core id s) := by
  unfold execAccessComplete
  dsimp only
  repeat' split
  all_goals simp [h]
theorem execActivate_wf (h : s.mem.wf = true) (cls : Nat) : OutWf (execActivate cls s) := by
  unfold execActivate
  refine mailbox_wf h _ _ fun s h => ?_
  repeat' split
  all_goals simp [h]
theorem execAtsInvalidate_wf (h : s.mem.wf = true) (ctx va len : Nat) (maps : List PageMap) : OutWf (execAtsInvalidate ctx va len maps s) := by
  unfold execAtsInvalidate
  repeat' split
  all_goals simp [h]
theorem execBarrierRelease_wf (h : s.mem.wf = true) (core slot : Nat) : OutWf (execBarrierRelease core slot s) := by
  unfold execBarrierRelease
  dsimp only
  repeat' split
  all_goals simp [h]
theorem execBatchSelect_wf (h : s.mem.wf = true) (core : Nat) : OutWf (execBatchSelect core s) := by
  simp [execBatchSelect, h]
theorem execBindingResponse_wf (h : s.mem.wf = true) (ctx va : Nat) (answer : Option Nat) : OutWf (execBindingResponse ctx va answer s) := by
  unfold execBindingResponse
  refine window_wf h _ _ fun s h => ?_
  repeat' split
  all_goals simp [h]
theorem execBudgetPeriod_wf (h : s.mem.wf = true) : OutWf (execBudgetPeriod s) := by
  unfold execBudgetPeriod
  split <;> simp [h]
theorem execBudgetWrite_wf (h : s.mem.wf = true) (ctx : Nat) (value : Word64) : OutWf (execBudgetWrite ctx value s) := by
  unfold execBudgetWrite
  refine window_wf h _ _ fun s h => ?_
  simp [h]
theorem execBulkComplete_wf (h : s.mem.wf = true) (id : Nat) : OutWf (execBulkComplete id s) := by
  unfold execBulkComplete
  dsimp only
  repeat' split
  all_goals simp [h]
theorem execCancel_wf (h : s.mem.wf = true) (ctx : Nat) (value : Word64) : OutWf (execCancel ctx value s) := by
  unfold execCancel
  split
  · exact window_wf (by simp [h]) _ _ fun _ h => h
  · exact window_wf h _ _ fun s h => by simp [h]
theorem execCheckCodeError_wf (h : s.mem.wf = true) (addr : Nat) (correctable : Bool) : OutWf (execCheckCodeError addr correctable s) := by
  unfold execCheckCodeError
  split <;> simp [h]
theorem execClockStop_wf (h : s.mem.wf = true) : OutWf (execClockStop s) := by
  unfold execClockStop
  repeat' split
  all_goals simp [h]
theorem execCodeObjectLoad_wf (h : s.mem.wf = true) (ctx base : Nat) (bytes : List Byte) : OutWf (execCodeObjectLoad ctx base bytes s) := by
  unfold execCodeObjectLoad
  repeat' split
  all_goals simp [h]
theorem execCodeObjectUnload_wf (h : s.mem.wf = true) (ctx obj : Nat) : OutWf (execCodeObjectUnload ctx obj s) := by
  unfold execCodeObjectUnload
  split
  · simp [h]
  · split
    · simp [h]
    · rw [outWf_next, report_mem, updCtx_mem]
      exact foldl_wf (fun _ _ h => unbindEntry_wf h ..) _ h
theorem execColdListSteal_wf (h : s.mem.wf = true) (core : Nat) : OutWf (execColdListSteal core s) := by
  unfold execColdListSteal
  dsimp only
  repeat' split
  all_goals simp [h]
theorem execCoopFire_wf (h : s.mem.wf = true) (core : Nat) : OutWf (execCoopFire core s) := by
  simp [execCoopFire, h]
theorem execCopyComplete_wf (h : s.mem.wf = true) (core : Nat) : OutWf (execCopyComplete core s) := by
  unfold execCopyComplete
  dsimp only
  repeat' split
  all_goals simp [h]
theorem execCounterWaitRelease_wf (h : s.mem.wf = true) (core slot : Nat) : OutWf (execCounterWaitRelease core slot s) := by
  unfold execCounterWaitRelease
  dsimp only
  repeat' split
  all_goals simp [h]
theorem execCreate_wf (h : s.mem.wf = true) (record : List Word64) : OutWf (execCreate record s) := by
  unfold execCreate
  refine schedMailbox_wf h _ _ _ _ fun s h => ?_
  split <;> simp [h]
theorem execDebugContinue_wf (h : s.mem.wf = true) (ctx : Nat) (value : Word64) : OutWf (execDebugContinue ctx value s) := by
  unfold execDebugContinue
  refine window_wf h _ _ fun s h => ?_
  split <;> simp [h]
theorem execDebugStep_wf (h : s.mem.wf = true) (ctx : Nat) (value : Word64) : OutWf (execDebugStep ctx value s) := by
  unfold execDebugStep
  refine window_wf h _ _ fun s h => ?_
  split <;> simp [h]
theorem execDestroy_wf (h : s.mem.wf = true) (ctx : Nat) : OutWf (execDestroy ctx s) := by
  unfold execDestroy
  split
  · split <;> simp [h]
  · refine schedMailbox_wf h _ _ _ _ fun s h => ?_
    split <;> simp [h]
theorem execEngineLateFault_wf (h : s.mem.wf = true) (core id : Nat) : OutWf (execEngineLateFault core id s) := by
  unfold execEngineLateFault
  split
  · split
    · simp [h]
    · rw [outWf_next, lateFault_mem (hd := by intros; rfl)]
      exact h
  · split
    · simp [h]
    · split
      · simp [h]
      · rw [outWf_next, lateFault_mem (hd := by intros; rfl)]
        exact h
theorem execEnrolOwner_wf (h : s.mem.wf = true) (key : List Byte) : OutWf (execEnrolOwner key s) := by
  unfold execEnrolOwner
  refine mailbox_wf h _ _ fun s h => ?_
  repeat' split
  all_goals simp [h]
theorem execHandlerTimeout_wf (h : s.mem.wf = true) (core : Nat) : OutWf (execHandlerTimeout core s) := by
  unfold execHandlerTimeout
  dsimp only
  repeat' split
  all_goals simp [h]
theorem execHandoverResume_wf (h : s.mem.wf = true) (ok : Bool) : OutWf (execHandoverResume ok s) := by
  unfold execHandoverResume
  repeat' split
  all_goals simp [h]
theorem execHeartbeatDeadline_wf (h : s.mem.wf = true) : OutWf (execHeartbeatDeadline s) := by
  unfold execHeartbeatDeadline
  dsimp only
  repeat' split
  all_goals simp [h]
theorem execPush_wf (h : s.mem.wf = true) (ctx off : Nat) (words : List Word64) : OutWf (execPush ctx off words s) := by
  unfold execPush
  dsimp only
  repeat' split
  all_goals simp [h]
theorem execPreemptRequest_wf (h : s.mem.wf = true) (ctx : Nat) (value : Word64) : OutWf (execPreemptRequest ctx value s) := by
  unfold execPreemptRequest
  refine window_wf h _ _ fun s h => ?_
  split <;> simp [h]
theorem execQctlClearFull_wf (h : s.mem.wf = true) (ctx q : Nat) : OutWf (execQctlClearFull ctx q s) := by
  unfold execQctlClearFull
  refine window_wf h _ _ fun s h => ?_
  simp [h]
theorem execQctlReopen_wf (h : s.mem.wf = true) (ctx q : Nat) : OutWf (execQctlReopen ctx q s) := by
  unfold execQctlReopen
  refine window_wf h _ _ fun s h => ?_
  simp [h]
theorem execRegisterWrite_wf (h : s.mem.wf = true) (ctx off : Nat) (value : Word64) : OutWf (execRegisterWrite ctx off value s) := by
  unfold execRegisterWrite
  refine window_wf h _ _ fun s h => ?_
  split <;> simp [h]
theorem execTrcctlWrite_wf (h : s.mem.wf = true) (ctx : Nat) (value : Word64) : OutWf (execTrcctlWrite ctx value s) := by
  unfold execTrcctlWrite
  refine window_wf h _ _ fun s h => ?_
  dsimp only
  split <;> simp [h]
theorem execWatchWrite_wf (h : s.mem.wf = true) (ctx k : Nat) (value : Word64) : OutWf (execWatchWrite ctx k value s) := by
  unfold execWatchWrite
  refine window_wf h _ _ fun s h => ?_
  simp [h]
theorem writeReg_wf (h : s.mem.wf = true) (ctx off : Nat) (value : Word64) : OutWf (writeReg s ctx off value) := by
  unfold writeReg
  dsimp only
  split
  · exact execCancel_wf h ..
  · exact execBudgetWrite_wf h ..
  · exact execWatchWrite_wf h ..
  · exact execWatchWrite_wf h ..
  · exact execWatchWrite_wf h ..
  · exact execWatchWrite_wf h ..
  · split
    · exact execDebugContinue_wf h ..
    · split
      · exact execDebugStep_wf h ..
      · simp [h]
  · have h1 : OutWf (if value.getLsbD 8 then execQctlReopen ctx (bits value.toNat 0 6) s else .next s) := by
      split
      · exact execQctlReopen_wf h ..
      · simp [h]
    split
    · next t ht =>
      split
      · exact execQctlClearFull_wf (h1.mem t ht) ..
      · simp [h1.mem t ht]
    · exact h1
  · exact execPreemptRequest_wf h ..
  · exact execTrcctlWrite_wf h ..
  · exact execRegisterWrite_wf h ..
theorem windowAccess_wf (h : s.mem.wf = true) (f o : Nat) (op : ExtOp) : OutWf (windowAccess s f o op) := by
  unfold windowAccess
  dsimp only
  split
  · simp [h]
  · split
    · simp [h]
    · split
      · exact execPush_wf h ..
      · split
        · exact writeReg_wf h ..
        · simp [h]
  · simp [h]
theorem barAccess_wf (h : s.mem.wf = true) (addr : Nat) (op : ExtOp) : OutWf (barAccess s addr op) := by
  unfold barAccess
  dsimp only
  split
  · split
    · simp [h]
    · split <;> simp [h]
  · split
    · simp [h]
    · simp [h]
    · simp [h]
    · simp [h]
    · split
      · simp [h]
      · exact windowAccess_wf h ..
theorem execHostAccess_wf (h : s.mem.wf = true) (addr : Nat) (op : ExtOp) : OutWf (execHostAccess addr op s) := by
  unfold execHostAccess
  split
  · exact barAccess_wf h ..
  · split
    · split <;> simp [h]
    · split <;> simp [h]
theorem execIllegalWord_wf (h : s.mem.wf = true) (w : Word64) : OutWf (execIllegalWord w s) := by
  unfold execIllegalWord
  split <;> simp [h]
theorem execIssueResume_wf (h : s.mem.wf = true) (core : Nat) : OutWf (execIssueResume core s) := by
  unfold execIssueResume
  repeat' split
  all_goals simp [h]
theorem execJoinHoldExpiry_wf (h : s.mem.wf = true) (core entry : Nat) : OutWf (execJoinHoldExpiry core entry s) := by
  unfold execJoinHoldExpiry
  repeat' split
  all_goals simp [h]
theorem execLaunchEligible_wf (h : s.mem.wf = true) (ctx idx : Nat) : OutWf (execLaunchEligible ctx idx s) := by
  unfold execLaunchEligible
  repeat' split
  all_goals simp [h]
theorem execLinkCommand_wf (h : s.mem.wf = true) (c : LinkCmd) : OutWf (execLinkCommand c s) := by
  unfold execLinkCommand
  dsimp only
  split <;> simp [h]
theorem execMapFill_wf (h : s.mem.wf = true) (core wg slot sector : Nat) : OutWf (execMapFill core wg slot sector s) := by
  unfold execMapFill
  dsimp only
  repeat' split
  all_goals simp [h]
theorem execMapWriteback_wf (h : s.mem.wf = true) (core wg slot sector : Nat) : OutWf (execMapWriteback core wg slot sector s) := by
  unfold execMapWriteback
  split <;> simp [h]
theorem execMatrixComplete_wf (h : s.mem.wf = true) (core : Nat) : OutWf (execMatrixComplete core s) := by
  unfold execMatrixComplete
  dsimp only
  repeat' split
  all_goals simp [h]
theorem execMatrixReadout_wf (h : s.mem.wf = true) (core : Nat) : OutWf (execMatrixReadout core s) := by
  unfold execMatrixReadout
  dsimp only
  repeat' split
  all_goals simp [h]
theorem execNonce_wf (h : s.mem.wf = true) : OutWf (execNonce s) := by
  unfold execNonce
  refine mailbox_wf h _ _ fun s h => ?_
  simp [h]
theorem execPageGroupClose_wf (h : s.mem.wf = true) (cluster gid : Nat) : OutWf (execPageGroupClose cluster gid s) := by
  unfold execPageGroupClose
  repeat' split
  all_goals simp [h]
theorem execPageGroupIssue_wf (h : s.mem.wf = true) (cluster gid : Nat) : OutWf (execPageGroupIssue cluster gid s) := by
  unfold execPageGroupIssue
  dsimp only
  repeat' split
  all_goals simp [h]
theorem execPageResponse_wf (h : s.mem.wf = true) (cluster gid : Nat) (reply : PageReply) (maps : List PageMap) :
    OutWf (execPageResponse cluster gid reply maps s) := by
  unfold execPageResponse
  split
  · simp [h]
  · split
    · simp [h]
    · split
      · simp [h]
      · dsimp only
        split <;> simp [h, resolveAll_wf]
theorem execPcieConfigWrite_wf (h : s.mem.wf = true) (r : PcieReg) : OutWf (execPcieConfigWrite r s) := by
  unfold execPcieConfigWrite
  split <;> simp [h]
theorem execPeerAccess_wf (h : s.mem.wf = true) (peer addr : Nat) (op : ExtOp) : OutWf (execPeerAccess peer addr op s) := by
  unfold execPeerAccess
  dsimp only
  repeat' split
  all_goals simp [h]
theorem execPeerLinkFail_wf (h : s.mem.wf = true) (link : Nat) : OutWf (execPeerLinkFail link s) := by
  unfold execPeerLinkFail
  split <;> simp [h]
theorem execPhaseWaitRelease_wf (h : s.mem.wf = true) (core slot : Nat) : OutWf (execPhaseWaitRelease core slot s) := by
  unfold execPhaseWaitRelease
  repeat' split
  all_goals simp [h]
theorem execPlacementStarvation_wf (h : s.mem.wf = true) (ctx idx : Nat) : OutWf (execPlacementStarvation ctx idx s) := by
  unfold execPlacementStarvation
  repeat' split
  all_goals simp [h]
theorem execPowerOff_wf (h : s.mem.wf = true) : OutWf (execPowerOff s) := by
  simp [execPowerOff, h]
theorem execPowerUp_wf (h : s.mem.wf = true) : OutWf (execPowerUp s) := by
  unfold execPowerUp
  split <;> simp [h]
theorem execPreemption_wf (h : s.mem.wf = true) (core wg : Nat) : OutWf (execPreemption core wg s) := by
  unfold execPreemption
  split
  · simp [h]
  · split
    · simp [h]
    · split
      · repeat' split
        all_goals simp [h]
      · dsimp only
        split
        · simp [h]
        · rw [outWf_next, mem_ite, sendMsix_mem, ite_self]
          exact foldl_wf (fun _ _ h => leaveOne_wf h ..) _ h
theorem execQueueRelease_wf (h : s.mem.wf = true) (core slot : Nat) : OutWf (execQueueRelease core slot s) := by
  unfold execQueueRelease
  dsimp only
  repeat' split
  all_goals simp [h]
theorem execReadlog_wf (h : s.mem.wf = true) (first n : Nat) : OutWf (execReadlog first n s) := by
  unfold execReadlog
  refine mailbox_wf h _ _ fun s h => ?_
  split <;> simp [h]
theorem execReboot_wf (h : s.mem.wf = true) : OutWf (execReboot s) := by
  unfold execReboot
  split <;> simp [h]
theorem execRefillPop_wf (h : s.mem.wf = true) (core slot : Nat) : OutWf (execRefillPop core slot s) := by
  unfold execRefillPop
  dsimp only
  repeat' split
  all_goals simp [h]
theorem execRelease_wf (h : s.mem.wf = true) (block : List Byte) : OutWf (execRelease block s) := by
  unfold execRelease
  refine mailbox_wf h _ _ fun s h => ?_
  repeat' split
  all_goals simp [h]
theorem execRouteRestore_wf (h : s.mem.wf = true) (peer : Nat) (links : List Nat) : OutWf (execRouteRestore peer links s) := by
  unfold execRouteRestore
  dsimp only
  split <;> simp [h]
theorem execScanout_wf (h : s.mem.wf = true) (chain off n : Nat) : OutWf (execScanout chain off n s) := by
  unfold execScanout
  refine mailbox_wf h _ _ fun s h => ?_
  split <;> simp [h]
theorem execSetdl_wf (h : s.mem.wf = true) (ms : Nat) : OutWf (execSetdl ms s) := by
  unfold execSetdl
  refine mailbox_wf h _ _ fun s h => ?_
  split <;> simp [h]
theorem execStage_wf (h : s.mem.wf = true) (cls off len : Nat) (last : Bool) (bytes : List Byte) :
    OutWf (execStage cls off len last bytes s) := by
  unfold execStage
  refine mailbox_wf h _ _ fun s h => ?_
  repeat' split
  all_goals simp [h]
theorem execStop_wf (h : s.mem.wf = true) (t : Word64) : OutWf (execStop t s) := by
  unfold execStop
  refine mailbox_wf h _ _ fun s h => ?_
  split <;> simp [h]
theorem execSvnbump_wf (h : s.mem.wf = true) (cls : Nat) : OutWf (execSvnbump cls s) := by
  unfold execSvnbump
  refine mailbox_wf h _ _ fun s h => ?_
  split <;> simp [h]
theorem execSwapRestore_wf (h : s.mem.wf = true) (ctx img core : Nat) : OutWf (execSwapRestore ctx img core s) := by
  unfold execSwapRestore
  repeat' split
  all_goals simp [h]
theorem execSyncBurst_wf (h : s.mem.wf = true) (core ctx : Nat) : OutWf (execSyncBurst core ctx s) := by
  unfold execSyncBurst
  split <;> simp [h]
theorem execTrapDelivery_wf (h : s.mem.wf = true) (core : Nat) : OutWf (execTrapDelivery core s) := by
  unfold execTrapDelivery
  dsimp only
  repeat' split
  all_goals simp [h]
theorem execTreeWalk_wf (h : s.mem.wf = true) (core : Nat) : OutWf (execTreeWalk core s) := by
  unfold execTreeWalk
  dsimp only
  split <;> simp [h]
theorem execWorkgroupPlace_wf (h : s.mem.wf = true) (ctx idx core : Nat) : OutWf (execWorkgroupPlace ctx idx core s) := by
  unfold execWorkgroupPlace
  repeat' split
  all_goals simp [h]
theorem execWorkgroupRestore_wf (h : s.mem.wf = true) (ctx img core : Nat) : OutWf (execWorkgroupRestore ctx img core s) := by
  unfold execWorkgroupRestore
  repeat' split
  all_goals simp [h]
theorem execWorkgroupRetire_wf (h : s.mem.wf = true) (core wg : Nat) : OutWf (execWorkgroupRetire core wg s) := by
  unfold execWorkgroupRetire
  dsimp only
  repeat' split
  all_goals simp [h]
theorem execWorkgroupStart_wf (h : s.mem.wf = true) (core wg : Nat) : OutWf (execWorkgroupStart core wg s) := by
  unfold execWorkgroupStart
  split
  · simp [h]
  · split
    · simp [h]
    · dsimp only
      split
      · simp [h]
      · rw [outWf_next, updLaunch_mem, foldl_mem (by simp)]
        exact h
theorem execWorkgroupSwapOut_wf (h : s.mem.wf = true) (core wg : Nat) : OutWf (execWorkgroupSwapOut core wg s) := by
  unfold execWorkgroupSwapOut
  split
  · simp [h]
  · split
    · simp [h]
    · dsimp only
      split
      · rw [outWf_next, foldl_mem (by simp)]
        exact h
      · split <;> simp [h]
theorem execXcodeComplete_wf (h : s.mem.wf = true) (core : Nat) : OutWf (execXcodeComplete core s) := by
  unfold execXcodeComplete
  repeat' split
  all_goals simp [h]

end Sys2Proof.Machine
end

section
/-! ### Every step keeps off-chip memory canonical -/
set_option Elab.async false
namespace Sys2Proof.Machine

variable {s : State}

/-! #### Every instruction -/

/-- Every word, and every event but the match handlers, which run words themselves. -/
theorem exec_wf_of_ne_matchHandler (h : s.mem.wf = true) (i : Instr) (hi : ∀ c n, i ≠ .matchHandler c n) : OutWf (exec i s) := by
  unfold exec
  cases i with
  | leave | next =>
    exact runLeave_wf h ..
  | ret => exact execRet_wf h ..
  | done => exact execDone_wf h ..
  | rep => exact execRep_wf h ..
  | enrol => exact execEnrol_wf h ..
  | strike => exact execStrike_wf h ..
  | iadd | isub | imul | imulh | imulhu | idiv | idivu | irem | iremu | ineg | iabs | imin | imax | iminu | imaxu | isat | irsh | land
    | lor | lxor | landn | lnot | shl | shr | sar | rol | bfx | bfxu | popc | clz | brev | mov | imad | bfi | iqnt | movi | ail | aih
    | isel | xmovToV | fadd | fsub | fmul | fmin | fmax | fabs | fneg | fcps | fscl | fclass | ffma | frcp | frsq | fsqrt | fdiv | fex2
    | flg2 | fsin | fcos | ftanh | fcvt | fcvti | icvtf | frnd =>
    exact runAlu_wf h ..
  | icmp | pset | pand | por | pxor | pnot | fcmp =>
    exact runPred_wf h ..
  | xset | xmov | xadd | xaddOrg =>
    exact runX_wf h ..
  | aset | aadd | aaddStride | amul | ashl =>
    exact runAff_wf h ..
  | aval | avalBase | avalStride =>
    exact runAval_wf h ..
  | mset | msetDet | msplit | mmov | mzero | madd | msub | mmul | mscl | mfma | mrelu | mexp | msigm | mchk | mcol =>
    exact runM_wf h ..
  | mma | mmad | mmam | zclr | zld | zst | zrd =>
    exact runMatrix_wf h _ _ _ _ rfl
  | zwr g tile vp col src => exact runMatrix_wf h _ _ _ _ (by cases src <;> rfl)
  | ld => exact execLd_wf h ..
  | st => exact execSt_wf h ..
  | pref | barw | voteAll | voteAny | voteBallot | votePopc | shfx | qclose | qstat | brkp | nop =>
    exact plainWord_wf rfl h
  | linv | lcln =>
    exact runMaint_wf h ..
  | spmap => exact execSpmap_wf h ..
  | spunmap | spwb | spdrop =>
    exact runRegion_wf h ..
  | atadd | atmin | atmax | atminu | atmaxu | atand | ator | atxor | atxch | atcas | atfadd =>
    exact runAtomic_wf h ..
  | fence => exact execFence_wf h ..
  | barinit => exact execBarinit_wf h ..
  | barr => exact execBarr_wf h ..
  | bars => exact execBars_wf h ..
  | pharr => exact execPharr_wf h ..
  | phwait => exact execPhwait_wf h ..
  | cwait => exact execCwait_wf h ..
  | xcopy | xstore | xcode =>
    exact runEngine_wf h ..
  | bulk => exact execBulk_wf h ..
  | enq => exact execEnq_wf h ..
  | join => exact execJoin_wf h ..
  | qcloseC => exact execQcloseC_wf h ..
  | trap => exact execTrap_wf h ..
  | resumeRetry | resumeSkip | resumeAbandon | resumeKill =>
    exact execResume_wf h ..
  | srd => exact execSrd_wf h ..
  | swr => exact execSwr_wf h ..
  | hint => exact execHint_wf h ..
  | pmatch => exact execPmatch_wf h ..
  | pmatchRm => exact execPmatchRm_wf h ..
  | batchSelect => exact execBatchSelect_wf h ..
  | treeWalk => exact execTreeWalk_wf h ..
  | joinHoldExpiry => exact execJoinHoldExpiry_wf h ..
  | coldListSteal => exact execColdListSteal_wf h ..
  | coopFire => exact execCoopFire_wf h ..
  | refillPop => exact execRefillPop_wf h ..
  | accessComplete => exact execAccessComplete_wf h ..
  | barrierRelease => exact execBarrierRelease_wf h ..
  | phaseWaitRelease => exact execPhaseWaitRelease_wf h ..
  | counterWaitRelease => exact execCounterWaitRelease_wf h ..
  | queueRelease => exact execQueueRelease_wf h ..
  | bindingResponse => exact execBindingResponse_wf h ..
  | trapDelivery => exact execTrapDelivery_wf h ..
  | handlerTimeout => exact execHandlerTimeout_wf h ..
  | issueResume => exact execIssueResume_wf h ..
  | engineLateFault => exact execEngineLateFault_wf h ..
  | pageGroupClose => exact execPageGroupClose_wf h ..
  | pageGroupIssue => exact execPageGroupIssue_wf h ..
  | pageResponse => exact execPageResponse_wf h ..
  | workgroupSwapOut => exact execWorkgroupSwapOut_wf h ..
  | swapRestore => exact execSwapRestore_wf h ..
  | matrixReadout => exact execMatrixReadout_wf h ..
  | matrixComplete => exact execMatrixComplete_wf h ..
  | mapFill => exact execMapFill_wf h ..
  | mapWriteback => exact execMapWriteback_wf h ..
  | copyComplete => exact execCopyComplete_wf h ..
  | xcodeComplete => exact execXcodeComplete_wf h ..
  | bulkComplete => exact execBulkComplete_wf h ..
  | push => exact execPush_wf h ..
  | launchEligible => exact execLaunchEligible_wf h ..
  | workgroupPlace => exact execWorkgroupPlace_wf h ..
  | workgroupStart => exact execWorkgroupStart_wf h ..
  | placementStarvation => exact execPlacementStarvation_wf h ..
  | preemption => exact execPreemption_wf h ..
  | workgroupRestore => exact execWorkgroupRestore_wf h ..
  | workgroupRetire => exact execWorkgroupRetire_wf h ..
  | cancel => exact execCancel_wf h ..
  | budgetPeriod => exact execBudgetPeriod_wf h ..
  | budgetWrite => exact execBudgetWrite_wf h ..
  | watchWrite => exact execWatchWrite_wf h ..
  | debugContinue => exact execDebugContinue_wf h ..
  | debugStep => exact execDebugStep_wf h ..
  | qctlReopen => exact execQctlReopen_wf h ..
  | qctlClearFull => exact execQctlClearFull_wf h ..
  | preemptRequest => exact execPreemptRequest_wf h ..
  | trcctlWrite => exact execTrcctlWrite_wf h ..
  | syncBurst => exact execSyncBurst_wf h ..
  | registerWrite => exact execRegisterWrite_wf h ..
  | powerUp => exact execPowerUp_wf h ..
  | powerOff => exact execPowerOff_wf h ..
  | create => exact execCreate_wf h ..
  | destroy => exact execDestroy_wf h ..
  | stage => exact execStage_wf h ..
  | activate => exact execActivate_wf h ..
  | handoverResume => exact execHandoverResume_wf h ..
  | heartbeatDeadline => exact execHeartbeatDeadline_wf h ..
  | setdl => exact execSetdl_wf h ..
  | readlog => exact execReadlog_wf h ..
  | release => exact execRelease_wf h ..
  | enrolOwner => exact execEnrolOwner_wf h ..
  | svnbump => exact execSvnbump_wf h ..
  | reboot => exact execReboot_wf h ..
  | nonce => exact execNonce_wf h ..
  | stop => exact execStop_wf h ..
  | clockStop => exact execClockStop_wf h ..
  | scanout => exact execScanout_wf h ..
  | linkCommand => exact execLinkCommand_wf h ..
  | peerLinkFail => exact execPeerLinkFail_wf h ..
  | atsInvalidate => exact execAtsInvalidate_wf h ..
  | illegalWord => exact execIllegalWord_wf h ..
  | codeObjectLoad => exact execCodeObjectLoad_wf h ..
  | codeObjectUnload => exact execCodeObjectUnload_wf h ..
  | peerAccess => exact execPeerAccess_wf h ..
  | hostAccess => exact execHostAccess_wf h ..
  | routeRestore => exact execRouteRestore_wf h ..
  | checkCodeError => exact execCheckCodeError_wf h ..
  | pcieConfigWrite => exact execPcieConfigWrite_wf h ..
  | matchHandler c n => exact absurd rfl (hi c n)

/-- R340: a word of a match handler means what it means elsewhere, or does nothing. -/
theorem runMatchWord_cases (i : Instr) (s : State) :
    runMatchWord i s = exec i s ∧ (∀ c n, i ≠ .matchHandler c n) ∨ runMatchWord i s = .next s := by
  unfold runMatchWord
  split <;> simp [exec]
theorem runMatchWord_wf (h : s.mem.wf = true) (i : Instr) : OutWf (runMatchWord i s) := by
  rcases runMatchWord_cases i s with ⟨e, hi⟩ | e
  · exact e ▸ exec_wf_of_ne_matchHandler h i hi
  · simp [e, h]
theorem shadowWord_wf (h : s.mem.wf = true) {c sel i : Nat} {w : WG} {base : Nat} {r r' : SMap Word} {p : Pos} {x : Nat} {t : State}
    (ht : shadowWord s c sel i w base r p x = .ran r' t) : t.mem.wf = true := by
  unfold shadowWord at ht
  extract_lets co at ht
  split at ht
  · split at ht
    · cases ht
    · extract_lets role kern at ht
      split at ht
      · next id s0 hs0 =>
        have w0 : s0.mem.wf = true := (congrArg (·.2.mem.wf) hs0).symm.trans h
        extract_lets co1 s1 s1' from0 at ht
        split at ht
        · next s2 h2 =>
          have w2 : s2.mem.wf = true := (runMatchWord_wf (by exact w0) _).mem _ h2
          extract_lets past at ht
          clear_value past
          split at ht
          · cases ht
          · split at ht
            · cases ht
            · next s3 h3 =>
              have w3 : s3.mem.wf = true := performNew_wf w2 h3
              extract_lets co3 h' energy back s4 at ht
              exact ShadowOut.ran.inj ht |>.2 ▸ w3
        · cases ht
  · cases ht
theorem shadowAll_wf (h : s.mem.wf = true) {c sel k : Nat} {p : Pos} {word : Nat} {l m : SMap (SMap Word)} {t : State}
    (ht : shadowAll c sel k p word l s = some (m, t)) : t.mem.wf = true := by
  induction l generalizing s m with
  | nil =>
    cases ht
    exact h
  | cons x r ih =>
    unfold shadowAll at ht
    split at ht
    · exact ih h ht
    · split at ht
      · cases ht
      · exact ih (by simp [h]) ht
      · next hw =>
        obtain ⟨y, hy, e⟩ := Option.map_eq_some_iff.1 ht
        cases e
        exact ih (shadowWord_wf h hw) hy
theorem shadowStep_wf (h : s.mem.wf = true) {c sel : Nat} {due : List Nat} {x : Shadow} {ctx : Nat} {y : Option Shadow} {t : State}
    (ht : shadowStep s c sel due x ctx = some (y, t)) : t.mem.wf = true := by
  unfold shadowStep at ht
  dsimp only at ht
  split at ht
  · split at ht
    · cases ht
      exact h
    · obtain ⟨z, hz, e⟩ := Option.map_eq_some_iff.1 ht
      cases e
      exact shadowAll_wf h hz
  · cases ht
    rw [foldl_mem (by simp)]
    exact h
theorem execMatchHandler_wf (h : s.mem.wf = true) (core sel : Nat) : OutWf (execMatchHandler core sel s) := by
  unfold execMatchHandler
  split
  · simp [h]
  · dsimp only
    split
    · simp [h]
    · split
      · simp [h]
      · split
        · simp [h]
        · split
          · simp [h]
          · split
            · simp [h]
            · next hy => simp [shadowStep_wf h hy]
theorem exec_wf (h : s.mem.wf = true) (i : Instr) : OutWf (exec i s) := by
  by_cases hi : ∃ c n, i = .matchHandler c n
  · obtain ⟨c, n, rfl⟩ := hi
    exact execMatchHandler_wf h c n
  · exact exec_wf_of_ne_matchHandler h i fun c n e => hi ⟨c, n, e⟩

/-! #### One step -/

theorem outWf_ite {p : Prop} [Decidable p] {a b : Out} (ha : OutWf a) (hb : OutWf b) : OutWf (if p then a else b) := by
  split <;> assumption

section
variable {run : Instr → State → Out} (hr : ∀ i s, s.mem.wf = true → OutWf (run i s))
include hr

theorem noteBoards_wf (c sel : Nat) (l : List Batch) (h : s.mem.wf = true) : (noteBoards run c sel l s).mem.wf = true := by
  induction l generalizing s with
  | nil => exact h
  | cons b r ih =>
    unfold noteBoards
    split
    · exact ih h
    · split
      · dsimp only
        split
        · next t ht =>
          have hw := (hr _ _ (by exact h)).mem t ht
          exact ih (ite_wf hw h)
        · exact ih h
      · exact ih h
theorem issueFrom_wf (c sel : Nat) (l : List Batch) (h : s.mem.wf = true) : OutWf (issueFrom run c sel l s) := by
  induction l generalizing s with
  | nil => simpa [issueFrom] using h
  | cons b r ih =>
    unfold issueFrom
    split
    · exact ih h
    · split
      · split
        · simp [h]
        · exact ih (by simp [h])
      · simp [h]
      · extract_lets w s1 ready
        have hready : OutWf ready := outWf_ite (hr _ _ h) (outWf_next.2 h)
        clear_value ready
        split
        · next t =>
          have hw : t.mem.wf = true := hready.mem t rfl
          split
          · exact ih hw
          · split
            · next u hu =>
              have hv : u.mem.wf = true := (hr _ t hw).mem u hu
              split
              · exact ih hv
              · rw [outWf_next]
                exact noteBoards_wf hr c sel r hv
            · exact hr _ t hw
        · exact hready
theorem stepWith_wf (h : s.mem.wf = true) : OutWf (stepWith run s) := by
  unfold stepWith
  split
  · simp [h]
  · split
    · exact hr _ _ h
    · split <;> simp [h]
  · split
    · exact issueFrom_wf hr _ _ _ h
    · simp [h]
end

theorem step_wf (h : s.mem.wf = true) : OutWf (step s) := stepWith_wf (fun i _ h => exec_wf h i) h

/-- Settles O60: each instruction's meaning keeps the canonical form, because every write of off-chip memory is a write of one byte or drops
bytes; the issue of words and the beginning of a tick pass it on. -/
theorem stepsKeepMemoryCanonical : Obligations.StepsKeepMemoryCanonical := fun _ t h ht => (step_wf h).mem t ht

end Sys2Proof.Machine
end

section
/-! ### A store of bytes at a place (R5, R207)

Scratchpads, die scratchpads and snooped addresses are bytewise: a write of one byte changes that byte's value alone, so a write of bytes
changes its span alone. -/
set_option Elab.async false
namespace Sys2Proof.Machine

theorem memGet_memPut (m : Memory) (a k : Nat) (b : Byte) : memGet (memPut m a b) k = if k = a then b else memGet m k := by
  unfold memGet memPut
  exact rget_rput ..

theorem markDirty_scratch (w : WG) (o : Nat) : (markDirty w o).scratch = w.scratch := by
  unfold markDirty
  split <;> rfl

/-- The workgroup at a base, after a change there. -/
theorem get?_updCore_updWG (s : State) (c b : Nat) (f : WG → WG) :
    get? (coreOf (updCore s c fun co => updWG co b f) c).wgs b = (get? (coreOf s c).wgs b).map f := by
  rw [coreOf_updCore_self]
  exact (get?_modify ..).trans (if_pos rfl)

/-- Clearing poison leaves a scratchpad's bytes. -/
theorem getByte_unpoison_self (s : State) (c b o n a : Nat) :
    getByte (unpoison s (.scr c b o) n) (.scr c b a) = getByte s (.scr c b a) := by
  simp only [getByte, unpoison, get?_updCore_updWG]
  cases get? (coreOf s c).wgs b <;> rfl

/-! #### Bytes in a row -/

/-- The value of address `a` after a write of `bs` at `lo`, `old` the values before. -/
def written (lo : Nat) (bs : List Byte) (old : Nat → Byte) (a : Nat) : Byte :=
  if lo ≤ a ∧ a < lo + bs.length then bs.getD (a - lo) 0 else old a

theorem written_nil (lo : Nat) (old : Nat → Byte) (a : Nat) : written lo [] old a = old a :=
  if_neg fun ⟨hle, hlt⟩ => Nat.not_lt.2 hle hlt

/-- The first byte, then the rest one address above. -/
theorem written_cons (lo : Nat) (b : Byte) (r : List Byte) (old : Nat → Byte) (a : Nat) :
    written lo (b :: r) old a = written (lo + 1) r (fun k => if k = lo then b else old k) a := by
  unfold written
  rw [List.length_cons]
  by_cases hlo : a = lo
  · subst hlo
    rw [if_pos (by omega), if_neg (by omega), Nat.sub_self, List.getD_cons_zero]
    exact (if_pos rfl).symm
  · by_cases hin : lo + 1 ≤ a ∧ a < lo + 1 + r.length
    · rw [if_pos (by omega), if_pos hin, show a - lo = a - (lo + 1) + 1 by omega, List.getD_cons_succ]
    · rw [if_neg (by omega), if_neg hin]
      exact (if_neg hlo).symm

/-- Places in a row, one for each address, of which a write changes the one it names, in the states of `P`. -/
structure Bytewise (row : Nat → Place) (P : State → Prop) : Prop where
  shift : ∀ o, (row o).shift 1 = row (o + 1)
  keep : ∀ s o x, P s → P (putByte s (row o) x)
  put : ∀ s o x a, P s → getByte (putByte s (row o) x) (row a) = if a = o then x else getByte s (row a)

theorem bytewise_off : Bytewise (.off · true) fun _ => True where
  shift _ := rfl
  keep _ _ _ _ := trivial
  put s o x a _ := memGet_memPut s.mem o a x

theorem bytewise_die (d : Nat) : Bytewise (.die d) fun _ => True where
  shift _ := rfl
  keep _ _ _ _ := trivial
  put s o x a _ := by
    have hd : rget [] (putByte s (.die d o) x).dies d = memPut (rget [] s.dies d) o x := by simp [putByte, rget, get?_put_self]
    simp only [getByte, hd, memGet_memPut]

/-- A workgroup's scratchpad, where the workgroup is there. -/
theorem bytewise_scr (c b : Nat) : Bytewise (.scr c b) fun s => (get? (coreOf s c).wgs b).isSome where
  shift _ := rfl
  keep s o x h := by simpa only [putByte, get?_updCore_updWG, Option.isSome_map] using h
  put s o x a h := by
    obtain ⟨w, hw⟩ := Option.isSome_iff_exists.1 h
    simp only [getByte, putByte, get?_updCore_updWG, hw, Option.map_some, markDirty_scratch, memGet_memPut]

variable {row : Nat → Place} {P : State → Prop}

theorem Bytewise.getByte_writeBytes (hr : Bytewise row P) {s : State} (h : P s) (o : Nat) (bs : List Byte) (a : Nat) :
    getByte (writeBytes s (row o) bs) (row a) = written o bs (fun a => getByte s (row a)) a := by
  induction bs generalizing s o with
  | nil => exact (written_nil o (fun a => getByte s (row a)) a).symm
  | cons b r ih =>
    rw [writeBytes, hr.shift, ih (hr.keep s o b h), written_cons]
    simp only [hr.put s o b _ h]

/-- A part of the state that no write of one byte of a row changes. -/
theorem Bytewise.writeBytes_keeps (hr : Bytewise row P) {α : Type} {part : State → α} (hp : ∀ s o x, part (putByte s (row o) x) = part s)
    (s : State) (o : Nat) (bs : List Byte) : part (writeBytes s (row o) bs) = part s := by
  induction bs generalizing s o with
  | nil => rfl
  | cons b r ih =>
    rw [writeBytes, hr.shift, ih]
    exact hp s o b

/-! #### Stores -/

theorem getByte_writePlace_off (s : State) (pa : Nat) (bs : List Byte) (a : Nat) :
    getByte (writePlace s (.off pa true) bs) (.off a true) = written pa bs (fun a => getByte s (.off a true)) a :=
  bytewise_off.getByte_writeBytes trivial pa bs a
theorem getByte_writePlace_scr {s : State} {c b : Nat} (h : (get? (coreOf s c).wgs b).isSome) (o : Nat) (bs : List Byte) (a : Nat) :
    getByte (writePlace s (.scr c b o) bs) (.scr c b a) = written o bs (fun a => getByte s (.scr c b a)) a :=
  (getByte_unpoison_self ..).trans ((bytewise_scr c b).getByte_writeBytes h o bs a)
theorem getByte_writePlace_die (s : State) (d o : Nat) (bs : List Byte) (a : Nat) :
    getByte (writePlace s (.die d o) bs) (.die d a) = written o bs (fun a => getByte s (.die d a)) a :=
  (bytewise_die d).getByte_writeBytes trivial o bs a

/-- A store of off-chip bytes leaves the scratchpads. -/
theorem writePlace_off_scratchpads (s : State) (pa : Nat) (bs : List Byte) :
    (writePlace s (.off pa true) bs).cores = s.cores ∧ (writePlace s (.off pa true) bs).dies = s.dies :=
  ⟨bytewise_off.writeBytes_keeps (part := State.cores) (fun _ _ _ => rfl) s pa bs,
    bytewise_off.writeBytes_keeps (part := State.dies) (fun _ _ _ => rfl) s pa bs⟩
/-- A store into a workgroup's scratchpad leaves off-chip memory and the die scratchpads. -/
theorem writePlace_scr_elsewhere (s : State) (c b o : Nat) (bs : List Byte) :
    (writePlace s (.scr c b o) bs).mem = s.mem ∧ (writePlace s (.scr c b o) bs).dies = s.dies :=
  ⟨(bytewise_scr c b).writeBytes_keeps (part := State.mem) (fun _ _ _ => rfl) s o bs,
    (bytewise_scr c b).writeBytes_keeps (part := State.dies) (fun _ _ _ => rfl) s o bs⟩
/-- A store into a die scratchpad leaves off-chip memory and the cores. -/
theorem writePlace_die_elsewhere (s : State) (d o : Nat) (bs : List Byte) :
    (writePlace s (.die d o) bs).mem = s.mem ∧ (writePlace s (.die d o) bs).cores = s.cores :=
  ⟨(bytewise_die d).writeBytes_keeps (part := State.mem) (fun _ _ _ => rfl) s o bs,
    (bytewise_die d).writeBytes_keeps (part := State.cores) (fun _ _ _ => rfl) s o bs⟩

/-- Settles O27: a write of one byte changes that byte of its row alone, and by induction on the bytes a store changes its span alone; clearing
poison leaves the bytes. -/
theorem storesChangeTheirBytesAlone : Obligations.StoresChangeTheirBytesAlone := fun s bs =>
  ⟨fun pa a => getByte_writePlace_off s pa bs a, fun _ _ o a h => getByte_writePlace_scr h o bs a, fun d o a => getByte_writePlace_die s d o bs a,
    fun pa => writePlace_off_scratchpads s pa bs, fun c b o => writePlace_scr_elsewhere s c b o bs, fun d o => writePlace_die_elsewhere s d o bs⟩

end Sys2Proof.Machine
end

section
/-! ### Power-up, power-off, REBOOT and the stop (R33, R381, R389, R403) -/
set_option Elab.async false
namespace Sys2Proof.Machine

/-! #### Memory at a loss of power -/

theorem get?_filter_key {β : Type} (p : Nat → Bool) (m : SMap β) (n : Nat) :
    get? (m.filter fun (k, _) => p k) n = if p n then get? m n else none := by
  induction m with
  | nil => simp [get?]
  | cons h r ih =>
    obtain ⟨k, x⟩ := h
    by_cases hk : k = n
    · subst hk
      cases hp : p k <;> simp [hp, get?, ih]
    · cases hp : p k <;> simp [hp, get?, hk, ih]

/-- What is left of memory where the device's is zeroed (R381 step 3). -/
theorem memGet_filter_outside (m : Memory) (a : Nat) :
    memGet (m.filter fun (x, _) => outside x) a = if outside a then memGet m a else 0 := by
  unfold memGet rget
  rw [get?_filter_key]
  split <;> rfl

theorem outside_eq_false {a : Nat} (h : a < 2 * 2 ^ 64) : outside a = false := by
  unfold outside tierOf
  exact decide_eq_false (by omega)
theorem outside_eq_true {a : Nat} (h : 2 * 2 ^ 64 ≤ a) : outside a = true := by
  unfold outside tierOf
  exact decide_eq_true (by omega)

/-! #### The authentication of a class -/

/-- The slot that step 2 of R381 takes for a class: the active one where it passes, else the other one where that passes. -/
def bootSlot (fw : Firmware) (cls : Nat) : Option Nat :=
  if authenticate fw cls (imageAt fw cls (activeSlot fw cls)) = 0 then some (activeSlot fw cls)
  else if authenticate fw cls (imageAt fw cls (idleSlot fw cls)) = 0 then some (idleSlot fw cls)
  else none

theorem bootSlot_passes {fw : Firmware} {cls k : Nat} (h : bootSlot fw cls = some k) : authenticate fw cls (imageAt fw cls k) = 0 := by
  unfold bootSlot at h
  split at h
  · next ha => obtain rfl := Option.some.inj h; exact ha
  · split at h
    · next hb => obtain rfl := Option.some.inj h; exact hb
    · cases h

/-- The active slot is tried first. -/
theorem bootSlot_active {fw : Firmware} {cls : Nat} (h : authenticate fw cls (imageAt fw cls (activeSlot fw cls)) = 0) :
    bootSlot fw cls = some (activeSlot fw cls) := if_pos h

/-- The active slot and the idle one are slots 0 and 1. -/
theorem activeSlot_cases (fw : Firmware) (cls : Nat) :
    (activeSlot fw cls = 0 ∧ idleSlot fw cls = 1) ∨ (activeSlot fw cls = 1 ∧ idleSlot fw cls = 0) := by
  unfold idleSlot activeSlot
  split
  · exact .inr ⟨rfl, rfl⟩
  · exact .inl ⟨rfl, rfl⟩

theorem bootSlot_isSome_iff (fw : Firmware) (cls : Nat) :
    (bootSlot fw cls).isSome = true ↔ authenticate fw cls (imageAt fw cls 0) = 0 ∨ authenticate fw cls (imageAt fw cls 1) = 0 := by
  have hsome : (bootSlot fw cls).isSome = true ↔
      authenticate fw cls (imageAt fw cls (activeSlot fw cls)) = 0 ∨ authenticate fw cls (imageAt fw cls (idleSlot fw cls)) = 0 := by
    unfold bootSlot
    split
    · next ha => simp [ha]
    · next ha => split <;> simp_all
  obtain ⟨ha, hb⟩ | ⟨ha, hb⟩ := activeSlot_cases fw cls <;> rw [hsome, ha, hb]
  exact or_comm

/-- Without an owner no image passes (R380). -/
theorem authenticate_ne_zero_of_unowned {fw : Firmware} (h : fw.owner = none) (cls : Nat) (img : List Byte) : authenticate fw cls img ≠ 0 := by
  unfold authenticate
  rw [h]
  dsimp only
  repeat' split
  all_goals decide
theorem bootSlot_of_unowned {fw : Firmware} (h : fw.owner = none) (cls : Nat) : bootSlot fw cls = none := by
  simp [bootSlot, authenticate_ne_zero_of_unowned h]

/-! #### Steps 2 to 5 of power-up -/

/-- The state with another measurement log. -/
def withLog (s : State) (log : List (BitVec 512)) : State := updFw s fun fw => { fw with log := log }

theorem addLog_eq_withLog (s : State) (d : BitVec 256) (v r slot e : Nat) : ∃ log, addLog s d v r slot e = withLog s log := by
  by_cases h : s.fw.log.length < 256
  · exact ⟨_, by simp only [addLog, updFw, if_pos h, withLog]; rfl⟩
  · exact ⟨_, by simp only [addLog, updFw, if_neg h, withLog]; rfl⟩

theorem bootSlot_withLog (s : State) (log : List (BitVec 512)) (cls : Nat) : bootSlot (withLog s log).fw cls = bootSlot s.fw cls := rfl

/-- Step 2 for a class takes the class's slot, and changes the log alone. -/
theorem bootClass_eq (s : State) (cls : Nat) : ∃ log, bootClass s cls = (withLog s log, bootSlot s.fw cls) := by
  obtain ⟨l, hl⟩ := addLog_eq_withLog s (imgDigest (imageAt s.fw cls (activeSlot s.fw cls)))
    (imgVersion (imageAt s.fw cls (activeSlot s.fw cls))) (authenticate s.fw cls (imageAt s.fw cls (activeSlot s.fw cls))) (activeSlot s.fw cls) 1
  by_cases ha : authenticate s.fw cls (imageAt s.fw cls (activeSlot s.fw cls)) = 0
  · refine ⟨l, ?_⟩
    simp only [bootClass, logImage, hl, if_pos ha, bootSlot]
  · obtain ⟨m, hm⟩ := addLog_eq_withLog (withLog s l) (imgDigest (imageAt s.fw cls (idleSlot s.fw cls)))
      (imgVersion (imageAt s.fw cls (idleSlot s.fw cls))) (authenticate s.fw cls (imageAt s.fw cls (idleSlot s.fw cls))) (idleSlot s.fw cls) 1
    refine ⟨m, ?_⟩
    have hb : bootSlot s.fw cls =
        if authenticate s.fw cls (imageAt s.fw cls (idleSlot s.fw cls)) = 0 then some (idleSlot s.fw cls) else none := if_neg ha
    simp only [bootClass, logImage, hl, if_neg ha, hb]
    exact Prod.ext hm rfl

/-- The module after step 2 and the training: the log is written, and the boots are counted. -/
def tried (s : State) (log : List (BitVec 512)) : State := updFw (withLog s log) fun fw => { fw with boots := fw.boots + 1 }
/-- Step 3: all device memory is zeros. -/
def zeroed (s : State) : State :=
  { s with mem := s.mem.filter fun (x, _) => outside x, poison := s.poison.filter fun g => outside (64 * g) }
/-- What one boot can do (R381, R389): the memory does not train; every class has an image, and the module runs; or the class `cls` is the first
without one, and RSTAT names it. -/
inductive Booted (s : State) : State → Prop
  | untrained (log : List (BitVec 512)) (ht : Config.trains s.fw.boots = false) : Booted s { tried s log with power := .recovery }
  | running (log : List (BitVec 512)) (ht : Config.trains s.fw.boots = true) (slot : Nat → Nat)
      (hslot : ∀ cls ∈ [1, 2, 3], bootSlot s.fw cls = some (slot cls)) :
      Booted s { updFw (zeroed (tried s log)) (fun fw => { fw with
        running := [(1, slot 1), (2, slot 2), (3, slot 3)], leaf := (List.range Config.nClusters).map fun k => (k, slot 2) }) with power := .running }
  | failed (log : List (BitVec 512)) (ht : Config.trains s.fw.boots = true) (cls : Nat) (hcls : cls ∈ [1, 2, 3])
      (hslot : bootSlot s.fw cls = none) (hfirst : ∀ k ∈ [1, 2, 3], k < cls → (bootSlot s.fw k).isSome = true) :
      Booted s { updFw (zeroed (tried s log)) (fun fw => { fw with rstat := rstatOf fw cls }) with power := .recovery }

theorem boot_booted (s : State) : Booted s (boot s) := by
  obtain ⟨l1, h1⟩ := bootClass_eq s 1
  obtain ⟨l2, h2⟩ := bootClass_eq (withLog s l1) 2
  obtain ⟨l3, h3⟩ := bootClass_eq (withLog (withLog s l1) l2) 3
  rw [bootSlot_withLog] at h2
  rw [bootSlot_withLog, bootSlot_withLog] at h3
  unfold boot
  simp only [h1, h2, h3]
  cases ht : Config.trains s.fw.boots with
  | false =>
    rw [if_pos (by exact congrArg (!·) ht)]
    exact .untrained l3 ht
  | true =>
    rw [if_neg (by rw [show Config.trains (withLog (withLog (withLog s l1) l2) l3).fw.boots = true from ht]; decide)]
    cases ha : bootSlot s.fw 1 with
    | none => exact .failed l3 ht 1 (by simp) ha (by simp)
    | some a =>
      cases hb : bootSlot s.fw 2 with
      | none => exact .failed l3 ht 2 (by simp) hb (by simp [ha])
      | some b =>
        cases hc : bootSlot s.fw 3 with
        | none => exact .failed l3 ht 3 (by simp) hc (by simp [ha, hb])
        | some c => exact .running l3 ht (fun cls => if cls = 1 then a else if cls = 2 then b else c) (by simp [ha, hb, hc])

section
variable {s u : State} (h : Booted s u)
include h

theorem Booted.power : u.power = .running ∨ u.power = .recovery := by
  cases h with
  | untrained => exact .inr rfl
  | running => exact .inl rfl
  | failed => exact .inr rfl

/-- The module runs just where memory trains and every class has an image that passes. -/
theorem Booted.running_iff : u.power = .running ↔ Config.trains s.fw.boots = true ∧ ∀ cls ∈ [1, 2, 3], (bootSlot s.fw cls).isSome = true := by
  cases h with
  | untrained log ht => exact ⟨fun hp => (nomatch hp), fun hall => absurd hall.1 (by rw [ht]; decide)⟩
  | running log ht slot hslot => exact ⟨fun _ => ⟨ht, fun cls hc => by rw [hslot cls hc]; rfl⟩, fun _ => rfl⟩
  | failed log ht cls hcls hslot =>
    exact ⟨fun hp => (nomatch hp), fun hall => absurd (hall.2 cls hcls) (by rw [hslot]; decide)⟩

theorem Booted.running_slot (hp : u.power = .running) {cls : Nat} (hc : cls ∈ [1, 2, 3]) : get? u.fw.running cls = bootSlot s.fw cls := by
  cases h with
  | untrained => cases hp
  | failed => cases hp
  | running log ht slot hslot =>
    rw [hslot cls hc]
    simp only [List.mem_cons, List.not_mem_nil, or_false] at hc
    obtain rfl | rfl | rfl := hc <;> rfl

theorem Booted.device_zero (ht : Config.trains s.fw.boots = true) {a : Nat} (ha : a < 2 * 2 ^ 64) : memGet u.mem a = 0 := by
  have hz : memGet (zeroed s).mem a = 0 := (memGet_filter_outside s.mem a).trans (by rw [outside_eq_false ha]; rfl)
  cases h with
  | untrained log hf => rw [ht] at hf; cases hf
  | running => exact hz
  | failed => exact hz

theorem Booted.outside_kept {a : Nat} (ha : 2 * 2 ^ 64 ≤ a) : memGet u.mem a = memGet s.mem a := by
  have hz : memGet (zeroed s).mem a = memGet s.mem a := (memGet_filter_outside s.mem a).trans (if_pos (outside_eq_true ha))
  cases h with
  | untrained => rfl
  | running => exact hz
  | failed => exact hz

/-- An unowned module fails at class 1. -/
theorem Booted.rstat_of_unowned (hu : s.fw.owner = none) (ht : Config.trains s.fw.boots = true) : u.fw.rstat = 0x0102 := by
  cases h with
  | untrained log hf => rw [ht] at hf; cases hf
  | running log ht slot hslot => exact absurd (hslot 1 (by simp)) (by rw [bootSlot_of_unowned hu]; simp)
  | failed log ht cls hcls hslot hfirst =>
    have hle : ¬1 < cls := fun hlt => by
      have hsome := hfirst 1 (by simp) hlt
      rw [bootSlot_of_unowned hu] at hsome
      cases hsome
    have hone : cls = 1 := by
      simp only [List.mem_cons, List.not_mem_nil, or_false] at hcls
      omega
    subst hone
    change rstatOf (zeroed (tried s log)).fw 1 = 0x0102
    unfold rstatOf
    rw [show (zeroed (tried s log)).fw.owner = none from hu]
    rfl
end

/-! #### The sequence as a whole -/

theorem exec_powerUp (s : State) (h : s.power = .hallmark) : exec .powerUp s = .next (boot s) := by
  change execPowerUp s = _
  unfold execPowerUp
  rw [h]
theorem exec_powerOff (s : State) : exec .powerOff s = .next (atPowerOn s .off) := rfl
theorem exec_reboot (s : State) (hp : s.power ≠ .off) (hb : busy s = false) : exec .reboot s = .next (atPowerOn s .hallmark) :=
  if_neg (by simp [hp, hb])
theorem exec_clockStop (s : State) {n : Nat} (hs : s.stopAt = some n) :
    exec .clockStop s = if s.power = .running ∧ n ≤ now s then .next { s with power := .stopped, stopAt := none } else .next s := by
  change execClockStop s = _
  unfold execClockStop
  rw [hs]

/-- Settles O51: `Booted` says what one boot can do, and each clause on power-up reads it off; power-off and REBOOT both leave `atPowerOn`, whose
other fields are those of a state that has just been made. -/
theorem powerSequence : Obligations.PowerSequence := by
  unfold Obligations.PowerSequence
  intro passes cold
  have hcold : ∀ s p, cold s (atPowerOn s p) := fun s p =>
    ⟨rfl, rfl, rfl, rfl, rfl, rfl, rfl,
      fun a ha => (memGet_filter_outside s.mem a).trans (by rw [outside_eq_false ha]; rfl),
      fun a ha => (memGet_filter_outside s.mem a).trans (if_pos (outside_eq_true ha)),
      rfl, rfl, rfl, rfl, rfl, rfl, rfl, rfl⟩
  refine ⟨fun s hs => ⟨boot s, exec_powerUp s hs, ?_⟩, fun s => ⟨_, exec_powerOff s, rfl, hcold s _⟩,
    fun s hp hb => ⟨_, exec_reboot s hp hb, rfl, hcold s _⟩, fun s n hn hp => ⟨fun hle => ?_, fun hlt => ?_⟩⟩
  · have hb := boot_booted s
    refine ⟨hb.power, ?_, fun cls hc hr => ?_, fun ht a ha => hb.device_zero ht ha, fun a ha => hb.outside_kept ha, hb.rstat_of_unowned⟩
    · simpa only [bootSlot_isSome_iff] using hb.running_iff
    · obtain ⟨k, hk⟩ := Option.isSome_iff_exists.1 ((hb.running_iff.1 hr).2 cls hc)
      refine ⟨k, (hb.running_slot hr hc).trans hk, bootSlot_passes hk, fun ha => ?_⟩
      exact Option.some.inj (hk.symm.trans (bootSlot_active ha))
  · rw [exec_clockStop s hn, if_pos ⟨hp, hle⟩]
  · rw [exec_clockStop s hn, if_neg (by omega)]

end Sys2Proof.Machine
end

section
/-! ### Accesses of the host and of peers, their links, data errors, and code objects (R235, R252, R369, R373, R389-R400) -/
set_option Elab.async false
namespace Sys2Proof.Machine

/-! #### Bytes and values -/

theorem byteAt_succ (x i : Nat) : byteAt x (i + 1) = byteAt (x / 256) i := by
  unfold byteAt
  rw [show 8 * (i + 1) = 8 + 8 * i by omega, Nat.shiftRight_add, Nat.shiftRight_eq_div_pow x 8]

theorem toBytes_succ (n x : Nat) : toBytes (n + 1) x = byteAt x 0 :: toBytes n (x / 256) := by
  simp only [toBytes, List.range_succ_eq_map, List.map_cons, List.map_map]
  exact congrArg _ (List.map_congr_left fun i _ => byteAt_succ x i)

/-- A value of `n` bytes reads back from its bytes. -/
theorem ofBytes_toBytes (n x : Nat) : ofBytes (toBytes n x) = x % 2 ^ (8 * n) := by
  induction n generalizing x with
  | zero => simp [toBytes, ofBytes, Nat.mod_one]
  | succ n ih =>
    have hb : (byteAt x 0).toNat = x % 256 := by simp [byteAt]
    rw [toBytes_succ, ofBytes, ih, hb, show 2 ^ (8 * (n + 1)) = 256 * 2 ^ (8 * n) by rw [Nat.mul_succ, Nat.pow_add]; omega, Nat.mod_mul]

theorem ofBytes_lt (bs : List Byte) : ofBytes bs < 2 ^ (8 * bs.length) := by
  induction bs with
  | nil => simp [ofBytes]
  | cons b r ih =>
    have hb := b.isLt
    rw [ofBytes, List.length_cons, show 2 ^ (8 * (r.length + 1)) = 256 * 2 ^ (8 * r.length) by rw [Nat.mul_succ, Nat.pow_add]; omega]
    omega

theorem memRead_lt (m : Memory) (a n : Nat) : memRead m a n < 2 ^ (8 * n) := by
  simpa [memRead] using ofBytes_lt ((List.range n).map fun i => memGet m (a + i))

/-- A read of the bytes of a value. -/
theorem memRead_of_bytes {m : Memory} {a n x : Nat} (h : ∀ i, i < n → memGet m (a + i) = byteAt x i) : memRead m a n = x % 2 ^ (8 * n) := by
  rw [← ofBytes_toBytes]
  exact congrArg ofBytes (List.map_congr_left fun i hi => h i (List.mem_range.1 hi))

/-! #### An access at its home -/

theorem allExist_eq_true {s : State} {a n : Nat} (h : ∀ i, i < n → exists? s (a + i) = true) : allExist s a n = true :=
  List.all_eq_true.2 fun i hi => h i (List.mem_range.1 hi)
theorem allExist_eq_false {s : State} {a n : Nat} (hn : 0 < n) (h : exists? s a = false) : allExist s a n = false := by
  rw [Bool.eq_false_iff]
  exact fun hall => absurd (List.all_eq_true.1 hall 0 (List.mem_range.2 hn)) (by rw [Nat.add_zero, h]; decide)

theorem readPlace_off (s : State) (a n : Nat) : readPlace s (.off a true) n = memRead s.mem a n := rfl

theorem memGet_writePlace_off (s : State) (a : Nat) (bs : List Byte) (k : Nat) :
    memGet (writePlace s (.off a true) bs).mem k = if a ≤ k ∧ k < a + bs.length then bs.getD (k - a) 0 else memGet s.mem k :=
  getByte_writePlace_off s a bs k

theorem writePlace_off_ctxs (s : State) (a : Nat) (bs : List Byte) : (writePlace s (.off a true) bs).ctxs = s.ctxs :=
  bytewise_off.writeBytes_keeps (part := State.ctxs) (fun _ _ _ => rfl) s a bs

theorem memRead_writePlace_off (s : State) (a n x : Nat) : memRead (writePlace s (.off a true) (toBytes n x)).mem a n = x % 2 ^ (8 * n) := by
  refine memRead_of_bytes fun i hi => ?_
  have hlen : (toBytes n x).length = n := by simp [toBytes]
  rw [memGet_writePlace_off, if_pos (by omega), Nat.add_sub_cancel_left]
  simp [toBytes, hi]

/-- An integer atomic add of 32 bits stores the sum, whatever the type field says. -/
theorem extAccess_atomicAdd (s : State) (a : Nat) (d : Word) (c : Nat) :
    extAccess s a (.atomic 0 false .f32 d.toNat c) =
      (writePlace s (.off a true) (toBytes 4 ((memRead s.mem a 4 + d.toNat) % 2 ^ 32)), toBytes 4 (memRead s.mem a 4)) := by
  have hd : d.toNat % 2 ^ (8 * 4) = d.toNat := Nat.mod_eq_of_lt d.isLt
  change (writePlace s (.off a true) (toBytes 4 ((memRead s.mem a 4 + d.toNat % 2 ^ (8 * 4)) % 2 ^ 32)), _) = _
  rw [hd]
  rfl

/-- The instruction performs its access at an address that exists, with the bytes it answers where `data` looks, and stops where none does. -/
structure OutsideAccess (I : ExtOp → Instr) (s : State) (a : Nat) (data : State → List Byte) : Prop where
  performs : ∀ op, allExist s a (extLen op) = true → ∃ u, exec (I op) s = .next u ∧ data u = (extAccess s a op).2 ∧
    u.mem = (extAccess s a op).1.mem ∧ u.cores = (extAccess s a op).1.cores ∧ u.ctxs = (extAccess s a op).1.ctxs
  absent : ∀ op, allExist s a (extLen op) = false → exec (I op) s = .fault .noSuchMemory

section
variable {I : ExtOp → Instr} {s : State} {a : Nat} {data : State → List Byte} (h : OutsideAccess I s a data)
include h

theorem OutsideAccess.read (n : Nat) (hn : ∀ i, i < n → exists? s (a + i) = true) :
    ∃ u, exec (I (.read n)) s = .next u ∧ u.mem = s.mem ∧ u.cores = s.cores ∧ ofBytes (data u) = memRead s.mem a n := by
  obtain ⟨u, hu, hdata, hmem, hcores, -⟩ := h.performs (.read n) (allExist_eq_true hn)
  refine ⟨u, hu, hmem, hcores, ?_⟩
  rw [hdata]
  exact (ofBytes_toBytes n _).trans (Nat.mod_eq_of_lt (memRead_lt s.mem a n))

theorem OutsideAccess.write (bs : List Byte) (hn : ∀ i, i < bs.length → exists? s (a + i) = true) :
    ∃ u, exec (I (.write bs)) s = .next u ∧ data u = [] ∧ u.cores = s.cores ∧ u.ctxs = s.ctxs ∧
      ∀ k, memGet u.mem k = if a ≤ k ∧ k < a + bs.length then bs.getD (k - a) 0 else memGet s.mem k := by
  obtain ⟨u, hu, hdata, hmem, hcores, hctxs⟩ := h.performs (.write bs) (allExist_eq_true hn)
  refine ⟨u, hu, hdata, hcores.trans (writePlace_off_scratchpads s a bs).1, hctxs.trans (writePlace_off_ctxs s a bs), fun k => ?_⟩
  rw [hmem]
  exact memGet_writePlace_off s a bs k

theorem OutsideAccess.atomicAdd (d : Word) (c : Nat) (hn : ∀ i, i < 4 → exists? s (a + i) = true) :
    ∃ u, exec (I (.atomic 0 false .f32 d.toNat c)) s = .next u ∧ ofBytes (data u) = memRead s.mem a 4 ∧
      memRead u.mem a 4 = (memRead s.mem a 4 + d.toNat) % 2 ^ 32 ∧ ∀ k, k < a ∨ a + 4 ≤ k → memGet u.mem k = memGet s.mem k := by
  obtain ⟨u, hu, hdata, hmem, -, -⟩ := h.performs (.atomic 0 false .f32 d.toNat c) (allExist_eq_true hn)
  rw [extAccess_atomicAdd] at hdata hmem
  refine ⟨u, hu, ?_, ?_, fun k hk => ?_⟩
  · rw [hdata, ofBytes_toBytes]
    exact Nat.mod_eq_of_lt (memRead_lt s.mem a 4)
  · rw [hmem, memRead_writePlace_off]
    exact Nat.mod_mod _ _
  · rw [hmem, memGet_writePlace_off]
    exact if_neg (by simp only [toBytes, List.length_map, List.length_range]; omega)

theorem OutsideAccess.stops (n : Nat) (hn : 0 < n) (he : exists? s a = false) : exec (I (.read n)) s = .fault .noSuchMemory :=
  h.absent (.read n) (allExist_eq_false hn he)
end

/-! #### Accesses of the host and of peers -/

theorem tierOf_lt {a n : Nat} (h : a < n * 2 ^ 64) : tierOf a < n := Nat.div_lt_of_lt_mul (by omega)

/-- No BAR lies in the tiers of memory (log entry 113). -/
theorem isBar_eq_false {a : Nat} (h : tierOf a < 3) : isBar a = false := by
  unfold isBar barMailbox barWindows
  exact decide_eq_false (by omega)

theorem hostAccess_outside {s : State} (hp : s.power = .running) {a : Nat} (ha : a < 3 * 2 ^ 64) :
    OutsideAccess (.hostAccess a) s a (·.hostData) := by
  have htier := tierOf_lt ha
  have hexec : ∀ op, exec (.hostAccess a op) s = if tierOf a < 3 ∧ allExist s a (extLen op) = true then
      .next { (extAccess s a op).1 with hostData := (extAccess s a op).2, hostUr := false } else .fault .noSuchMemory := by
    intro op
    change execHostAccess a op s = _
    unfold execHostAccess
    rw [isBar_eq_false htier, if_neg Bool.false_ne_true, if_neg (by simp [hp])]
  exact ⟨fun op he => ⟨_, (hexec op).trans (if_pos ⟨htier, he⟩), rfl, rfl, rfl, rfl⟩,
    fun op he => (hexec op).trans (if_neg (by simp [he]))⟩

/-- Before the module runs, device memory is out of the host's reach (R389). -/
theorem hostAccess_recovery {s : State} (hp : s.power = .recovery) {a : Nat} (ha : a < 2 * 2 ^ 64) (op : ExtOp) :
    exec (.hostAccess a op) s = .next (unsupported s) := by
  have htier := tierOf_lt ha
  change execHostAccess a op s = _
  unfold execHostAccess
  rw [isBar_eq_false (by omega), if_neg Bool.false_ne_true, if_pos ⟨htier, by simp [hp]⟩, if_pos (.inr hp)]

theorem peerAccess_outside {s : State} (hp : s.power = .running) {p : Nat} (hr : rget [] s.routes p ≠ []) {a : Nat} (ha : a < 2 * 2 ^ 64) :
    OutsideAccess (.peerAccess p a) s a (·.peerData) := by
  have htier := tierOf_lt ha
  have hexec : ∀ op, exec (.peerAccess p a op) s = if tierOf a < 2 ∧ allExist s a (extLen op) = true then
      .next { (extAccess s a op).1 with peerData := (extAccess s a op).2 } else .fault .noSuchMemory := by
    intro op
    change execPeerAccess p a op s = _
    unfold execPeerAccess
    rw [if_neg (by simp [hp, hr])]
  exact ⟨fun op he => ⟨_, (hexec op).trans (if_pos ⟨htier, he⟩), rfl, rfl, rfl, rfl⟩,
    fun op he => (hexec op).trans (if_neg (by simp [he]))⟩

/-- A function's writes to the page of a context that it does not own are ignored (R391). -/
theorem hostAccess_write_unowned {s : State} (hp : s.power = .running) {f o : Nat} (hf : f ≤ s.vfs) (hf32 : f ≤ 32) (ho : o < 2 ^ 64)
    (hx : hasCtx s (o / 4096) = false ∨ ctxField s (o / 4096) 358 6 ≠ f) (bs : List Byte) :
    exec (.hostAccess ((128 + f) * 2 ^ 64 + o) (.write bs)) s = .next s := by
  have htier : tierOf ((128 + f) * 2 ^ 64 + o) = 128 + f := by unfold tierOf; omega
  have hoff : offOf ((128 + f) * 2 ^ 64 + o) = o := by unfold offOf; omega
  have hbar : isBar ((128 + f) * 2 ^ 64 + o) = true := by
    unfold isBar barMailbox barWindows
    rw [htier]
    exact decide_eq_true (by omega)
  have hwindow : windowAccess s f o (.write bs) = .next s := by
    unfold windowAccess
    exact if_pos (by simpa using hx)
  change execHostAccess _ _ s = _
  unfold execHostAccess barAccess
  rw [hbar, if_pos rfl, htier, hoff, hp]
  unfold barMailbox barWindows
  rw [if_neg (by omega)]
  dsimp only
  rw [if_neg (by omega), Nat.add_sub_cancel_left, hwindow]

/-! #### Routes to peers (R400) -/

theorem minus_singleton (l : List Nat) (k : Nat) : minus l [k] = l.filter fun j => decide (j ≠ k) := by
  refine List.filter_congr fun j _ => ?_
  by_cases h : j = k <;> simp [h]

theorem get?_map_snd {β γ : Type} (f : β → γ) (m : SMap β) (n : Nat) : get? (m.map fun (k, x) => (k, f x)) n = (get? m n).map f := by
  induction m with
  | nil => rfl
  | cons q r ih =>
    obtain ⟨k, x⟩ := q
    simp only [List.map_cons, get?]
    split
    · rfl
    · exact ih

/-- The routes without a link name it nowhere. -/
theorem not_mem_rget_cutRoutes (m : SMap (List Nat)) (k p : Nat) : k ∉ rget [] (m.map fun (q, l) => (q, minus l [k])) p := by
  unfold rget
  rw [get?_map_snd (fun l => minus l [k])]
  cases get? m p with
  | none => simp
  | some l => simp [minus]

@[simp] theorem loseLanes_routes (s : State) (c : Nat) (p : Pend) (lost : List PLane) : (loseLanes s c p lost).routes = s.routes := by
  unfold loseLanes
  split
  · rfl
  · split <;> rfl
@[simp] theorem losePends_routes (c peer : Nat) (l : List Pend) (s : State) : (losePends c peer l s).routes = s.routes := by
  induction l generalizing s with
  | nil => rfl
  | cons p r ih =>
    rw [losePends, ih]
    split
    · rfl
    · exact loseLanes_routes ..
@[simp] theorem takeTrap_routes (s : State) (c sel : Nat) (items : List (Nat × TrapInfo)) : (takeTrap s c sel items).routes = s.routes := by
  unfold takeTrap
  split <;> rfl
@[simp] theorem trapLost_routes (c : Nat) (l : List ((Nat × Word64) × (Nat × TrapInfo))) (s : State) : (trapLost c l s).routes = s.routes :=
  List.foldlRecOn (motive := fun t : State => t.routes = s.routes) _ _ rfl fun _ ht _ _ => (takeTrap_routes ..).trans ht
@[simp] theorem losePeer_routes (peer : Nat) (s : State) (c : Nat) : (losePeer peer s c).routes = s.routes := by simp [losePeer]
/-- The traffic that a failed link takes with it leaves the routes. -/
@[simp] theorem losePeers_routes (l : List Nat) (s : State) : (losePeers l s).routes = s.routes := by
  induction l generalizing s with
  | nil => rfl
  | cons p r ih =>
    rw [losePeers, ih]
    exact List.foldlRecOn (motive := fun t : State => t.routes = s.routes) _ _ rfl fun _ ht _ _ => (losePeer_routes ..).trans ht

theorem peerLinkFail_stopped {s : State} (hp : s.power = .stopped) (k : Nat) : exec (.peerLinkFail k) s = .next s := if_pos hp

/-- The link leaves every route; where a route is left to every peer that had one, no traffic is lost. -/
theorem peerLinkFail_rerouted {s : State} (hp : s.power ≠ .stopped) {k : Nat} (hr : ∀ y ∈ s.routes, y.2 ≠ [] → ∃ j ∈ y.2, j ≠ k) :
    exec (.peerLinkFail k) s = .next { s with
      routes := s.routes.map fun (p, l) => (p, l.filter fun j => decide (j ≠ k)), failedLinks := insertSlot s.failedLinks k } := by
  have hcut : (s.routes.filter fun (_, l) => decide (minus l [k] = []) && !l.isEmpty) = [] := by
    refine List.filter_eq_nil_iff.2 fun y hy hdec => ?_
    simp only [Bool.and_eq_true, decide_eq_true_eq, Bool.not_eq_true', List.isEmpty_eq_false_iff] at hdec
    obtain ⟨j, hj, hne⟩ := hr y hy hdec.2
    exact List.not_mem_nil (hdec.1 ▸ (mem_minus ..).2 ⟨hj, by simpa using hne⟩)
  change execPeerLinkFail k s = _
  unfold execPeerLinkFail
  rw [hcut]
  simp only [if_neg hp, List.map_nil, losePeers, minus_singleton]

theorem peerLinkFail_leaves_routes {s : State} (hp : s.power ≠ .stopped) (k : Nat) :
    ∃ u, exec (.peerLinkFail k) s = .next u ∧ ∀ p, k ∉ rget [] u.routes p := by
  refine ⟨_, if_neg hp, fun p => ?_⟩
  rw [losePeers_routes]
  exact not_mem_rget_cutRoutes s.routes k p

theorem routeRestore_sets {s : State} {p : Nat} {ls : List Nat} (hp : p < 64) (hr : rget [] s.routes p = []) (hl : ∃ k ∈ ls, k < 12) :
    ∃ u, exec (.routeRestore p ls) s = .next u ∧ (∀ k, k ∈ rget [] u.routes p ↔ k ∈ ls ∧ k < 12) ∧
      (∀ q, q ≠ p → rget [] u.routes q = rget [] s.routes q) ∧ u.mem = s.mem := by
  have hmem : ∀ k, k ∈ unionSlots [] (ls.filter fun k => decide (k < 12)) ↔ k ∈ ls ∧ k < 12 := fun k => by simp [mem_unionSlots]
  have hne : unionSlots [] (ls.filter fun k => decide (k < 12)) ≠ [] := by
    obtain ⟨k, hk⟩ := hl
    exact List.ne_nil_of_mem ((hmem k).2 hk)
  refine ⟨_, if_neg ?_, fun k => ?_, fun q hq => ?_, rfl⟩
  · rintro (h | h | h)
    · omega
    · exact hne h
    · rw [hr] at h; cases h
  · unfold rget
    rw [get?_put_self]
    exact hmem k
  · unfold rget
    rw [get?_put_ne _ _ hq]

/-! #### Data errors and configuration (R231, R389, R391, R397) -/

theorem poisonAt_granule (s : State) (g : Nat) : poisonAt s (.off (g * 64) true) 64 = { s with poison := insertSlot s.poison g } := by
  have hfirst : g * 64 / 64 = g := by omega
  have hcount : (g * 64 + 64 - 1) / 64 - g + 1 = 1 := by omega
  simp only [poisonAt, hfirst, hcount]
  rfl

theorem checkCodeError_offChip {s : State} {a : Nat} (ha : a < 2 * 2 ^ 64) (he : exists? s a = true) :
    exec (.checkCodeError a false) s = .next { s with poison := insertSlot s.poison (a / 64) } := by
  have htier := tierOf_lt ha
  change Host.Outcome.next (poisonFlat s a) = _
  unfold poisonFlat
  dsimp only
  split
  · omega
  · omega
  · omega
  · rw [if_pos he, poisonAt_granule]

theorem pcieConfigWrite_allocation {s : State} {f : Nat} (hf : f ≤ 32) (hp : f = 0 ∨ s.power = .running) (n : Nat) :
    exec (.pcieConfigWrite (.allocation f n)) s = .next { s with pageAlloc := rput 0 s.pageAlloc f n } := by
  change Host.Outcome.next (if _ then _ else if _ then _ else _) = _
  have hreach : ¬(f ≠ 0 ∧ (s.power = .hallmark ∨ s.power = .recovery)) := by
    rintro ⟨hne, hbad⟩
    obtain h0 | hrun := hp
    · exact hne h0
    · simp [hrun] at hbad
  rw [if_neg hreach, if_pos hf]

theorem pcieConfigWrite_allocation_recovery {s : State} {f : Nat} (hf : f ≠ 0) (hp : s.power = .recovery) (n : Nat) :
    exec (.pcieConfigWrite (.allocation f n)) s = .next (unsupported s) := by
  change Host.Outcome.next (if _ then _ else _) = _
  rw [if_pos ⟨hf, .inr hp⟩]

theorem pcieConfigWrite_sriov (s : State) {n : Nat} (hn : n ≤ 32) :
    exec (.pcieConfigWrite (.sriov n)) s = .next (if s.power = .running then { s with vfs := n } else s) := by
  change Host.Outcome.next (if s.power = .running ∧ n ≤ 32 then _ else _) = _
  simp only [hn, and_true]

/-! #### Code objects (R369, R373) -/

@[simp] theorem cleanLine_ctxs (s : State) (line : Nat) (keep : Bool) : (cleanLine s line keep).ctxs = s.ctxs := by
  unfold cleanLine
  split <;> rfl
/-- The host writes memory through a context's pages, and leaves the contexts. -/
@[simp] theorem hostWriteVA_ctxs (s : State) (x va : Nat) (bs : List Byte) : (hostWriteVA s x va bs).ctxs = s.ctxs := by
  induction bs generalizing s va with
  | nil => rfl
  | cons b r ih =>
    rw [hostWriteVA, ih]
    split
    · exact cleanLine_ctxs ..
    · rfl

theorem hasCtx_updCtx (s : State) (x y : Nat) (f : Context → Context) : hasCtx (updCtx s x f) y = hasCtx s y := by
  unfold hasCtx updCtx
  rw [get?_modify]
  split
  · next h => subst h; exact Option.isSome_map
  · rfl

theorem hasCtx_unbindEntry (s : State) (x lo n va y : Nat) : hasCtx (unbindEntry s x lo n va) y = hasCtx s y := by
  unfold unbindEntry
  split
  · exact hasCtx_updCtx ..
  · dsimp only
    split
    · unfold hasCtx; rw [hostWriteVA_ctxs]
    · rfl

theorem ctxOf_updCtx_self {s : State} {x : Nat} (h : hasCtx s x = true) (f : Context → Context) : ctxOf (updCtx s x f) x = f (ctxOf s x) := by
  rw [ctxOf_updCtx, if_pos rfl]
  exact if_pos h

theorem hasCtx_of_objs {s : State} {x : Nat} (h : (ctxOf s x).objs ≠ []) : hasCtx s x = true := by
  unfold ctxOf at h
  unfold hasCtx
  cases hx : get? s.ctxs x with
  | none => rw [hx] at h; exact absurd rfl h
  | some k => rfl

/-- Entries go to consecutive indices of the directory. -/
theorem putFns_dir (x : Context) (i : Nat) (es : List (BitVec 256)) (k : Nat) :
    get? (putFns x i es).dir k = if i ≤ k ∧ k < i + es.length then es[k - i]? else get? x.dir k := by
  induction es generalizing x i with
  | nil => exact (if_neg (by simp)).symm
  | cons e r ih =>
    rw [putFns, ih, List.length_cons]
    dsimp only
    rw [get?_put]
    by_cases hk : k = i
    · subst hk
      rw [if_neg (by omega), if_pos rfl, if_pos (by omega), Nat.sub_self]
      rfl
    · by_cases hin : i + 1 ≤ k ∧ k < i + 1 + r.length
      · rw [if_pos hin, if_pos (by omega), show k - i = k - (i + 1) + 1 by omega]
        rfl
      · rw [if_neg hin, if_neg hk, if_neg (by omega)]

theorem codeObjectLoad_rejected {s : State} {x base st k : Nat} {bs : List Byte} (hx : hasCtx s x = true)
    (hl : loadObject s x base bs = .error (st, k)) :
    exec (.codeObjectLoad x base bs) s = .next { s with hostData := toBytes 4 st ++ toBytes 4 k } := by
  change execCodeObjectLoad x base bs s = _
  unfold execCodeObjectLoad
  rw [hx, hl]
  rfl

theorem putFns_dir_in (x : Context) (i : Nat) {es : List (BitVec 256)} {k : Nat} {e : BitVec 256} (he : es[k]? = some e) :
    get? (putFns x i es).dir (i + k) = some e := by
  obtain ⟨hlt, -⟩ := List.getElem?_eq_some_iff.1 he
  rw [putFns_dir, if_pos (by omega), Nat.add_sub_cancel_left, he]
theorem putFns_dir_out (x : Context) {i k : Nat} {es : List (BitVec 256)} (h : k < i ∨ i + es.length ≤ k) :
    get? (putFns x i es).dir k = get? x.dir k := by
  rw [putFns_dir, if_neg (by omega)]

/-- The accepted object is there whole: itself, its entries of the directory, and the report. -/
theorem codeObjectLoad_accepted {s : State} {x base : Nat} {bs : List Byte} (hx : hasCtx s x = true) {o : CodeObj} {img seg : List Byte}
    {es : List (BitVec 256)} (hl : loadObject s x base bs = .ok (o, img, seg, es)) :
    ∃ u, exec (.codeObjectLoad x base bs) s = .next u ∧
      (ctxOf u x).objs = (ctxOf s x).objs ++ [o] ∧ (∀ k e, es[k]? = some e → get? (ctxOf u x).dir (o.fbase + k) = some e) ∧
      (∀ k, (k < o.fbase ∨ o.fbase + es.length ≤ k) → get? (ctxOf u x).dir k = get? (ctxOf s x).dir k) ∧
      u.hostData = toBytes 4 0 ++ toBytes 4 o.fbase := by
  let t := hostWriteVA (hostWriteVA s x o.base img) x o.seg seg
  let u := report (updCtx t x fun x => { putFns x o.fbase es with objs := x.objs ++ [o] }) 0 o.fbase
  have hctxs : t.ctxs = s.ctxs := by rw [hostWriteVA_ctxs, hostWriteVA_ctxs]
  have hctx : ctxOf u x = { putFns (ctxOf s x) o.fbase es with objs := (ctxOf s x).objs ++ [o] } := by
    refine (ctxOf_updCtx_self (by unfold hasCtx; rw [hctxs]; exact hx) _).trans ?_
    unfold ctxOf
    rw [hctxs]
  have hexec : exec (.codeObjectLoad x base bs) s = .next u := by
    change execCodeObjectLoad x base bs s = _
    unfold execCodeObjectLoad
    rw [hx, hl]
    rfl
  refine ⟨u, hexec, by rw [hctx], fun k e he => ?_, fun k hk => ?_, rfl⟩
  · rw [hctx]
    exact putFns_dir_in _ _ he
  · rw [hctx]
    exact putFns_dir_out _ hk

theorem codeObjectUnload_inUse {s : State} {x f : Nat} {o : CodeObj} (ho : (ctxOf s x).objs.find? (fun o => decide (o.fbase = f)) = some o)
    (hu : inUse s x o = true) : exec (.codeObjectUnload x f) s = .next { s with hostData := toBytes 4 1 ++ toBytes 4 0 } := by
  change execCodeObjectUnload x f s = _
  unfold execCodeObjectUnload
  rw [ho]
  exact if_pos hu

/-- The bindings to an object's functions in the tables of the context's other objects are taken back. -/
def unbound (s : State) (x : Nat) (o : CodeObj) (f : Nat) : State :=
  (((ctxOf s x).objs.filter fun q => decide (q.fbase ≠ f)).flatMap fun q => q.tables.map (·.1)).foldl
    (fun s va => unbindEntry s x o.fbase o.nfn va) s
/-- A context without the objects of a function base: no entry of the directory and no binding of theirs is left. -/
def withoutObj (o : CodeObj) (f : Nat) (k : Context) : Context :=
  { delFns k o with
    objs := k.objs.filter fun q => decide (q.fbase ≠ f), unbinds := k.unbinds.filter fun y => !(o.tables.map (·.1)).contains y.1 }

theorem hasCtx_unbound {s : State} {x : Nat} (hx : hasCtx s x = true) (o : CodeObj) (f : Nat) : hasCtx (unbound s x o f) x = true :=
  List.foldlRecOn (motive := fun t : State => hasCtx t x = true) _ _ hx fun _ ht _ _ => (hasCtx_unbindEntry ..).trans ht
theorem withoutObj_objs {o : CodeObj} {f : Nat} {k : Context} {q : CodeObj} (hq : q ∈ (withoutObj o f k).objs) : q.fbase ≠ f :=
  of_decide_eq_true (List.mem_filter.1 hq).2
theorem withoutObj_dir {o : CodeObj} {n : Nat} (hlo : o.fbase ≤ n) (hhi : n < o.fbase + o.nfn) (f : Nat) (k : Context) :
    get? (withoutObj o f k).dir n = none :=
  (get?_filter_key (fun i => decide (i < o.fbase ∨ o.fbase + o.nfn ≤ i)) k.dir n).trans (if_neg (by simp only [decide_eq_true_eq]; omega))

/-- An unused object goes, with its entries of the directory. -/
theorem codeObjectUnload_unused {s : State} {x f : Nat} {o : CodeObj} (ho : (ctxOf s x).objs.find? (fun o => decide (o.fbase = f)) = some o)
    (hu : inUse s x o = false) :
    ∃ u, exec (.codeObjectUnload x f) s = .next u ∧ (∀ q ∈ (ctxOf u x).objs, q.fbase ≠ f) ∧
      ∀ k, f ≤ k → k < f + o.nfn → get? (ctxOf u x).dir k = none := by
  have hbase : o.fbase = f := by simpa using List.find?_some ho
  have hx : hasCtx s x = true := hasCtx_of_objs (List.ne_nil_of_mem (List.mem_of_find?_eq_some ho))
  have hexec : exec (.codeObjectUnload x f) s = .next (report (updCtx (unbound s x o f) x (withoutObj o f)) 0 0) := by
    change execCodeObjectUnload x f s = _
    unfold execCodeObjectUnload
    rw [ho]
    exact if_neg (by rw [hu]; decide)
  have hctx : ctxOf (report (updCtx (unbound s x o f) x (withoutObj o f)) 0 0) x = withoutObj o f (ctxOf (unbound s x o f) x) :=
    ctxOf_updCtx_self (hasCtx_unbound hx o f) _
  refine ⟨_, hexec, fun q hq => ?_, fun k hlo hhi => ?_⟩
  · rw [hctx] at hq
    exact withoutObj_objs hq
  · rw [hctx]
    exact withoutObj_dir (by omega) (by omega) f _

/-- Settles O54: an access of the host and one of a peer are one operation at the home (`OutsideAccess`), and each clause on them is a lemma about
it; the other clauses are one lemma for each instruction. -/
theorem outsideAccessesAndObjects : Obligations.OutsideAccessesAndObjects := by
  unfold Obligations.OutsideAccessesAndObjects
  intro there acts
  have hacts : ∀ {I s a data}, OutsideAccess I s a data → acts I s a data := fun h => ⟨h.read, h.write, h.atomicAdd, h.stops⟩
  exact ⟨fun s a hp ha => hacts (hostAccess_outside hp ha),
    fun s a op hp ha => ⟨_, hostAccess_recovery hp ha op, rfl, rfl, rfl⟩,
    fun s p a hp hr ha => hacts (peerAccess_outside hp hr ha),
    fun s p ls hp hr hl => routeRestore_sets hp hr hl,
    fun s k hp => peerLinkFail_stopped hp k,
    fun s k hp hr => peerLinkFail_rerouted hp hr,
    fun s k hp => peerLinkFail_leaves_routes hp k,
    fun s a => rfl,
    fun s a ha he => checkCodeError_offChip ha he,
    fun s f n hf hp => pcieConfigWrite_allocation hf hp n,
    fun s f n hf hp => ⟨_, pcieConfigWrite_allocation_recovery hf hp n, rfl, rfl⟩,
    fun s f o bs hp hf hf32 ho hx => hostAccess_write_unowned hp hf hf32 ho hx bs,
    fun s on => rfl,
    fun s n hn => pcieConfigWrite_sriov s hn,
    fun s x base bs hx => ⟨fun st k hl => codeObjectLoad_rejected hx hl, fun o img seg es hl => codeObjectLoad_accepted hx hl⟩,
    fun s x f o ho => ⟨codeObjectUnload_inUse ho, codeObjectUnload_unused ho⟩⟩

end Sys2Proof.Machine
end

section
/-! ### Moment words: moves, arithmetic and collapse (R152, R153, R157, R158, R162-R170)

A moment word is one lane shape (`runM_computes`, `planes_of`). What a word computes from its values is the model's by definition, but for
the reading of a variance image (R152), which needs that a 32-bit source gives 32 bits. -/
set_option Elab.async false
namespace Sys2Proof.Machine

/-! #### Source values of a moment word -/

/-- The first field gives the first value, of 32 bits where it is a 32-bit source (R100, R159); the other fields give the rest. -/
theorem readMFields_cons {e : Env} {i : Nat} {t : Thread} {a : MField} {r : List MField} {vs : List Nat}
    (h : readMFields e i t (a :: r) = .ok vs) :
    ∃ y us, vs = y :: us ∧ readMFields e i t r = .ok us ∧ ∀ x, a = .s x → y < 2 ^ 32 := by
  unfold readMFields at h
  cases hs : readMFields e i t r with
  | error b => cases a <;> simp only [hs, bind, Except.bind] at h <;> split at h <;> cases h
  | ok us =>
    cases a with
    | m x =>
      cases hx : readMSrc e i t x with
      | error b => simp only [hx] at h; cases h
      | ok y => simp only [hx, hs] at h; cases h; exact ⟨y, us, rfl, rfl, nofun⟩
    | s x =>
      cases hx : readSrc e i t x false with
      | error b => simp only [hx] at h; cases h
      | ok v =>
        simp only [hx, hs] at h
        cases h
        exact ⟨v.x, us, rfl, rfl, fun _ _ => readSrc_lt hx⟩

/-- Every 32-bit source of a moment word gives a value of 32 bits. -/
theorem readMFields_source_lt {e : Env} {i : Nat} {t : Thread} {l : List MField} {vs : List Nat} (h : readMFields e i t l = .ok vs)
    {n : Nat} {x : Src} (hn : l[n]? = some (.s x)) : arg vs n < 2 ^ 32 := by
  induction l generalizing vs n with
  | nil => cases hn
  | cons a r ih =>
    obtain ⟨y, us, rfl, hus, hy⟩ := readMFields_cons h
    cases n with
    | zero => exact hy x (Option.some.inj hn)
    | succ n => exact ih hus hn

/-- Lanes that agree on the values their sources can take. -/
theorem momentOf_congr {x : MWord} {f f' : Thread → List Nat → L (Nat × Thread)}
    (h : ∀ e k vs, readMFields e k (e.thread k) x.srcs = .ok vs → f (e.thread k) vs = f' (e.thread k) vs) : momentOf x f = momentOf x f' := by
  funext e k
  unfold momentOf
  cases hr : readMFields e k (e.thread k) x.srcs with
  | error b => rfl
  | ok vs => simp only [h e k vs hr]

/-- A moment word whose result is `val` on values of its sources' widths. -/
theorem moment_of {i : Instr} {x : MWord} {f val : Thread → List Nat → L (Nat × Thread)} (hx : ∀ s, exec i s = runM s x f)
    (hv : ∀ t vs, (∀ n y, x.srcs[n]? = some (.s y) → arg vs n < 2 ^ 32) → f t vs = val t vs) : Computes i x.spec (momentOf x val) :=
  computes_congr (runM_computes hx) (momentOf_congr fun _ _ vs h => hv _ vs fun _ _ hn => readMFields_source_lt h hn)

/-! #### Variance images (R152) -/

theorem negImage_iff {v : Nat} (h : v < 2 ^ 32) : negImage v = true ↔ 2 ^ 31 < v := by
  rw [negImage, Nat.mod_eq_of_lt h, decide_eq_true_iff]
/-- An image that is not negative is -0, read as +0, or has its sign bit 0. -/
theorem unsigned_of_not_negative {v : Nat} (h : ¬ 2 ^ 31 < v) : (if v = 2 ^ 31 then 0 else v) = v % 2 ^ 31 := by
  split <;> omega
/-- Reading -0 as +0 leaves the exponent field. -/
theorem expField_varOf (x : Nat) : expField fp32 (varOf x) = x / 2 ^ 32 % 2 ^ 32 / 2 ^ 23 % 256 := by
  show varOf x / 2 ^ 23 % 256 = _
  unfold varOf
  dsimp only
  split <;> omega
theorem expField_meanOf (x : Nat) : expField fp32 (meanOf x) = x % 2 ^ 32 / 2 ^ 23 % 256 := rfl

/-! #### The words -/

/-- MSET: the variance source is checked and written without its sign (R152, R162). -/
theorem mset_computes (g : Guard) (m : Nat) (a b : Src) :
    Computes (.mset g m a b) (MWord.spec { g := g, d := .m m, srcs := [.s a, .s b] })
      (momentOf { g := g, d := .m m, srcs := [.s a, .s b] } fun t vs =>
        if 2 ^ 31 < arg vs 1 then .error (.trap cNegvar vs 0 0 false)
        else .ok (arg vs 0 + 2 ^ 32 * (arg vs 1 % 2 ^ 31), t.flags 0)) := by
  refine moment_of (fun _ => rfl) fun t vs hlt => ?_
  have hneg := negImage_iff (hlt 1 b rfl)
  by_cases h : 2 ^ 31 < arg vs 1
  · rw [if_pos (hneg.2 h), if_pos h]
    rfl
  · rw [if_neg (mt hneg.1 h), if_neg h, unsigned_of_not_negative h]

/-- MCHK: a plane is finite when its exponent field is not all ones; the source is checked first (R169). -/
theorem mchk_computes (g : Guard) (p : Nat) (a : MSrc) :
    Computes (.mchk g p a) (MWord.spec { g := g, d := .p p, srcs := [.m a] })
      (momentOf { g := g, d := .p p, srcs := [.m a] } fun t vs =>
        if negVar (arg vs 0) then .error (.trap cNegvar vs 0 0 false)
        else
          let finite := fun (x : Nat) => decide (x / 2 ^ 23 % 256 ≠ 255)
          .ok (if finite (arg vs 0 % 2 ^ 32) ∧ finite (arg vs 0 / 2 ^ 32 % 2 ^ 32) then 1 else 0, t.flags 0)) := by
  refine moment_of (fun _ => rfl) fun t vs _ => ?_
  simp only [expField_varOf, expField_meanOf, encBool, decide_eq_true_eq, trapL]

/-- Settles O14: each word is one lane of the shape of moment words; MSET and MCHK rest on the reading of variance images, and the moves are
the model's by definition. -/
theorem momentMoveResults : Obligations.MomentMoveResults :=
  ⟨mset_computes, fun _ _ _ => runM_computes fun _ => rfl, fun _ _ _ => runM_computes fun _ => rfl,
    fun _ _ _ => runM_computes fun _ => rfl, fun _ _ => runM_computes fun _ => rfl, mchk_computes⟩

/-- Settles O15: each word is one lane of two planes, checked and fixed as R152 and R153 say, and the model's planes (`addPlanes`, `mulTerms`)
unfold to the terms of R163. -/
theorem momentArithmeticResults : Obligations.MomentArithmeticResults :=
  ⟨fun _ _ _ _ o => planes_of (f := addPlanes false o) fun _ => rfl, fun _ _ _ _ o => planes_of (f := addPlanes true o) fun _ => rfl,
    fun _ _ _ _ _ => planes_of fun _ => rfl, fun _ _ _ _ _ _ => planes_of fun _ => rfl, fun _ _ _ _ => planes_of fun _ => rfl,
    fun _ _ _ => planes_of fun _ => rfl, fun _ _ _ => planes_of fun _ => rfl, fun _ _ _ => planes_of fun _ => rfl⟩

/-- Settles O16: the word checks its source (R152), and gives the value of R168 for its mode. -/
theorem momentCollapseResults : Obligations.MomentCollapseResults := by
  intro g d a mode
  cases mode <;> exact runM_computes fun _ => rfl

end Sys2Proof.Machine
end
